-- ==== Sys2Proof/Word.lean ====
section
/-! DEFINITION. The word types of the block: bytes, register words, and the values of `NUM`, the numeric domain of every
non-integer value (00_scope.md R8; log entry 1). -/
namespace Sys2Proof

/-- A stream byte (20_memory.md R44). -/
abbrev Byte := BitVec 8

/-- A register word (20_memory.md R40: every register is 32 bits wide). -/
abbrev Word := BitVec 32

/-- An IEEE 754 binary32 bit pattern (00_scope.md R8, R10; 20_memory.md R43). -/
abbrev F32 := BitVec 32

/-- A value of `NUM` by its code: under the default domain its binary32 bit pattern as a number, under another domain
that domain's own numbering, which gives the value 0 the code 0 (log entry 1). -/
abbrev NumVal := Nat

end Sys2Proof
end

