-- ==== Sys2Proof/Config.lean ====
section
/-! DEFINITION. The parameters of the block (00_scope.md R8) and the values the spec leaves free. The parameters with a
default are the arguments `Params`, which State carries and no step changes (log entry 1); `NUM` is one of them, and what
a domain other than binary32 computes is uninterpreted. A parameter marked OPEN, and a value no rule states, is an uninterpreted constant: nothing can evaluate it (log entries
2, 3, 4 and 16). -/
namespace Sys2Proof

/-- The rounding from scaled output to integer (00_scope.md R8, `PCM_CONVERT`). -/
inductive PcmConvert where
  | trunc        -- toward zero, the default
  | nearestEven  -- the alternative
  deriving DecidableEq, Repr

/-- A finite binary32 value by its three fields; the exponent field 255 (infinities and NaNs) is left out by type. -/
structure FiniteF32 where
  neg  : Bool
  exp  : Fin 255
  frac : BitVec 23
  deriving DecidableEq, Repr, Inhabited

/-- The binary32 bit pattern of a finite value. -/
def FiniteF32.toF32 (x : FiniteF32) : F32 :=
  BitVec.ofBool x.neg ++ BitVec.ofNat 8 x.exp.val ++ x.frac

/-- The exact constants that `fl` rounds into `NUM` (00_scope.md R10). -/
inductive ExactConst where
  | ratio (num : Int) (den : Nat)  -- num / den
  | cosine (m : Nat)               -- cos(mπ/64), 44_synthesis_filter.md R133
  | scale (i : Fin 63)             -- 2^(1 - i/3), 30_encoding.md R73
  deriving DecidableEq, Repr, Encodable

/-- What a numeric domain computes (00_scope.md R8): `+ - *`, the conversion from integer and the comparison; and where
the other rules meet it: the rounding `fl` of a constant, the window, the conversion to integer of `PCM_CONVERT` (none
for a value that has no integer), and the binary32 pattern of a float output sample (20_memory.md R43). -/
structure NumOps where
  add      : NumVal → NumVal → NumVal
  sub      : NumVal → NumVal → NumVal
  mul      : NumVal → NumVal → NumVal
  ofInt    : Int → NumVal
  compare? : NumVal → NumVal → Option Ordering
  fl       : ExactConst → NumVal
  window   : Fin 512 → NumVal
  toInt?   : PcmConvert → NumVal → Option Int
  toF32    : NumVal → F32
  deriving Inhabited

/-- `NUM` (00_scope.md R8): the default, another domain by a number of its own, or the exact reals, which are the
reference evaluation of 00_scope.md R10 and no domain of a block. -/
inductive NumDomain where
  | binary32
  | reference
  | other (k : Nat)
  deriving DecidableEq, Repr

/-- What another domain than binary32 computes: free (log entry 1). -/
opaque Config.otherNum : Nat → NumOps

/-- The real number that a code of another domain stands for, if it stands for one: free (log entry 1). -/
noncomputable opaque Config.otherReal : Nat → NumVal → Option ℝ

/-- Comparing two exact reals and converting one to an output sample: free (log entry 21). -/
opaque Config.referenceConversions : NumOps

/-- The parameters with a default that a model of the block takes as arguments (00_scope.md R8). -/
structure Params where
  num           : NumDomain   -- `NUM`
  outScale      : Rat         -- `OUT_SCALE`
  pcmConvert    : PcmConvert  -- `PCM_CONVERT`
  sf63Value     : Rat         -- `SF63_VALUE` (30_encoding.md R73)
  tol           : Rat         -- `TOL`
  frameBufBytes : Nat         -- `FRAME_BUF_BYTES`
  deriving DecidableEq, Repr

/-- The defaults of 00_scope.md R8: binary32, 32768, TRUNC, 2^-20, 1e-4, 4096. -/
def Params.default : Params where
  num := .binary32
  outScale := mkRat 32768 1
  pcmConvert := .trunc
  sf63Value := mkRat 1 (2 ^ 20)
  tol := mkRat 1 10000
  frameBufBytes := 4096

/-- What 00_scope.md R8 asks of the parameters: the frame buffer holds the largest legal frame. -/
def Params.legal (p : Params) : Prop := 2881 ≤ p.frameBufBytes

/-- `WINDOW_D[0..511]` (00_scope.md R8, 44_synthesis_filter.md R135): OPEN, so any finite binary32 value for each
index. Log entry 2. -/
opaque Config.window : Fin 512 → FiniteF32

/-- `WINDOW_D[i]` as a binary32 value. -/
def Config.windowD (i : Fin 512) : F32 := (Config.window i).toF32

/-- The sign bit and the 22 payload bits of the NaN an operation gives for two operands: free (log entry 3). The
first argument tells the operations apart. -/
opaque Config.nanTail : Nat → F32 → F32 → Bool × BitVec 22

/-- The PCM16 code of a value that has no integer (a NaN): free (log entry 4). -/
opaque Config.pcmOfNan : NumVal → BitVec 16

/-- `CSR_BASE` (00_scope.md R8): OPEN, fixed by the platform (log entry 16). -/
opaque Config.csrBase : Word

/-- The bus address of a register offset (10_state.md R16: byte offsets from `CSR_BASE`). -/
def Config.busAddress (off : Word) : Word := Config.csrBase + off

end Sys2Proof
end

