-- ==== Sys2Proof/Machine/Exact.lean ====
section
/-! DEFINITION. The exact-real domain of the reference evaluation (00_scope.md R10), with its values written as
expressions: a value of `NUM` is then the code of an expression over the exact constants and the window, and the
operations build expressions, so that nothing is rounded. What an expression means is a real number
(Sys2Proof/Machine/Reference.lean). -/
namespace Sys2Proof

/-- An exact value, as the formula that gives it. -/
inductive ExactExpr where
  | const (c : ExactConst)
  | window (i : Fin 512)
  | add (x y : ExactExpr)
  | sub (x y : ExactExpr)
  | mul (x y : ExactExpr)
  deriving DecidableEq, Repr, Encodable

namespace Machine

/-- The expression 0. -/
def exactZero : ExactExpr := .const (.ratio 0 1)

/-- The code of an expression: any number but 0, which stands for the value 0 of a cleared element (log entry 1). -/
def exactCode (e : ExactExpr) : NumVal := Encodable.encode e + 1

/-- The expression a code stands for. -/
def readExact (x : NumVal) : ExactExpr :=
  match x with
  | 0 => exactZero
  | n + 1 => (Encodable.decode n).getD exactZero

/-- The exact-real domain (00_scope.md R10). Comparing two exact reals and converting one to an output sample cannot be
computed; they are left free (log entry 21): the reference is read off the normalised outputs. -/
def referenceOps : NumOps :=
  { Config.referenceConversions with
    add := fun x y => exactCode (.add (readExact x) (readExact y))
    sub := fun x y => exactCode (.sub (readExact x) (readExact y))
    mul := fun x y => exactCode (.mul (readExact x) (readExact y))
    ofInt := fun n => exactCode (.const (.ratio n 1))
    fl := fun c => exactCode (.const c)
    window := fun i => exactCode (.window i) }

end Machine
end Sys2Proof
end

