-- ==== Sys2Proof/Machine/Num.lean ====
section
/-! DEFINITION. The operations of `NUM` (00_scope.md R8, R10). The default is IEEE 754 binary32, round to nearest even;
what another domain computes is uninterpreted (log entry 1). Every finite binary32 value is a whole multiple of 2^-149,
so operands are taken to exact integers in that unit, the operation is done exactly, and `roundMag` narrows once. The
sign and payload of a NaN are free (log entry 3). -/
namespace Sys2Proof.Machine

def F32.signBit (x : F32) : Bool := x.msb
def F32.expField (x : F32) : Nat := (x.extractLsb' 23 8).toNat
def F32.fracField (x : F32) : Nat := (x.extractLsb' 0 23).toNat

def F32.isNaN (x : F32) : Bool := F32.expField x == 255 && F32.fracField x != 0
def F32.isInf (x : F32) : Bool := F32.expField x == 255 && F32.fracField x == 0
def F32.isFinite (x : F32) : Bool := F32.expField x != 255

/-- Zero of either sign. -/
def F32.isZero (x : F32) : Bool := F32.expField x == 0 && F32.fracField x == 0

/-- The magnitude of a finite value in units of 2^-149. -/
def F32.mag (x : F32) : Nat :=
  if F32.expField x = 0 then F32.fracField x
  else (2 ^ 23 + F32.fracField x) * 2 ^ (F32.expField x - 1)

/-- A finite value in units of 2^-149. -/
def F32.scaled (x : F32) : Int :=
  if F32.signBit x then -(F32.mag x : Int) else (F32.mag x : Int)

/-- The low 31 bits of the binary32 value nearest to p/q units of 2^-149, ties to even; from 2^128 upwards the
infinity. With t = p/q below 2^24 the unit itself is the last place; above, the last place is `2^sh` units. -/
def F32.roundMag (p q : Nat) : Nat :=
  let sh := Nat.log2 (p / q) - 23
  let d := q * 2 ^ sh
  let m := p / d
  let r := p % d
  let up := if 2 * r > d ∨ (2 * r = d ∧ m % 2 = 1) then 1 else 0
  min (sh * 2 ^ 23 + m + up) 0x7F800000

/-- A sign and the low 31 bits put together. -/
def F32.withSign (neg : Bool) (low : Nat) : F32 := BitVec.ofBool neg ++ BitVec.ofNat 31 low

def F32.infinity (neg : Bool) : F32 := F32.withSign neg 0x7F800000

/-- A quiet NaN with a free sign and payload (log entry 3). -/
def F32.nan (op : Nat) (x y : F32) : F32 :=
  BitVec.ofBool (Config.nanTail op x y).1 ++ (0x1FF#9 ++ (Config.nanTail op x y).2 : BitVec 31)

/-- The binary32 value nearest the exact rational `± p / q` (00_scope.md R10: table constants). -/
def F32.ofRat (neg : Bool) (p q : Nat) : F32 := F32.withSign neg (F32.roundMag (p * 2 ^ 149) q)

/-- `fl(x · y)`. -/
def F32.mul (x y : F32) : F32 :=
  let neg := F32.signBit x != F32.signBit y
  if F32.isNaN x || F32.isNaN y then F32.nan 0 x y
  else if F32.isInf x || F32.isInf y then
    if F32.isZero x || F32.isZero y then F32.nan 0 x y else F32.infinity neg
  else F32.withSign neg (F32.roundMag (F32.mag x * F32.mag y) (2 ^ 149))

/-- `fl(x + y)`. An exact zero sum is +0 unless both operands are -0. -/
def F32.add (x y : F32) : F32 :=
  if F32.isNaN x || F32.isNaN y then F32.nan 1 x y
  else if F32.isInf x then
    if F32.isInf y && F32.signBit x != F32.signBit y then F32.nan 1 x y else x
  else if F32.isInf y then y
  else
    let z := F32.scaled x + F32.scaled y
    if z = 0 then F32.withSign (F32.signBit x && F32.signBit y) 0
    else F32.withSign (z < 0) (F32.roundMag z.natAbs 1)

/-- The value with the other sign. -/
def F32.neg (x : F32) : F32 := x ^^^ 0x80000000#32

/-- `fl(x - y)`. -/
def F32.sub (x y : F32) : F32 := F32.add x (F32.neg y)

/-- A value in units of 2^-149, an infinity standing above or below every finite value. -/
def F32.order (x : F32) : Int :=
  if F32.isInf x then (if F32.signBit x then -(2 ^ 277 : Int) else 2 ^ 277) else F32.scaled x

/-- The comparison of two values: none if one of them is a NaN; the zeros of both signs are equal. -/
def F32.compare? (x y : F32) : Option Ordering :=
  if F32.isNaN x || F32.isNaN y then none else some (compare (F32.order x) (F32.order y))

/-- The exact value of a finite binary32 value. -/
def F32.value (x : F32) : Rat := mkRat (F32.scaled x) (2 ^ 149)

/-- TRUNC and NEAREST_EVEN of a finite value to an integer (00_scope.md R8, 44_synthesis_filter.md R140). -/
def F32.toInt (mode : PcmConvert) (x : F32) : Int :=
  let whole : Nat := F32.mag x / 2 ^ 149
  let rest : Nat := F32.mag x % 2 ^ 149
  let m : Nat :=
    match mode with
    | .trunc => whole
    | .nearestEven => if 2 * rest > 2 ^ 149 ∨ (2 * rest = 2 ^ 149 ∧ whole % 2 = 1) then whole + 1 else whole
  if F32.signBit x then -(m : Int) else (m : Int)

/-- `SF[0]`, `SF[1]`, `SF[2]`: the binary32 values nearest 2, 2^(2/3), 2^(1/3) (30_encoding.md R73). -/
def F32.scaleBase : Nat → Nat
  | 0 => 0x40000000
  | 1 => 0x3FCB2FF5
  | _ => 0x3FA14518

/-- The binary32 value nearest 2^(1 - i/3) (30_encoding.md R73): three indices further is half the value, one less in
the exponent field. -/
def F32.scale (i : Nat) : F32 := BitVec.ofNat 32 (F32.scaleBase (i % 3) - (i / 3) * 2 ^ 23)

/-- The binary32 values nearest cos(mπ/64) for m in 0..32 (44_synthesis_filter.md R133; log entry 18). -/
def F32.cosTable : List F32 :=
  [0x3F800000#32, 0x3F7FB10F#32, 0x3F7EC46D#32, 0x3F7D3AAC#32, 0x3F7B14BE#32, 0x3F7853F8#32] ++
  [0x3F74FA0B#32, 0x3F710908#32, 0x3F6C835E#32, 0x3F676BD8#32, 0x3F61C598#32, 0x3F5B941A#32] ++
  [0x3F54DB31#32, 0x3F4D9F02#32, 0x3F45E403#32, 0x3F3DAEF9#32, 0x3F3504F3#32, 0x3F2BEB4A#32] ++
  [0x3F226799#32, 0x3F187FC0#32, 0x3F0E39DA#32, 0x3F039C3D#32, 0x3EF15AEA#32, 0x3EDAE880#32] ++
  [0x3EC3EF15#32, 0x3EAC7CD4#32, 0x3E94A031#32, 0x3E78CFCC#32, 0x3E47C5C2#32, 0x3E164083#32] ++
  [0x3DC8BD36#32, 0x3D48FB30#32, 0x00000000#32]

/-- cos(mπ/64) for any m, by the symmetries of the cosine. -/
def F32.cosine (m : Nat) : F32 :=
  let r := m % 128
  let h := if r > 64 then 128 - r else r
  if h > 32 then F32.withSign true ((F32.cosTable.getD (64 - h) 0).toNat) else F32.cosTable.getD h 0

/-- `fl` of a constant under binary32: the nearest value (00_scope.md R10). -/
def F32.fl : ExactConst → F32
  | .ratio num den => F32.ofRat (num < 0) num.natAbs den
  | .cosine m => F32.cosine m
  | .scale i => F32.scale i.val

/-- The bit pattern a code stands for under binary32. -/
def F32.ofCode (x : NumVal) : F32 := BitVec.ofNat 32 x

/-- TRUNC and NEAREST_EVEN of any value: a NaN has no integer; an infinity is past every 16-bit code, so the clamp of
44_synthesis_filter.md R140 decides it by its sign (log entry 4). -/
def F32.toInt? (mode : PcmConvert) (x : F32) : Option Int :=
  if F32.isNaN x then none
  else if F32.isInf x then some (if F32.signBit x then -(2 ^ 128) else 2 ^ 128)
  else some (F32.toInt mode x)

/-! ### The domain as a parameter (00_scope.md R8) -/

/-- The default domain. -/
def binary32Ops : NumOps where
  add x y := (F32.add (F32.ofCode x) (F32.ofCode y)).toNat
  sub x y := (F32.sub (F32.ofCode x) (F32.ofCode y)).toNat
  mul x y := (F32.mul (F32.ofCode x) (F32.ofCode y)).toNat
  ofInt n := (F32.fl (.ratio n 1)).toNat
  compare? x y := F32.compare? (F32.ofCode x) (F32.ofCode y)
  fl c := (F32.fl c).toNat
  window i := (Config.windowD i).toNat
  toInt? mode x := F32.toInt? mode (F32.ofCode x)
  toF32 x := F32.ofCode x

end Sys2Proof.Machine

namespace Sys2Proof

/-- What a domain computes. -/
def NumDomain.ops : NumDomain → NumOps
  | .binary32 => Machine.binary32Ops
  | .reference => Machine.referenceOps
  | .other k => Config.otherNum k

def NumDomain.add (d : NumDomain) (x y : NumVal) : NumVal := d.ops.add x y
def NumDomain.sub (d : NumDomain) (x y : NumVal) : NumVal := d.ops.sub x y
def NumDomain.mul (d : NumDomain) (x y : NumVal) : NumVal := d.ops.mul x y
def NumDomain.ofInt (d : NumDomain) (n : Int) : NumVal := d.ops.ofInt n
def NumDomain.compare? (d : NumDomain) (x y : NumVal) : Option Ordering := d.ops.compare? x y

/-- `fl(num / den)`. -/
def NumDomain.ratio (d : NumDomain) (num : Int) (den : Nat) : NumVal := d.ops.fl (.ratio num den)

/-- `fl` of a rational parameter. -/
def NumDomain.ofRat (d : NumDomain) (x : Rat) : NumVal := d.ratio x.num x.den

end Sys2Proof
end

