-- ==== Sys2Proof/Syntax.lean ====
section
/-! DEFINITION. The operations of the block, one constructor of `Instr` for each row of spec/opcode_table.json, and the
formats their encodings come in (30_encoding.md R56, R82). A stream field's place in the frame (subband, channel,
class) is fixed by what was read before it (30_encoding.md R79), so it is an operand here and part of the format
(log entry 10). -/
namespace Sys2Proof

/-- The fields of a header word but `sync` (30_encoding.md R57; 10_state.md R30, raw fields). -/
structure RawHeader where
  ver   : BitVec 2
  layer : BitVec 2
  prot  : BitVec 1
  bri   : BitVec 4
  sfi   : BitVec 2
  pad   : BitVec 1
  priv  : BitVec 1
  mode  : BitVec 2
  mx    : BitVec 2
  copy  : BitVec 1
  orig  : BitVec 1
  emph  : BitVec 2
  deriving DecidableEq, Repr

/-- The fields of a 32-bit header word (30_encoding.md R57). -/
structure HeaderFields where
  sync : BitVec 11
  raw  : RawHeader
  deriving DecidableEq, Repr

/-- The fields of a value written to CTRL (10_state.md R17, 30_encoding.md R80). -/
structure CtrlWrite where
  start     : Bool
  stop      : Bool
  softReset : Bool
  strict    : Bool
  chansel   : BitVec 2
  fmt       : Bool
  irqEn     : Bool
  reserved  : BitVec 24
  deriving DecidableEq, Repr

/-- The Layer II allocation tables (30_encoding.md R67). -/
inductive L2Tab where
  | a | b | c | d | lsf
  deriving DecidableEq, Repr

/-- The scale-factor indices of one Layer II subband and channel, in the order read, by SCFSI code
(30_encoding.md R74). -/
inductive SfRead where
  | three (x0 x1 x2 : BitVec 6)  -- SCFSI 0: parts x0, x1, x2
  | firstTwo (x0 x1 : BitVec 6)  -- SCFSI 1: parts x0, x0, x1
  | one (x0 : BitVec 6)          -- SCFSI 2: parts x0, x0, x0
  | lastTwo (x0 x1 : BitVec 6)   -- SCFSI 3: parts x0, x1, x1
  deriving DecidableEq, Repr

/-- The operations of the block. `sb` is a subband, `ch` a stream channel, `f` a filter, `j` a sample index within a
slot, `a` an allocation code and `n` a number of quantization levels. -/
inductive Instr where
  -- header classes (41_header_parser.md R92)
  | hdrSyncLoss (h : HeaderFields)
  | hdrUnsupVersion (h : HeaderFields)
  | hdrUnsupLayerReserved (h : HeaderFields)
  | hdrUnsupLayerIII (h : HeaderFields)
  | hdrUnsupFreeFormat (h : HeaderFields)
  | hdrUnsupBitrate (h : HeaderFields)
  | hdrUnsupSfreq (h : HeaderFields)
  | hdrMpeg1L1 (h : HeaderFields)
  | hdrMpeg1L2 (h : HeaderFields)
  | hdrMpeg2L1 (h : HeaderFields)
  | hdrMpeg2L2 (h : HeaderFields)
  | hdrMpeg25L1 (h : HeaderFields)
  | hdrMpeg25L2 (h : HeaderFields)
  -- stream fields
  | crcWord (c : BitVec 16)
  | l1Alloc (sb : Fin 32) (ch : Fin 2) (a : BitVec 4)
  | l1AllocCorrupt (sb : Fin 32) (ch : Fin 2)
  | l1Scalefactor (sb : Fin 32) (ch : Fin 2) (x : BitVec 6)
  | l1Sample (sb : Fin 32) (ch : Fin 2) (a : BitVec 4) (q : BitVec 16)
  | l2Alloc (tab : L2Tab) (sb : Fin 32) (ch : Fin 2) (a : BitVec 4)
  | l2Scfsi (sb : Fin 32) (ch : Fin 2) (x : BitVec 2)
  | l2Scalefactor (sb : Fin 32) (ch : Fin 2) (r : SfRead)
  | l2Grouped (sb : Fin 32) (ch : Fin 2) (n : Nat) (c : BitVec 16)
  | l2GroupedOutOfRange (sb : Fin 32) (ch : Fin 2) (n : Nat) (c : BitVec 16)
  | l2Ungrouped (sb : Fin 32) (ch : Fin 2) (n : Nat) (v0 v1 v2 : BitVec 16)
  -- host commands
  | ctrlSoftReset (v : CtrlWrite)
  | ctrlStart (v : CtrlWrite)
  | ctrlStop (v : CtrlWrite)
  | ctrlConfig (v : CtrlWrite)
  | regRead (off : Word)
  -- internal operations, without an encoding
  | readHeaderBytes
  | fetchFrame
  | getBits (n : Nat)
  | crcCheck
  | skipToFrameEnd
  | l1Dequant (sb : Fin 32) (ch : Fin 2) (code : BitVec 16) (a : BitVec 4)
  | l1PutMono (sb : Fin 32)
  | l1PutStereo (sb : Fin 32)
  | l1PutIntensity (sb : Fin 32)
  | rq2 (sb : Fin 32) (ch : Fin 2) (k : Fin 3) (v : BitVec 16) (n : Nat)
  | l2PutMono (sb : Fin 32)
  | l2PutStereo (sb : Fin 32)
  | l2PutIntensity (sb : Fin 32)
  | addSample (f : Fin 2) (sb : Fin 32) (x : NumVal)
  | synthStep (f : Fin 2)
  | convert (f : Fin 2) (j : Fin 32) (y : NumVal)
  | emit
  deriving DecidableEq, Repr

/-- What is being read, with everything that fixes its width (30_encoding.md R56, R79). -/
inductive Format where
  | hdr32                                              -- F-HDR
  | crc16                                              -- F-CRC
  | l1Alloc (sb : Fin 32) (ch : Fin 2)                 -- F-L1
  | l1Scalefactor (sb : Fin 32) (ch : Fin 2)
  | l1Sample (sb : Fin 32) (ch : Fin 2) (a : BitVec 4)
  | l2Alloc (tab : L2Tab) (sb : Fin 32) (ch : Fin 2)   -- F-L2
  | l2Scfsi (sb : Fin 32) (ch : Fin 2)
  | l2Scalefactor (sb : Fin 32) (ch : Fin 2) (scfsi : BitVec 2)
  | l2Grouped (sb : Fin 32) (ch : Fin 2) (n : Nat)
  | l2Ungrouped (sb : Fin 32) (ch : Fin 2) (n : Nat)
  | ctrlWrite                                          -- F-CTRL
  | regRead                                            -- an offset of the register space
  deriving DecidableEq, Repr

end Sys2Proof
end

