-- ==== Sys2Proof/Machine/Tables.lean ====
section
/-! DEFINITION. The constant tables of the block (10_state.md R36), fixed functions of their index, as 30_encoding.md
R61 to R77 and 44_synthesis_filter.md R133 give them. -/
namespace Sys2Proof.Machine

/-- The columns of the bitrate table, kbit/s, index 0 to 14 (30_encoding.md R61). -/
def bitrateColumn (lsf layerI : Bool) : List Nat :=
  match lsf, layerI with
  | false, true  => [0, 32, 64, 96, 128, 160, 192, 224, 256, 288, 320, 352, 384, 416, 448]
  | false, false => [0, 32, 48, 56, 64, 80, 96, 112, 128, 160, 192, 224, 256, 320, 384]
  | true,  true  => [0, 32, 48, 56, 64, 80, 96, 112, 128, 144, 160, 176, 192, 224, 256]
  | true,  false => [0, 8, 16, 24, 32, 40, 48, 56, 64, 80, 96, 112, 128, 144, 160]

/-- `BITRATE[lsf][layer][bri]` (30_encoding.md R61, 41_header_parser.md R99). -/
def bitrateOf (lsf layerI : Bool) (bri : BitVec 4) : Nat := (bitrateColumn lsf layerI).getD bri.toNat 0

/-- `FS[ver][sfi]` in Hz (30_encoding.md R62). -/
def sampleRate (ver sfi : BitVec 2) : Nat :=
  match ver.toNat, sfi.toNat with
  | 3, 0 => 44100
  | 3, 1 => 48000
  | 3, 2 => 32000
  | 2, 0 => 22050
  | 2, 1 => 24000
  | 2, 2 => 16000
  | 0, 0 => 11025
  | 0, 1 => 12000
  | 0, 2 => 8000
  | _, _ => 0

/-- `sblimit` of a Layer II table (30_encoding.md R67, R70). -/
def l2Sblimit : L2Tab → Nat
  | .a => 27
  | .b => 30
  | .c => 8
  | .d => 12
  | .lsf => 30

/-- The per-channel bitrate index `cbi` (30_encoding.md R67); it may be negative. -/
def channelBitrateIndex (nch : Nat) (bri : BitVec 4) : Int :=
  if nch = 1 then bri.toNat else if bri.toNat = 4 then 1 else (bri.toNat : Int) - 4

/-- The Layer II table of a frame (30_encoding.md R67). -/
def selectL2Tab (lsf : Bool) (nch : Nat) (bri : BitVec 4) (fs : Nat) : L2Tab :=
  let cbi := channelBitrateIndex nch bri
  if lsf then .lsf
  else if cbi = 1 ∨ cbi = 2 then (if fs = 32000 then .d else .c)
  else if fs = 48000 ∨ cbi = 3 ∨ cbi = 4 ∨ cbi = 5 then .a
  else .b

/-- `nbal` and the level list of a subband (30_encoding.md R68, R69, R70); no list at or above `sblimit`. -/
def l2Row (tab : L2Tab) (sb : Nat) : Nat × List Nat :=
  match tab with
  | .a | .b =>
    if sb < 3 then (4, [3, 7, 15, 31, 63, 127, 255, 511, 1023, 2047, 4095, 8191, 16383, 32767, 65535])
    else if sb < 11 then (4, [3, 5, 7, 9, 15, 31, 63, 127, 255, 511, 1023, 2047, 4095, 8191, 65535])
    else if sb < 23 then (3, [3, 5, 7, 9, 15, 31, 65535])
    else if sb < l2Sblimit tab then (2, [3, 5, 65535])
    else (0, [])
  | .c | .d =>
    if sb < 2 then (4, [3, 5, 9, 15, 31, 63, 127, 255, 511, 1023, 2047, 4095, 8191, 16383, 32767])
    else if sb < l2Sblimit tab then (3, [3, 5, 9, 15, 31, 63, 127])
    else (0, [])
  | .lsf =>
    if sb < 4 then (4, [3, 5, 7, 9, 15, 31, 63, 127, 255, 511, 1023, 2047, 4095, 8191, 16383])
    else if sb < 11 then (3, [3, 5, 9, 15, 31, 63, 127])
    else if sb < 30 then (2, [3, 5, 9])
    else (0, [])

/-- `nbal[l2tab][sb]`. -/
def nbal (tab : L2Tab) (sb : Nat) : Nat := (l2Row tab sb).1

/-- `LEVELS[l2tab][sb][a]`: the a-th entry of the level list, a from 1. -/
def levels (tab : L2Tab) (sb a : Nat) : Nat := (l2Row tab sb).2.getD (a - 1) 0

/-- A row of the quantization class table (30_encoding.md R76); `D = 2^-dExp`, `C = 2^nb / n`. -/
structure QClass where
  n       : Nat
  grouped : Bool
  cw      : Nat
  nb      : Nat
  dExp    : Nat
  deriving DecidableEq, Repr

/-- The quantization classes (30_encoding.md R76). -/
def qClasses : List QClass :=
  [⟨3, true, 5, 2, 1⟩, ⟨5, true, 7, 3, 1⟩, ⟨7, false, 3, 3, 2⟩, ⟨9, true, 10, 4, 1⟩, ⟨15, false, 4, 4, 3⟩] ++
  [⟨31, false, 5, 5, 4⟩, ⟨63, false, 6, 6, 5⟩, ⟨127, false, 7, 7, 6⟩, ⟨255, false, 8, 8, 7⟩] ++
  [⟨511, false, 9, 9, 8⟩, ⟨1023, false, 10, 10, 9⟩, ⟨2047, false, 11, 11, 10⟩, ⟨4095, false, 12, 12, 11⟩] ++
  [⟨8191, false, 13, 13, 12⟩, ⟨16383, false, 14, 14, 13⟩, ⟨32767, false, 15, 15, 14⟩, ⟨65535, false, 16, 16, 15⟩]

/-- The class of a number of levels, if there is one. -/
def qClass? (n : Nat) : Option QClass := qClasses.find? (fun c => c.n == n)

/-- `CW(n)`, the bits of one transmitted code; 0 for a number of levels that is no class. -/
def codeWidth (n : Nat) : Nat := ((qClass? n).map QClass.cw).getD 0

/-- `GROUPED(n)`. -/
def isGrouped (n : Nat) : Bool := ((qClass? n).map QClass.grouped).getD false

/-- `nb`, the bits of one sample of a class. -/
def sampleBits (n : Nat) : Nat := ((qClass? n).map QClass.nb).getD 0

/-- The exponent of `D = 2^-dExp` of a class. -/
def dExponent (n : Nat) : Nat := ((qClass? n).map QClass.dExp).getD 0

/-- The levels of a Layer I allocation code (30_encoding.md R71): `2^(a+1) - 1`. -/
def l1Levels (a : BitVec 4) : Nat := 2 ^ (a.toNat + 1) - 1

/-- `TableFactor[a] = fl(2/n)` (30_encoding.md R72); entry 0 is 0. -/
def tableFactor (d : NumDomain) (a : BitVec 4) : NumVal := if a = 0 then 0 else d.ratio 2 (l1Levels a)

/-- `TableOffset[a] = fl(-(n - 1)/n)` (30_encoding.md R72); entry 0 is 0. -/
def tableOffset (d : NumDomain) (a : BitVec 4) : NumVal :=
  if a = 0 then 0 else d.ratio (1 - (l1Levels a : Int)) (l1Levels a)

/-- `SF[i] = fl(2^(1 - i/3))`; index 63 is the parameter `SF63_VALUE` (30_encoding.md R73). -/
def scaleFactor (p : Params) (i : BitVec 6) : NumVal :=
  if h : i.toNat < 63 then p.num.ops.fl (.scale ⟨i.toNat, h⟩) else p.num.ofRat p.sf63Value

/-- The synthesis matrix `N[i][k] = fl(cos((16 + i)(2k + 1)π/64))` (44_synthesis_filter.md R133). -/
def synthMatrix (d : NumDomain) (i k : Nat) : NumVal := d.ops.fl (.cosine ((16 + i) * (2 * k + 1)))

/-- `part(gn)` (43_layer2_decode.md R126). -/
def scalePart (gn : Nat) : Fin 3 := if gn ≤ 4 then 0 else if gn ≤ 8 then 1 else 2

end Sys2Proof.Machine
end

