-- ==== Sys2Proof/WellFormed.lean ====
section
/-! DEFINITION. Which operations are well formed: a header word is in the class its constructor names, by the
match and mask of spec/opcode_table.json and the priority order of 30_encoding.md R82; a stream field's code fits its
width and its class (30_encoding.md R71, R76); a CTRL value is the command its constructor names (30_encoding.md R80);
a register offset is a multiple of 4 (20_memory.md R43; log entry 7). -/
namespace Sys2Proof

/-- Header bits 31:21 are all ones (41_header_parser.md R93). -/
def HeaderFields.syncOk (h : HeaderFields) : Bool := h.sync == 0x7FF#11

/-- Not rejected by its sync or version (41_header_parser.md R94). -/
def HeaderFields.versionOk (h : HeaderFields) : Bool := h.syncOk && h.raw.ver != 0b01#2

/-- Not rejected by its layer either (41_header_parser.md R95): Layer I or Layer II. -/
def HeaderFields.layerOk (h : HeaderFields) : Bool :=
  h.versionOk && (h.raw.layer == 0b11#2 || h.raw.layer == 0b10#2)

/-- Not rejected by its bitrate index either (41_header_parser.md R96). -/
def HeaderFields.bitrateOk (h : HeaderFields) : Bool := h.layerOk && h.raw.bri != 0#4 && h.raw.bri != 15#4

/-- An accepted header (41_header_parser.md R92 step 7). -/
def HeaderFields.accepted (h : HeaderFields) : Bool := h.bitrateOk && h.raw.sfi != 3#2

/-- Accepted with this version and layer. -/
def HeaderFields.acceptedAs (h : HeaderFields) (ver layer : BitVec 2) : Bool :=
  h.accepted && h.raw.ver == ver && h.raw.layer == layer

/-- A class whose codes hold a triplet (30_encoding.md R76). -/
def groupedLevels (n : Nat) : Bool := n == 3 || n == 5 || n == 9

/-- A class whose codes hold one sample (43_layer2_decode.md R123: n = 7, or n ≥ 15). -/
def ungroupedLevels (n : Nat) : Bool :=
  [7, 15, 31, 63, 127, 255, 511, 1023, 2047, 4095, 8191, 16383, 32767, 65535].contains n

/-- The well-formedness of an operation. -/
def Instr.wf : Instr → Bool
  | .hdrSyncLoss h => !h.syncOk
  | .hdrUnsupVersion h => h.syncOk && h.raw.ver == 0b01#2
  | .hdrUnsupLayerReserved h => h.versionOk && h.raw.layer == 0b00#2
  | .hdrUnsupLayerIII h => h.versionOk && h.raw.layer == 0b01#2
  | .hdrUnsupFreeFormat h => h.layerOk && h.raw.bri == 0#4
  | .hdrUnsupBitrate h => h.layerOk && h.raw.bri == 15#4
  | .hdrUnsupSfreq h => h.bitrateOk && h.raw.sfi == 3#2
  | .hdrMpeg1L1 h => h.acceptedAs 0b11#2 0b11#2
  | .hdrMpeg1L2 h => h.acceptedAs 0b11#2 0b10#2
  | .hdrMpeg2L1 h => h.acceptedAs 0b10#2 0b11#2
  | .hdrMpeg2L2 h => h.acceptedAs 0b10#2 0b10#2
  | .hdrMpeg25L1 h => h.acceptedAs 0b00#2 0b11#2
  | .hdrMpeg25L2 h => h.acceptedAs 0b00#2 0b10#2
  | .crcWord _ => true
  | .l1Alloc _ _ a => a != 15#4
  | .l1AllocCorrupt _ _ => true
  | .l1Scalefactor _ _ _ => true
  | .l1Sample _ _ a q => a != 0#4 && a != 15#4 && decide (q.toNat < 2 ^ (a.toNat + 1))
  | .l2Alloc tab sb _ a => decide (sb.val < Machine.l2Sblimit tab) && decide (a.toNat < 2 ^ Machine.nbal tab sb.val)
  | .l2Scfsi _ _ _ => true
  | .l2Scalefactor _ _ _ => true
  | .l2Grouped _ _ n c => groupedLevels n && decide (c.toNat < n ^ 3)
  | .l2GroupedOutOfRange _ _ n c =>
    groupedLevels n && decide (n ^ 3 ≤ c.toNat) && decide (c.toNat < 2 ^ Machine.codeWidth n)
  | .l2Ungrouped _ _ n v0 v1 v2 =>
    ungroupedLevels n && decide (v0.toNat < 2 ^ Machine.codeWidth n) &&
      decide (v1.toNat < 2 ^ Machine.codeWidth n) && decide (v2.toNat < 2 ^ Machine.codeWidth n)
  | .ctrlSoftReset v => v.softReset
  | .ctrlStart v => !v.softReset && v.start
  | .ctrlStop v => !v.softReset && !v.start && v.stop
  | .ctrlConfig v => !v.softReset && !v.start && !v.stop
  | .regRead off => decide (off.toNat % 4 = 0)
  | .readHeaderBytes => true
  | .fetchFrame => true
  | .getBits n => decide (1 ≤ n) && decide (n ≤ 32)
  | .crcCheck => true
  | .skipToFrameEnd => true
  | .l1Dequant _ _ code a => a != 0#4 && a != 15#4 && decide (code.toNat < 2 ^ (a.toNat + 1))
  | .l1PutMono _ => true
  | .l1PutStereo _ => true
  | .l1PutIntensity _ => true
  | .rq2 _ _ _ v n =>
    (groupedLevels n && decide (v.toNat < n)) || (ungroupedLevels n && decide (v.toNat < 2 ^ Machine.sampleBits n))
  | .l2PutMono _ => true
  | .l2PutStereo _ => true
  | .l2PutIntensity _ => true
  | .addSample _ _ _ => true
  | .synthStep _ => true
  | .convert _ _ _ => true
  | .emit => true

end Sys2Proof
end

