-- ==== Sys2Proof/Decode.lean ====
section
/-! DEFINITION. The decoder and the encoder. A format (30_encoding.md R56) and the number its bits form, first bit most
significant (20_memory.md R42), give an operation or a refusal by name. Header words are tried in the priority order
of 30_encoding.md R82, CTRL values in the order of R80. Internal operations have no encoding (R82). -/
namespace Sys2Proof

/-- Why a number is no operation of a format. -/
inductive DecodeError where
  | tooWide         -- the number does not fit the format's width
  | notAllocated    -- a Layer I sample of allocation code 0 or 15: no such field exists (30_encoding.md R71)
  | noSuchSubband   -- a Layer II allocation at or above sblimit (41_header_parser.md R102)
  | noSuchClass     -- a number of levels that is no quantization class of that kind (30_encoding.md R76)
  | unalignedOffset -- a register offset that is not a multiple of 4 (20_memory.md R43)
  deriving DecidableEq, Repr

/-- The bits of a format. -/
def Format.width : Format → Nat
  | .hdr32 => 32
  | .crc16 => 16
  | .l1Alloc _ _ => 4
  | .l1Scalefactor _ _ => 6
  | .l1Sample _ _ a => a.toNat + 1
  | .l2Alloc tab sb _ => Machine.nbal tab sb.val
  | .l2Scfsi _ _ => 2
  | .l2Scalefactor _ _ scfsi => if scfsi = 0 then 18 else if scfsi = 2 then 6 else 12
  | .l2Grouped _ _ n => Machine.codeWidth n
  | .l2Ungrouped _ _ n => 3 * Machine.codeWidth n
  | .ctrlWrite => 32
  | .regRead => 32

/-- The fields of a header word (30_encoding.md R57). -/
def HeaderFields.ofWord (h : Word) : HeaderFields where
  sync := h.extractLsb' 21 11
  raw :=
    { ver := h.extractLsb' 19 2, layer := h.extractLsb' 17 2, prot := h.extractLsb' 16 1
      bri := h.extractLsb' 12 4, sfi := h.extractLsb' 10 2, pad := h.extractLsb' 9 1
      priv := h.extractLsb' 8 1, mode := h.extractLsb' 6 2, mx := h.extractLsb' 4 2
      copy := h.extractLsb' 3 1, orig := h.extractLsb' 2 1, emph := h.extractLsb' 0 2 }

/-- The header word of its fields (30_encoding.md R57). -/
def HeaderFields.word (h : HeaderFields) : Word :=
  h.sync ++ h.raw.ver ++ h.raw.layer ++ h.raw.prot ++ h.raw.bri ++ h.raw.sfi ++ h.raw.pad ++ h.raw.priv ++
    h.raw.mode ++ h.raw.mx ++ h.raw.copy ++ h.raw.orig ++ h.raw.emph

/-- The fields of a CTRL value (10_state.md R17). -/
def CtrlWrite.ofWord (v : Word) : CtrlWrite where
  start := v.getLsbD 0
  stop := v.getLsbD 1
  softReset := v.getLsbD 2
  strict := v.getLsbD 3
  chansel := v.extractLsb' 4 2
  fmt := v.getLsbD 6
  irqEn := v.getLsbD 7
  reserved := v.extractLsb' 8 24

/-- The CTRL value of its fields (10_state.md R17). -/
def CtrlWrite.word (v : CtrlWrite) : Word :=
  v.reserved ++ BitVec.ofBool v.irqEn ++ BitVec.ofBool v.fmt ++ v.chansel ++ BitVec.ofBool v.strict ++
    BitVec.ofBool v.softReset ++ BitVec.ofBool v.stop ++ BitVec.ofBool v.start

/-- The operation of a header word, first matching class first (30_encoding.md R82, 41_header_parser.md R92). -/
def decodeHeader (h : HeaderFields) : Instr :=
  if h.sync ≠ 0x7FF#11 then .hdrSyncLoss h
  else if h.raw.ver = 0b01#2 then .hdrUnsupVersion h
  else if h.raw.layer = 0b00#2 then .hdrUnsupLayerReserved h
  else if h.raw.layer = 0b01#2 then .hdrUnsupLayerIII h
  else if h.raw.bri = 0#4 then .hdrUnsupFreeFormat h
  else if h.raw.bri = 15#4 then .hdrUnsupBitrate h
  else if h.raw.sfi = 3#2 then .hdrUnsupSfreq h
  else if h.raw.ver = 0b11#2 then (if h.raw.layer = 0b11#2 then .hdrMpeg1L1 h else .hdrMpeg1L2 h)
  else if h.raw.ver = 0b10#2 then (if h.raw.layer = 0b11#2 then .hdrMpeg2L1 h else .hdrMpeg2L2 h)
  else (if h.raw.layer = 0b11#2 then .hdrMpeg25L1 h else .hdrMpeg25L2 h)

/-- The command of a CTRL value (30_encoding.md R80). A value with START and STOP is one START command, which then
applies STOP (log entry 11). -/
def decodeCtrl (v : CtrlWrite) : Instr :=
  if v.softReset then .ctrlSoftReset v
  else if v.start then .ctrlStart v
  else if v.stop then .ctrlStop v
  else .ctrlConfig v

/-- The k-th group of `width` bits of a number, counted from the least significant. -/
def bitGroup (width k w : Nat) : Nat := w / 2 ^ (width * k) % 2 ^ width

/-- The scale-factor indices of 6 bits each in a number (30_encoding.md R74). -/
def decodeSfRead (scfsi : BitVec 2) (w : Nat) : SfRead :=
  if scfsi = 0 then
    .three (BitVec.ofNat 6 (bitGroup 6 2 w)) (BitVec.ofNat 6 (bitGroup 6 1 w)) (BitVec.ofNat 6 (bitGroup 6 0 w))
  else if scfsi = 1 then .firstTwo (BitVec.ofNat 6 (bitGroup 6 1 w)) (BitVec.ofNat 6 (bitGroup 6 0 w))
  else if scfsi = 2 then .one (BitVec.ofNat 6 (bitGroup 6 0 w))
  else .lastTwo (BitVec.ofNat 6 (bitGroup 6 1 w)) (BitVec.ofNat 6 (bitGroup 6 0 w))

/-- The operation a number in the width of its format is. -/
def decodeFitting (fmt : Format) (w : Nat) : Except DecodeError Instr :=
  match fmt with
  | .hdr32 => .ok (decodeHeader (HeaderFields.ofWord (BitVec.ofNat 32 w)))
  | .crc16 => .ok (.crcWord (BitVec.ofNat 16 w))
  | .l1Alloc sb ch => .ok (if w = 15 then .l1AllocCorrupt sb ch else .l1Alloc sb ch (BitVec.ofNat 4 w))
  | .l1Scalefactor sb ch => .ok (.l1Scalefactor sb ch (BitVec.ofNat 6 w))
  | .l1Sample sb ch a =>
    if a = 0#4 ∨ a = 15#4 then .error .notAllocated else .ok (.l1Sample sb ch a (BitVec.ofNat 16 w))
  | .l2Alloc tab sb ch =>
    if sb.val < Machine.l2Sblimit tab then .ok (.l2Alloc tab sb ch (BitVec.ofNat 4 w)) else .error .noSuchSubband
  | .l2Scfsi sb ch => .ok (.l2Scfsi sb ch (BitVec.ofNat 2 w))
  | .l2Scalefactor sb ch scfsi => .ok (.l2Scalefactor sb ch (decodeSfRead scfsi w))
  | .l2Grouped sb ch n =>
    if Machine.isGrouped n then
      .ok (if w < n ^ 3 then .l2Grouped sb ch n (BitVec.ofNat 16 w)
        else .l2GroupedOutOfRange sb ch n (BitVec.ofNat 16 w))
    else .error .noSuchClass
  | .l2Ungrouped sb ch n =>
    if Machine.isGrouped n ∨ Machine.codeWidth n = 0 then .error .noSuchClass
    else .ok (.l2Ungrouped sb ch n (BitVec.ofNat 16 (bitGroup (Machine.codeWidth n) 2 w))
      (BitVec.ofNat 16 (bitGroup (Machine.codeWidth n) 1 w)) (BitVec.ofNat 16 (bitGroup (Machine.codeWidth n) 0 w)))
  | .ctrlWrite => .ok (decodeCtrl (CtrlWrite.ofWord (BitVec.ofNat 32 w)))
  | .regRead =>
    if w % 4 ≠ 0 then .error .unalignedOffset else .ok (.regRead (BitVec.ofNat 32 w))

/-- The decoder: total on every format and number. -/
def decode (fmt : Format) (w : Nat) : Except DecodeError Instr :=
  if w < 2 ^ fmt.width then decodeFitting fmt w else .error .tooWide

/-- A number of two or three groups, the first group most significant. -/
def joinGroups (width : Nat) : List Nat → Nat
  | [] => 0
  | x :: xs => x * 2 ^ (width * xs.length) + joinGroups width xs

/-- The SCFSI code under which indices are read so (30_encoding.md R74). -/
def SfRead.scfsi : SfRead → BitVec 2
  | .three _ _ _ => 0
  | .firstTwo _ _ => 1
  | .one _ => 2
  | .lastTwo _ _ => 3

/-- The indices in the order read. -/
def SfRead.indices : SfRead → List (BitVec 6)
  | .three x0 x1 x2 => [x0, x1, x2]
  | .firstTwo x0 x1 => [x0, x1]
  | .one x0 => [x0]
  | .lastTwo x0 x1 => [x0, x1]

/-- The encoder: the format and the number of an operation; none for an internal operation. -/
def encode : Instr → Option (Format × Nat)
  | .hdrSyncLoss h => some (.hdr32, h.word.toNat)
  | .hdrUnsupVersion h => some (.hdr32, h.word.toNat)
  | .hdrUnsupLayerReserved h => some (.hdr32, h.word.toNat)
  | .hdrUnsupLayerIII h => some (.hdr32, h.word.toNat)
  | .hdrUnsupFreeFormat h => some (.hdr32, h.word.toNat)
  | .hdrUnsupBitrate h => some (.hdr32, h.word.toNat)
  | .hdrUnsupSfreq h => some (.hdr32, h.word.toNat)
  | .hdrMpeg1L1 h => some (.hdr32, h.word.toNat)
  | .hdrMpeg1L2 h => some (.hdr32, h.word.toNat)
  | .hdrMpeg2L1 h => some (.hdr32, h.word.toNat)
  | .hdrMpeg2L2 h => some (.hdr32, h.word.toNat)
  | .hdrMpeg25L1 h => some (.hdr32, h.word.toNat)
  | .hdrMpeg25L2 h => some (.hdr32, h.word.toNat)
  | .crcWord c => some (.crc16, c.toNat)
  | .l1Alloc sb ch a => some (.l1Alloc sb ch, a.toNat)
  | .l1AllocCorrupt sb ch => some (.l1Alloc sb ch, 15)
  | .l1Scalefactor sb ch x => some (.l1Scalefactor sb ch, x.toNat)
  | .l1Sample sb ch a q => some (.l1Sample sb ch a, q.toNat)
  | .l2Alloc tab sb ch a => some (.l2Alloc tab sb ch, a.toNat)
  | .l2Scfsi sb ch x => some (.l2Scfsi sb ch, x.toNat)
  | .l2Scalefactor sb ch r => some (.l2Scalefactor sb ch r.scfsi, joinGroups 6 (r.indices.map BitVec.toNat))
  | .l2Grouped sb ch n c => some (.l2Grouped sb ch n, c.toNat)
  | .l2GroupedOutOfRange sb ch n c => some (.l2Grouped sb ch n, c.toNat)
  | .l2Ungrouped sb ch n v0 v1 v2 =>
    some (.l2Ungrouped sb ch n, joinGroups (Machine.codeWidth n) [v0.toNat, v1.toNat, v2.toNat])
  | .ctrlSoftReset v => some (.ctrlWrite, v.word.toNat)
  | .ctrlStart v => some (.ctrlWrite, v.word.toNat)
  | .ctrlStop v => some (.ctrlWrite, v.word.toNat)
  | .ctrlConfig v => some (.ctrlWrite, v.word.toNat)
  | .regRead off => some (.regRead, off.toNat)
  | .readHeaderBytes | .fetchFrame | .getBits _ | .crcCheck | .skipToFrameEnd => none
  | .l1Dequant _ _ _ _ | .l1PutMono _ | .l1PutStereo _ | .l1PutIntensity _ => none
  | .rq2 _ _ _ _ _ | .l2PutMono _ | .l2PutStereo _ | .l2PutIntensity _ => none
  | .addSample _ _ _ | .synthStep _ | .convert _ _ _ | .emit => none

/-- The bytes of a word in stream order: big-endian (20_memory.md R42). -/
def streamBytes (w : Word) : List Byte :=
  [w.extractLsb' 24 8, w.extractLsb' 16 8, w.extractLsb' 8 8, w.extractLsb' 0 8]

/-- The word of four bytes of the stream (20_memory.md R42). -/
def wordOfStream (bytes : List Byte) : Word :=
  bytes.foldl (fun w b => (w.extractLsb' 0 24 ++ b : Word)) 0

/-- The byte lanes of a register word: little-endian (20_memory.md R43). -/
def busBytes (w : Word) : List Byte :=
  [w.extractLsb' 0 8, w.extractLsb' 8 8, w.extractLsb' 16 8, w.extractLsb' 24 8]

/-- The register word of four byte lanes (20_memory.md R43). -/
def wordOfBus (bytes : List Byte) : Word := wordOfStream bytes.reverse

/-- The operation of a row's bits as spec/opcode_table.json numbers them (log entry 14): 32 bits are a header word,
which the stream carries most significant byte first; 16 bits are the CRC word; fewer are a value written to CTRL,
whose other bits are 0. The internal rows and the stream fields of the table have no bits of their own. -/
def decodeTableWord (nbits w : Nat) : Option Instr :=
  if nbits = 32 then
    (decode .hdr32 (wordOfStream (streamBytes (BitVec.ofNat 32 w))).toNat).toOption
  else if nbits = 16 then (decode .crc16 (w % 2 ^ 16)).toOption
  else (decode .ctrlWrite (wordOfBus (busBytes (BitVec.ofNat 32 w))).toNat).toOption

end Sys2Proof
end

