-- ==== Sys2Proof/Machine/State.lean ====
section
/-! DEFINITION. The state of the block: every piece of state 10_state.md names, then the model's own fields, which stand
for the environment and for the value an operation hands back (log entries 6 and 10). Reset values are those of
10_state.md R38. -/
namespace Sys2Proof.Machine

/-- The sequencer's states (10_state.md R18, R29; 45_orchestrator.md R142). -/
inductive SeqState where
  | idle | awaitSync | header | fetch | alloc | scfsi | scalefactors | samples | emit | done | stopped | failed
  deriving DecidableEq, Repr

/-- The error codes (60_exceptions.md R157). -/
inductive ErrCode where
  | none | syncLoss | unsupportedStream | bitstreamUnderrun | corruptAllocation | crcMismatch
  deriving DecidableEq, Repr

/-- The host's choice of output channels (10_state.md R17, CHANSEL); there is no fourth value (R28). -/
inductive ChanSel where
  | both | left | right
  deriving DecidableEq, Repr

/-- The output format (10_state.md R17, FMT). -/
inductive OutFmt where
  | pcm16 | float32
  deriving DecidableEq, Repr

/-- The stored bits 7:3 of CTRL (10_state.md R17). -/
structure CtrlReg where
  strict  : Bool
  chansel : ChanSel
  fmt     : OutFmt
  irqEn   : Bool
  deriving DecidableEq, Repr

/-- The latched configuration (10_state.md R28). -/
structure LatchedCfg where
  strict  : Bool
  chansel : ChanSel
  fmt     : OutFmt
  deriving DecidableEq, Repr

/-- The current header record `hdr` (10_state.md R30). -/
structure HdrRecord where
  raw     : RawHeader
  bitrate : Nat           -- kbit/s
  fs      : Nat           -- Hz
  flen    : Nat           -- bytes
  nch     : Nat
  nchOut  : Nat
  sblimit : Nat
  bound   : Nat
  l2tab   : Option L2Tab  -- none for Layer I
  nslots  : Nat
  valid   : Bool
  deriving DecidableEq, Repr

/-- One entry of the subband context file (10_state.md R32). -/
structure SubCtx where
  alloc : BitVec 4
  lev   : Nat
  cw    : Nat
  grp   : Bool
  scfsi : BitVec 2
  sfx   : Vector (BitVec 6) 3
  smp   : Vector NumVal 3
  deriving DecidableEq, Repr

/-- The states of a subband (10_state.md R32). -/
inductive SubState where
  | unalloc | awaitSf | awaitSamples | sampleReady
  deriving DecidableEq, Repr

/-- The state of one synthesis filter (10_state.md R34): the input vector `S_f` and the history `V_f`. -/
structure Filter where
  s : Vector NumVal 32
  v : Vector NumVal 1024
  deriving DecidableEq, Repr

/-- An output sample (20_memory.md R43, R46): a 16-bit two's complement value, or a binary32 bit pattern. -/
inductive Sample where
  | pcm16 (v : BitVec 16)
  | float32 (v : F32)
  deriving DecidableEq, Repr

/-- A beat of the output frame buffer (10_state.md R35): the samples stored so far for output channels 0 and 1. -/
structure Beat where
  ch0 : Option Sample
  ch1 : Option Sample
  deriving DecidableEq, Repr

/-- A beat as the sink receives it (20_memory.md R46). -/
structure OutBeat where
  beat : Beat
  last : Bool
  deriving DecidableEq, Repr

/-- The frame buffer's contents as (index, byte) pairs, indices strictly rising, no pair with the byte an unlisted
index reads as (log entry 13). -/
abbrev Memory := List Host.Cell

/-- What an unlisted index reads as: 0, the reset contents of FB (10_state.md R31, R38). -/
def Memory.blank : Byte := 0

/-- The canonical form of a memory. -/
def Memory.wf : Memory → Bool
  | [] => true
  | [c] => c.2 != Memory.blank
  | c :: d :: rest => c.2 != Memory.blank && decide (c.1 < d.1) && Memory.wf (d :: rest)

/-- The byte source (20_memory.md R44): the bytes it has ready, and whether EOS follows them. With nothing ready and no
EOS it does not answer. -/
structure Source where
  avail : List Byte
  eos   : Bool
  deriving DecidableEq, Repr

/-- What the outside world may do between two steps of the block (70_reset_and_hazards.md R188), and `block`, which
lets the block take one step. An access carries its offset, and its width as a number of bytes or the bytes written. -/
inductive EnvEvent where
  | block
  | csrRead (off : Word) (nbytes : Nat)
  | csrWrite (off : Word) (lanes : List Byte)
  | hardReset
  | srcConnect (bytes : List Byte) (eos : Bool)
  | srcBytes (bytes : List Byte)
  | srcEos
  | sinkReady (ready : Bool)
  deriving DecidableEq, Repr

/-- The state of the block and of its environment. -/
structure State where
  -- the parameters the model takes (00_scope.md R8); no step changes them
  params           : Params
  -- registers (10_state.md R17, R19 to R26)
  ctrl             : CtrlReg
  header           : Word
  info             : Word
  frameCount       : Word
  byteCount        : Word
  errOffset        : Word
  diagCorruptAlloc : Word
  diagCrcMismatch  : Word
  diagBadGroup     : Word
  -- latched configuration (R28)
  cfg              : LatchedCfg
  -- sequencer (R29)
  seq              : SeqState
  stopReq          : Bool
  errcode          : ErrCode
  errdetail        : BitVec 4
  frameStart       : Word
  hdrBytes         : Nat
  hdrWord          : Word
  -- header record (R30)
  hdr              : HdrRecord
  -- bitstream cursor (R31)
  fb               : Memory
  flen             : BitVec 16
  bitpos           : Nat
  crc              : BitVec 16
  crcWord          : BitVec 16
  -- subband context file (R32), first index the channel
  ctx              : Vector (Vector SubCtx 32) 2
  sbst             : Vector SubState 32
  -- sample loop counters (R33)
  slot             : Nat
  l1n              : Nat
  gn               : Nat
  sn               : Nat
  -- synthesis filters (R34)
  filt             : Vector Filter 2
  -- output frame buffer (R35)
  ob               : List Beat
  obRd             : Nat
  -- the model's own: environment (log entry 6) and the value of the last GET_BITS (log entry 10)
  src              : Source
  sinkReady        : Bool
  delivered        : List OutBeat
  rdata            : Option Word
  bits             : Word
  script           : List EnvEvent
  deriving DecidableEq, Repr

/-- Why the model stops without a next state. No run from reset reaches one of them (log entry 12): each names a state
that the spec's own invariants rule out, so stopping is safe. -/
inductive Fault where
  | frameBufferOverrun   -- READ_HEADER_BYTES, FETCH_FRAME and field reads: an index past FRAME_BUF_BYTES (R84: never). Safe
  | noSuchField          -- the sequencer: a field whose class or subband does not exist (R118, R79: never). Safe
  | noAllocationTable    -- the sequencer: a Layer II frame without l2tab (R102: never). Safe
  | noSuchSample         -- L2_PUT_*: a sample index past the triplet (R33, R150: never). Safe
  | noBeat               -- EMIT: no beat left in OB (R149 to R151: never). Safe
  deriving DecidableEq, Repr

/-- Why the model has no meaning for what was asked. `notModelled` is for `exec` alone: an operation without a meaning
yet; safe. The other two are raised by register accesses outside the interface contract, which 20_memory.md R43 and
70_reset_and_hazards.md R188 have the model refuse; safe. -/
inductive Refusal where
  | notModelled (mnemonic : String)  -- exec. Safe
  | unalignedAccess                  -- REG_READ and host writes: an offset that is not a multiple of 4. Safe
  | accessWidth                      -- host reads and writes that are not 32 bits wide. Safe
  deriving DecidableEq, Repr

/-- What a step or a meaning answers. -/
abbrev Result := Host.Outcome State Fault Refusal

/-- A header record with every field 0 (10_state.md R30, R38). -/
def HdrRecord.zero : HdrRecord where
  raw := { ver := 0, layer := 0, prot := 0, bri := 0, sfi := 0, pad := 0, priv := 0, mode := 0, mx := 0, copy := 0,
           orig := 0, emph := 0 }
  bitrate := 0
  fs := 0
  flen := 0
  nch := 0
  nchOut := 0
  sblimit := 0
  bound := 0
  l2tab := none
  nslots := 0
  valid := false

/-- A subband context entry with every element 0 (10_state.md R32, R38). -/
def SubCtx.zero : SubCtx where
  alloc := 0
  lev := 0
  cw := 0
  grp := false
  scfsi := 0
  sfx := Vector.replicate 3 0
  smp := Vector.replicate 3 0

/-- A filter with every element 0 (10_state.md R34, R38). -/
def Filter.zero : Filter where
  s := Vector.replicate 32 0
  v := Vector.replicate 1024 0

/-- The state right after a hard reset (10_state.md R38, 70_reset_and_hazards.md R173), in an environment that has
nothing planned, a source that has not answered yet and a sink that accepts (DESIGN CHOICE, log entry 6); the parameters have
their defaults (log entry 1). -/
def State.reset : State where
  params := Params.default
  ctrl := { strict := false, chansel := .both, fmt := .pcm16, irqEn := false }
  header := 0
  info := 0
  frameCount := 0
  byteCount := 0
  errOffset := 0
  diagCorruptAlloc := 0
  diagCrcMismatch := 0
  diagBadGroup := 0
  cfg := { strict := false, chansel := .both, fmt := .pcm16 }
  seq := .idle
  stopReq := false
  errcode := .none
  errdetail := 0
  frameStart := 0
  hdrBytes := 0
  hdrWord := 0
  hdr := HdrRecord.zero
  fb := []
  flen := 0
  bitpos := 0
  crc := 0
  crcWord := 0
  ctx := Vector.replicate 2 (Vector.replicate 32 SubCtx.zero)
  sbst := Vector.replicate 32 .unalloc
  slot := 0
  l1n := 0
  gn := 0
  sn := 0
  filt := Vector.replicate 2 Filter.zero
  ob := []
  obRd := 0
  src := { avail := [], eos := false }
  sinkReady := true
  delivered := []
  rdata := none
  bits := 0
  script := []

end Sys2Proof.Machine
end

