-- ==== Sys2Proof/Machine/Flags.lean ====
section
/-! DEFINITION. The block's flags and accumulators: the saturating counters, the CRC accumulator, the interrupt line and
the STATUS and CTRL words. The block has no condition codes (10_state.md R15). -/
namespace Sys2Proof.Machine

/-- `Diag(c)` (10_state.md R27): one more, unless saturated. -/
def diagCount (c : Word) : Word := if c = 0xFFFFFFFF#32 then c else c + 1#32

/-- One bit into the CRC-16 accumulator (40_bitstream_reader.md R88). -/
def crcBit (crc : BitVec 16) (b : Bool) : BitVec 16 :=
  if crc.msb != b then (crc <<< 1) ^^^ 0x8005#16 else crc <<< 1

/-- `CrcAdd(v, n)` on an accumulator (40_bitstream_reader.md R88): the n low bits of v, most significant first. -/
def crcAdd (crc : BitVec 16) (v : Nat) : Nat → BitVec 16
  | 0 => crc
  | n + 1 => crcAdd (crcBit crc (v.testBit n)) v n

/-- `CrcAdd(v, n)`. -/
def State.crcAdd (s : State) (v n : Nat) : State := { s with crc := Machine.crcAdd s.crc v n }

/-- `CrcInit()` (40_bitstream_reader.md R87). -/
def State.crcInit (s : State) : State :=
  let s := { s with crc := 0xFFFF#16 }
  if s.hdr.raw.prot = 0#1 then s.crcAdd (s.hdrWord.extractLsb' 0 16).toNat 16 else s

/-- The interrupt line (60_exceptions.md R166). -/
def State.irq (s : State) : Bool :=
  s.ctrl.irqEn && (s.seq == .done || s.seq == .stopped || s.seq == .failed)

/-- The STATE field of STATUS (10_state.md R18). -/
def SeqState.code : SeqState → BitVec 4
  | .idle => 0
  | .awaitSync => 1
  | .header => 2
  | .fetch => 3
  | .alloc => 4
  | .scfsi => 5
  | .scalefactors => 6
  | .samples => 7
  | .emit => 8
  | .done => 9
  | .stopped => 10
  | .failed => 11

/-- The ERRCODE field of STATUS (60_exceptions.md R157). -/
def ErrCode.code : ErrCode → BitVec 4
  | .none => 0
  | .syncLoss => 1
  | .unsupportedStream => 2
  | .bitstreamUnderrun => 3
  | .corruptAllocation => 4
  | .crcMismatch => 5

/-- The STATUS word (10_state.md R18, 45_orchestrator.md R156). -/
def State.statusWord (s : State) : Word :=
  0#17 ++ BitVec.ofBool (s.hdr.valid && s.hdr.raw.prot == 0#1) ++ BitVec.ofBool (s.hdr.valid && s.hdr.nchOut == 2) ++
    BitVec.ofBool s.irq ++ s.errdetail ++ s.errcode.code ++ s.seq.code

/-- The CHANSEL field of CTRL (10_state.md R17). -/
def ChanSel.code : ChanSel → BitVec 2
  | .both => 0b00
  | .left => 0b01
  | .right => 0b10

/-- The FMT field of CTRL (10_state.md R17). -/
def OutFmt.code : OutFmt → BitVec 1
  | .pcm16 => 0
  | .float32 => 1

/-- The CTRL word as read (10_state.md R17): START and SOFT_RESET read 0, STOP reads `stop_req`. -/
def State.ctrlWord (s : State) : Word :=
  0#24 ++ BitVec.ofBool s.ctrl.irqEn ++ s.ctrl.fmt.code ++ s.ctrl.chansel.code ++ BitVec.ofBool s.ctrl.strict ++ 0#1 ++
    BitVec.ofBool s.stopReq ++ 0#1

/-- The value of CHANSEL a write stores (10_state.md R17): 11 is stored as 00. -/
def ChanSel.ofBits (v : BitVec 2) : ChanSel := if v = 0b01#2 then .left else if v = 0b10#2 then .right else .both

/-- Bits 7:3 of a write to CTRL (10_state.md R17). -/
def CtrlReg.ofWrite (v : CtrlWrite) : CtrlReg where
  strict := v.strict
  chansel := ChanSel.ofBits v.chansel
  fmt := if v.fmt then .float32 else .pcm16
  irqEn := v.irqEn

end Sys2Proof.Machine
end

