-- ==== Sys2Proof/Machine/Ops.lean ====
section
/-! DEFINITION. The named operations over the frame buffer, the subband context, the filters and the output buffer;
taking an exception (`raiseFatal`) and the ways back from it (`hardReset`, `softReset`); the start of a session. -/
namespace Sys2Proof.Machine

/-! ### The frame buffer (log entry 13) -/

/-- The byte at an index. -/
def Memory.read : Memory → Nat → Byte
  | [], _ => Memory.blank
  | c :: rest, a => if a = c.1 then c.2 else Memory.read rest a

/-- A byte written at an index; the canonical form is kept. -/
def Memory.write : Memory → Nat → Byte → Memory
  | [], a, b => if b = Memory.blank then [] else [(a, b)]
  | c :: rest, a, b =>
    if a < c.1 then (if b = Memory.blank then c :: rest else (a, b) :: c :: rest)
    else if a = c.1 then (if b = Memory.blank then rest else (a, b) :: rest)
    else c :: Memory.write rest a b

/-- Goes on with `FB[k] <- b` done, or stops at an index the frame buffer does not have (R84: never, log entry 12). -/
def State.storeFb (s : State) (k : Nat) (b : Byte) (go : State → Result) : Result :=
  if k < s.params.frameBufBytes then go { s with fb := s.fb.write k b } else .fault .frameBufferOverrun

/-! ### Exceptions and sessions -/

/-- `raise Fatal(code, detail)` (60_exceptions.md R160). -/
def State.raiseFatal (s : State) (code : ErrCode) (detail : BitVec 4) : State :=
  { s with errcode := code, errdetail := detail, errOffset := s.frameStart, ob := [], obRd := 0, seq := .failed }

/-- Hard reset (70_reset_and_hazards.md R173): every element of the block's state at its reset value. The parameters,
the environment and the value GET_BITS handed back are not the block's state and stay as they are (log entries 1, 6 and
10). -/
def State.hardReset (s : State) : State :=
  { State.reset with
    params := s.params, src := s.src, sinkReady := s.sinkReady, delivered := s.delivered, rdata := s.rdata, bits := s.bits
    script := s.script }

/-- Soft reset (70_reset_and_hazards.md R174): hard reset, but CTRL bits 7:3 keep the value just stored. This is the
only command that leaves FAILED (60_exceptions.md R164). -/
def State.softReset (s : State) : State := { s.hardReset with ctrl := s.ctrl }

/-- The configuration START latches (10_state.md R28). -/
def State.latched (s : State) : LatchedCfg :=
  { strict := s.ctrl.strict, chansel := s.ctrl.chansel, fmt := s.ctrl.fmt }

/-- A fresh start (45_orchestrator.md R153; 10_state.md R38, column "after a fresh START"). A STOP set in IDLE is kept and
acts at the first boundary (92_eei_decisions.md D26; log entry 20); one set in DONE is cleared (45_orchestrator.md R154). -/
def State.freshStart (s : State) : State :=
  { s.hardReset with
    ctrl := s.ctrl, cfg := s.latched, seq := .awaitSync, stopReq := decide (s.seq = .idle) && s.stopReq }

/-- A resume (45_orchestrator.md R153; 10_state.md R38, column "after a resume START", which also clears the loop
counters, log entry 19). -/
def State.resume (s : State) : State :=
  { s with cfg := s.latched, stopReq := false, seq := .awaitSync, slot := 0, l1n := 0, gn := 0, sn := 0 }

/-- The START command (45_orchestrator.md R153). -/
def State.startCommand (s : State) : State :=
  match s.seq with
  | .idle | .done => s.freshStart
  | .stopped => s.resume
  | .awaitSync | .header | .fetch | .alloc | .scfsi | .scalefactors | .samples | .emit | .failed => s

/-- The STOP command (45_orchestrator.md R154). -/
def State.stopCommand (s : State) : State := { s with stopReq := true }

/-- Bits 7:3 of a CTRL write are stored (10_state.md R17, order 1). -/
def State.storeCtrl (s : State) (v : CtrlWrite) : State := { s with ctrl := CtrlReg.ofWrite v }

/-! ### Composing the operations of one step -/

/-- Goes on after an operation, unless it stopped or entered FAILED: nothing after a failing action runs
(60_exceptions.md R159, R160). -/
def andThen (o : Result) (k : State → Result) : Result :=
  match o with
  | .next s => if s.seq = .failed then .next s else k s
  | .fault r => .fault r
  | .refused r => .refused r

/-- An operation for each item in order (00_scope.md R12), as long as none stops or fails. -/
def forEach {α : Type} (xs : List α) (body : α → State → Result) (s : State) : Result :=
  match xs with
  | [] => .next s
  | x :: rest => andThen (body x s) (forEach rest body)

/-! ### The subband context file -/

/-- The context entry of a channel and subband. -/
def State.sub (s : State) (ch : Fin 2) (sb : Fin 32) : SubCtx := (s.ctx[ch])[sb]

/-- The context entry of a channel and subband replaced. -/
def State.setSub (s : State) (ch : Fin 2) (sb : Fin 32) (c : SubCtx) : State :=
  { s with ctx := s.ctx.set ch ((s.ctx[ch]).set sb c) }

/-- `sbst[sb] <- x`. -/
def State.setSbst (s : State) (sb : Fin 32) (x : SubState) : State := { s with sbst := s.sbst.set sb x }

/-- `smp[ch][sb][k] <- x`. -/
def State.setSmp (s : State) (ch : Fin 2) (sb : Fin 32) (k : Fin 3) (x : NumVal) : State :=
  s.setSub ch sb { s.sub ch sb with smp := (s.sub ch sb).smp.set k x }

/-! ### The filters and the output buffer -/

/-- `AddSample(f, sb, x)` (44_synthesis_filter.md R132). -/
def State.addSample (s : State) (f : Fin 2) (sb : Fin 32) (x : NumVal) : State :=
  { s with filt := s.filt.set f { s.filt[f] with s := (s.filt[f]).s.set sb x } }

/-- A beat with no sample stored yet. -/
def Beat.blank : Beat := { ch0 := none, ch1 := none }

/-- A sample stored as the channel-f sample of a beat (44_synthesis_filter.md R140). -/
def Beat.put (b : Beat) (f : Fin 2) (x : Sample) : Beat :=
  if f = 0 then { b with ch0 := some x } else { b with ch1 := some x }

/-- The beat at an index changed; the list is made long enough first (log entry 17). -/
def changeBeat (g : Beat → Beat) : List Beat → Nat → List Beat
  | [], 0 => [g Beat.blank]
  | [], n + 1 => Beat.blank :: changeBeat g [] n
  | b :: rest, 0 => g b :: rest
  | b :: rest, n + 1 => b :: changeBeat g rest n

/-- `OB_put(f, j, x)` (44_synthesis_filter.md R140): the channel-f sample of beat j of the current slot. -/
def State.obPut (s : State) (f : Fin 2) (j : Fin 32) (x : Sample) : State :=
  { s with ob := changeBeat (fun b => b.put f x) s.ob (32 * s.slot + j.val) }

/-- `SKIP_TO_FRAME_END` (40_bitstream_reader.md R90). -/
def State.skipToFrameEnd (s : State) : State := { s with bitpos := 8 * s.flen.toNat }

end Sys2Proof.Machine
end

