-- ==== Sys2Proof/Machine/Operands.lean ====
section
/-! DEFINITION. Where operands come from: the bits of the current frame (40_bitstream_reader.md R85, R86), the bytes of
the source (20_memory.md R44), and the registers (20_memory.md R40). -/
namespace Sys2Proof.Machine

/-- Bit p of the frame buffer, counted from the most significant bit of FB[0] (40_bitstream_reader.md R85). -/
def State.frameBit (s : State) (p : Nat) : Bool := (s.fb.read (p / 8)).getLsbD (7 - p % 8)

/-- The n bits at a bit position, the first one most significant (40_bitstream_reader.md R85, 20_memory.md R42). -/
def State.peekFrom (s : State) (p : Nat) : Nat → Nat
  | 0 => 0
  | n + 1 => 2 * s.peekFrom p n + (s.frameBit (p + n)).toNat

/-- The value `GetBits(n)` would return, the cursor left where it is. -/
def State.peekBits (s : State) (n : Nat) : Nat := s.peekFrom s.bitpos n

/-- The cursor part of `GetBits(n)` (40_bitstream_reader.md R85, R86): BITSTREAM_UNDERRUN detail 2 when the field would
cross the frame end, else go on with the cursor advanced. A frame longer than the frame buffer does not exist (R84). -/
def State.takeBits (s : State) (n : Nat) (go : State → Result) : Result :=
  if 8 * s.flen.toNat < s.bitpos + n then .next (s.raiseFatal .bitstreamUnderrun 2)
  else if 8 * s.params.frameBufBytes < s.bitpos + n then .fault .frameBufferOverrun
  else go { s with bitpos := s.bitpos + n }

/-- What `SrcByte()` answers (20_memory.md R44). -/
inductive SrcAnswer where
  | byte (b : Byte) (rest : List Byte)
  | eos
  | waiting
  deriving DecidableEq, Repr

/-- The source's answer now. -/
def Source.answer (src : Source) : SrcAnswer :=
  match src.avail with
  | b :: rest => .byte b rest
  | [] => if src.eos then .eos else .waiting

/-- A byte taken from the source (40_bitstream_reader.md R91: BYTE_COUNT grows by one, modulo 2^32). -/
def State.takeByte (s : State) (rest : List Byte) : State :=
  { s with src := { s.src with avail := rest }, byteCount := s.byteCount + 1#32 }

/-- The index in FB of the next frame byte (40_bitstream_reader.md R84, R91; log entry 9). -/
def State.framePos (s : State) : Nat := (s.byteCount - s.frameStart).toNat

/-- The register at an offset (20_memory.md R40, 10_state.md R16): an offset with no register reads as 0. -/
def State.readReg (s : State) (off : Word) : Word :=
  match off.toNat with
  | 0x00 => s.ctrlWord
  | 0x04 => s.statusWord
  | 0x08 => s.header
  | 0x0C => s.info
  | 0x10 => s.frameCount
  | 0x14 => s.byteCount
  | 0x18 => s.errOffset
  | 0x1C => s.diagCorruptAlloc
  | 0x20 => s.diagCrcMismatch
  | 0x24 => s.diagBadGroup
  | _ => 0

/-- The scale factor of a part of a context entry, `SF[sfx[part]]` (30_encoding.md R73). -/
def SubCtx.gain (c : SubCtx) (p : Params) (part : Fin 3) : NumVal := scaleFactor p c.sfx[part]

/-- The channels 0..n-1 in ascending order (00_scope.md R12). -/
def channelsBelow (n : Nat) : List (Fin 2) := (List.finRange 2).filter (fun ch => ch.val < n)

/-- The subbands lo..hi-1 in ascending order (00_scope.md R12). -/
def subbandsIn (lo hi : Nat) : List (Fin 32) := (List.finRange 32).filter (fun sb => lo ≤ sb.val && sb.val < hi)

end Sys2Proof.Machine
end

