-- ==== Sys2Proof/Machine/Control.lean ====
section
/-! DEFINITION. The host commands (10_state.md R17, 30_encoding.md R80, 45_orchestrator.md R153 to R155), the register
read (10_state.md R16) and the output beat (45_orchestrator.md R151). -/
namespace Sys2Proof.Machine

/-- CTRL_SOFT_RESET (45_orchestrator.md R155): bits 7:3 are stored, then the soft reset; bits 0 and 1 are ignored. -/
def execCtrlSoftReset (v : CtrlWrite) (s : State) : Result := .next (s.storeCtrl v).softReset

/-- CTRL_START (45_orchestrator.md R153): bits 7:3 are stored, then START, then STOP if it is in the same write
(10_state.md R17, R154; log entry 11). -/
def execCtrlStart (v : CtrlWrite) (s : State) : Result :=
  let t := (s.storeCtrl v).startCommand
  .next (if v.stop then t.stopCommand else t)

/-- CTRL_STOP (45_orchestrator.md R154). -/
def execCtrlStop (v : CtrlWrite) (s : State) : Result := .next (s.storeCtrl v).stopCommand

/-- CTRL_CONFIG (10_state.md R17, 30_encoding.md R80): only bits 7:3 are stored. -/
def execCtrlConfig (v : CtrlWrite) (s : State) : Result := .next (s.storeCtrl v)

/-- REG_READ (10_state.md R16): the register's value goes to the host, and nothing else changes. An offset that is not
a multiple of 4 is refused (20_memory.md R43). -/
def execRegRead (off : Word) (s : State) : Result :=
  if off.toNat % 4 ≠ 0 then .refused .unalignedAccess else .next { s with rdata := some (s.readReg off) }

/-- The end of a frame's EMIT (45_orchestrator.md R151). -/
def State.finishFrame (s : State) : State :=
  { { s with frameCount := s.frameCount + 1#32 }.skipToFrameEnd with ob := [], obRd := 0, seq := .awaitSync }

/-- EMIT (45_orchestrator.md R151): one beat to the sink. A sink that does not accept holds the block
(20_memory.md R46, log entry 8); a beat that OB does not hold does not exist (log entry 12). -/
def execEmit (s : State) : Result :=
  match s.ob[s.obRd]? with
  | none => .fault .noBeat
  | some b =>
    if s.sinkReady then
      let t := { s with
        delivered := s.delivered ++ [{ beat := b, last := s.obRd + 1 == s.ob.length }], obRd := s.obRd + 1 }
      .next (if s.obRd + 1 = s.ob.length then t.finishFrame else t)
    else .next s

end Sys2Proof.Machine
end

