-- ==== Sys2Proof/Machine/Header.lean ====
section
/-! DEFINITION. PARSE_HEADER and the thirteen header classes (41_header_parser.md R92 to R103). Each class has its own
meaning; `parseHeader` is the priority order of R92, which READ_HEADER_BYTES runs at the fourth byte. -/
namespace Sys2Proof.Machine

/-- Frame length in bytes (41_header_parser.md R100). -/
def frameLength (layerI : Bool) (bitrate fs pad : Nat) : Nat :=
  if layerI then (12000 * bitrate / fs + pad) * 4 else 144000 * bitrate / fs + pad

/-- `nch` (41_header_parser.md R101). -/
def channelCount (mode : BitVec 2) : Nat := if mode = 0b11#2 then 1 else 2

/-- `nch_out` (41_header_parser.md R101). -/
def outputChannels (nch : Nat) (sel : ChanSel) : Nat := if nch = 2 ∧ sel = .both then 2 else 1

/-- `bound` (41_header_parser.md R102). -/
def intensityBound (raw : RawHeader) (sblimit : Nat) : Nat :=
  if raw.mode = 0b01#2 then min (4 * (raw.mx.toNat + 1)) sblimit else sblimit

/-- The header record of an accepted header (41_header_parser.md R92 step 7, R99 to R103). -/
def headerRecord (sel : ChanSel) (raw : RawHeader) : HdrRecord :=
  let lsf := raw.ver != 0b11#2
  let layerI := raw.layer == 0b11#2
  let bitrate := bitrateOf lsf layerI raw.bri
  let fs := sampleRate raw.ver raw.sfi
  let nch := channelCount raw.mode
  let tab := if layerI then none else some (selectL2Tab lsf nch raw.bri fs)
  let sblimit := (tab.map l2Sblimit).getD 32
  { raw := raw
    bitrate := bitrate
    fs := fs
    flen := frameLength layerI bitrate fs raw.pad.toNat
    nch := nch
    nchOut := outputChannels nch sel
    sblimit := sblimit
    bound := intensityBound raw sblimit
    l2tab := tab
    nslots := if layerI then 12 else 36
    valid := true }

/-- INFO (10_state.md R20, 41_header_parser.md R92 step 7). -/
def infoWord (r : HdrRecord) : Word :=
  0#2 ++ BitVec.ofNat 2 r.nch ++ BitVec.ofNat 6 r.bound ++ BitVec.ofNat 6 r.sblimit ++ BitVec.ofNat 16 r.flen

/-- A header past the sync check and then rejected (41_header_parser.md R92 steps 2 to 6): HEADER keeps the word. -/
def State.rejectHeader (s : State) (h : HeaderFields) (detail : BitVec 4) : State :=
  { s with header := h.word }.raiseFatal .unsupportedStream detail

/-- An accepted header (41_header_parser.md R92 steps 2 and 7). -/
def State.acceptHeader (s : State) (h : HeaderFields) : State :=
  let r := headerRecord s.cfg.chansel h.raw
  { s with header := h.word, hdr := r, info := infoWord r, flen := BitVec.ofNat 16 r.flen, seq := .fetch }

/-- HDR_SYNC_LOSS (41_header_parser.md R93): fatal, and HEADER is not written. -/
def execHdrSyncLoss (_h : HeaderFields) (s : State) : Result := .next (s.raiseFatal .syncLoss 0)

/-- HDR_UNSUP_VERSION (41_header_parser.md R94). -/
def execHdrUnsupVersion (h : HeaderFields) (s : State) : Result := .next (s.rejectHeader h 1)

/-- HDR_UNSUP_LAYER_RESERVED (41_header_parser.md R95). -/
def execHdrUnsupLayerReserved (h : HeaderFields) (s : State) : Result := .next (s.rejectHeader h 2)

/-- HDR_UNSUP_LAYER_III (41_header_parser.md R95). -/
def execHdrUnsupLayerIII (h : HeaderFields) (s : State) : Result := .next (s.rejectHeader h 3)

/-- HDR_UNSUP_FREE_FORMAT (41_header_parser.md R96). -/
def execHdrUnsupFreeFormat (h : HeaderFields) (s : State) : Result := .next (s.rejectHeader h 4)

/-- HDR_UNSUP_BITRATE (41_header_parser.md R96). -/
def execHdrUnsupBitrate (h : HeaderFields) (s : State) : Result := .next (s.rejectHeader h 5)

/-- HDR_UNSUP_SFREQ (41_header_parser.md R97). -/
def execHdrUnsupSfreq (h : HeaderFields) (s : State) : Result := .next (s.rejectHeader h 6)

/-- HDR_MPEG1_L1 (41_header_parser.md R92 step 7). -/
def execHdrMpeg1L1 (h : HeaderFields) (s : State) : Result := .next (s.acceptHeader h)

/-- HDR_MPEG1_L2 (41_header_parser.md R92 step 7). -/
def execHdrMpeg1L2 (h : HeaderFields) (s : State) : Result := .next (s.acceptHeader h)

/-- HDR_MPEG2_L1 (41_header_parser.md R92 step 7). -/
def execHdrMpeg2L1 (h : HeaderFields) (s : State) : Result := .next (s.acceptHeader h)

/-- HDR_MPEG2_L2 (41_header_parser.md R92 step 7). -/
def execHdrMpeg2L2 (h : HeaderFields) (s : State) : Result := .next (s.acceptHeader h)

/-- HDR_MPEG25_L1 (41_header_parser.md R92 step 7). -/
def execHdrMpeg25L1 (h : HeaderFields) (s : State) : Result := .next (s.acceptHeader h)

/-- HDR_MPEG25_L2 (41_header_parser.md R92 step 7). -/
def execHdrMpeg25L2 (h : HeaderFields) (s : State) : Result := .next (s.acceptHeader h)

/-- `PARSE_HEADER(h)` (41_header_parser.md R92), its checks in their order. -/
def parseHeader (h : HeaderFields) (s : State) : Result :=
  if h.sync ≠ 0x7FF#11 then execHdrSyncLoss h s
  else if h.raw.ver = 0b01#2 then execHdrUnsupVersion h s
  else if h.raw.layer = 0b00#2 then execHdrUnsupLayerReserved h s
  else if h.raw.layer = 0b01#2 then execHdrUnsupLayerIII h s
  else if h.raw.bri = 0#4 then execHdrUnsupFreeFormat h s
  else if h.raw.bri = 15#4 then execHdrUnsupBitrate h s
  else if h.raw.sfi = 3#2 then execHdrUnsupSfreq h s
  else if h.raw.ver = 0b11#2 then (if h.raw.layer = 0b11#2 then execHdrMpeg1L1 h s else execHdrMpeg1L2 h s)
  else if h.raw.ver = 0b10#2 then (if h.raw.layer = 0b11#2 then execHdrMpeg2L1 h s else execHdrMpeg2L2 h s)
  else (if h.raw.layer = 0b11#2 then execHdrMpeg25L1 h s else execHdrMpeg25L2 h s)

end Sys2Proof.Machine
end

