-- ==== Sys2Proof/Machine/Reader.lean ====
section
/-! DEFINITION. The bitstream reader (40_bitstream_reader.md R83 to R91) and the CRC word (41_header_parser.md R104). An
operation that waits for the source has not started: it answers the state as it was (45_orchestrator.md R143, log
entry 8). -/
namespace Sys2Proof.Machine

/-- CRC_WORD, READ_CRC_WORD (41_header_parser.md R104): not fed into the CRC. -/
def execCrcWord (c : BitVec 16) (s : State) : Result := s.takeBits 16 fun s => .next { s with crcWord := c }

/-- READ_HEADER_BYTES (40_bitstream_reader.md R83), one byte; PARSE_HEADER at the fourth. -/
def execReadHeaderBytes (s : State) : Result :=
  match s.src.answer with
  | .waiting => .next s
  | .eos =>
    let s := if s.hdrBytes = 0 then { s with frameStart := s.byteCount } else s
    if s.hdrBytes = 0 then .next { s with seq := .done } else .next (s.raiseFatal .bitstreamUnderrun 1)
  | .byte b rest =>
    let s := if s.hdrBytes = 0 then { s with frameStart := s.byteCount } else s
    (s.takeByte rest).storeFb s.hdrBytes b fun s =>
      let s := { s with hdrWord := s.hdrWord.extractLsb' 0 24 ++ b, hdrBytes := s.hdrBytes + 1 }
      if s.hdrBytes = 4 then parseHeader (HeaderFields.ofWord s.hdrWord) s else .next s

/-- The end of FETCH (40_bitstream_reader.md R84): the cursor past the header, CrcInit, READ_CRC_WORD if protected. -/
def finishFetch (s : State) : Result :=
  let s := { s with bitpos := 32 }.crcInit
  andThen (if s.hdr.raw.prot = 0#1 then execCrcWord (BitVec.ofNat 16 (s.peekBits 16)) s else .next s)
    fun s => .next { s with seq := .alloc }

/-- FETCH_FRAME (40_bitstream_reader.md R84), one byte; the end of FETCH after the last. Which byte is next follows
from BYTE_COUNT and `frame_start` (R91, log entry 9). -/
def execFetchFrame (s : State) : Result :=
  if s.flen.toNat ≤ s.framePos then finishFetch s
  else
    match s.src.answer with
    | .waiting => .next s
    | .eos => .next (s.raiseFatal .bitstreamUnderrun 1)
    | .byte b rest =>
      (s.takeByte rest).storeFb s.framePos b fun s =>
        if s.flen.toNat ≤ s.framePos then finishFetch s else .next s

/-- GET_BITS (40_bitstream_reader.md R85, R86); the value is left in `bits` (log entry 10). -/
def execGetBits (n : Nat) (s : State) : Result :=
  s.takeBits n fun t => .next { t with bits := BitVec.ofNat 32 (s.peekBits n) }

/-- CRC_CHECK (40_bitstream_reader.md R89). -/
def execCrcCheck (s : State) : Result :=
  if s.hdr.raw.prot = 0#1 ∧ s.crc ≠ s.crcWord then
    if s.cfg.strict then .next (s.raiseFatal .crcMismatch 0)
    else .next { s with diagCrcMismatch := diagCount s.diagCrcMismatch }
  else .next s

/-- SKIP_TO_FRAME_END (40_bitstream_reader.md R90). -/
def execSkipToFrameEnd (s : State) : Result := .next s.skipToFrameEnd

end Sys2Proof.Machine
end

