-- ==== Sys2Proof/Machine/LayerI.lean ====
section
/-! DEFINITION. Layer I subband decoding (42_layer1_decode.md R105 to R116). A field operation does what one `GetBits`
of the pseudocode and the assignments to its result do; the loops over subbands and channels, with what ends each
subband, are the sequencer's (Sys2Proof/Machine/Sequencer.lean). -/
namespace Sys2Proof.Machine

/-- `L1_DEQUANT(code, a)` (42_layer1_decode.md R110). -/
def l1DequantValue (d : NumDomain) (code : BitVec 16) (a : BitVec 4) : NumVal :=
  d.add (d.mul (d.ofInt code.toNat) (tableFactor d a)) (tableOffset d a)

/-- The assignments to `alloc`, `cw`, `lev` and `grp` for an effective Layer I code (42_layer1_decode.md R106). -/
def SubCtx.withL1Alloc (c : SubCtx) (a : BitVec 4) : SubCtx :=
  if a = 0#4 then { c with alloc := a, lev := 0, cw := 0 }
  else { c with alloc := a, cw := a.toNat + 1, lev := l1Levels a, grp := false }

/-- L1_ALLOC (42_layer1_decode.md R106): the code is fed into the CRC. -/
def execL1Alloc (sb : Fin 32) (ch : Fin 2) (a : BitVec 4) (s : State) : Result :=
  s.takeBits 4 fun s =>
    let s := s.crcAdd a.toNat 4
    .next (s.setSub ch sb ((s.sub ch sb).withL1Alloc a))

/-- L1_ALLOC_CORRUPT (42_layer1_decode.md R105, R106): the CRC sees the transmitted code 15; then fatal in strict mode,
or counted and treated as 14. -/
def execL1AllocCorrupt (sb : Fin 32) (ch : Fin 2) (s : State) : Result :=
  s.takeBits 4 fun s =>
    let s := s.crcAdd 15 4
    if s.cfg.strict then .next (s.raiseFatal .corruptAllocation 1)
    else
      let s := { s with diagCorruptAlloc := diagCount s.diagCorruptAlloc }
      .next (s.setSub ch sb ((s.sub ch sb).withL1Alloc 14#4))

/-- L1_SCALEFACTOR (42_layer1_decode.md R108): part 0 only (R115). -/
def execL1Scalefactor (sb : Fin 32) (ch : Fin 2) (x : BitVec 6) (s : State) : Result :=
  s.takeBits 6 fun s =>
    let c := s.sub ch sb
    .next (s.setSub ch sb { c with sfx := c.sfx.set 0 x })

/-- L1_SAMPLE (42_layer1_decode.md R109): a code of `a + 1` bits, dequantized into element 0. -/
def execL1Sample (sb : Fin 32) (ch : Fin 2) (a : BitVec 4) (q : BitVec 16) (s : State) : Result :=
  s.takeBits (a.toNat + 1) fun s => .next (s.setSmp ch sb 0 (l1DequantValue s.params.num q a))

/-- L1_DEQUANT (42_layer1_decode.md R110) as R109 uses it: the result goes to element 0 (log entry 10). -/
def execL1Dequant (sb : Fin 32) (ch : Fin 2) (code : BitVec 16) (a : BitVec 4) (s : State) : Result :=
  .next (s.setSmp ch sb 0 (l1DequantValue s.params.num code a))

/-- A sample scaled by the scale factor of a part, `fl(smp[k] · SF[sfx[part]])`. -/
def State.scaledSample (s : State) (value gainOf : SubCtx) (k part : Fin 3) : NumVal :=
  s.params.num.mul value.smp[k] (gainOf.gain s.params part)

/-- The Mono put (42_layer1_decode.md R111, 43_layer2_decode.md R128). -/
def State.putMono (s : State) (sb : Fin 32) (k part : Fin 3) : State :=
  let c0 := s.sub 0 sb
  if c0.alloc ≠ 0#4 then s.addSample 0 sb (s.scaledSample c0 c0 k part) else s

/-- The Stereo put (42_layer1_decode.md R112, 43_layer2_decode.md R129). -/
def State.putStereo (s : State) (sb : Fin 32) (k part : Fin 3) : State :=
  let c0 := s.sub 0 sb
  let c1 := s.sub 1 sb
  let t := if c0.alloc ≠ 0#4 ∧ s.cfg.chansel ≠ .right then s.addSample 0 sb (s.scaledSample c0 c0 k part) else s
  if c1.alloc ≠ 0#4 ∧ s.cfg.chansel ≠ .left then
    t.addSample (if s.cfg.chansel = .both then 1 else 0) sb (s.scaledSample c1 c1 k part)
  else t

/-- The IntensityStereo put (42_layer1_decode.md R113, 43_layer2_decode.md R130): one magnitude, each channel's own
scale factor. -/
def State.putIntensity (s : State) (sb : Fin 32) (k part : Fin 3) : State :=
  let c0 := s.sub 0 sb
  let c1 := s.sub 1 sb
  if c0.alloc ≠ 0#4 then
    match s.cfg.chansel with
    | .both => (s.addSample 0 sb (s.scaledSample c0 c0 k part)).addSample 1 sb (s.scaledSample c0 c1 k part)
    | .left => s.addSample 0 sb (s.scaledSample c0 c0 k part)
    | .right => s.addSample 0 sb (s.scaledSample c0 c1 k part)
  else s

/-- L1_PUT_MONO (42_layer1_decode.md R111). -/
def execL1PutMono (sb : Fin 32) (s : State) : Result := .next (s.putMono sb 0 0)

/-- L1_PUT_STEREO (42_layer1_decode.md R112). -/
def execL1PutStereo (sb : Fin 32) (s : State) : Result := .next (s.putStereo sb 0 0)

/-- L1_PUT_INTENSITY (42_layer1_decode.md R113). -/
def execL1PutIntensity (sb : Fin 32) (s : State) : Result := .next (s.putIntensity sb 0 0)

end Sys2Proof.Machine
end

