-- ==== Sys2Proof/Machine/LayerII.lean ====
section
/-! DEFINITION. Layer II subband decoding (43_layer2_decode.md R117 to R131), one field or put at a time; the loops are
the sequencer's. -/
namespace Sys2Proof.Machine

/-- `x = v · 2^(1 - nb) - 1 + D` (43_layer2_decode.md R125), exact in binary32. -/
def rq2X (d : NumDomain) (v n : Nat) : NumVal :=
  let num : Int := 2 * (v : Int) - 2 ^ sampleBits n + 2 ^ (sampleBits n - dExponent n)
  d.ratio num (2 ^ sampleBits n)

/-- `RQ2(v, n) = fl(C_f · x)` with `C_f = fl(2^nb / n)` (43_layer2_decode.md R125). -/
def rq2Value (d : NumDomain) (v n : Nat) : NumVal := d.mul (d.ratio (2 ^ sampleBits n) n) (rq2X d v n)

/-- The assignments to `alloc`, `lev`, `cw` and `grp` for a Layer II code (43_layer2_decode.md R118). -/
def SubCtx.withL2Alloc (c : SubCtx) (tab : L2Tab) (sb : Fin 32) (a : BitVec 4) : SubCtx :=
  if a = 0#4 then { c with alloc := a, lev := 0, cw := 0, grp := false }
  else
    let n := levels tab sb.val a.toNat
    { c with alloc := a, lev := n, cw := codeWidth n, grp := isGrouped n }

/-- L2_ALLOC (43_layer2_decode.md R118): the code is fed into the CRC. -/
def execL2Alloc (tab : L2Tab) (sb : Fin 32) (ch : Fin 2) (a : BitVec 4) (s : State) : Result :=
  s.takeBits (nbal tab sb.val) fun s =>
    let s := s.crcAdd a.toNat (nbal tab sb.val)
    .next (s.setSub ch sb ((s.sub ch sb).withL2Alloc tab sb a))

/-- L2_SCFSI (43_layer2_decode.md R119): the code is fed into the CRC. -/
def execL2Scfsi (sb : Fin 32) (ch : Fin 2) (x : BitVec 2) (s : State) : Result :=
  s.takeBits 2 fun s =>
    let s := s.crcAdd x.toNat 2
    .next (s.setSub ch sb { s.sub ch sb with scfsi := x })

/-- The indices of the three parts (30_encoding.md R74). -/
def partIndices (r : SfRead) : Vector (BitVec 6) 3 :=
  match r with
  | .three x0 x1 x2 => #v[x0, x1, x2]
  | .firstTwo x0 x1 => #v[x0, x0, x1]
  | .one x0 => #v[x0, x0, x0]
  | .lastTwo x0 x1 => #v[x0, x1, x1]

/-- Fields of one width read one after the other, then going on (00_scope.md R12). -/
def State.takeFields (s : State) (width count : Nat) (go : State → Result) : Result :=
  match count with
  | 0 => go s
  | count + 1 => s.takeBits width fun s => s.takeFields width count go

/-- L2_SCALEFACTOR (43_layer2_decode.md R120): one, two or three indices by SCFSI, then `sfx`. -/
def execL2Scalefactor (sb : Fin 32) (ch : Fin 2) (r : SfRead) (s : State) : Result :=
  s.takeFields 6 r.indices.length fun s => .next (s.setSub ch sb { s.sub ch sb with sfx := partIndices r })

/-- The three digits of a grouped code, requantized (43_layer2_decode.md R122). -/
def State.storeTriplet (s : State) (sb : Fin 32) (ch : Fin 2) (n c : Nat) : State :=
  s.setSub ch sb { s.sub ch sb with
    smp := #v[rq2Value s.params.num (c % n) n, rq2Value s.params.num (c / n % n) n, rq2Value s.params.num (c / n ^ 2 % n) n] }

/-- L2_GROUPED (43_layer2_decode.md R122), a code below n³. -/
def execL2Grouped (sb : Fin 32) (ch : Fin 2) (n : Nat) (c : BitVec 16) (s : State) : Result :=
  s.takeBits (codeWidth n) fun s => .next (s.storeTriplet sb ch n c.toNat)

/-- L2_GROUPED_OUT_OF_RANGE (43_layer2_decode.md R124): counted, and read as n³ - 1, in both modes. -/
def execL2GroupedOutOfRange (sb : Fin 32) (ch : Fin 2) (n : Nat) (_c : BitVec 16) (s : State) : Result :=
  s.takeBits (codeWidth n) fun s =>
    .next ({ s with diagBadGroup := diagCount s.diagBadGroup }.storeTriplet sb ch n (n ^ 3 - 1))

/-- L2_UNGROUPED (43_layer2_decode.md R123): three codes, each requantized as it is read. -/
def execL2Ungrouped (sb : Fin 32) (ch : Fin 2) (n : Nat) (v0 v1 v2 : BitVec 16) (s : State) : Result :=
  s.takeBits (codeWidth n) fun s =>
    (s.setSmp ch sb 0 (rq2Value s.params.num v0.toNat n)).takeBits (codeWidth n) fun s =>
      (s.setSmp ch sb 1 (rq2Value s.params.num v1.toNat n)).takeBits (codeWidth n) fun s =>
        .next (s.setSmp ch sb 2 (rq2Value s.params.num v2.toNat n))

/-- RQ2 (43_layer2_decode.md R125) as R122 and R123 use it: the result goes to element k (log entry 10). -/
def execRq2 (sb : Fin 32) (ch : Fin 2) (k : Fin 3) (v : BitVec 16) (n : Nat) (s : State) : Result :=
  .next (s.setSmp ch sb k (rq2Value s.params.num v.toNat n))

/-- A Layer II put of sample `sn` with part `part(gn)`; a sample index past the triplet does not exist
(10_state.md R33, 45_orchestrator.md R150; log entry 12). -/
def State.putL2 (s : State) (put : Fin 3 → Fin 3 → State) : Result :=
  if h : s.sn < 3 then .next (put ⟨s.sn, h⟩ (scalePart s.gn)) else .fault .noSuchSample

/-- L2_PUT_MONO (43_layer2_decode.md R128). -/
def execL2PutMono (sb : Fin 32) (s : State) : Result := s.putL2 (s.putMono sb)

/-- L2_PUT_STEREO (43_layer2_decode.md R129). -/
def execL2PutStereo (sb : Fin 32) (s : State) : Result := s.putL2 (s.putStereo sb)

/-- L2_PUT_INTENSITY (43_layer2_decode.md R130). -/
def execL2PutIntensity (sb : Fin 32) (s : State) : Result := s.putL2 (s.putIntensity sb)

end Sys2Proof.Machine
end

