-- ==== Sys2Proof/Machine/Synthesis.lean ====
section
/-! DEFINITION. The polyphase synthesis filter and the output conversion (44_synthesis_filter.md R132 to R140), in the
evaluation order of the pseudocode (00_scope.md R10). -/
namespace Sys2Proof.Machine

/-- `V_f[i]` of the newest vector (44_synthesis_filter.md R134 step 2): products added in ascending order of k. -/
def matrixRow (d : NumDomain) (sIn : Vector NumVal 32) (i : Nat) : NumVal :=
  ((List.finRange 32).tail).foldl (fun acc k => d.add acc (d.mul (synthMatrix d i k.val) sIn[k]))
    (d.mul (synthMatrix d i 0) sIn[0])

/-- The history after a step (44_synthesis_filter.md R134 steps 1 and 2). -/
def nextHistory (d : NumDomain) (sIn : Vector NumVal 32) (v : Vector NumVal 1024) : Vector NumVal 1024 :=
  Vector.ofFn fun i => if i.val < 64 then matrixRow d sIn i.val else v[i.val - 64]

/-- `U[i]` (44_synthesis_filter.md R134 step 3). -/
def buildU (v : Vector NumVal 1024) (i : Fin 512) : NumVal :=
  if i.val % 64 < 32 then v[128 * (i.val / 64) + i.val % 64]
  else v[128 * (i.val / 64) + 96 + (i.val % 64 - 32)]

/-- `W[i]` (44_synthesis_filter.md R134 step 4). -/
def windowed (d : NumDomain) (v : Vector NumVal 1024) (i : Fin 512) : NumVal := d.mul (buildU v i) (d.ops.window i)

/-- `out[j]` (44_synthesis_filter.md R134 step 5): 16 taps added in ascending order. -/
def filterOut (d : NumDomain) (v : Vector NumVal 1024) (j : Fin 32) : NumVal :=
  ((List.finRange 16).tail).foldl (fun y i => d.add y (windowed d v ⟨j.val + 32 * i.val, by omega⟩))
    (windowed d v ⟨j.val, by omega⟩)

/-- A value clamped to the signed 16-bit range (44_synthesis_filter.md R140). -/
def clamp16 (q : Int) : BitVec 16 := BitVec.ofInt 16 (max (-32768) (min 32767 q))

/-- The PCM16 code of a normalised value (44_synthesis_filter.md R140); free for a value that has no integer (log entry
4). -/
def pcm16Of (p : Params) (y : NumVal) : BitVec 16 :=
  let q := p.num.mul y (p.num.ofRat p.outScale)
  match p.num.ops.toInt? p.pcmConvert q with
  | some n => clamp16 n
  | none => Config.pcmOfNan q

/-- `CONVERT(y)` (44_synthesis_filter.md R140). A float sample is a binary32 bit pattern (20_memory.md R43): the value
itself under binary32, the free conversion of another domain (log entry 1). -/
def convertSample (p : Params) (fmt : OutFmt) (y : NumVal) : Sample :=
  match fmt with
  | .pcm16 => .pcm16 (pcm16Of p y)
  | .float32 => .float32 (p.num.ops.toF32 y)

/-- ADD_SAMPLE (44_synthesis_filter.md R132). -/
def execAddSample (f : Fin 2) (sb : Fin 32) (x : NumVal) (s : State) : Result := .next (s.addSample f sb x)

/-- CONVERT (44_synthesis_filter.md R140) as R134 step 6 uses it: the result goes to the output buffer by OB_put
(log entry 10). -/
def execConvert (f : Fin 2) (j : Fin 32) (y : NumVal) (s : State) : Result :=
  .next (s.obPut f j (convertSample s.params s.cfg.fmt y))

/-- `SynthStep(f)` (44_synthesis_filter.md R134). -/
def State.synthStep (s : State) (f : Fin 2) : State :=
  let v := nextHistory s.params.num (s.filt[f]).s (s.filt[f]).v
  let t := (List.finRange 32).foldl (fun t j => t.obPut f j (convertSample s.params s.cfg.fmt (filterOut s.params.num v j))) s
  { t with filt := t.filt.set f { s := Vector.replicate 32 0, v := v } }

/-- SYNTH_STEP (44_synthesis_filter.md R134). -/
def execSynthStep (f : Fin 2) (s : State) : Result := .next (s.synthStep f)

end Sys2Proof.Machine
end

