-- ==== Sys2Proof/Machine/Dispatch.lean ====
section
/-! DEFINITION. The meaning of each operation, one arm per constructor of Instr. -/
namespace Sys2Proof.Machine

def exec (i : Instr) (s : State) : Host.Outcome State Fault Refusal :=
  match i with
  | .hdrSyncLoss h => Sys2Proof.Machine.execHdrSyncLoss h s
  | .hdrUnsupVersion h => Sys2Proof.Machine.execHdrUnsupVersion h s
  | .hdrUnsupLayerReserved h => Sys2Proof.Machine.execHdrUnsupLayerReserved h s
  | .hdrUnsupLayerIII h => Sys2Proof.Machine.execHdrUnsupLayerIII h s
  | .hdrUnsupFreeFormat h => Sys2Proof.Machine.execHdrUnsupFreeFormat h s
  | .hdrUnsupBitrate h => Sys2Proof.Machine.execHdrUnsupBitrate h s
  | .hdrUnsupSfreq h => Sys2Proof.Machine.execHdrUnsupSfreq h s
  | .hdrMpeg1L1 h => Sys2Proof.Machine.execHdrMpeg1L1 h s
  | .hdrMpeg1L2 h => Sys2Proof.Machine.execHdrMpeg1L2 h s
  | .hdrMpeg2L1 h => Sys2Proof.Machine.execHdrMpeg2L1 h s
  | .hdrMpeg2L2 h => Sys2Proof.Machine.execHdrMpeg2L2 h s
  | .hdrMpeg25L1 h => Sys2Proof.Machine.execHdrMpeg25L1 h s
  | .hdrMpeg25L2 h => Sys2Proof.Machine.execHdrMpeg25L2 h s
  | .crcWord c => Sys2Proof.Machine.execCrcWord c s
  | .l1Alloc sb ch a => Sys2Proof.Machine.execL1Alloc sb ch a s
  | .l1AllocCorrupt sb ch => Sys2Proof.Machine.execL1AllocCorrupt sb ch s
  | .l1Scalefactor sb ch x => Sys2Proof.Machine.execL1Scalefactor sb ch x s
  | .l1Sample sb ch a q => Sys2Proof.Machine.execL1Sample sb ch a q s
  | .l2Alloc tab sb ch a => Sys2Proof.Machine.execL2Alloc tab sb ch a s
  | .l2Scfsi sb ch x => Sys2Proof.Machine.execL2Scfsi sb ch x s
  | .l2Scalefactor sb ch r => Sys2Proof.Machine.execL2Scalefactor sb ch r s
  | .l2Grouped sb ch n c => Sys2Proof.Machine.execL2Grouped sb ch n c s
  | .l2GroupedOutOfRange sb ch n c => Sys2Proof.Machine.execL2GroupedOutOfRange sb ch n c s
  | .l2Ungrouped sb ch n v0 v1 v2 => Sys2Proof.Machine.execL2Ungrouped sb ch n v0 v1 v2 s
  | .ctrlSoftReset v => Sys2Proof.Machine.execCtrlSoftReset v s
  | .ctrlStart v => Sys2Proof.Machine.execCtrlStart v s
  | .ctrlStop v => Sys2Proof.Machine.execCtrlStop v s
  | .ctrlConfig v => Sys2Proof.Machine.execCtrlConfig v s
  | .regRead off => Sys2Proof.Machine.execRegRead off s
  | .readHeaderBytes => Sys2Proof.Machine.execReadHeaderBytes s
  | .fetchFrame => Sys2Proof.Machine.execFetchFrame s
  | .getBits n => Sys2Proof.Machine.execGetBits n s
  | .crcCheck => Sys2Proof.Machine.execCrcCheck s
  | .skipToFrameEnd => Sys2Proof.Machine.execSkipToFrameEnd s
  | .l1Dequant sb ch code a => Sys2Proof.Machine.execL1Dequant sb ch code a s
  | .l1PutMono sb => Sys2Proof.Machine.execL1PutMono sb s
  | .l1PutStereo sb => Sys2Proof.Machine.execL1PutStereo sb s
  | .l1PutIntensity sb => Sys2Proof.Machine.execL1PutIntensity sb s
  | .rq2 sb ch k v n => Sys2Proof.Machine.execRq2 sb ch k v n s
  | .l2PutMono sb => Sys2Proof.Machine.execL2PutMono sb s
  | .l2PutStereo sb => Sys2Proof.Machine.execL2PutStereo sb s
  | .l2PutIntensity sb => Sys2Proof.Machine.execL2PutIntensity sb s
  | .addSample f sb x => Sys2Proof.Machine.execAddSample f sb x s
  | .synthStep f => Sys2Proof.Machine.execSynthStep f s
  | .convert f j y => Sys2Proof.Machine.execConvert f j y s
  | .emit => Sys2Proof.Machine.execEmit s

end Sys2Proof.Machine
end

