-- ==== Sys2Proof/Machine/Sequencer.lean ====
section
/-! DEFINITION. The frame sequencer (45_orchestrator.md R142 to R152) and the block's environment (20_memory.md R51,
70_reset_and_hazards.md R188). A step of the block is R143's unit; it runs the operations of the table in the order
of the pseudocode, each through `exec`, and stops at the first that enters FAILED. -/
namespace Sys2Proof.Machine

/-- The next field of the frame: its bits are decoded and the operation is run (20_memory.md R49). -/
def runField (fmt : Format) (s : State) : Result :=
  match decode fmt (s.peekBits fmt.width) with
  | .ok i => exec i s
  | .error _ => .fault .noSuchField

/-! ### ALLOC -/

/-- The channels whose allocation a subband reads (42_layer1_decode.md R106, 43_layer2_decode.md R118). -/
def State.allocChannels (s : State) (sb : Fin 32) : List (Fin 2) :=
  channelsBelow (if sb.val < s.hdr.bound then s.hdr.nch else 1)

/-- The end of a subband's allocation (42_layer1_decode.md R106, 43_layer2_decode.md R118): channel 0's `alloc`, `lev`,
`cw` and `grp` copied into the folded channel, then `sbst`. -/
def State.closeAlloc (s : State) (sb : Fin 32) : State :=
  let c := s.sub 0 sb
  let s :=
    if s.hdr.bound ≤ sb.val ∧ s.hdr.nch = 2 then
      s.setSub 1 sb { s.sub 1 sb with alloc := c.alloc, lev := c.lev, cw := c.cw, grp := c.grp }
    else s
  s.setSbst sb (if (channelsBelow s.hdr.nch).all (fun ch => (s.sub ch sb).alloc == 0#4) then .unalloc else .awaitSf)

/-- The allocations of the subbands below a limit. -/
def readAllocations (limit : Nat) (fmt : Fin 32 → Fin 2 → Format) (s : State) : Result :=
  forEach (subbandsIn 0 limit)
    (fun sb s =>
      andThen (forEach (s.allocChannels sb) (fun ch => runField (fmt sb ch)) s) fun s => .next (s.closeAlloc sb)) s

/-- L1_READ_ALLOCATION (42_layer1_decode.md R106). -/
def l1AllocStep (s : State) : Result :=
  andThen (readAllocations 32 .l1Alloc s) fun s =>
    andThen (exec .crcCheck s) fun s => .next { s with seq := .scalefactors }

/-- L2_READ_ALLOCATION (43_layer2_decode.md R118). -/
def l2AllocStep (tab : L2Tab) (s : State) : Result :=
  andThen (readAllocations s.hdr.sblimit (.l2Alloc tab) s) fun s =>
    let s := (subbandsIn s.hdr.sblimit 32).foldl (fun s sb => s.setSbst sb .unalloc) s
    .next { s with seq := .scfsi }

/-- Whether the frame is a Layer I frame (30_encoding.md R59, 45_orchestrator.md R145). -/
def State.isLayerI (s : State) : Bool := s.hdr.raw.layer == 0b11#2

/-- The ALLOC step (45_orchestrator.md R142). -/
def allocStep (s : State) : Result :=
  if s.isLayerI then l1AllocStep s
  else
    match s.hdr.l2tab with
    | some tab => l2AllocStep tab s
    | none => .fault .noAllocationTable

/-! ### SCFSI and SCALEFACTORS -/

/-- A field for each allocated channel of a subband below `nch`, in order. -/
def forAllocated (nch : Nat) (sb : Fin 32) (body : Fin 2 → State → Result) (s : State) : Result :=
  forEach (channelsBelow nch) (fun ch s => if (s.sub ch sb).alloc ≠ 0#4 then body ch s else .next s) s

/-- L2_READ_SCALEFACTORSELECTION, the SCFSI step (43_layer2_decode.md R119). -/
def scfsiStep (s : State) : Result :=
  andThen (forEach (subbandsIn 0 s.hdr.sblimit)
      (fun sb s => forAllocated s.hdr.nch sb (fun ch => runField (.l2Scfsi sb ch)) s) s) fun s =>
    andThen (exec .crcCheck s) fun s => .next { s with seq := .scalefactors }

/-- A subband moved from one state to the next, if it is in it. -/
def State.advanceSbst (s : State) (sb : Fin 32) (old new : SubState) : State :=
  if s.sbst[sb] = old then s.setSbst sb new else s

/-- The scale factors of one Layer I subband (42_layer1_decode.md R108): one per allocated channel, or, in an intensity
subband, one allocation and two scale factors. -/
def l1SubbandScalefactors (sb : Fin 32) (s : State) : Result :=
  if sb.val < s.hdr.bound ∨ s.hdr.nch = 1 then
    forAllocated s.hdr.nch sb (fun ch => runField (.l1Scalefactor sb ch)) s
  else if (s.sub 0 sb).alloc ≠ 0#4 then forEach [0, 1] (fun ch => runField (.l1Scalefactor sb ch)) s
  else .next s

/-- The scale factors of one Layer II subband (43_layer2_decode.md R120). -/
def l2SubbandScalefactors (sb : Fin 32) (s : State) : Result :=
  forAllocated s.hdr.nch sb (fun ch s => runField (.l2Scalefactor sb ch (s.sub ch sb).scfsi) s) s

/-- SAMPLES entry (45_orchestrator.md R148). -/
def State.enterSamples (s : State) : State :=
  { s with slot := 0, l1n := 0, gn := 0, sn := 0, ob := [], obRd := 0, seq := .samples }

/-- The SCALEFACTORS step (45_orchestrator.md R142): L1_READ_SCALEFACTOR or L2_READ_SCALEFACTOR, then SAMPLES entry. -/
def scalefactorsStep (s : State) : Result :=
  andThen (forEach (subbandsIn 0 (if s.isLayerI then 32 else s.hdr.sblimit))
      (fun sb s =>
        andThen (if s.isLayerI then l1SubbandScalefactors sb s else l2SubbandScalefactors sb s) fun s =>
          .next (s.advanceSbst sb .awaitSf .awaitSamples)) s) fun s =>
    .next s.enterSamples

/-! ### SAMPLES -/

/-- The format of the triplet of a channel and subband (43_layer2_decode.md R121, READ_TRIPLET). -/
def State.tripletFormat (s : State) (sb : Fin 32) (ch : Fin 2) : Format :=
  if (s.sub ch sb).grp then .l2Grouped sb ch (s.sub ch sb).lev else .l2Ungrouped sb ch (s.sub ch sb).lev

/-- The sample field of a channel and subband. -/
def runSample (sb : Fin 32) (ch : Fin 2) (s : State) : Result :=
  runField (if s.isLayerI then .l1Sample sb ch (s.sub ch sb).alloc else s.tripletFormat sb ch) s

/-- The samples of one subband (42_layer1_decode.md R109, 43_layer2_decode.md R121): of each allocated channel below
`bound`, of channel 0 for both channels from `bound` on; then `sbst`. -/
def subbandSamples (sb : Fin 32) (s : State) : Result :=
  andThen (forAllocated (if sb.val < s.hdr.bound then s.hdr.nch else 1) sb (runSample sb) s) fun s =>
    .next (s.advanceSbst sb .awaitSamples .sampleReady)

/-- L1_READ_SAMPLEDATA (42_layer1_decode.md R109). -/
def l1ReadSamples (s : State) : Result :=
  andThen (forEach (subbandsIn 0 32) subbandSamples s) fun s =>
    .next { s with l1n := if s.l1n + 1 = 12 then 0 else s.l1n + 1 }

/-- L2_READ_SAMPLEDATA (43_layer2_decode.md R121). -/
def l2ReadSamples (s : State) : Result :=
  andThen (forEach (subbandsIn 0 s.hdr.sblimit) subbandSamples s) fun s => .next { s with gn := s.gn + 1, sn := 0 }

/-- The put of a subband by its variant (42_layer1_decode.md R107, 43_layer2_decode.md R117). -/
def State.putOp (s : State) (sb : Fin 32) : Instr :=
  if s.isLayerI then
    if s.hdr.nch = 1 then .l1PutMono sb else if sb.val < s.hdr.bound then .l1PutStereo sb else .l1PutIntensity sb
  else
    if s.hdr.nch = 1 then .l2PutMono sb else if sb.val < s.hdr.bound then .l2PutStereo sb else .l2PutIntensity sb

/-- The puts of a slot, subbands in ascending order (45_orchestrator.md R149, R150). -/
def putAll (limit : Nat) (s : State) : Result :=
  forEach (subbandsIn 0 limit) (fun sb s => exec (s.putOp sb) s) s

/-- The synthesis steps of a slot (42_layer1_decode.md R114, 43_layer2_decode.md R131). -/
def synthesize (s : State) : Result :=
  andThen (exec (.synthStep 0) s) fun s => if s.hdr.nchOut = 2 then exec (.synthStep 1) s else .next s

/-- Every SAMPLE_READY subband back to AWAIT_SAMPLES (42_layer1_decode.md R114, 43_layer2_decode.md R131). -/
def State.rearm (s : State) : State :=
  { s with sbst := s.sbst.map fun x => if x = .sampleReady then .awaitSamples else x }

/-- The end of a slot (45_orchestrator.md R149, R150). -/
def State.finishSlot (s : State) (nslots : Nat) : State :=
  { s with slot := s.slot + 1, seq := if s.slot + 1 = nslots then .emit else s.seq }

/-- A SAMPLES step of a Layer I frame (45_orchestrator.md R149). -/
def l1SamplesStep (s : State) : Result :=
  andThen (l1ReadSamples s) fun s =>
    andThen (putAll 32 s) fun s =>
      andThen (synthesize s.rearm) fun s => .next (s.finishSlot 12)

/-- A SAMPLES step of a Layer II frame (45_orchestrator.md R150); SAMPLE_READY subbands are rearmed after the third
put (43_layer2_decode.md R131). -/
def l2SamplesStep (s : State) : Result :=
  andThen (if s.sn = 0 then l2ReadSamples s else .next s) fun s =>
    andThen (putAll s.hdr.sblimit s) fun s =>
      andThen (synthesize (if s.sn = 2 then s.rearm else s)) fun s =>
        .next ({ s with sn := if s.sn + 1 = 3 then 0 else s.sn + 1 }.finishSlot 36)

/-- The SAMPLES step. -/
def samplesStep (s : State) : Result := if s.isLayerI then l1SamplesStep s else l2SamplesStep s

/-! ### The block's step and its environment -/

/-- AWAIT_SYNC (45_orchestrator.md R144). -/
def awaitSyncStep (s : State) : State :=
  if s.stopReq then { s with seq := .stopped } else { s with hdrBytes := 0, hdrWord := 0, seq := .header }

/-- One step of the block (45_orchestrator.md R142). A state in which the block takes no step answers itself
(60_exceptions.md R171, log entry 8). -/
def blockStep (s : State) : Result :=
  match s.seq with
  | .idle | .done | .stopped | .failed => .next s
  | .awaitSync => .next (awaitSyncStep s)
  | .header => exec .readHeaderBytes s
  | .fetch => exec .fetchFrame s
  | .alloc => allocStep s
  | .scfsi => scfsiStep s
  | .scalefactors => scalefactorsStep s
  | .samples => samplesStep s
  | .emit => exec .emit s

/-- `CsrRead(off)` of a number of bytes (10_state.md R16, 20_memory.md R43). -/
def hostRead (off : Word) (nbytes : Nat) (s : State) : Result :=
  if nbytes ≠ 4 then .refused .accessWidth
  else
    match decode .regRead off.toNat with
    | .ok i => exec i s
    | .error _ => .refused .unalignedAccess

/-- `CsrWrite(off, v)` with v on byte lanes (10_state.md R16, 20_memory.md R43): CTRL is decoded, every other offset
ignores the write. -/
def hostWrite (off : Word) (lanes : List Byte) (s : State) : Result :=
  if lanes.length ≠ 4 then .refused .accessWidth
  else if off.toNat % 4 ≠ 0 then .refused .unalignedAccess
  else if off = 0 then
    match decode .ctrlWrite (wordOfBus lanes).toNat with
    | .ok i => exec i s
    | .error _ => .refused .accessWidth
  else .next s

/-- What one event of the outside world does (70_reset_and_hazards.md R188). -/
def envStep (e : EnvEvent) (s : State) : Result :=
  match e with
  | .block => blockStep s
  | .csrRead off nbytes => hostRead off nbytes s
  | .csrWrite off lanes => hostWrite off lanes s
  | .hardReset => .next s.hardReset
  | .srcConnect bytes eos => .next { s with src := { avail := bytes, eos := eos } }
  | .srcBytes bytes => .next { s with src := { s.src with avail := s.src.avail ++ bytes } }
  | .srcEos => .next { s with src := { s.src with eos := true } }
  | .sinkReady ready => .next { s with sinkReady := ready }

/-- The next step: what the script has next, or else a step of the block (log entry 6). -/
def nextStep (s : State) : Result :=
  match s.script with
  | [] => blockStep s
  | e :: rest => envStep e { s with script := rest }

/-! ### Placing one operation where the next step fetches it (log entry 14) -/

/-- A header word at the end of HEADER: three bytes collected, the fourth the source's next. -/
def placeHeader (s : State) (h : Word) : State :=
  { s with
    seq := .header, hdrBytes := 3, hdrWord := 0#8 ++ h.extractLsb' 8 24
    src := { s.src with avail := h.extractLsb' 0 8 :: s.src.avail }, script := [] }

/-- A CRC word at the end of FETCH of a protected frame whose bytes are all there. -/
def placeCrcWord (s : State) (c : BitVec 16) : State :=
  { s with
    seq := .fetch, hdr := { s.hdr with raw := { s.hdr.raw with prot := 0 } }, flen := 6, frameStart := s.byteCount - 6
    fb := (s.fb.write 4 (c.extractLsb' 8 8)).write 5 (c.extractLsb' 0 8), script := [] }

/-- A host's write to CTRL as the next event. -/
def placeCtrlWrite (s : State) (v : Word) : State := { s with script := [.csrWrite 0 (busBytes v)] }

/-- The operation of a row's bits placed for the next step. -/
def placeWord (s : State) (nbits w : Nat) : State :=
  if nbits = 32 then placeHeader s (BitVec.ofNat 32 w)
  else if nbits = 16 then placeCrcWord s (BitVec.ofNat 16 w)
  else placeCtrlWrite s (BitVec.ofNat 32 w)

end Sys2Proof.Machine
end

