-- ==== Sys2Proof/Machine/Step.lean ====
section
/-! DEFINITION. One step of the machine, and the placing of one operation where the next step fetches it. -/
namespace Sys2Proof.Machine

/-- One step (45_orchestrator.md R143, 20_memory.md R51): the next event of the outside world, or a step of the block. -/
def step (s : State) : Host.Outcome State Fault Refusal := nextStep s

/-- The state whose next step runs the operation of these bits (log entry 14). -/
def State.withFetchWord (s : State) (nbits w : Nat) : State := placeWord s nbits w

end Sys2Proof.Machine
end

