-- ==== Sys2Proof/Machine/Reference.lean ====
section
/-! DEFINITION. The exact-real reference of the normalised outputs and the conformance of a block to it (00_scope.md R10,
44_synthesis_filter.md R141; log entry 21). No step uses this file. -/
namespace Sys2Proof.Machine

/-- The exact real number a constant names, such as cos(π/4) or 2^(1 - i/3) (00_scope.md R10). -/
noncomputable def exactConstant : ExactConst → ℝ
  | .ratio num den => (num : ℝ) / (den : ℝ)
  | .cosine m => Real.cos (m * Real.pi / 64)
  | .scale i => (2 : ℝ) ^ (1 - (i.val : ℝ) / 3)

/-- The real number an expression names. The window's coefficients are the parameter `WINDOW_D` itself (log entry 2). -/
noncomputable def exactValue : ExactExpr → ℝ
  | .const c => exactConstant c
  | .window i => (F32.value (Config.windowD i) : ℝ)
  | .add x y => exactValue x + exactValue y
  | .sub x y => exactValue x - exactValue y
  | .mul x y => exactValue x * exactValue y

/-- The real number a code of the exact-real domain stands for. -/
noncomputable def referenceValue (x : NumVal) : ℝ := exactValue (readExact x)

/-- The real number a value of `NUM` stands for, if it stands for one: an infinity or a NaN does not. -/
noncomputable def realOf (d : NumDomain) (x : NumVal) : Option ℝ :=
  match d with
  | .binary32 => if F32.isFinite (F32.ofCode x) = true then some (F32.value (F32.ofCode x) : ℝ) else none
  | .reference => some (referenceValue x)
  | .other k => Config.otherReal k x

/-- A normalised output lies within `TOL` of a reference value (00_scope.md R10, 44_synthesis_filter.md R141). -/
def withinTol (p : Params) (x : NumVal) (reference : ℝ) : Prop :=
  ∃ v, realOf p.num x = some v ∧ |v - reference| ≤ (p.tol : ℝ)

/-- The normalised output `out[j]` of the newest step of a filter (44_synthesis_filter.md R134), before CONVERT. -/
def State.normalisedOutput (s : State) (f : Fin 2) (j : Fin 32) : NumVal := filterOut s.params.num (s.filt[f]).v j

/-- The same state in the exact-real domain. -/
def State.inReference (s : State) : State := { s with params := { s.params with num := .reference } }

/-- `Shadows s r`: the block came to s from a fresh start, and its reference evaluation, with the same configuration, the
same bytes and the same events outside, came to r. A fresh start leaves 0 in every element of `NUM`, so both begin with the
same values; a resume within carries each one's own history on (70_reset_and_hazards.md R176). -/
inductive Shadows : State → State → Prop
  | start {v : CtrlWrite} {s entry : State} : s.seq = .idle ∨ s.seq = .done → exec (.ctrlStart v) s = .next entry →
      Shadows entry entry.inReference
  | more {s r t u : State} : Shadows s r → step s = .next t → step r = .next u → Shadows t u

/-- A block with these parameters is conformant (00_scope.md R10): whatever it is given, every normalised output lies
within `TOL` of the exact-real reference. -/
def conformant (p : Params) : Prop :=
  ∀ s r : State, Shadows s r → s.params = p → ∀ (f : Fin 2) (j : Fin 32),
    withinTol p (s.normalisedOutput f j) (referenceValue (r.normalisedOutput f j))

end Sys2Proof.Machine
end

