-- ==== Sys2Proof/Safety.lean ====
section
/-! DEFINITION. What counts as a safe run, in the terms the statements use: the end of a run and its observation
(70_reset_and_hazards.md R187), a step that does not stop, and the invariant that rules out the model's faults
(log entry 12). -/
namespace Sys2Proof.Machine

/-- A run has ended (70_reset_and_hazards.md R187). -/
def State.ended (s : State) : Bool := s.seq == .done || s.seq == .stopped || s.seq == .failed

/-- The register offsets of 20_memory.md R40. -/
def registerOffsets : List Word := [0x00, 0x04, 0x08, 0x0C, 0x10, 0x14, 0x18, 0x1C, 0x20, 0x24]

/-- The run ended in the error state (70_reset_and_hazards.md R187: a fault end). -/
def State.faultEnd (s : State) : Bool := s.seq == .failed

/-- The observation of a run (70_reset_and_hazards.md R187): its beats, the final registers, and both final
histories. -/
structure Observation where
  beats     : List OutBeat
  registers : List Word
  histories : Vector (Vector NumVal 1024) 2
  deriving DecidableEq, Repr

/-- The beats pushed since a run's entry: not those of the sessions before it. -/
def State.beatsSince (entry s : State) : List OutBeat := s.delivered.drop entry.delivered.length

/-- What a run from `entry` to `final` shows. -/
def observe (entry final : State) : Observation where
  beats := entry.beatsSince final
  registers := registerOffsets.map final.readReg
  histories := final.filt.map Filter.v

/-- A session is in progress: neither waiting for START nor ended. -/
def State.running (s : State) : Bool := s.seq != .idle && !s.ended

/-- Steps of one session, none of them taken after its end. -/
inductive Reaches : State → State → Prop
  | here (s : State) : Reaches s s
  | more {s t u : State} : s.running = true → step s = .next t → Reaches t u → Reaches s u

/-- A run (70_reset_and_hazards.md R187): one session, from the state a fresh or a resuming START leaves to its end. A
session whose START leaves `stop_req` 1 counts as a run too, though it is no clean entry of R176: it ends in STOPPED at
its first boundary with no beat. R187 leaves that case open; counting it is the model's choice (DESIGN CHOICE, log entry
22). -/
structure IsRun (entry final : State) : Prop where
  begins : ∃ (v : CtrlWrite) (s : State), (s.seq = .idle ∨ s.seq = .done ∨ s.seq = .stopped) ∧
    exec (.ctrlStart v) s = .next entry
  steps : Reaches entry final
  ends : final.ended = true

/-- Samples per output channel of a frame (60_exceptions.md R168). -/
def HdrRecord.samplesPerChannel (r : HdrRecord) : Nat := 32 * r.nslots

/-- The step does not stop: it answers a next state. -/
def stepRuns (s : State) : Prop := ∃ t, step s = .next t

/-- The block holds a frame whose header was accepted. -/
def SeqState.inFrame : SeqState → Bool
  | .fetch | .alloc | .scfsi | .scalefactors | .samples | .emit => true
  | .idle | .awaitSync | .header | .done | .stopped | .failed => false

/-- All bytes of the current frame are in FB. -/
def SeqState.fetched : SeqState → Bool
  | .alloc | .scfsi | .scalefactors | .samples | .emit => true
  | .idle | .awaitSync | .header | .fetch | .done | .stopped | .failed => false

/-- The allocations of the current frame are in the context file. -/
def SeqState.allocated : SeqState → Bool
  | .scfsi | .scalefactors | .samples => true
  | .idle | .awaitSync | .header | .fetch | .alloc | .emit | .done | .stopped | .failed => false

/-- The record is that of an accepted header (41_header_parser.md R92, R98 to R103). -/
def HdrRecord.legal (r : HdrRecord) (sel : ChanSel) : Prop :=
  ({ sync := 0x7FF#11, raw := r.raw } : HeaderFields).accepted = true ∧ r = headerRecord sel r.raw

/-- A context entry fits its layer (42_layer1_decode.md R106, 43_layer2_decode.md R118). -/
def SubCtx.coherent (c : SubCtx) (layerI : Bool) : Prop :=
  c.alloc ≠ 0#4 →
    if layerI then c.alloc ≠ 15#4 ∧ c.cw = c.alloc.toNat + 1 ∧ c.lev = l1Levels c.alloc
    else c.cw = codeWidth c.lev ∧ c.cw ≠ 0 ∧ c.grp = isGrouped c.lev

/-- The invariant of the block: what the spec's own rules imply of every state a run can reach. -/
structure State.Inv (s : State) : Prop where
  /-- The frame buffer holds every legal frame (00_scope.md R8). -/
  paramsLegal : s.params.legal
  /-- FB is canonical and inside FRAME_BUF_BYTES (log entry 13; 40_bitstream_reader.md R84). -/
  fbCanonical : s.fb.wf = true
  fbInside : ∀ c ∈ s.fb, c.1 < s.params.frameBufBytes
  /-- An error code is recorded exactly in FAILED (10_state.md R18, 60_exceptions.md R157). -/
  errIffFailed : s.errcode = .none ↔ s.seq ≠ .failed
  detailZero : s.seq ≠ .failed → s.errdetail = 0
  /-- OB holds beats only in SAMPLES and EMIT (45_orchestrator.md R148, R151; 60_exceptions.md R160). -/
  obElsewhere : s.seq ≠ .samples → s.seq ≠ .emit → s.ob = [] ∧ s.obRd = 0
  obSamples : s.seq = .samples → s.ob.length = 32 * s.slot ∧ s.obRd = 0
  obEmit : s.seq = .emit → s.ob.length = 32 * s.hdr.nslots ∧ s.obRd < s.ob.length
  /-- BYTE_COUNT and `frame_start` tell the place in the frame (40_bitstream_reader.md R83, R84, R91). -/
  headerBytes : s.seq = .header → s.hdrBytes < 4 ∧ (s.hdrBytes ≠ 0 → s.framePos = s.hdrBytes)
  fetchBytes : s.seq = .fetch → 4 ≤ s.framePos ∧ s.framePos < s.flen.toNat
  allBytes : s.seq.fetched = true → s.framePos = s.flen.toNat
  /-- The current frame's header was accepted (41_header_parser.md R92). -/
  hdrLegal : s.seq.inFrame = true → s.hdr.legal s.cfg.chansel ∧ s.flen.toNat = s.hdr.flen
  scfsiLayerII : s.seq = .scfsi → s.isLayerI = false
  /-- The cursor is inside the frame (10_state.md R31). -/
  cursorInside : s.seq.fetched = true → s.bitpos ≤ 8 * s.flen.toNat
  /-- The context file fits the frame (42_layer1_decode.md R106, 43_layer2_decode.md R118). -/
  ctxCoherent : s.seq.allocated = true → ∀ (ch : Fin 2) (sb : Fin 32), ch.val < s.hdr.nch → sb.val < s.hdr.sblimit →
    (s.sub ch sb).coherent s.isLayerI
  /-- The loop counters follow the slot (10_state.md R33; 45_orchestrator.md R149, R150). -/
  layerISlot : s.seq = .samples → s.isLayerI = true → s.slot < 12 ∧ s.l1n = s.slot
  layerIISlot : s.seq = .samples → s.isLayerI = false → s.slot < 36 ∧ s.sn = s.slot % 3 ∧ s.gn = (s.slot + 2) / 3

/-! ### The terms of the statements, written from the rules and not from the meanings -/

/-- The next n bits lie inside the frame, and the frame inside the frame buffer, as every accepted frame does
(40_bitstream_reader.md R84, R85). -/
def State.frameHolds (s : State) (n : Nat) : Prop :=
  s.flen.toNat ≤ s.params.frameBufBytes ∧ s.bitpos + n ≤ 8 * s.flen.toNat

/-- The state `raise Fatal(code, detail)` leaves (60_exceptions.md R160). -/
def State.failedAt (s : State) (code : ErrCode) (detail : BitVec 4) : State :=
  { s with errcode := code, errdetail := detail, errOffset := s.frameStart, ob := [], obRd := 0, seq := .failed }

/-- Bits 7:3 as a write to CTRL stores them (10_state.md R17). -/
def storedConfig (v : CtrlWrite) : CtrlReg where
  strict := v.strict
  chansel := if v.chansel = 0b01#2 then .left else if v.chansel = 0b10#2 then .right else .both
  fmt := if v.fmt = true then .float32 else .pcm16
  irqEn := v.irqEn

/-- The reset values with the parameters, the environment and the last GET_BITS value kept (70_reset_and_hazards.md
R173; log entries 1, 6 and 10). -/
def State.clearedBlock (s : State) : State :=
  { State.reset with
    params := s.params, src := s.src, sinkReady := s.sinkReady, delivered := s.delivered, rdata := s.rdata, bits := s.bits
    script := s.script }

/-- A clean entry (70_reset_and_hazards.md R176): AWAIT_SYNC with every other element as a fresh START leaves it. -/
def State.cleanEntry (s : State) : Prop :=
  s = { s.clearedBlock with ctrl := s.ctrl, cfg := ⟨s.ctrl.strict, s.ctrl.chansel, s.ctrl.fmt⟩, seq := .awaitSync }

/-- The next event outside is a reset or a fresh START (45_orchestrator.md R153, R155; 70_reset_and_hazards.md R173). -/
def State.nextClears (s : State) : Prop :=
  ∃ rest, s.script = .hardReset :: rest ∨
    ∃ lanes v, s.script = .csrWrite 0 lanes :: rest ∧
      (decode .ctrlWrite (wordOfBus lanes).toNat = .ok (.ctrlSoftReset v) ∨
        decode .ctrlWrite (wordOfBus lanes).toNat = .ok (.ctrlStart v) ∧ (s.seq = .idle ∨ s.seq = .done))

/-- The block has the next step: nothing is planned outside, or its turn is. -/
def State.blockTurn (s : State) : Prop := s.script = [] ∨ ∃ rest, s.script = .block :: rest

/-- The allocation fields of a subband in their order (42_layer1_decode.md R106, 43_layer2_decode.md R118). -/
def State.allocationFields (s : State) (fmt : Fin 32 → Fin 2 → Format) (sb : Fin 32) : List Format :=
  (List.finRange 2).flatMap fun ch =>
    if (if sb.val < s.hdr.bound then ch.val < s.hdr.nch else ch = 0) then [fmt sb ch] else []

/-- The allocations of the subbands below a limit: the fields of each, then what ends it. -/
def State.allocations (s : State) (limit : Nat) (fmt : Fin 32 → Fin 2 → Format) : Result :=
  forEach ((List.finRange 32).filter (fun sb => sb.val < limit))
    (fun sb w => andThen (forEach (s.allocationFields fmt sb) runField w) fun u => .next (u.closeAlloc sb)) s

/-- The fields of an SCFSI step in their order (43_layer2_decode.md R119). -/
def State.scfsiFields (s : State) : List Format :=
  (List.finRange 32).flatMap fun sb => (List.finRange 2).flatMap fun ch =>
    if sb.val < s.hdr.sblimit ∧ ch.val < s.hdr.nch ∧ (s.sub ch sb).alloc ≠ 0#4 then [.l2Scfsi sb ch] else []

/-- The fields of a SCALEFACTORS step in their order (42_layer1_decode.md R108, 43_layer2_decode.md R120). -/
def State.scalefactorFields (s : State) : List Format :=
  (List.finRange 32).flatMap fun sb => (List.finRange 2).flatMap fun ch =>
    if s.hdr.raw.layer = 0b11#2 then
      if sb.val < s.hdr.bound ∨ s.hdr.nch = 1 then
        if ch.val < s.hdr.nch ∧ (s.sub ch sb).alloc ≠ 0#4 then [.l1Scalefactor sb ch] else []
      else if (s.sub 0 sb).alloc ≠ 0#4 then [.l1Scalefactor sb ch] else []
    else if sb.val < s.hdr.sblimit ∧ ch.val < s.hdr.nch ∧ (s.sub ch sb).alloc ≠ 0#4 then
      [.l2Scalefactor sb ch (s.sub ch sb).scfsi]
    else []

/-- The sample fields of a slot in their order (42_layer1_decode.md R109, 43_layer2_decode.md R121; a Layer II slot reads
only when `sn` is 0, 45_orchestrator.md R150). -/
def State.sampleFields (s : State) : List Format :=
  (List.finRange 32).flatMap fun sb => (List.finRange 2).flatMap fun ch =>
    if (if sb.val < s.hdr.bound then ch.val < s.hdr.nch else ch = 0) ∧ (s.sub ch sb).alloc ≠ 0#4 then
      if s.hdr.raw.layer = 0b11#2 then [.l1Sample sb ch (s.sub ch sb).alloc]
      else if s.sn = 0 ∧ sb.val < s.hdr.sblimit then
        if (s.sub ch sb).grp = true then [.l2Grouped sb ch (s.sub ch sb).lev] else [.l2Ungrouped sb ch (s.sub ch sb).lev]
      else []
    else []

/-- The puts of a slot in their order (45_orchestrator.md R149, R150; 42_layer1_decode.md R107, 43_layer2_decode.md
R117). -/
def State.slotPuts (s : State) : List Instr :=
  (List.finRange 32).flatMap fun sb =>
    if s.hdr.raw.layer = 0b11#2 then
      if s.hdr.nch = 1 then [.l1PutMono sb] else if sb.val < s.hdr.bound then [.l1PutStereo sb] else [.l1PutIntensity sb]
    else if sb.val < s.hdr.sblimit then
      if s.hdr.nch = 1 then [.l2PutMono sb] else if sb.val < s.hdr.bound then [.l2PutStereo sb] else [.l2PutIntensity sb]
    else []

/-- `sbst` with the subbands below a limit moved from one state to the next. -/
def State.sbstMoved (s : State) (limit : Nat) (old new : SubState) : Vector SubState 32 :=
  Vector.ofFn fun sb => if sb.val < limit ∧ s.sbst[sb] = old then new else s.sbst[sb]

/-- The operation of the first row whose masked bits a word has; rows are (mask, bits, operation), as
spec/opcode_table.json gives them. -/
def firstRow {Fields : Type} (rows : List (Word × Word × (Fields → Instr))) (w : Word) (x : Fields) : Option Instr :=
  match rows with
  | [] => none
  | (mask, bits, op) :: rest => if w &&& mask = bits then some (op x) else firstRow rest w x

/-- The header rows below HDR_SYNC_LOSS in the priority order of 30_encoding.md R82. -/
def headerRows : List (Word × Word × (HeaderFields → Instr)) :=
  [(0xFFF80000, 0xFFE80000, .hdrUnsupVersion), (0xFFE60000, 0xFFE00000, .hdrUnsupLayerReserved)] ++
  [(0xFFE60000, 0xFFE20000, .hdrUnsupLayerIII), (0xFFE0F000, 0xFFE00000, .hdrUnsupFreeFormat)] ++
  [(0xFFE0F000, 0xFFE0F000, .hdrUnsupBitrate), (0xFFE00C00, 0xFFE00C00, .hdrUnsupSfreq)] ++
  [(0xFFFE0000, 0xFFFE0000, .hdrMpeg1L1), (0xFFFE0000, 0xFFFC0000, .hdrMpeg1L2)] ++
  [(0xFFFE0000, 0xFFF60000, .hdrMpeg2L1), (0xFFFE0000, 0xFFF40000, .hdrMpeg2L2)] ++
  [(0xFFFE0000, 0xFFE60000, .hdrMpeg25L1), (0xFFFE0000, 0xFFE40000, .hdrMpeg25L2)]

/-- The CTRL rows in the order of 30_encoding.md R80. -/
def ctrlRows : List (Word × Word × (CtrlWrite → Instr)) :=
  [(0x00000004, 0x00000004, .ctrlSoftReset), (0x00000005, 0x00000001, .ctrlStart)] ++
  [(0x00000006, 0x00000002, .ctrlStop), (0x00000007, 0x00000000, .ctrlConfig)]

/-- The six accepting classes (41_header_parser.md R92 step 7). -/
def acceptingClasses (h : HeaderFields) : List Instr :=
  [.hdrMpeg1L1 h, .hdrMpeg1L2 h, .hdrMpeg2L1 h, .hdrMpeg2L2 h, .hdrMpeg25L1 h, .hdrMpeg25L2 h]

/-- The width of the first field an operation reads with `GetBits`, if it reads one (20_memory.md R48). -/
def firstFieldWidth : Instr → Option Nat
  | .crcWord _ => some 16
  | .l1Alloc _ _ _ | .l1AllocCorrupt _ _ => some 4
  | .l1Scalefactor _ _ _ => some 6
  | .l1Sample _ _ a _ => some (a.toNat + 1)
  | .l2Alloc tab sb _ _ => some (nbal tab sb.val)
  | .l2Scfsi _ _ _ => some 2
  | .l2Scalefactor _ _ _ => some 6
  | .l2Grouped _ _ n _ | .l2GroupedOutOfRange _ _ n _ => some (codeWidth n)
  | .l2Ungrouped _ _ n _ _ _ => some (codeWidth n)
  | .getBits n => some n
  | .hdrSyncLoss _ | .hdrUnsupVersion _ | .hdrUnsupLayerReserved _ | .hdrUnsupLayerIII _ => none
  | .hdrUnsupFreeFormat _ | .hdrUnsupBitrate _ | .hdrUnsupSfreq _ => none
  | .hdrMpeg1L1 _ | .hdrMpeg1L2 _ | .hdrMpeg2L1 _ | .hdrMpeg2L2 _ | .hdrMpeg25L1 _ | .hdrMpeg25L2 _ => none
  | .ctrlSoftReset _ | .ctrlStart _ | .ctrlStop _ | .ctrlConfig _ | .regRead _ => none
  | .readHeaderBytes | .fetchFrame | .crcCheck | .skipToFrameEnd => none
  | .l1Dequant _ _ _ _ | .l1PutMono _ | .l1PutStereo _ | .l1PutIntensity _ => none
  | .rq2 _ _ _ _ _ | .l2PutMono _ | .l2PutStereo _ | .l2PutIntensity _ => none
  | .addSample _ _ _ | .synthStep _ | .convert _ _ _ | .emit => none

/-- The next states of the table of 45_orchestrator.md R142, errors included. -/
def SeqState.successors : SeqState → List SeqState
  | .idle => [.idle]
  | .awaitSync => [.stopped, .header]
  | .header => [.header, .fetch, .done, .failed]
  | .fetch => [.fetch, .alloc, .failed]
  | .alloc => [.scalefactors, .scfsi, .failed]
  | .scfsi => [.scalefactors, .failed]
  | .scalefactors => [.samples, .failed]
  | .samples => [.samples, .emit, .failed]
  | .emit => [.emit, .awaitSync]
  | .done => [.done]
  | .stopped => [.stopped]
  | .failed => [.failed]

end Sys2Proof.Machine
end

