-- ==== Sys2Proof/Certificates/Slice0/Obligations.lean ====
section
/-! DEFINITION. The statements for the provers. Each is written from the rule of spec/ its docstring names; a next state
is given as an update of the state before, so what is not named is unchanged. -/
open Sys2Proof Sys2Proof.Machine

/-! ### Encoding -/

/-- 30_encoding.md R56, R57, R65, R66, R74, R76, R80: no operand of a well-formed operation is lost or changed by
encoding it and decoding the number again. (Where a field stands is an operand and part of the format, log entry 10.)
-/
def Obligations.DecodeOfEncode : Prop :=
  ∀ (i : Instr) (fmt : Format) (w : Nat), i.wf = true → encode i = some (fmt, w) → decode fmt w = .ok i

/-- 30_encoding.md R78, R79: what decodes is well formed and encodes to the same number, so no number has two readings
and no bit is ignored. -/
def Obligations.EncodeOfDecode : Prop :=
  ∀ (fmt : Format) (w : Nat) (i : Instr), decode fmt w = .ok i → i.wf = true ∧ encode i = some (fmt, w)

/-- 30_encoding.md R82, R80 and the match and mask columns of spec/opcode_table.json: the first row whose masked bits a
header word or a CTRL value has is the operation decoded. (R57 and the field values behind the masks are marked by the
spec as from general knowledge.) That a CTRL value with START and STOP is the one operation CTRL_START is the model's
choice (log entry 11). -/
def Obligations.OpcodeRowsDecideInOrder : Prop :=
  ∀ w : Word,
    (w &&& 0xFFE00000 ≠ 0xFFE00000 → decode .hdr32 w.toNat = .ok (.hdrSyncLoss (HeaderFields.ofWord w))) ∧
    (w &&& 0xFFE00000 = 0xFFE00000 →
      ∃ i, firstRow headerRows w (HeaderFields.ofWord w) = some i ∧ decode .hdr32 w.toNat = .ok i) ∧
    ∃ i, firstRow ctrlRows w (CtrlWrite.ofWord w) = some i ∧ decode .ctrlWrite w.toNat = .ok i

/-- Words written out from 95_test_vectors.md (V1, V2, V6, V11, P2, P3) and 30_encoding.md R57, R64 to R66, R80 decode
to the operations they stand for. That 0x3 is one CTRL_START with its STOP bit set is the model's choice (log entry
11). -/
def Obligations.WrittenWordsDecode : Prop :=
  (decode .hdr32 0xFFFF18C0 = .ok (.hdrMpeg1L1 ⟨0x7FF, ⟨3, 3, 1, 1, 2, 0, 0, 3, 0, 0, 0, 0⟩⟩)) ∧
  (decode .hdr32 0xFFFCE644 = .ok (.hdrMpeg1L2 ⟨0x7FF, ⟨3, 2, 0, 14, 1, 1, 0, 1, 0, 0, 1, 0⟩⟩)) ∧
  (decode .hdr32 0x7FFF18C0 = .ok (.hdrSyncLoss ⟨0x3FF, ⟨3, 3, 1, 1, 2, 0, 0, 3, 0, 0, 0, 0⟩⟩)) ∧
  (decode .crc16 0xB023 = .ok (.crcWord 0xB023)) ∧
  (decode (.l1Alloc 4 0) 0b0001 = .ok (.l1Alloc 4 0 1)) ∧
  (decode (.l1Alloc 4 0) 0b1111 = .ok (.l1AllocCorrupt 4 0)) ∧
  (decode (.l2Scalefactor 0 0 1) 0b000011000110 = .ok (.l2Scalefactor 0 0 (.firstTwo 3 6))) ∧
  (decode (.l2Grouped 0 0 3) 0b00101 = .ok (.l2Grouped 0 0 3 5)) ∧
  (decode (.l2Grouped 0 0 3) 0b11111 = .ok (.l2GroupedOutOfRange 0 0 3 31)) ∧
  (decode (.l2Ungrouped 0 0 7) 0b001011111 = .ok (.l2Ungrouped 0 0 7 1 3 7)) ∧
  (decode .ctrlWrite 0x98 = .ok (.ctrlConfig ⟨false, false, false, true, 1, false, true, 0⟩)) ∧
  (decode .ctrlWrite 0x3 = .ok (.ctrlStart ⟨true, true, false, false, 0, false, false, 0⟩))

/-! ### Header classes -/

/-- 41_header_parser.md R93 to R97, 60_exceptions.md R157, R160: each rejecting class enters FAILED with its code and
detail; HEADER takes the word unless the sync check failed; nothing else changes. -/
def Obligations.RejectedHeaderEntersFailed : Prop :=
  ∀ (h : HeaderFields) (s : State),
    exec (.hdrSyncLoss h) s = .next (s.failedAt .syncLoss 0) ∧
    exec (.hdrUnsupVersion h) s = .next ({ s with header := h.word }.failedAt .unsupportedStream 1) ∧
    exec (.hdrUnsupLayerReserved h) s = .next ({ s with header := h.word }.failedAt .unsupportedStream 2) ∧
    exec (.hdrUnsupLayerIII h) s = .next ({ s with header := h.word }.failedAt .unsupportedStream 3) ∧
    exec (.hdrUnsupFreeFormat h) s = .next ({ s with header := h.word }.failedAt .unsupportedStream 4) ∧
    exec (.hdrUnsupBitrate h) s = .next ({ s with header := h.word }.failedAt .unsupportedStream 5) ∧
    exec (.hdrUnsupSfreq h) s = .next ({ s with header := h.word }.failedAt .unsupportedStream 6)

/-- 41_header_parser.md R92 step 7, R99 to R103, 10_state.md R20: an accepted header of each of the six classes writes
HEADER, the whole record, INFO and `flen`, goes to FETCH, and changes nothing else. (The tables of R61, R62, R67 and
the formulas of R99 and R100 are marked by the spec as from general knowledge.) -/
def Obligations.AcceptedHeaderWritesRecord : Prop :=
  ∀ (h : HeaderFields) (i : Instr) (s : State), i ∈ acceptingClasses h → i.wf = true →
    ∃ (r : HdrRecord) (info : Word) (flen : BitVec 16),
      exec i s = .next { s with header := h.word, hdr := r, info := info, flen := flen, seq := .fetch } ∧
      r.raw = h.raw ∧ r.valid = true ∧
      r.bitrate = bitrateOf (h.raw.ver != 0b11#2) (h.raw.layer == 0b11#2) h.raw.bri ∧
      r.fs = sampleRate h.raw.ver h.raw.sfi ∧
      r.flen = (if h.raw.layer = 0b11#2 then (12000 * r.bitrate / r.fs + h.raw.pad.toNat) * 4
        else 144000 * r.bitrate / r.fs + h.raw.pad.toNat) ∧
      r.nch = (if h.raw.mode = 0b11#2 then 1 else 2) ∧
      r.nchOut = (if r.nch = 2 ∧ s.cfg.chansel = .both then 2 else 1) ∧
      r.l2tab = (if h.raw.layer = 0b11#2 then none else some (selectL2Tab (h.raw.ver != 0b11#2) r.nch h.raw.bri r.fs)) ∧
      r.sblimit = (r.l2tab.map l2Sblimit).getD 32 ∧
      r.bound = (if h.raw.mode = 0b01#2 then min (4 * (h.raw.mx.toNat + 1)) r.sblimit else r.sblimit) ∧
      r.nslots = (if h.raw.layer = 0b11#2 then 12 else 36) ∧
      flen.toNat = r.flen ∧ info.toNat = r.flen + r.sblimit * 2 ^ 16 + r.bound * 2 ^ 22 + r.nch * 2 ^ 28

/-- 41_header_parser.md R100: the frame length of every accepted header, by the formulas, is between 32 and 2881 bytes,
and both ends are reached. ("The formulas are [from general knowledge, not in source]", says R100.) -/
def Obligations.FrameLengthBounds : Prop :=
  (∀ (h : HeaderFields) (sel : ChanSel), h.accepted = true →
    let r := headerRecord sel h.raw
    r.flen = (if h.raw.layer = 0b11#2 then (12000 * r.bitrate / r.fs + h.raw.pad.toNat) * 4
      else 144000 * r.bitrate / r.fs + h.raw.pad.toNat) ∧ 32 ≤ r.flen ∧ r.flen ≤ 2881) ∧
  (∃ h : HeaderFields, h.accepted = true ∧ (headerRecord .both h.raw).flen = 32) ∧
  ∃ h : HeaderFields, h.accepted = true ∧ (headerRecord .both h.raw).flen = 2881

/-! ### The bitstream reader -/

/-- 40_bitstream_reader.md R83: READ_HEADER_BYTES with a byte, with EOS, and (20_memory.md R44) without an answer. The
fourth byte runs the header class the collected word decodes to, which answers a next state. The frame buffer is at
least as large as 00_scope.md R8 asks. That a step without an answer leaves `frame_start` too
is the model's reading of 20_memory.md R44 and 45_orchestrator.md R143 (log entry 8). -/
def Obligations.ReadHeaderByteResult : Prop :=
  ∀ s : State, s.params.legal → s.hdrBytes ≤ 3 →
    let start := if s.hdrBytes = 0 then s.byteCount else s.frameStart
    (∀ b rest, s.src.avail = b :: rest →
      let t := { s with
        frameStart := start, src := { s.src with avail := rest }, fb := s.fb.write s.hdrBytes b
        hdrWord := s.hdrWord <<< 8 ||| b.setWidth 32, hdrBytes := s.hdrBytes + 1, byteCount := s.byteCount + 1#32 }
      (s.hdrBytes < 3 → exec .readHeaderBytes s = .next t) ∧
      (s.hdrBytes = 3 → ∃ i, decode .hdr32 t.hdrWord.toNat = .ok i ∧ exec .readHeaderBytes s = exec i t ∧
        ∃ u, exec i t = .next u)) ∧
    (s.src.avail = [] → s.src.eos = true →
      (s.hdrBytes = 0 → exec .readHeaderBytes s = .next { s with frameStart := start, seq := .done }) ∧
      (s.hdrBytes ≠ 0 → exec .readHeaderBytes s = .next (s.failedAt .bitstreamUnderrun 1))) ∧
    (s.src.avail = [] → s.src.eos = false → exec .readHeaderBytes s = .next s)

/-- 40_bitstream_reader.md R84: FETCH_FRAME with a byte k of the frame that is not the last, with EOS, and (20_memory.md
R44) without an answer. That k is BYTE_COUNT - `frame_start` is the model's reading (log entry 9). -/
def Obligations.FetchByteResult : Prop :=
  ∀ (s : State) (k : Nat), s.byteCount = s.frameStart + BitVec.ofNat 32 k → k < s.flen.toNat →
    s.flen.toNat ≤ s.params.frameBufBytes →
    (∀ b rest, s.src.avail = b :: rest → k + 1 < s.flen.toNat →
      exec .fetchFrame s = .next { s with
        src := { s.src with avail := rest }, fb := s.fb.write k b, byteCount := s.byteCount + 1#32 }) ∧
    (s.src.avail = [] → s.src.eos = true → exec .fetchFrame s = .next (s.failedAt .bitstreamUnderrun 1)) ∧
    (s.src.avail = [] → s.src.eos = false → exec .fetchFrame s = .next s)

/-- 40_bitstream_reader.md R84, R87, 41_header_parser.md R104: the last byte of a frame ends FETCH: the cursor stands
after the header, the CRC accumulator is initialised, and a protected frame's check word is bytes 4 and 5. That the
byte index is BYTE_COUNT - `frame_start` is the model's reading (log entry 9). (R87 marks the initial value and the
header coverage, and R104 the whole field, as from general knowledge.) -/
def Obligations.FetchLastByteEndsFetch : Prop :=
  ∀ (s : State) (k : Nat) (b : Byte) (rest : List Byte), s.seq = .fetch →
    s.byteCount = s.frameStart + BitVec.ofNat 32 k → k + 1 = s.flen.toNat → 6 ≤ s.flen.toNat →
    s.flen.toNat ≤ s.params.frameBufBytes → s.src.avail = b :: rest →
    let fb := s.fb.write k b
    let t := { s with
      src := { s.src with avail := rest }, fb := fb, byteCount := s.byteCount + 1#32, bitpos := 32, crc := 0xFFFF#16
      seq := .alloc }
    (s.hdr.raw.prot = 1#1 → exec .fetchFrame s = .next t) ∧
    (s.hdr.raw.prot = 0#1 → exec .fetchFrame s = .next { t with
      bitpos := 48, crc := crcAdd 0xFFFF#16 (s.hdrWord.toNat % 2 ^ 16) 16, crcWord := fb.read 4 ++ fb.read 5 })

/-- 10_state.md R31, 40_bitstream_reader.md R83, R84, and 10_state.md R38 for the two commands that clear FB: what each
operation does to the frame buffer, byte by byte. READ_HEADER_BYTES and FETCH_FRAME store the byte they take at one
index; every other operation but a soft reset and a START leaves all of FB alone. The canonical form is the model's
(log entry 13). That FETCH_FRAME stores at BYTE_COUNT - `frame_start` is the model's reading (log entry 9); with that
index at or past `flen`, which `State.Inv` rules out, it takes no byte, and this statement says nothing. -/
def Obligations.FrameBufferFrame : Prop :=
  (∀ (s t : State) (b : Byte) (rest : List Byte), s.fb.wf = true → s.src.avail = b :: rest →
    exec .readHeaderBytes s = .next t →
    t.fb.wf = true ∧ t.fb.read s.hdrBytes = b ∧ ∀ a, a ≠ s.hdrBytes → t.fb.read a = s.fb.read a) ∧
  (∀ (s t : State) (b : Byte) (rest : List Byte), s.fb.wf = true → s.src.avail = b :: rest →
    (s.byteCount - s.frameStart).toNat < s.flen.toNat → exec .fetchFrame s = .next t →
    t.fb.wf = true ∧ t.fb.read (s.byteCount - s.frameStart).toNat = b ∧
      ∀ a, a ≠ (s.byteCount - s.frameStart).toNat → t.fb.read a = s.fb.read a) ∧
  (∀ (i : Instr) (s t : State), exec i s = .next t → s.src.avail = [] ∨ (i ≠ .readHeaderBytes ∧ i ≠ .fetchFrame) →
    (∀ v, i ≠ .ctrlSoftReset v) → (∀ v, i ≠ .ctrlStart v) → t.fb = s.fb)

/-- The model's own form of the frame buffer (log entry 13): two canonical memories that read the same are equal data. -/
def Obligations.EqualReadsEqualMemory : Prop :=
  ∀ m n : Memory, m.wf = true → n.wf = true → (∀ a, m.read a = n.read a) → m = n

/-- 41_header_parser.md R104: `crc_word <- GetBits(16)`, and the CRC accumulator is not fed. (R104 is marked by the
spec as from general knowledge.) -/
def Obligations.CrcWordResult : Prop :=
  ∀ (c : BitVec 16) (s : State), s.frameHolds 16 →
    exec (.crcWord c) s = .next { s with bitpos := s.bitpos + 16, crcWord := c }

/-- 40_bitstream_reader.md R85: the n bits at the cursor, the first one most significant, zero-extended; only the cursor
moves. A field that would cross the frame end is an underrun. The value is left in the model's own field `bits` (log
entry 10). -/
def Obligations.GetBitsResult : Prop :=
  ∀ (n : Nat) (s : State), 1 ≤ n → n ≤ 32 →
    (8 * s.flen.toNat < s.bitpos + n → exec (.getBits n) s = .next (s.failedAt .bitstreamUnderrun 2)) ∧
    (s.frameHolds n →
      ∃ v : Word, exec (.getBits n) s = .next { s with bitpos := s.bitpos + n, bits := v } ∧
        (∀ k, k < n → v.getLsbD (n - 1 - k) = (s.fb.read ((s.bitpos + k) / 8)).getLsbD (7 - (s.bitpos + k) % 8)) ∧
        ∀ k, n ≤ k → v.getLsbD k = false)

/-- 40_bitstream_reader.md R86: a field that would cross the frame end raises BITSTREAM_UNDERRUN detail 2 and leaves
the cursor where it was; so does the second or third field of an operation that reads several, with what the fields
before it did kept (60_exceptions.md R160). (R86 is the spec's own reading: "The source has no rule for it.") -/
def Obligations.FieldPastFrameEnd : Prop :=
  (∀ (i : Instr) (n : Nat) (s : State), firstFieldWidth i = some n → 8 * s.flen.toNat < s.bitpos + n →
    exec i s = .next (s.failedAt .bitstreamUnderrun 2)) ∧
  (∀ (sb : Fin 32) (ch : Fin 2) (r : SfRead) (k : Nat) (s : State), k < r.indices.length → s.frameHolds (6 * k) →
    8 * s.flen.toNat < s.bitpos + 6 * (k + 1) →
    exec (.l2Scalefactor sb ch r) s =
      .next ({ s with bitpos := s.bitpos + 6 * k }.failedAt .bitstreamUnderrun 2)) ∧
  (∀ (sb : Fin 32) (ch : Fin 2) (n : Nat) (v0 v1 v2 : BitVec 16) (s : State), s.frameHolds (codeWidth n) →
    8 * s.flen.toNat < s.bitpos + 2 * codeWidth n →
    exec (.l2Ungrouped sb ch n v0 v1 v2) s =
      .next (({ s with bitpos := s.bitpos + codeWidth n }.setSmp ch sb 0 (rq2Value s.params.num v0.toNat n)).failedAt
        .bitstreamUnderrun 2)) ∧
  (∀ (sb : Fin 32) (ch : Fin 2) (n : Nat) (v0 v1 v2 : BitVec 16) (s : State), s.frameHolds (2 * codeWidth n) →
    8 * s.flen.toNat < s.bitpos + 3 * codeWidth n →
    exec (.l2Ungrouped sb ch n v0 v1 v2) s =
      .next ((({ s with bitpos := s.bitpos + 2 * codeWidth n }.setSmp ch sb 0
        (rq2Value s.params.num v0.toNat n)).setSmp ch sb 1 (rq2Value s.params.num v1.toNat n)).failedAt
        .bitstreamUnderrun 2))

/-- 40_bitstream_reader.md R88: `CrcAdd` bit by bit; and what follows: a value may be fed in pieces, and the
accumulator is linear in its start and its input. (R88 marks the polynomial's value and the bit procedure as from
general knowledge.) -/
def Obligations.CrcAddBitByBit : Prop :=
  (∀ (c : BitVec 16) (v : Nat), crcAdd c v 0 = c) ∧
  (∀ (c : BitVec 16) (v n : Nat),
    crcAdd c v (n + 1) =
      crcAdd (if (c.getLsbD 15 ^^ v.testBit n) = true then (c <<< 1) ^^^ 0x8005#16 else c <<< 1) v n) ∧
  (∀ (c : BitVec 16) (v m n : Nat), crcAdd c v (m + n) = crcAdd (crcAdd c (v / 2 ^ n) m) v n) ∧
  ∀ (c d : BitVec 16) (v w n : Nat), crcAdd (c ^^^ d) (v ^^^ w) n = crcAdd c v n ^^^ crcAdd d w n

/-- 40_bitstream_reader.md R89, 60_exceptions.md R163: CRC_CHECK of an unprotected or matching frame does nothing; a
mismatch is fatal in strict mode and counted in lenient mode. -/
def Obligations.CrcCheckResult : Prop :=
  ∀ s : State,
    (s.hdr.raw.prot = 1#1 ∨ s.crc = s.crcWord → exec .crcCheck s = .next s) ∧
    (s.hdr.raw.prot = 0#1 → s.crc ≠ s.crcWord → s.cfg.strict = true →
      exec .crcCheck s = .next (s.failedAt .crcMismatch 0)) ∧
    (s.hdr.raw.prot = 0#1 → s.crc ≠ s.crcWord → s.cfg.strict = false →
      exec .crcCheck s = .next { s with diagCrcMismatch := diagCount s.diagCrcMismatch })

/-- 10_state.md R27: `Diag(c)` adds 1 unless c is all ones. -/
def Obligations.DiagnosticsSaturate : Prop :=
  ∀ c : Word, (c ≠ 0xFFFFFFFF#32 → (diagCount c).toNat = c.toNat + 1) ∧ (c = 0xFFFFFFFF#32 → diagCount c = c)

/-! ### Layer I -/

/-- 42_layer1_decode.md R106: an allocation code is fed into the CRC and fixes `alloc`, `lev`, `cw` and `grp` of its
channel and subband; a code 0 leaves `grp`. -/
def Obligations.L1AllocationResult : Prop :=
  ∀ (sb : Fin 32) (ch : Fin 2) (a : BitVec 4) (s : State), a ≠ 15#4 → s.frameHolds 4 →
    exec (.l1Alloc sb ch a) s = .next
      ({ s with bitpos := s.bitpos + 4, crc := crcAdd s.crc a.toNat 4 }.setSub ch sb
        (if a = 0#4 then { s.sub ch sb with alloc := 0, lev := 0, cw := 0 }
         else { s.sub ch sb with alloc := a, lev := 2 ^ (a.toNat + 1) - 1, cw := a.toNat + 1, grp := false }))

/-- 42_layer1_decode.md R105, 60_exceptions.md R162: the corrupt code 15 is fed into the CRC as transmitted; then it is
fatal in strict mode, and in lenient mode counted and treated as 14 (15-bit codes, 32767 levels). (Code 14 is "this
spec's reading of" the source's last valid path, says R105.) -/
def Obligations.L1CorruptAllocationResult : Prop :=
  ∀ (sb : Fin 32) (ch : Fin 2) (s : State), s.frameHolds 4 →
    let t := { s with bitpos := s.bitpos + 4, crc := crcAdd s.crc 15 4 }
    (s.cfg.strict = true → exec (.l1AllocCorrupt sb ch) s = .next (t.failedAt .corruptAllocation 1)) ∧
    (s.cfg.strict = false →
      exec (.l1AllocCorrupt sb ch) s = .next
        ({ t with diagCorruptAlloc := diagCount s.diagCorruptAlloc }.setSub ch sb
          { s.sub ch sb with alloc := 14, lev := 32767, cw := 15, grp := false }))

/-- 42_layer1_decode.md R108, R109, R110, R115, 30_encoding.md R72: a scale factor goes to part 0, and a sample code of
`a + 1` bits to element 0 as fl(fl(fl(code) · 2/n) - (n - 1)/n), with the constants rounded into `NUM`. The
destination of L1_DEQUANT is the model's (log entry 10). (The width and the level count are marked by R71 as from
general knowledge.) -/
def Obligations.L1FieldResults : Prop :=
  (∀ (sb : Fin 32) (ch : Fin 2) (x : BitVec 6) (s : State), s.frameHolds 6 →
    exec (.l1Scalefactor sb ch x) s = .next
      ({ s with bitpos := s.bitpos + 6 }.setSub ch sb { s.sub ch sb with sfx := (s.sub ch sb).sfx.set 0 x })) ∧
  (∀ (sb : Fin 32) (ch : Fin 2) (a : BitVec 4) (q : BitVec 16) (s : State), a ≠ 0#4 → a ≠ 15#4 →
    let n : Nat := 2 ^ (a.toNat + 1) - 1
    let d := s.params.num
    let y := d.add (d.mul (d.ofInt q.toNat) (d.ratio 2 n)) (d.ratio (-((n : Int) - 1)) n)
    exec (.l1Dequant sb ch q a) s = .next
      (s.setSub ch sb { s.sub ch sb with smp := (s.sub ch sb).smp.set 0 y }) ∧
    (s.frameHolds (a.toNat + 1) →
      exec (.l1Sample sb ch a q) s = .next
        ({ s with bitpos := s.bitpos + (a.toNat + 1) }.setSub ch sb
          { s.sub ch sb with smp := (s.sub ch sb).smp.set 0 y })))

/-- 42_layer1_decode.md R111, R113: the Layer I Mono and IntensityStereo puts, for every CHANSEL and every pair of
allocations. -/
def Obligations.L1PutResults : Prop :=
  ∀ (sb : Fin 32) (s : State),
    let c0 := s.sub 0 sb
    let c1 := s.sub 1 sb
    let y0 := s.params.num.mul c0.smp[0] (scaleFactor s.params c0.sfx[0])
    let z1 := s.params.num.mul c0.smp[0] (scaleFactor s.params c1.sfx[0])
    exec (.l1PutMono sb) s = .next (if c0.alloc = 0#4 then s else s.addSample 0 sb y0) ∧
    exec (.l1PutIntensity sb) s = .next (if c0.alloc = 0#4 then s else match s.cfg.chansel with
      | .left => s.addSample 0 sb y0
      | .right => s.addSample 0 sb z1
      | .both => (s.addSample 0 sb y0).addSample 1 sb z1)

/-! ### Layer II -/

/-- 43_layer2_decode.md R118, 30_encoding.md R68 to R70, R76: an allocation code of `nbal` bits is fed into the CRC and
selects the level count from the table's list, with the class's code width and grouping; and every nonzero code of a
used subband selects a class, so there is no corrupt Layer II allocation. (The tables are marked by the spec as from
general knowledge.) -/
def Obligations.L2AllocationResult : Prop :=
  (∀ (tab : L2Tab) (sb : Fin 32) (ch : Fin 2) (a : BitVec 4) (s : State), s.frameHolds (nbal tab sb) →
    let t := { s with bitpos := s.bitpos + nbal tab sb, crc := crcAdd s.crc a.toNat (nbal tab sb) }
    (a = 0#4 → exec (.l2Alloc tab sb ch a) s = .next
      (t.setSub ch sb { s.sub ch sb with alloc := 0, lev := 0, cw := 0, grp := false })) ∧
    (∀ (k : Nat) (n : Nat), a.toNat = k + 1 → (l2Row tab sb).2[k]? = some n →
      ∃ q ∈ qClasses, q.n = n ∧ exec (.l2Alloc tab sb ch a) s = .next
        (t.setSub ch sb { s.sub ch sb with alloc := a, lev := n, cw := q.cw, grp := q.grouped }))) ∧
  ∀ (tab : L2Tab) (sb : Nat) (a : Nat), sb < l2Sblimit tab → 1 ≤ a → a < 2 ^ nbal tab sb →
    ∃ q ∈ qClasses, (l2Row tab sb).2[a - 1]? = some q.n

/-- 43_layer2_decode.md R119, R120, 30_encoding.md R74: SCFSI is stored and fed into the CRC; each SCFSI code reads its
number of indices, the first one most significant; the indices serve the parts of the mapping, and are not fed. Both
operations complete whenever the frame holds their bits. An index stands for SF of 30_encoding.md R73: SF[63] is
SF63_VALUE; under binary32 SF[0] is 2, SF[1] and SF[2] are the values nearest 2^(2/3) and 2^(1/3) (whose cubes are 4 and
2), and three indices further, below 63, is exactly half. (R73 marks the ratio and SF[0] as from general knowledge.) -/
def Obligations.L2ScfsiAndScalefactorResults : Prop :=
  (∀ (sb : Fin 32) (ch : Fin 2) (x : BitVec 2) (s : State), s.frameHolds 2 →
    exec (.l2Scfsi sb ch x) s = .next
      ({ s with bitpos := s.bitpos + 2, crc := crcAdd s.crc x.toNat 2 }.setSub ch sb
        { s.sub ch sb with scfsi := x })) ∧
  (∀ (sb : Fin 32) (ch : Fin 2) (x0 x1 x2 : BitVec 6),
    decode (.l2Scalefactor sb ch 0) (x0 ++ x1 ++ x2).toNat = .ok (.l2Scalefactor sb ch (.three x0 x1 x2)) ∧
    decode (.l2Scalefactor sb ch 1) (x0 ++ x1).toNat = .ok (.l2Scalefactor sb ch (.firstTwo x0 x1)) ∧
    decode (.l2Scalefactor sb ch 2) x0.toNat = .ok (.l2Scalefactor sb ch (.one x0)) ∧
    decode (.l2Scalefactor sb ch 3) (x0 ++ x1).toNat = .ok (.l2Scalefactor sb ch (.lastTwo x0 x1))) ∧
  (∀ (sb : Fin 32) (ch : Fin 2) (x0 x1 x2 : BitVec 6) (s : State),
    (s.frameHolds 18 → exec (.l2Scalefactor sb ch (.three x0 x1 x2)) s = .next
      ({ s with bitpos := s.bitpos + 18 }.setSub ch sb { s.sub ch sb with sfx := #v[x0, x1, x2] })) ∧
    (s.frameHolds 12 → exec (.l2Scalefactor sb ch (.firstTwo x0 x1)) s = .next
      ({ s with bitpos := s.bitpos + 12 }.setSub ch sb { s.sub ch sb with sfx := #v[x0, x0, x1] })) ∧
    (s.frameHolds 6 → exec (.l2Scalefactor sb ch (.one x0)) s = .next
      ({ s with bitpos := s.bitpos + 6 }.setSub ch sb { s.sub ch sb with sfx := #v[x0, x0, x0] })) ∧
    (s.frameHolds 12 → exec (.l2Scalefactor sb ch (.lastTwo x0 x1)) s = .next
      ({ s with bitpos := s.bitpos + 12 }.setSub ch sb { s.sub ch sb with sfx := #v[x0, x1, x1] }))) ∧
  (∀ p : Params, scaleFactor p 63#6 = p.num.ofRat p.sf63Value) ∧
  ∀ p : Params, p.num = .binary32 →
    let sf : Nat → Int := fun i => F32.scaled (F32.ofCode (scaleFactor p (BitVec.ofNat 6 i)))
    sf 0 = 2 * 2 ^ 149 ∧ (∀ i, i + 3 < 63 → 2 * sf (i + 3) = sf i) ∧
    ∀ i, i = 1 ∨ i = 2 → ∃ m : Int, sf i = m * 2 ^ 126 ∧
      (2 * m - 1) ^ 3 < 2 ^ (3 - i) * 2 ^ 72 ∧ 2 ^ (3 - i) * 2 ^ 72 < (2 * m + 1) ^ 3

/-- 43_layer2_decode.md R125, 30_encoding.md R76: `RQ2` = fl(fl(C) · x) with C = 2^nb/n and x = v · 2^(1 - nb) - 1 + D,
each class's nb and D as the class table gives them; under binary32 x is exact. (In another `NUM` the evaluation order
is the model's, log entry 1. The destination of RQ2 is the model's, log entry 10. The class table is marked by R76 as
from general knowledge, the formula by R125 as derived.) -/
def Obligations.RequantizationResult : Prop :=
  ∀ (sb : Fin 32) (ch : Fin 2) (k : Fin 3) (v : BitVec 16) (q : QClass) (s : State), q ∈ qClasses →
    v.toNat < 2 ^ q.nb →
    let d := s.params.num
    let num : Int := 2 * (v.toNat : Int) - 2 ^ q.nb + 2 ^ (q.nb - q.dExp)
    let x : NumVal := d.ratio num (2 ^ q.nb)
    (d = .binary32 → F32.isFinite (F32.ofCode x) = true ∧ F32.scaled (F32.ofCode x) * 2 ^ q.nb = num * 2 ^ 149) ∧
      exec (.rq2 sb ch k v q.n) s = .next (s.setSub ch sb { s.sub ch sb with
        smp := (s.sub ch sb).smp.set k (d.mul (d.ratio (2 ^ q.nb) q.n) x) })

/-- 43_layer2_decode.md R122, R124, 30_encoding.md R75: a grouped code in range is v0 + n·v1 + n²·v2, and its digits are
requantized into the three elements, least significant digit first; a code out of range is counted and read as n³ - 1, all
digits n - 1, in strict and lenient mode alike. -/
def Obligations.L2GroupedResults : Prop :=
  ∀ (sb : Fin 32) (ch : Fin 2) (n : Nat) (c : BitVec 16) (s : State), groupedLevels n = true →
    s.frameHolds (codeWidth n) →
    let d := s.params.num
    (∀ v0 v1 v2 : Nat, v0 < n → v1 < n → v2 < n → c.toNat = v0 + n * v1 + n ^ 2 * v2 →
      exec (.l2Grouped sb ch n c) s = .next
        ({ s with bitpos := s.bitpos + codeWidth n }.setSub ch sb
          { s.sub ch sb with smp := #v[rq2Value d v0 n, rq2Value d v1 n, rq2Value d v2 n] })) ∧
    (n ^ 3 ≤ c.toNat →
      exec (.l2GroupedOutOfRange sb ch n c) s = .next
        ({ s with bitpos := s.bitpos + codeWidth n, diagBadGroup := diagCount s.diagBadGroup }.setSub ch sb
          { s.sub ch sb with smp := #v[rq2Value d (n - 1) n, rq2Value d (n - 1) n, rq2Value d (n - 1) n] }))

/-- 43_layer2_decode.md R123: three codes of one width, each requantized into its element. (R123 is marked by the spec
as from general knowledge.) -/
def Obligations.L2UngroupedResult : Prop :=
  ∀ (sb : Fin 32) (ch : Fin 2) (n : Nat) (v0 v1 v2 : BitVec 16) (s : State), ungroupedLevels n = true →
    s.frameHolds (3 * codeWidth n) →
    let d := s.params.num
    exec (.l2Ungrouped sb ch n v0 v1 v2) s = .next
      ({ s with bitpos := s.bitpos + 3 * codeWidth n }.setSub ch sb
        { s.sub ch sb with smp := #v[rq2Value d v0.toNat n, rq2Value d v1.toNat n, rq2Value d v2.toNat n] })

/-- 43_layer2_decode.md R126, R128, R130: the Layer II Mono and IntensityStereo puts of sample `sn` with the part of
triplet `gn`, for every CHANSEL and every pair of allocations. -/
def Obligations.L2PutResults : Prop :=
  ∀ (sb : Fin 32) (s : State) (h : s.sn < 3),
    let p : Fin 3 := if s.gn ≤ 4 then 0 else if s.gn ≤ 8 then 1 else 2
    let c0 := s.sub 0 sb
    let c1 := s.sub 1 sb
    let y0 := s.params.num.mul c0.smp[s.sn] (scaleFactor s.params c0.sfx[p])
    let z1 := s.params.num.mul c0.smp[s.sn] (scaleFactor s.params c1.sfx[p])
    exec (.l2PutMono sb) s = .next (if c0.alloc = 0#4 then s else s.addSample 0 sb y0) ∧
    exec (.l2PutIntensity sb) s = .next (if c0.alloc = 0#4 then s else match s.cfg.chansel with
      | .left => s.addSample 0 sb y0
      | .right => s.addSample 0 sb z1
      | .both => (s.addSample 0 sb y0).addSample 1 sb z1)

/-- 42_layer1_decode.md R112, 43_layer2_decode.md R129: the Stereo puts of both layers. BOTH sends channel 0 to filter 0
and channel 1 to filter 1, LEFT and RIGHT send the selected channel to filter 0; an unallocated channel adds nothing.
(The routing is what R112 and R129 mark as from general knowledge.) -/
def Obligations.StereoPutResults : Prop :=
  ∀ (sb : Fin 32) (s : State),
    let routed : NumVal → NumVal → State := fun y0 y1 =>
      match s.cfg.chansel with
      | .left => if (s.sub 0 sb).alloc = 0#4 then s else s.addSample 0 sb y0
      | .right => if (s.sub 1 sb).alloc = 0#4 then s else s.addSample 0 sb y1
      | .both =>
        let t := if (s.sub 0 sb).alloc = 0#4 then s else s.addSample 0 sb y0
        if (s.sub 1 sb).alloc = 0#4 then t else t.addSample 1 sb y1
    exec (.l1PutStereo sb) s = .next (routed
      (s.params.num.mul (s.sub 0 sb).smp[0] (scaleFactor s.params (s.sub 0 sb).sfx[0]))
      (s.params.num.mul (s.sub 1 sb).smp[0] (scaleFactor s.params (s.sub 1 sb).sfx[0]))) ∧
    ∀ h : s.sn < 3,
      let p : Fin 3 := if s.gn ≤ 4 then 0 else if s.gn ≤ 8 then 1 else 2
      exec (.l2PutStereo sb) s = .next (routed
        (s.params.num.mul (s.sub 0 sb).smp[s.sn] (scaleFactor s.params (s.sub 0 sb).sfx[p]))
        (s.params.num.mul (s.sub 1 sb).smp[s.sn] (scaleFactor s.params (s.sub 1 sb).sfx[p])))

/-! ### Synthesis and output -/

/-- 44_synthesis_filter.md R132: `S_f[sb] <- x`; every other input, the history and the other filter are unchanged.
(R132 is marked by the spec as derived from R111.) -/
def Obligations.AddSampleResult : Prop :=
  ∀ (f : Fin 2) (sb : Fin 32) (x : NumVal) (s : State),
    ∃ filt, exec (.addSample f sb x) s = .next { s with filt := filt } ∧ (filt[f]).s[sb] = x ∧
      (filt[f]).v = (s.filt[f]).v ∧ (∀ sb' : Fin 32, sb' ≠ sb → (filt[f]).s[sb'] = (s.filt[f]).s[sb']) ∧
      ∀ g : Fin 2, g ≠ f → filt[g] = s.filt[g]

/-- 44_synthesis_filter.md R134, R140: the seven steps of SynthStep, every sum in its order: the history shifted by one
vector, the newest vector matrixed, U, W, the 16 taps, the converted samples stored in the current slot's beats, and
the input cleared. The other filter and every other beat are unchanged. (R134 marks the recurrence as from general
knowledge and the evaluation order as "this spec's choice".) -/
def Obligations.SynthStepResult : Prop :=
  ∀ (f : Fin 2) (s : State), 32 * s.slot ≤ s.ob.length →
    let d := s.params.num
    ∃ (V : Vector NumVal 1024) (U W out : Nat → NumVal) (ob : List Beat),
      (∀ (i : Nat) (h : i < 960), V[i + 64] = (s.filt[f]).v[i]) ∧
      (∀ (i : Nat) (h : i < 64), ∃ acc : Nat → NumVal,
        acc 0 = d.mul (synthMatrix d i 0) (s.filt[f]).s[0] ∧
        (∀ (k : Nat) (hk : k < 31),
          acc (k + 1) = d.add (acc k) (d.mul (synthMatrix d i (k + 1)) (s.filt[f]).s[k + 1])) ∧
        V[i] = acc 31) ∧
      (∀ (i j : Nat) (hi : i < 8) (hj : j < 32),
        U (64 * i + j) = V[128 * i + j] ∧ U (64 * i + 32 + j) = V[128 * i + 96 + j]) ∧
      (∀ i : Fin 512, W i = d.mul (U i) (d.ops.window i)) ∧
      (∀ j, j < 32 → ∃ y : Nat → NumVal,
        y 0 = W j ∧ (∀ i, i < 15 → y (i + 1) = d.add (y i) (W (j + 32 * (i + 1)))) ∧ out j = y 15) ∧
      (∀ k, k < 32 * s.slot ∨ 32 * s.slot + 32 ≤ k → ob[k]? = s.ob[k]?) ∧
      (∀ j, j < 32 → ob[32 * s.slot + j]? = some
        ((s.ob[32 * s.slot + j]?.getD ⟨none, none⟩).put f (convertSample s.params s.cfg.fmt (out j)))) ∧
      exec (.synthStep f) s = .next
        { s with filt := s.filt.set f { s := Vector.replicate 32 0, v := V }, ob := ob }

/-- 44_synthesis_filter.md R140, 20_memory.md R43, R46: CONVERT in float format delivers a binary32 bit pattern, under
binary32 the value itself and under another `NUM` that domain's conversion, which is free (log entry 1); in the other
format a 16-bit value. OB_put stores the sample of channel f in beat j of the current slot. The destination is the model's
(log entry 10). -/
def Obligations.ConvertResult : Prop :=
  (∀ (p : Params) (y : NumVal),
    (∃ v : F32, convertSample p .float32 y = .float32 v ∧ v = p.num.ops.toF32 y ∧
      (p.num = .binary32 → v.toNat = y % 2 ^ 32)) ∧
    ∃ v : BitVec 16, convertSample p .pcm16 y = .pcm16 v) ∧
  ∀ (f : Fin 2) (j : Fin 32) (y : NumVal) (s : State), 32 * s.slot + j.val ≤ s.ob.length →
    ∃ ob, exec (.convert f j y) s = .next { s with ob := ob } ∧
      (∀ k, k ≠ 32 * s.slot + j.val → ob[k]? = s.ob[k]?) ∧
      ob[32 * s.slot + j.val]? = some
        ((s.ob[32 * s.slot + j.val]?.getD ⟨none, none⟩).put f (convertSample s.params s.cfg.fmt y))

/-- 44_synthesis_filter.md R140 with the default `NUM` and OUT_SCALE and either PCM_CONVERT (00_scope.md R8): the PCM16
sample of a finite value is the exact product with 32768, rounded toward zero or to the nearest integer with ties to
even, and clamped to the signed 16-bit range. -/
def Obligations.Pcm16IsClampedTruncation : Prop :=
  ∀ (p : Params) (y : NumVal), p.num = .binary32 → p.outScale = 32768 → F32.isFinite (F32.ofCode y) = true →
    let x := F32.scaled (F32.ofCode y) * 32768
    ∃ (v : BitVec 16) (q : Int), convertSample p .pcm16 y = .pcm16 v ∧ v.toInt = max (-32768) (min 32767 q) ∧
      (p.pcmConvert = .trunc → q = x.tdiv (2 ^ 149)) ∧
      (p.pcmConvert = .nearestEven → 2 * |q * 2 ^ 149 - x| ≤ 2 ^ 149 ∧ (2 * |q * 2 ^ 149 - x| = 2 ^ 149 → q % 2 = 0))

/-- 44_synthesis_filter.md R136: after steps with the inputs of a list, entry 64m + i of the history is entry i of the
matrixed vector of the step m before the last, for m up to 15; older vectors are gone. R138, under the exact reference:
from an all-zero history, an input followed by silence gives output j of step t as the matrixed vector's entry j + 32 (t
mod 2) times WINDOW_D[32t + j] for t up to 15, and 0 after. (R136 and R138 are marked by the spec as derived. The
reference is log entry 21.) -/
def Obligations.HistoryIsShiftOfVectors : Prop :=
  (∀ (d : NumDomain) (inputs : List (Vector NumVal 32)) (v : Vector NumVal 1024) (m i : Nat) (hm : m < 16) (hi : i < 64),
    (∀ (h : m < inputs.length),
      (inputs.foldl (fun v sIn => nextHistory d sIn v) v)[64 * m + i] =
        matrixRow d (inputs[inputs.length - 1 - m]'(by omega)) i) ∧
    (16 ≤ inputs.length → ∀ v' : Vector NumVal 1024,
      inputs.foldl (fun v sIn => nextHistory d sIn v) v = inputs.foldl (fun v sIn => nextHistory d sIn v) v')) ∧
  ∀ (v : Vector NumVal 1024) (sIn : Vector NumVal 32) (later : List (Vector NumVal 32)) (j : Fin 32),
    (∀ i : Fin 1024, referenceValue v[i] = 0) → (∀ x ∈ later, ∀ k : Fin 32, referenceValue x[k] = 0) →
    let t := later.length
    referenceValue (filterOut .reference (later.foldl (fun v x => nextHistory .reference x v)
        (nextHistory .reference sIn v)) j) =
      if h : t < 16 then
        referenceValue (matrixRow .reference sIn (j + 32 * (t % 2))) * F32.value (Config.windowD ⟨32 * t + j, by omega⟩)
      else 0

/-- 44_synthesis_filter.md R137 for the binary32 entries of the matrix: N[32 - i][k] = -N[i][k] and N[96 - i][k] =
N[i][k]; R133, R137, 00_scope.md R10 under the exact reference: entry i of the matrixed vector is the sum of cos((16 +
i)(2k + 1)π/64) S[k], and has the two symmetries for every input. (R133 marks the formula as from general knowledge, R137 the symmetries as derived.) -/
def Obligations.MatrixSymmetries : Prop :=
  let entry : Nat → Nat → F32 := fun i k => F32.ofCode (synthMatrix .binary32 i k)
  (∀ i k, i ≤ 32 → k < 32 → F32.scaled (entry (32 - i) k) = -F32.scaled (entry i k)) ∧
  (∀ i k, 33 ≤ i → i < 64 → k < 32 → entry (96 - i) k = entry i k) ∧
  ∀ sIn : Vector NumVal 32,
    let row : Nat → ℝ := fun i => referenceValue (matrixRow .reference sIn i)
    (∀ i, i < 64 → row i = ∑ k : Fin 32, Real.cos ((16 + i) * (2 * k + 1) * Real.pi / 64) * referenceValue sIn[k]) ∧
    (∀ i, i ≤ 32 → row (32 - i) = -row i) ∧ ∀ i, 33 ≤ i → i < 64 → row (96 - i) = row i

/-- 44_synthesis_filter.md R139, 42_layer1_decode.md R116, with `NUM` = binary32: after any history, sixteen steps in a row with an all-zero
input leave only zeros in it, and the sixteenth step's outputs are all zero, for every window of finite coefficients. A
zero may carry either sign (log entry 17), and its PCM16 code is 0. (Finite coefficients are log entry 2, the PCM16
code asks for an OUT_SCALE that binary32 holds as a finite value.) The same holds of the exact reference (00_scope.md R10;
log entry 21), so the silent output lies within TOL of it. -/
def Obligations.SilenceAfterSixteenSilentSteps : Prop :=
  (∀ (p : Params) (inputs : List (Vector NumVal 32)) (v : Vector NumVal 1024), p.num = .binary32 →
    F32.isFinite (F32.ofCode (p.num.ofRat p.outScale)) = true →
    inputs.length = 16 → (∀ sIn ∈ inputs, ∀ k : Fin 32, F32.isZero (F32.ofCode sIn[k]) = true) →
    let t := inputs.foldl (fun v sIn => nextHistory p.num sIn v) v
    (∀ i : Fin 1024, F32.isZero (F32.ofCode t[i]) = true) ∧
    ∀ j : Fin 32, F32.isZero (F32.ofCode (filterOut p.num t j)) = true ∧
      convertSample p .pcm16 (filterOut p.num t j) = .pcm16 0 ∧
      (0 ≤ p.tol → withinTol p (filterOut p.num t j) 0)) ∧
  ∀ (inputs : List (Vector NumVal 32)) (v : Vector NumVal 1024), inputs.length = 16 →
    (∀ sIn ∈ inputs, ∀ k : Fin 32, referenceValue sIn[k] = 0) →
    let t := inputs.foldl (fun v sIn => nextHistory .reference sIn v) v
    (∀ i : Fin 1024, referenceValue t[i] = 0) ∧ ∀ j : Fin 32, referenceValue (filterOut .reference t j) = 0

/-- 00_scope.md R8, R10: the narrowing every operation of the default `NUM` ends in gives the binary32 magnitude nearest the exact
quotient p/q units of 2^-149, ties to even, and the infinity exactly from half a last place above the largest finite
value on. -/
def Obligations.RoundingIsToNearestEven : Prop :=
  ∀ p q : Nat, 0 < q →
    let r := F32.roundMag p q
    let value : Nat → Int := fun z => F32.mag (BitVec.ofNat 32 z)
    r ≤ 0x7F800000 ∧ (r = 0x7F800000 ↔ (2 ^ 25 - 1) * 2 ^ 253 * q ≤ 2 * p) ∧
    (r < 0x7F800000 → ∀ z, z < 0x7F800000 → z ≠ r →
      |value r * q - p| ≤ |value z * q - p| ∧ (|value r * q - p| = |value z * q - p| → r % 2 = 0))

/-- 45_orchestrator.md R151, 20_memory.md R46, 40_bitstream_reader.md R90: EMIT with a beat left, and
SKIP_TO_FRAME_END, which the last beat of a frame runs. A sink that does not accept leaves the state as it is; else the
beat is delivered once, `last` exactly on the last beat, after which the frame is counted, the cursor stands at the
frame end, OB is empty and the block is at the frame boundary. That a sink that does not accept leaves the state is the
model's reading of R46 and 45_orchestrator.md R143 (log entry 8). -/
def Obligations.EmitResult : Prop :=
  (∀ s : State, exec .skipToFrameEnd s = .next { s with bitpos := 8 * s.flen.toNat }) ∧
  ∀ (s : State) (b : Beat), s.ob[s.obRd]? = some b →
    (s.sinkReady = false → exec .emit s = .next s) ∧
    (s.sinkReady = true → s.obRd + 1 < s.ob.length →
      exec .emit s = .next { s with delivered := s.delivered ++ [⟨b, false⟩], obRd := s.obRd + 1 }) ∧
    (s.sinkReady = true → s.obRd + 1 = s.ob.length →
      exec .emit s = .next { s with
        delivered := s.delivered ++ [⟨b, true⟩], frameCount := s.frameCount + 1#32, bitpos := 8 * s.flen.toNat
        ob := [], obRd := 0, seq := .awaitSync })

/-! ### Registers, commands and resets -/

/-- 10_state.md R38, 70_reset_and_hazards.md R173: every element of the block's state after a hard reset, and the hard
reset of a running block; registers read 0. The parameters, the fields that stand for the environment, and `bits` keep
their values (log entries 1, 6 and 10). -/
def Obligations.HardResetValues : Prop :=
  let r := State.reset
  (r.seq = .idle ∧ r.stopReq = false ∧ r.errcode = .none ∧ r.errdetail = 0 ∧ r.frameStart = 0 ∧ r.hdrBytes = 0 ∧
    r.hdrWord = 0) ∧
  (r.ctrl = ⟨false, .both, .pcm16, false⟩ ∧ r.cfg = ⟨false, .both, .pcm16⟩ ∧ r.header = 0 ∧ r.info = 0 ∧
    r.frameCount = 0 ∧ r.byteCount = 0 ∧ r.errOffset = 0 ∧ r.diagCorruptAlloc = 0 ∧ r.diagCrcMismatch = 0 ∧
    r.diagBadGroup = 0) ∧
  (r.hdr.raw = ⟨0, 0, 0, 0, 0, 0, 0, 0, 0, 0, 0, 0⟩ ∧ r.hdr.bitrate = 0 ∧ r.hdr.fs = 0 ∧ r.hdr.flen = 0 ∧
    r.hdr.nch = 0 ∧ r.hdr.nchOut = 0 ∧ r.hdr.sblimit = 0 ∧ r.hdr.bound = 0 ∧ r.hdr.l2tab = none ∧
    r.hdr.nslots = 0 ∧ r.hdr.valid = false) ∧
  ((∀ a, r.fb.read a = 0) ∧ r.flen = 0 ∧ r.bitpos = 0 ∧ r.crc = 0 ∧ r.crcWord = 0) ∧
  (∀ (ch : Fin 2) (sb : Fin 32), r.sub ch sb = ⟨0, 0, 0, false, 0, #v[0, 0, 0], #v[0, 0, 0]⟩ ∧
    r.sbst[sb] = .unalloc) ∧
  (r.slot = 0 ∧ r.l1n = 0 ∧ r.gn = 0 ∧ r.sn = 0 ∧ r.ob = [] ∧ r.obRd = 0) ∧
  (∀ f : Fin 2, (∀ i : Fin 32, (r.filt[f]).s[i] = 0) ∧ ∀ i : Fin 1024, (r.filt[f]).v[i] = 0) ∧
  (r.irq = false ∧ ∀ off, r.readReg off = 0) ∧
  ∀ (s : State) (rest : List EnvEvent), s.script = .hardReset :: rest →
    step s = .next { State.reset with
      params := s.params, src := s.src, sinkReady := s.sinkReady, delivered := s.delivered, rdata := s.rdata, bits := s.bits
      script := rest }

/-- 45_orchestrator.md R154, R155, 70_reset_and_hazards.md R174, 30_encoding.md R80: every command stores bits 7:3. A
soft reset then puts every other element at its hard-reset value, in any state, and bits 0 and 1 of the write do
nothing; STOP sets `stop_req`, in every state; a write without a command does no more. (`clearedBlock` keeps the
parameters, the environment and `bits`, log entries 1, 6 and 10.) -/
def Obligations.SoftResetStopAndConfigResults : Prop :=
  ∀ (v : CtrlWrite) (s : State),
    exec (.ctrlSoftReset v) s = .next { s.clearedBlock with ctrl := storedConfig v } ∧
    exec (.ctrlStop v) s = .next { s with ctrl := storedConfig v, stopReq := true } ∧
    exec (.ctrlConfig v) s = .next { s with ctrl := storedConfig v }

/-- 45_orchestrator.md R153, R154, 10_state.md R38: START from each sequencer state, with the STOP of the same write
applied after it. That a resume clears the loop counters is R38's column (log entry 19). (`clearedBlock` keeps the
parameters, the environment and `bits`, log entries 1, 6 and 10; START with STOP is one command, log entry 11.) A STOP in
IDLE is kept by the START, as 92_eei_decisions.md D26 says, where R38, R153 and R154 clear it (log entry 20); from DONE and
STOPPED the START clears it. -/
def Obligations.StartResult : Prop :=
  ∀ (v : CtrlWrite) (s : State),
    let c := storedConfig v
    let cfg : LatchedCfg := ⟨c.strict, c.chansel, c.fmt⟩
    (s.seq = .idle →
      exec (.ctrlStart v) s = .next
        { s.clearedBlock with ctrl := c, cfg := cfg, seq := .awaitSync, stopReq := s.stopReq || v.stop }) ∧
    (s.seq = .done →
      exec (.ctrlStart v) s = .next
        { s.clearedBlock with ctrl := c, cfg := cfg, seq := .awaitSync, stopReq := v.stop }) ∧
    (s.seq = .stopped →
      exec (.ctrlStart v) s = .next
        { s with ctrl := c, cfg := cfg, seq := .awaitSync, stopReq := v.stop, slot := 0, l1n := 0, gn := 0, sn := 0 }) ∧
    (s.seq ≠ .idle → s.seq ≠ .done → s.seq ≠ .stopped →
      exec (.ctrlStart v) s = .next { s with ctrl := c, stopReq := s.stopReq || v.stop })

/-- 10_state.md R17: what CTRL reads after any command: bits 7:3 as written, CHANSEL 11 as 00, STOP as `stop_req`, START,
SOFT_RESET and the reserved bits as 0. -/
def Obligations.CtrlReadsBackStoredBits : Prop :=
  ∀ (v : CtrlWrite) (i : Instr) (s t : State),
    i ∈ [Instr.ctrlSoftReset v, .ctrlStart v, .ctrlStop v, .ctrlConfig v] → exec i s = .next t →
    (t.readReg 0).toNat =
      2 * t.stopReq.toNat + 8 * v.strict.toNat + 16 * (if v.chansel = 0b11#2 then 0 else v.chansel.toNat) +
        64 * v.fmt.toNat + 128 * v.irqEn.toNat

/-- 20_memory.md R40, R43, 10_state.md R16: REG_READ gives the register of the map, 0 at every other aligned offset,
and changes nothing of the block; an offset that is no multiple of 4 is refused. The name of the refusal, and the value
0 at offsets of 0x40 and above, are the model's (log entry 7). -/
def Obligations.RegisterMapReads : Prop :=
  ∀ (off : Word) (s : State),
    (off.toNat % 4 = 0 →
      ∃ x, exec (.regRead off) s = .next { s with rdata := some x } ∧
        x = if off = 0x00 then s.ctrlWord else if off = 0x04 then s.statusWord else if off = 0x08 then s.header
          else if off = 0x0C then s.info else if off = 0x10 then s.frameCount else if off = 0x14 then s.byteCount
          else if off = 0x18 then s.errOffset else if off = 0x1C then s.diagCorruptAlloc
          else if off = 0x20 then s.diagCrcMismatch else if off = 0x24 then s.diagBadGroup else 0) ∧
    (off.toNat % 4 ≠ 0 → exec (.regRead off) s = .refused .unalignedAccess)

/-- 45_orchestrator.md R156, 60_exceptions.md R166, with the numbers of 10_state.md R18 and 60_exceptions.md R157: the
fields of STATUS; the interrupt line is high exactly in DONE, STOPPED and FAILED with IRQ_EN set, and STATUS.IRQ shows
it. -/
def Obligations.StatusMirrorsSequencer : Prop :=
  ∀ s : State,
    let state : Nat := match s.seq with
      | .idle => 0 | .awaitSync => 1 | .header => 2 | .fetch => 3 | .alloc => 4 | .scfsi => 5 | .scalefactors => 6
      | .samples => 7 | .emit => 8 | .done => 9 | .stopped => 10 | .failed => 11
    let code : Nat := match s.errcode with
      | .none => 0 | .syncLoss => 1 | .unsupportedStream => 2 | .bitstreamUnderrun => 3 | .corruptAllocation => 4
      | .crcMismatch => 5
    s.statusWord.toNat = state + 16 * code + 256 * s.errdetail.toNat +
      4096 * s.irq.toNat + 8192 * (s.hdr.valid && s.hdr.nchOut == 2).toNat +
      16384 * (s.hdr.valid && s.hdr.raw.prot == 0#1).toNat ∧
    (s.irq = true ↔ s.ctrl.irqEn = true ∧ (s.seq = .done ∨ s.seq = .stopped ∨ s.seq = .failed))

/-- 20_memory.md R43, 70_reset_and_hazards.md R188, 10_state.md R16: a host access that is not 32 bits wide or not at a
multiple of 4 is refused; an aligned 32-bit write anywhere but CTRL changes nothing. (Which refusal an access gets is
the model's, log entry 7.) -/
def Obligations.HostAccessContract : Prop :=
  ∀ (s : State) (off : Word) (rest : List EnvEvent),
    (∀ n, s.script = .csrRead off n :: rest → n ≠ 4 ∨ off.toNat % 4 ≠ 0 → ∃ r, step s = .refused r) ∧
    (∀ lanes, s.script = .csrWrite off lanes :: rest → lanes.length ≠ 4 ∨ off.toNat % 4 ≠ 0 →
      ∃ r, step s = .refused r) ∧
    ∀ lanes, s.script = .csrWrite off lanes :: rest → lanes.length = 4 → off.toNat % 4 = 0 → off ≠ 0 →
      step s = .next { s with script := rest }

/-! ### Steps -/

/-- 45_orchestrator.md R143, 20_memory.md R51: where a step runs an encoded operation, it runs the operation the bits
decode to: a CTRL write on byte lanes, a register read, a field of the frame. A step of the block is the same whether
nothing more is planned outside or its turn came first. An ALLOC step runs the allocation fields of each subband and
closes it (42_layer1_decode.md R106, 43_layer2_decode.md R118); then a Layer I frame's CRC is checked, and a Layer II
frame's subbands from `sblimit` on are UNALLOC. An SCFSI, SCALEFACTORS or SAMPLES step runs the fields of
42_layer1_decode.md R108, R109, 43_layer2_decode.md R119 to R121 in their order, and then what ends it
(45_orchestrator.md R148 to R150), `sbst` included; if a field fails it ends there. -/
def Obligations.StepRunsDecodedOperation : Prop :=
  (∀ (s : State) (v : Word) (i : Instr) (rest : List EnvEvent), decode .ctrlWrite v.toNat = .ok i →
    s.script = .csrWrite 0 (busBytes v) :: rest → step s = exec i { s with script := rest }) ∧
  (∀ (s : State) (off : Word) (i : Instr) (rest : List EnvEvent), decode .regRead off.toNat = .ok i →
    s.script = .csrRead off 4 :: rest → step s = exec i { s with script := rest }) ∧
  (∀ (s : State) (fmt : Format) (i : Instr), decode fmt (s.peekBits fmt.width) = .ok i → runField fmt s = exec i s) ∧
  (∀ s : State, s.script = [] →
    (s.seq = .header → step s = exec .readHeaderBytes s) ∧ (s.seq = .fetch → step s = exec .fetchFrame s) ∧
    (s.seq = .emit → step s = exec .emit s)) ∧
  (∀ s : State, (s.script = [] → step s = blockStep s) ∧
    ∀ rest, s.script = .block :: rest → step s = blockStep { s with script := rest }) ∧
  (∀ s : State, s.seq = .alloc → s.hdr.raw.layer = 0b11#2 →
    blockStep s = andThen (s.allocations 32 .l1Alloc) fun u =>
      andThen (exec .crcCheck u) fun v => .next { v with seq := .scalefactors }) ∧
  (∀ (s : State) (tab : L2Tab), s.seq = .alloc → s.hdr.raw.layer ≠ 0b11#2 → s.hdr.l2tab = some tab →
    blockStep s = andThen (s.allocations s.hdr.sblimit (.l2Alloc tab)) fun u =>
      .next { u with
        sbst := Vector.ofFn fun sb => if s.hdr.sblimit ≤ sb.val then .unalloc else u.sbst[sb], seq := .scfsi }) ∧
  (∀ s : State, s.seq = .scfsi →
    blockStep s = andThen (forEach s.scfsiFields runField s) fun u =>
      andThen (exec .crcCheck u) fun v => .next { v with seq := .scalefactors }) ∧
  (∀ s u : State, s.seq = .scalefactors → forEach s.scalefactorFields runField s = .next u →
    (u.seq = .failed → ∃ sbst, blockStep s = .next { u with sbst := sbst }) ∧
    (u.seq ≠ .failed → blockStep s = .next { u with
      sbst := u.sbstMoved (if s.hdr.raw.layer = 0b11#2 then 32 else s.hdr.sblimit) .awaitSf .awaitSamples
      slot := 0, l1n := 0, gn := 0, sn := 0, ob := [], obRd := 0, seq := .samples })) ∧
  ∀ s u : State, s.seq = .samples → forEach s.sampleFields runField s = .next u →
    let layerI : Prop := s.hdr.raw.layer = 0b11#2
    (u.seq = .failed → ∃ sbst, blockStep s = .next { u with sbst := sbst }) ∧
    (u.seq ≠ .failed →
      let v :=
        if layerI then { u with
          sbst := u.sbstMoved 32 .awaitSamples .sampleReady, l1n := if u.l1n + 1 = 12 then 0 else u.l1n + 1 }
        else if s.sn = 0 then { u with
          sbst := u.sbstMoved s.hdr.sblimit .awaitSamples .sampleReady, gn := u.gn + 1, sn := 0 }
        else u
      blockStep s =
        andThen (forEach s.slotPuts exec v) fun w =>
        andThen (exec (.synthStep 0) w) fun x =>
        andThen (if s.hdr.nchOut = 2 then exec (.synthStep 1) x else .next x) fun y => .next { y with
          sbst := if layerI ∨ y.sn = 2 then y.sbstMoved 32 .sampleReady .awaitSamples else y.sbst
          sn := if layerI then y.sn else if y.sn = 2 then 0 else y.sn + 1
          slot := y.slot + 1, seq := if y.slot + 1 = (if layerI then 12 else 36) then .emit else .samples })

/-- The model's placing of an operation for the next step (log entry 14): a header word is run by the step that takes its
fourth byte, a CTRL value by the step of the host's write, and a CRC word is read at the end of FETCH. The frame buffer
is at least as large as 00_scope.md R8 asks. -/
def Obligations.PlacedWordRunsNext : Prop :=
  (∀ (s : State) (w : Nat) (i : Instr), s.params.legal → w < 2 ^ 32 → decodeTableWord 32 w = some i →
    step (s.withFetchWord 32 w) = exec i { s with
      seq := .header, hdrBytes := 4, hdrWord := BitVec.ofNat 32 w, byteCount := s.byteCount + 1#32
      fb := s.fb.write 3 (BitVec.ofNat 8 w), script := [] }) ∧
  (∀ (s : State) (w : Nat), s.params.legal → w < 2 ^ 16 →
    decodeTableWord 16 w = some (.crcWord (BitVec.ofNat 16 w)) ∧
    (s.fb.wf = true → ∃ t, step (s.withFetchWord 16 w) = .next t ∧ t.crcWord = BitVec.ofNat 16 w ∧ t.seq = .alloc)) ∧
  ∀ (s : State) (nbits w : Nat) (i : Instr), nbits ≠ 32 → nbits ≠ 16 → decodeTableWord nbits w = some i →
    step (s.withFetchWord nbits w) = exec i { s with script := [] }

/-- 45_orchestrator.md R142, R144, R148, 42_layer1_decode.md R106, 43_layer2_decode.md R118: a step of the block moves
`seq` only as the table says. IDLE, DONE, STOPPED and FAILED take no step; AWAIT_SYNC tests `stop_req`; ALLOC goes on by
layer; SAMPLES is entered with the counters and OB cleared. -/
def Obligations.SequencerMovesByTable : Prop :=
  ∀ s t : State, s.blockTurn → step s = .next t →
    let r := { s with script := s.script.tail }
    t.seq ∈ s.seq.successors ∧ t.script = r.script ∧
    (s.seq = .idle ∨ s.seq = .done ∨ s.seq = .stopped ∨ s.seq = .failed → t = r) ∧
    (s.seq = .awaitSync → t = if s.stopReq = true then { r with seq := .stopped }
      else { r with hdrBytes := 0, hdrWord := 0, seq := .header }) ∧
    (s.seq = .alloc → t.seq ≠ .failed → t.seq = if s.hdr.raw.layer = 0b11#2 then .scalefactors else .scfsi) ∧
    (t.seq = .samples → s.seq = .scalefactors →
      t.slot = 0 ∧ t.l1n = 0 ∧ t.gn = 0 ∧ t.sn = 0 ∧ t.ob = [] ∧ t.obRd = 0)

/-- 42_layer1_decode.md R106, 43_layer2_decode.md R118: the end of a subband's allocation. From `bound` on in a
two-channel frame channel 1 becomes a copy of channel 0's `alloc`, `lev`, `cw` and `grp`; then `sbst` is UNALLOC if no
channel in use is allocated, else AWAIT_SF. -/
def Obligations.FoldedChannelCopied : Prop :=
  ∀ (s : State) (sb : Fin 32), (s.hdr.nch = 1 ∨ s.hdr.nch = 2) →
    let c0 := s.sub 0 sb
    let c1 : SubCtx := if s.hdr.nch = 2 ∧ s.hdr.bound ≤ sb.val then
        { s.sub 1 sb with alloc := c0.alloc, lev := c0.lev, cw := c0.cw, grp := c0.grp }
      else s.sub 1 sb
    let t := s.closeAlloc sb
    t.sub 0 sb = c0 ∧ t.sub 1 sb = c1 ∧ (∀ ch sb', sb' ≠ sb → t.sub ch sb' = s.sub ch sb') ∧
    t.sbst[sb] = (if c0.alloc = 0#4 ∧ (s.hdr.nch = 2 → c1.alloc = 0#4) then .unalloc else .awaitSf) ∧
    (∀ sb' : Fin 32, sb' ≠ sb → t.sbst[sb'] = s.sbst[sb']) ∧ t = { s with ctx := t.ctx, sbst := t.sbst }

/-- 42_layer1_decode.md R106, R116: the ALLOC step of an unprotected Layer I mono frame whose next 128 bits are 0 reads
exactly those bits, allocates nothing, and adds nothing to any filter. -/
def Obligations.SilentLayerIFrameAllocatesNothing : Prop :=
  ∀ s : State, s.script = [] → s.seq = .alloc → s.hdr.raw.layer = 0b11#2 → s.hdr.raw.prot = 1#1 → s.hdr.nch = 1 →
    s.hdr.bound = 32 → s.frameHolds 128 →
    (∀ p, p < 128 → (s.fb.read ((s.bitpos + p) / 8)).getLsbD (7 - (s.bitpos + p) % 8) = false) →
    ∃ t, step s = .next t ∧ t.seq = .scalefactors ∧ t.bitpos = s.bitpos + 128 ∧
      (∀ sb : Fin 32, (t.sub 0 sb).alloc = 0#4 ∧ t.sbst[sb] = .unalloc) ∧
      t.filt = s.filt ∧ t.diagCorruptAlloc = s.diagCorruptAlloc ∧ t.diagCrcMismatch = s.diagCrcMismatch

/-- 45_orchestrator.md R149, R150: a SAMPLES step that does not fail completes one slot: 32 beats more in OB, `slot` one
more, EMIT after the last slot, and the inputs of the filters that stepped are cleared. -/
def Obligations.SamplesStepCompletesSlot : Prop :=
  ∀ s t : State, s.Inv → s.blockTurn → s.seq = .samples → step s = .next t → t.seq ≠ .failed →
    t.slot = s.slot + 1 ∧ t.ob.length = s.ob.length + 32 ∧
    t.seq = (if s.slot + 1 = s.hdr.nslots then .emit else .samples) ∧
    (∀ k : Fin 32, (t.filt[(0 : Fin 2)]).s[k] = 0) ∧
    (s.hdr.nchOut = 2 → ∀ k : Fin 32, (t.filt[(1 : Fin 2)]).s[k] = 0) ∧
    (s.hdr.raw.layer = 0b11#2 → t.l1n = (if s.l1n = 11 then 0 else s.l1n + 1)) ∧
    (s.hdr.raw.layer ≠ 0b11#2 → t.gn = (if s.sn = 0 then s.gn + 1 else s.gn) ∧ t.sn = (if s.sn = 2 then 0 else s.sn + 1))

/-! ### Rules of the whole machine -/

/-- 40_bitstream_reader.md R91: a step of the block takes at most one byte from the source and BYTE_COUNT grows by
exactly as many; of the other events a reset and a fresh START set it to 0 and no other, a resume START among them,
changes it. When FETCH ends, BYTE_COUNT -
`frame_start` = `flen`. (The last sentence is marked by R91 as derived; the model finds the byte index by it, log entry
9.) -/
def Obligations.ByteCountCountsBytesTaken : Prop :=
  (∀ s t : State, s.blockTurn → step s = .next t →
    (t.src = s.src ∧ t.byteCount = s.byteCount) ∨
    (∃ b, s.src.avail = b :: t.src.avail ∧ t.src.eos = s.src.eos ∧ t.byteCount = s.byteCount + 1#32)) ∧
  (∀ (s t : State) (e : EnvEvent) (rest : List EnvEvent), s.script = e :: rest → e ≠ .block → step s = .next t →
    (s.nextClears → t.byteCount = 0) ∧ (¬s.nextClears → t.byteCount = s.byteCount)) ∧
  ∀ s t : State, s.Inv → s.blockTurn → s.seq = .fetch → step s = .next t → t.seq = .alloc →
    (t.byteCount - t.frameStart).toNat = t.flen.toNat

/-- 60_exceptions.md R164, 45_orchestrator.md R153: no step leaves FAILED but a hard reset and a CTRL write with
SOFT_RESET, and both go to IDLE. -/
def Obligations.FailedLeftOnlyByReset : Prop :=
  ∀ s t : State, s.seq = .failed → step s = .next t →
    t.seq = .failed ∨
    (t.seq = .idle ∧ ∃ rest, s.script = .hardReset :: rest ∨
      ∃ lanes v, s.script = .csrWrite 0 lanes :: rest ∧ decode .ctrlWrite (wordOfBus lanes).toNat =
        .ok (.ctrlSoftReset v))

/-- 60_exceptions.md R160, R161: a step that enters FAILED delivers no beat and counts no frame, empties OB, records the
frame's start and a code, and leaves both filters, the configuration and `stop_req` as they were. -/
def Obligations.FailingStepDeliversNothing : Prop :=
  ∀ s t : State, s.seq ≠ .failed → step s = .next t → t.seq = .failed →
    t.delivered = s.delivered ∧ t.frameCount = s.frameCount ∧ t.ob = [] ∧ t.obRd = 0 ∧
    t.errOffset = t.frameStart ∧ t.errcode ≠ .none ∧ t.ctrl = s.ctrl ∧ t.stopReq = s.stopReq ∧ t.cfg = s.cfg ∧
    t.filt = s.filt

/-- 20_memory.md R46, R47, R50: beats reach the sink only by EMIT, one per step, in the order of OB, each with its `last`
flag, and what was delivered is never taken back. -/
def Obligations.BeatsDeliveredOnlyByEmit : Prop :=
  ∀ s t : State, step s = .next t →
    t.delivered = s.delivered ∨
    (s.seq = .emit ∧ s.sinkReady = true ∧ ∃ b, s.ob[s.obRd]? = some b ∧
      t.delivered = s.delivered ++ [⟨b, s.obRd + 1 == s.ob.length⟩] ∧
      (t.obRd = s.obRd + 1 ∨ (t.ob = [] ∧ t.frameCount = s.frameCount + 1#32)))

/-- 45_orchestrator.md R147, 10_state.md R37: a reset and a fresh START clear both filters; otherwise they change only in a
SAMPLES step, so neither a new frame nor a resume START touches them. Filter 1 is left alone in a frame with one output
channel. -/
def Obligations.FiltersCarryOver : Prop :=
  (∀ s t : State, step s = .next t →
    (s.nextClears → ∀ f : Fin 2, (∀ i : Fin 32, (t.filt[f]).s[i] = 0) ∧ ∀ i : Fin 1024, (t.filt[f]).v[i] = 0) ∧
    (¬s.nextClears → t.filt = s.filt ∨ (s.seq = .samples ∧ s.blockTurn))) ∧
  ∀ s t : State, s.Inv → s.blockTurn → s.seq = .samples → s.hdr.nchOut = 1 → step s = .next t →
    t.filt[(1 : Fin 2)] = s.filt[(1 : Fin 2)]

/-- 10_state.md R28, 70_reset_and_hazards.md R177: a step of the block does not depend on CTRL: with any other stored
configuration it does the same and leaves that configuration stored. -/
def Obligations.DecodeIgnoresStoredConfig : Prop :=
  ∀ (s t : State) (c : CtrlReg), s.blockTurn → step s = .next t →
    step { s with ctrl := c } = .next { t with ctrl := c }

/-- The invariant holds at reset (10_state.md R38). -/
def Obligations.ResetMeetsInvariant : Prop := State.reset.Inv

/-- Every step keeps the invariant: the parameters' bound, the frame buffer's canonical form and bounds, the error code
exactly in FAILED, OB's length by slot, the byte and bit positions, the record of an accepted header, the context
file's classes, and the loop counters. -/
def Obligations.StepKeepsInvariant : Prop :=
  ∀ s t : State, s.Inv → step s = .next t → t.Inv

/-- Under the invariant no step ends in one of the model's faults (log entry 12), so only a host access outside the
contract (20_memory.md R43) stops a run. -/
def Obligations.NoFaultUnderInvariant : Prop :=
  ∀ s : State, s.Inv → (∃ t, step s = .next t) ∨
    ∃ off rest, (∃ n, s.script = .csrRead off n :: rest ∧ (n ≠ 4 ∨ off.toNat % 4 ≠ 0)) ∨
      ∃ lanes, s.script = .csrWrite off lanes :: rest ∧ (lanes.length ≠ 4 ∨ off.toNat % 4 ≠ 0)
end

