-- ==== Sys2Proof/Laws/Decode.lean ====
section
/-! SUPPORT. The fields of header words and CTRL values, taken apart and put together, and the bytes of a word in stream
and bus order. -/
namespace Sys2Proof

/-- No bit of a header word is dropped. -/
theorem HeaderFields.word_ofWord (h : Word) : (HeaderFields.ofWord h).word = h := by
  simp only [HeaderFields.word, HeaderFields.ofWord]
  apply BitVec.eq_of_getLsbD_eq
  intro i hi
  simp only [BitVec.getLsbD_append, BitVec.getLsbD_extractLsb']
  interval_cases i <;> rfl

/-- No field of a header word is dropped. -/
theorem HeaderFields.ofWord_word (h : HeaderFields) : HeaderFields.ofWord h.word = h := by
  obtain ⟨sync, ⟨ver, layer, prot, bri, sfi, pad, priv, mode, mx, copy, orig, emph⟩⟩ := h
  simp only [HeaderFields.word, HeaderFields.ofWord, HeaderFields.mk.injEq, RawHeader.mk.injEq]
  refine ⟨?_, ?_, ?_, ?_, ?_, ?_, ?_, ?_, ?_, ?_, ?_, ?_, ?_⟩
  all_goals
    ext i hi
    simp only [BitVec.getElem_extractLsb', BitVec.getLsbD_append]
    repeat rw [if_neg (by omega)]
    try rw [if_pos (by omega)]
    rw [BitVec.getLsbD_eq_getElem (by omega)]
    congr 1
    omega

/-- No bit of a CTRL value is dropped. -/
theorem CtrlWrite.word_ofWord (v : Word) : (CtrlWrite.ofWord v).word = v := by
  simp only [CtrlWrite.word, CtrlWrite.ofWord]
  apply BitVec.eq_of_getLsbD_eq
  intro i hi
  simp only [BitVec.getLsbD_append, BitVec.getLsbD_extractLsb', BitVec.getLsbD_ofBool]
  interval_cases i <;> rfl

/-- No field of a CTRL value is dropped. -/
theorem CtrlWrite.ofWord_word (v : CtrlWrite) : CtrlWrite.ofWord v.word = v := by
  obtain ⟨start, stop, softReset, strict, chansel, fmt, irqEn, reserved⟩ := v
  simp only [CtrlWrite.word, CtrlWrite.ofWord, CtrlWrite.mk.injEq]
  refine ⟨?_, ?_, ?_, ?_, ?_, ?_, ?_, ?_⟩
  case refine_5 | refine_8 =>
    ext i hi
    simp only [BitVec.getElem_extractLsb', BitVec.getLsbD_append]
    repeat rw [if_neg (by omega)]
    try rw [if_pos (by omega)]
    rw [BitVec.getLsbD_eq_getElem (by omega)]
    congr 1
    omega
  all_goals
    simp only [BitVec.getLsbD_append, BitVec.getLsbD_ofBool]
    simp

/-- One more byte at the end of a word. -/
theorem getLsbD_appendByte (x : BitVec 24) (b : Byte) (i : Nat) :
    BitVec.getLsbD (x ++ b : Word) i = if i < 8 then b.getLsbD i else x.getLsbD (i - 8) := by
  simpa using BitVec.getLsbD_append (x := x) (y := b) (i := i)

/-- The four stream bytes of a word are the word again (20_memory.md R42). -/
theorem wordOfStream_streamBytes (w : Word) : wordOfStream (streamBytes w) = w := by
  simp only [wordOfStream, streamBytes, List.foldl]
  apply BitVec.eq_of_getLsbD_eq
  intro i hi
  simp only [getLsbD_appendByte, BitVec.getLsbD_extractLsb']
  interval_cases i <;> rfl

/-- The four byte lanes of a word are the word again (20_memory.md R43). -/
theorem wordOfBus_busBytes (w : Word) : wordOfBus (busBytes w) = w := wordOfStream_streamBytes w

end Sys2Proof
end

