-- ==== Sys2Proof/Laws/Memory.lean ====
section
/-! SUPPORT. The laws of the frame buffer's contents: a read after a write, the canonical form, and the range of the
indices listed. -/
namespace Sys2Proof.Machine

@[simp] theorem Memory.read_nil (a : Nat) : Memory.read [] a = Memory.blank := rfl

theorem Memory.read_cons (c : Host.Cell) (m : Memory) (a : Nat) :
    Memory.read (c :: m) a = if a = c.1 then c.2 else Memory.read m a := rfl

theorem Memory.wf_tail {c : Host.Cell} {m : Memory} (h : Memory.wf (c :: m) = true) : Memory.wf m = true := by
  cases m with
  | nil => rfl
  | cons d rest => simp [Memory.wf] at h; exact h.2

theorem Memory.wf_head {c : Host.Cell} {m : Memory} (h : Memory.wf (c :: m) = true) : c.2 ≠ Memory.blank := by
  cases m with
  | nil => simpa [Memory.wf] using h
  | cons d rest => simp [Memory.wf] at h; exact h.1.1

/-- In a canonical memory every later index is above the first. -/
theorem Memory.wf_above {c : Host.Cell} {m : Memory} (h : Memory.wf (c :: m) = true) : ∀ d ∈ m, c.1 < d.1 := by
  induction m generalizing c with
  | nil => simp
  | cons d rest ih =>
    have hlt : c.1 < d.1 := by simp [Memory.wf] at h; exact h.1.2
    intro e he
    rcases List.mem_cons.1 he with rfl | he
    · exact hlt
    · exact lt_trans hlt (ih (Memory.wf_tail h) e he)

theorem Memory.wf_cons_iff (c : Host.Cell) (m : Memory) :
    Memory.wf (c :: m) = true ↔ c.2 ≠ Memory.blank ∧ (∀ d ∈ m, c.1 < d.1) ∧ Memory.wf m = true := by
  constructor
  · exact fun h => ⟨Memory.wf_head h, Memory.wf_above h, Memory.wf_tail h⟩
  · rintro ⟨h1, h2, h3⟩
    cases m with
    | nil => simpa [Memory.wf] using h1
    | cons d rest => simp [Memory.wf]; exact ⟨⟨h1, h2 d (by simp)⟩, h3⟩

/-- What a write can list: cells of the memory before, or the cell written. -/
theorem Memory.mem_write {m : Memory} {a : Nat} {b : Byte} {c : Host.Cell} (h : c ∈ Memory.write m a b) :
    c ∈ m ∨ c = (a, b) := by
  induction m with
  | nil =>
    simp only [Memory.write] at h
    split at h <;> simp_all
  | cons d rest ih =>
    simp only [Memory.write] at h
    split at h
    · split at h
      · exact .inl h
      · rcases List.mem_cons.1 h with h | h
        · exact .inr h
        · exact .inl h
    · split at h
      · split at h
        · exact .inl (List.mem_cons_of_mem _ h)
        · rcases List.mem_cons.1 h with h | h
          · exact .inr h
          · exact .inl (List.mem_cons_of_mem _ h)
      · rcases List.mem_cons.1 h with h | h
        · exact .inl (by simp [h])
        · rcases ih h with h | h
          · exact .inl (List.mem_cons_of_mem _ h)
          · exact .inr h

/-- A write keeps the canonical form. -/
theorem Memory.write_wf {m : Memory} (a : Nat) (b : Byte) (h : m.wf = true) : (Memory.write m a b).wf = true := by
  induction m with
  | nil =>
    simp only [Memory.write]
    split
    · rfl
    · simpa [Memory.wf]
  | cons d rest ih =>
    obtain ⟨h1, h2, h3⟩ := (Memory.wf_cons_iff d rest).1 h
    simp only [Memory.write]
    split
    · next hlt =>
      split
      · exact h
      · next hb =>
        refine (Memory.wf_cons_iff _ _).2 ⟨hb, ?_, h⟩
        intro e he
        rcases List.mem_cons.1 he with rfl | he
        · exact hlt
        · exact lt_trans hlt (h2 e he)
    · split
      · next heq =>
        split
        · exact h3
        · next hb => exact (Memory.wf_cons_iff _ _).2 ⟨hb, fun e he => heq ▸ h2 e he, h3⟩
      · next hlt hne =>
        refine (Memory.wf_cons_iff _ _).2 ⟨h1, ?_, ih h3⟩
        intro e he
        rcases Memory.mem_write he with he | rfl
        · exact h2 e he
        · exact lt_of_le_of_ne (not_lt.1 hlt) (Ne.symm hne)

theorem Memory.read_blank_of_above {m : Memory} {a : Nat} (h : ∀ d ∈ m, a < d.1) : m.read a = Memory.blank := by
  induction m with
  | nil => rfl
  | cons d rest ih =>
    have := h d (by simp)
    rw [Memory.read_cons, if_neg (by omega)]
    exact ih fun e he => h e (by simp [he])

/-- A read after a write to the same index gives the byte written. -/
theorem Memory.read_write_same {m : Memory} (a : Nat) (b : Byte) (h : m.wf = true) : (m.write a b).read a = b := by
  induction m with
  | nil =>
    simp only [Memory.write]
    split
    · next hb => simp [hb]
    · simp [Memory.read]
  | cons d rest ih =>
    obtain ⟨-, h2, h3⟩ := (Memory.wf_cons_iff d rest).1 h
    simp only [Memory.write]
    split
    · next hlt =>
      split
      · next hb =>
        rw [hb]
        refine Memory.read_blank_of_above fun e he => ?_
        rcases List.mem_cons.1 he with rfl | he
        · exact hlt
        · exact lt_trans hlt (h2 e he)
      · simp [Memory.read]
    · split
      · next heq =>
        split
        · next hb => rw [hb]; exact Memory.read_blank_of_above fun e he => heq ▸ h2 e he
        · simp [Memory.read]
      · next hne => rw [Memory.read_cons, if_neg hne]; exact ih h3

/-- A write leaves every other index alone. -/
theorem Memory.read_write_other {m : Memory} {a a' : Nat} (b : Byte) (h : m.wf = true) (hne : a' ≠ a) :
    (m.write a b).read a' = m.read a' := by
  induction m with
  | nil =>
    simp only [Memory.write]
    split
    · rfl
    · simp [Memory.read, hne]
  | cons d rest ih =>
    obtain ⟨-, h2, h3⟩ := (Memory.wf_cons_iff d rest).1 h
    simp only [Memory.write]
    split
    · split
      · rfl
      · rw [Memory.read_cons, if_neg hne]
    · split
      · next heq =>
        have : a' ≠ d.1 := heq ▸ hne
        split
        · rw [Memory.read_cons, if_neg this]
        · rw [Memory.read_cons, if_neg hne, Memory.read_cons, if_neg this]
      · rw [Memory.read_cons, Memory.read_cons, ih h3]

/-- A write within the frame buffer lists no index outside it. -/
theorem Memory.write_inside {m : Memory} {a : Nat} {b : Byte} {n : Nat} (h : ∀ c ∈ m, c.1 < n) (ha : a < n) :
    ∀ c ∈ m.write a b, c.1 < n := by
  intro c hc
  rcases Memory.mem_write hc with hc | rfl
  · exact h c hc
  · exact ha

theorem Memory.reset_wf : State.reset.fb.wf = true := rfl

end Sys2Proof.Machine
end

