-- ==== Sys2Proof/Laws/State.lean ====
section
/-! SUPPORT. One lemma per field for each record update of the state: what it becomes, or that it is unchanged. -/
namespace Sys2Proof.Machine

variable (s : State)

/-! ### raiseFatal -/

@[simp] theorem State.raiseFatal_params (c : ErrCode) (d : BitVec 4) : (s.raiseFatal c d).params = s.params := rfl
@[simp] theorem State.raiseFatal_ctrl (c : ErrCode) (d : BitVec 4) : (s.raiseFatal c d).ctrl = s.ctrl := rfl
@[simp] theorem State.raiseFatal_header (c : ErrCode) (d : BitVec 4) : (s.raiseFatal c d).header = s.header := rfl
@[simp] theorem State.raiseFatal_info (c : ErrCode) (d : BitVec 4) : (s.raiseFatal c d).info = s.info := rfl
@[simp] theorem State.raiseFatal_frameCount (c : ErrCode) (d : BitVec 4) : (s.raiseFatal c d).frameCount = s.frameCount := rfl
@[simp] theorem State.raiseFatal_byteCount (c : ErrCode) (d : BitVec 4) : (s.raiseFatal c d).byteCount = s.byteCount := rfl
@[simp] theorem State.raiseFatal_errOffset (c : ErrCode) (d : BitVec 4) : (s.raiseFatal c d).errOffset = s.frameStart := rfl
@[simp] theorem State.raiseFatal_diagCorruptAlloc (c : ErrCode) (d : BitVec 4) : (s.raiseFatal c d).diagCorruptAlloc = s.diagCorruptAlloc := rfl
@[simp] theorem State.raiseFatal_diagCrcMismatch (c : ErrCode) (d : BitVec 4) : (s.raiseFatal c d).diagCrcMismatch = s.diagCrcMismatch := rfl
@[simp] theorem State.raiseFatal_diagBadGroup (c : ErrCode) (d : BitVec 4) : (s.raiseFatal c d).diagBadGroup = s.diagBadGroup := rfl
@[simp] theorem State.raiseFatal_cfg (c : ErrCode) (d : BitVec 4) : (s.raiseFatal c d).cfg = s.cfg := rfl
@[simp] theorem State.raiseFatal_seq (c : ErrCode) (d : BitVec 4) : (s.raiseFatal c d).seq = .failed := rfl
@[simp] theorem State.raiseFatal_stopReq (c : ErrCode) (d : BitVec 4) : (s.raiseFatal c d).stopReq = s.stopReq := rfl
@[simp] theorem State.raiseFatal_errcode (c : ErrCode) (d : BitVec 4) : (s.raiseFatal c d).errcode = c := rfl
@[simp] theorem State.raiseFatal_errdetail (c : ErrCode) (d : BitVec 4) : (s.raiseFatal c d).errdetail = d := rfl
@[simp] theorem State.raiseFatal_frameStart (c : ErrCode) (d : BitVec 4) : (s.raiseFatal c d).frameStart = s.frameStart := rfl
@[simp] theorem State.raiseFatal_hdrBytes (c : ErrCode) (d : BitVec 4) : (s.raiseFatal c d).hdrBytes = s.hdrBytes := rfl
@[simp] theorem State.raiseFatal_hdrWord (c : ErrCode) (d : BitVec 4) : (s.raiseFatal c d).hdrWord = s.hdrWord := rfl
@[simp] theorem State.raiseFatal_hdr (c : ErrCode) (d : BitVec 4) : (s.raiseFatal c d).hdr = s.hdr := rfl
@[simp] theorem State.raiseFatal_fb (c : ErrCode) (d : BitVec 4) : (s.raiseFatal c d).fb = s.fb := rfl
@[simp] theorem State.raiseFatal_flen (c : ErrCode) (d : BitVec 4) : (s.raiseFatal c d).flen = s.flen := rfl
@[simp] theorem State.raiseFatal_bitpos (c : ErrCode) (d : BitVec 4) : (s.raiseFatal c d).bitpos = s.bitpos := rfl
@[simp] theorem State.raiseFatal_crc (c : ErrCode) (d : BitVec 4) : (s.raiseFatal c d).crc = s.crc := rfl
@[simp] theorem State.raiseFatal_crcWord (c : ErrCode) (d : BitVec 4) : (s.raiseFatal c d).crcWord = s.crcWord := rfl
@[simp] theorem State.raiseFatal_ctx (c : ErrCode) (d : BitVec 4) : (s.raiseFatal c d).ctx = s.ctx := rfl
@[simp] theorem State.raiseFatal_sbst (c : ErrCode) (d : BitVec 4) : (s.raiseFatal c d).sbst = s.sbst := rfl
@[simp] theorem State.raiseFatal_slot (c : ErrCode) (d : BitVec 4) : (s.raiseFatal c d).slot = s.slot := rfl
@[simp] theorem State.raiseFatal_l1n (c : ErrCode) (d : BitVec 4) : (s.raiseFatal c d).l1n = s.l1n := rfl
@[simp] theorem State.raiseFatal_gn (c : ErrCode) (d : BitVec 4) : (s.raiseFatal c d).gn = s.gn := rfl
@[simp] theorem State.raiseFatal_sn (c : ErrCode) (d : BitVec 4) : (s.raiseFatal c d).sn = s.sn := rfl
@[simp] theorem State.raiseFatal_filt (c : ErrCode) (d : BitVec 4) : (s.raiseFatal c d).filt = s.filt := rfl
@[simp] theorem State.raiseFatal_ob (c : ErrCode) (d : BitVec 4) : (s.raiseFatal c d).ob = [] := rfl
@[simp] theorem State.raiseFatal_obRd (c : ErrCode) (d : BitVec 4) : (s.raiseFatal c d).obRd = 0 := rfl
@[simp] theorem State.raiseFatal_src (c : ErrCode) (d : BitVec 4) : (s.raiseFatal c d).src = s.src := rfl
@[simp] theorem State.raiseFatal_sinkReady (c : ErrCode) (d : BitVec 4) : (s.raiseFatal c d).sinkReady = s.sinkReady := rfl
@[simp] theorem State.raiseFatal_delivered (c : ErrCode) (d : BitVec 4) : (s.raiseFatal c d).delivered = s.delivered := rfl
@[simp] theorem State.raiseFatal_rdata (c : ErrCode) (d : BitVec 4) : (s.raiseFatal c d).rdata = s.rdata := rfl
@[simp] theorem State.raiseFatal_bits (c : ErrCode) (d : BitVec 4) : (s.raiseFatal c d).bits = s.bits := rfl
@[simp] theorem State.raiseFatal_script (c : ErrCode) (d : BitVec 4) : (s.raiseFatal c d).script = s.script := rfl

/-! ### crcAdd -/

@[simp] theorem State.crcAdd_params (v n : Nat) : (s.crcAdd v n).params = s.params := rfl
@[simp] theorem State.crcAdd_ctrl (v n : Nat) : (s.crcAdd v n).ctrl = s.ctrl := rfl
@[simp] theorem State.crcAdd_header (v n : Nat) : (s.crcAdd v n).header = s.header := rfl
@[simp] theorem State.crcAdd_info (v n : Nat) : (s.crcAdd v n).info = s.info := rfl
@[simp] theorem State.crcAdd_frameCount (v n : Nat) : (s.crcAdd v n).frameCount = s.frameCount := rfl
@[simp] theorem State.crcAdd_byteCount (v n : Nat) : (s.crcAdd v n).byteCount = s.byteCount := rfl
@[simp] theorem State.crcAdd_errOffset (v n : Nat) : (s.crcAdd v n).errOffset = s.errOffset := rfl
@[simp] theorem State.crcAdd_diagCorruptAlloc (v n : Nat) : (s.crcAdd v n).diagCorruptAlloc = s.diagCorruptAlloc := rfl
@[simp] theorem State.crcAdd_diagCrcMismatch (v n : Nat) : (s.crcAdd v n).diagCrcMismatch = s.diagCrcMismatch := rfl
@[simp] theorem State.crcAdd_diagBadGroup (v n : Nat) : (s.crcAdd v n).diagBadGroup = s.diagBadGroup := rfl
@[simp] theorem State.crcAdd_cfg (v n : Nat) : (s.crcAdd v n).cfg = s.cfg := rfl
@[simp] theorem State.crcAdd_seq (v n : Nat) : (s.crcAdd v n).seq = s.seq := rfl
@[simp] theorem State.crcAdd_stopReq (v n : Nat) : (s.crcAdd v n).stopReq = s.stopReq := rfl
@[simp] theorem State.crcAdd_errcode (v n : Nat) : (s.crcAdd v n).errcode = s.errcode := rfl
@[simp] theorem State.crcAdd_errdetail (v n : Nat) : (s.crcAdd v n).errdetail = s.errdetail := rfl
@[simp] theorem State.crcAdd_frameStart (v n : Nat) : (s.crcAdd v n).frameStart = s.frameStart := rfl
@[simp] theorem State.crcAdd_hdrBytes (v n : Nat) : (s.crcAdd v n).hdrBytes = s.hdrBytes := rfl
@[simp] theorem State.crcAdd_hdrWord (v n : Nat) : (s.crcAdd v n).hdrWord = s.hdrWord := rfl
@[simp] theorem State.crcAdd_hdr (v n : Nat) : (s.crcAdd v n).hdr = s.hdr := rfl
@[simp] theorem State.crcAdd_fb (v n : Nat) : (s.crcAdd v n).fb = s.fb := rfl
@[simp] theorem State.crcAdd_flen (v n : Nat) : (s.crcAdd v n).flen = s.flen := rfl
@[simp] theorem State.crcAdd_bitpos (v n : Nat) : (s.crcAdd v n).bitpos = s.bitpos := rfl
@[simp] theorem State.crcAdd_crc (v n : Nat) : (s.crcAdd v n).crc = Machine.crcAdd s.crc v n := rfl
@[simp] theorem State.crcAdd_crcWord (v n : Nat) : (s.crcAdd v n).crcWord = s.crcWord := rfl
@[simp] theorem State.crcAdd_ctx (v n : Nat) : (s.crcAdd v n).ctx = s.ctx := rfl
@[simp] theorem State.crcAdd_sbst (v n : Nat) : (s.crcAdd v n).sbst = s.sbst := rfl
@[simp] theorem State.crcAdd_slot (v n : Nat) : (s.crcAdd v n).slot = s.slot := rfl
@[simp] theorem State.crcAdd_l1n (v n : Nat) : (s.crcAdd v n).l1n = s.l1n := rfl
@[simp] theorem State.crcAdd_gn (v n : Nat) : (s.crcAdd v n).gn = s.gn := rfl
@[simp] theorem State.crcAdd_sn (v n : Nat) : (s.crcAdd v n).sn = s.sn := rfl
@[simp] theorem State.crcAdd_filt (v n : Nat) : (s.crcAdd v n).filt = s.filt := rfl
@[simp] theorem State.crcAdd_ob (v n : Nat) : (s.crcAdd v n).ob = s.ob := rfl
@[simp] theorem State.crcAdd_obRd (v n : Nat) : (s.crcAdd v n).obRd = s.obRd := rfl
@[simp] theorem State.crcAdd_src (v n : Nat) : (s.crcAdd v n).src = s.src := rfl
@[simp] theorem State.crcAdd_sinkReady (v n : Nat) : (s.crcAdd v n).sinkReady = s.sinkReady := rfl
@[simp] theorem State.crcAdd_delivered (v n : Nat) : (s.crcAdd v n).delivered = s.delivered := rfl
@[simp] theorem State.crcAdd_rdata (v n : Nat) : (s.crcAdd v n).rdata = s.rdata := rfl
@[simp] theorem State.crcAdd_bits (v n : Nat) : (s.crcAdd v n).bits = s.bits := rfl
@[simp] theorem State.crcAdd_script (v n : Nat) : (s.crcAdd v n).script = s.script := rfl

/-! ### setSub -/

@[simp] theorem State.setSub_params (ch : Fin 2) (sb : Fin 32) (c : SubCtx) : (s.setSub ch sb c).params = s.params := rfl
@[simp] theorem State.setSub_ctrl (ch : Fin 2) (sb : Fin 32) (c : SubCtx) : (s.setSub ch sb c).ctrl = s.ctrl := rfl
@[simp] theorem State.setSub_header (ch : Fin 2) (sb : Fin 32) (c : SubCtx) : (s.setSub ch sb c).header = s.header := rfl
@[simp] theorem State.setSub_info (ch : Fin 2) (sb : Fin 32) (c : SubCtx) : (s.setSub ch sb c).info = s.info := rfl
@[simp] theorem State.setSub_frameCount (ch : Fin 2) (sb : Fin 32) (c : SubCtx) : (s.setSub ch sb c).frameCount = s.frameCount := rfl
@[simp] theorem State.setSub_byteCount (ch : Fin 2) (sb : Fin 32) (c : SubCtx) : (s.setSub ch sb c).byteCount = s.byteCount := rfl
@[simp] theorem State.setSub_errOffset (ch : Fin 2) (sb : Fin 32) (c : SubCtx) : (s.setSub ch sb c).errOffset = s.errOffset := rfl
@[simp] theorem State.setSub_diagCorruptAlloc (ch : Fin 2) (sb : Fin 32) (c : SubCtx) : (s.setSub ch sb c).diagCorruptAlloc = s.diagCorruptAlloc := rfl
@[simp] theorem State.setSub_diagCrcMismatch (ch : Fin 2) (sb : Fin 32) (c : SubCtx) : (s.setSub ch sb c).diagCrcMismatch = s.diagCrcMismatch := rfl
@[simp] theorem State.setSub_diagBadGroup (ch : Fin 2) (sb : Fin 32) (c : SubCtx) : (s.setSub ch sb c).diagBadGroup = s.diagBadGroup := rfl
@[simp] theorem State.setSub_cfg (ch : Fin 2) (sb : Fin 32) (c : SubCtx) : (s.setSub ch sb c).cfg = s.cfg := rfl
@[simp] theorem State.setSub_seq (ch : Fin 2) (sb : Fin 32) (c : SubCtx) : (s.setSub ch sb c).seq = s.seq := rfl
@[simp] theorem State.setSub_stopReq (ch : Fin 2) (sb : Fin 32) (c : SubCtx) : (s.setSub ch sb c).stopReq = s.stopReq := rfl
@[simp] theorem State.setSub_errcode (ch : Fin 2) (sb : Fin 32) (c : SubCtx) : (s.setSub ch sb c).errcode = s.errcode := rfl
@[simp] theorem State.setSub_errdetail (ch : Fin 2) (sb : Fin 32) (c : SubCtx) : (s.setSub ch sb c).errdetail = s.errdetail := rfl
@[simp] theorem State.setSub_frameStart (ch : Fin 2) (sb : Fin 32) (c : SubCtx) : (s.setSub ch sb c).frameStart = s.frameStart := rfl
@[simp] theorem State.setSub_hdrBytes (ch : Fin 2) (sb : Fin 32) (c : SubCtx) : (s.setSub ch sb c).hdrBytes = s.hdrBytes := rfl
@[simp] theorem State.setSub_hdrWord (ch : Fin 2) (sb : Fin 32) (c : SubCtx) : (s.setSub ch sb c).hdrWord = s.hdrWord := rfl
@[simp] theorem State.setSub_hdr (ch : Fin 2) (sb : Fin 32) (c : SubCtx) : (s.setSub ch sb c).hdr = s.hdr := rfl
@[simp] theorem State.setSub_fb (ch : Fin 2) (sb : Fin 32) (c : SubCtx) : (s.setSub ch sb c).fb = s.fb := rfl
@[simp] theorem State.setSub_flen (ch : Fin 2) (sb : Fin 32) (c : SubCtx) : (s.setSub ch sb c).flen = s.flen := rfl
@[simp] theorem State.setSub_bitpos (ch : Fin 2) (sb : Fin 32) (c : SubCtx) : (s.setSub ch sb c).bitpos = s.bitpos := rfl
@[simp] theorem State.setSub_crc (ch : Fin 2) (sb : Fin 32) (c : SubCtx) : (s.setSub ch sb c).crc = s.crc := rfl
@[simp] theorem State.setSub_crcWord (ch : Fin 2) (sb : Fin 32) (c : SubCtx) : (s.setSub ch sb c).crcWord = s.crcWord := rfl
@[simp] theorem State.setSub_ctx (ch : Fin 2) (sb : Fin 32) (c : SubCtx) : (s.setSub ch sb c).ctx = s.ctx.set ch ((s.ctx[ch]).set sb c) := rfl
@[simp] theorem State.setSub_sbst (ch : Fin 2) (sb : Fin 32) (c : SubCtx) : (s.setSub ch sb c).sbst = s.sbst := rfl
@[simp] theorem State.setSub_slot (ch : Fin 2) (sb : Fin 32) (c : SubCtx) : (s.setSub ch sb c).slot = s.slot := rfl
@[simp] theorem State.setSub_l1n (ch : Fin 2) (sb : Fin 32) (c : SubCtx) : (s.setSub ch sb c).l1n = s.l1n := rfl
@[simp] theorem State.setSub_gn (ch : Fin 2) (sb : Fin 32) (c : SubCtx) : (s.setSub ch sb c).gn = s.gn := rfl
@[simp] theorem State.setSub_sn (ch : Fin 2) (sb : Fin 32) (c : SubCtx) : (s.setSub ch sb c).sn = s.sn := rfl
@[simp] theorem State.setSub_filt (ch : Fin 2) (sb : Fin 32) (c : SubCtx) : (s.setSub ch sb c).filt = s.filt := rfl
@[simp] theorem State.setSub_ob (ch : Fin 2) (sb : Fin 32) (c : SubCtx) : (s.setSub ch sb c).ob = s.ob := rfl
@[simp] theorem State.setSub_obRd (ch : Fin 2) (sb : Fin 32) (c : SubCtx) : (s.setSub ch sb c).obRd = s.obRd := rfl
@[simp] theorem State.setSub_src (ch : Fin 2) (sb : Fin 32) (c : SubCtx) : (s.setSub ch sb c).src = s.src := rfl
@[simp] theorem State.setSub_sinkReady (ch : Fin 2) (sb : Fin 32) (c : SubCtx) : (s.setSub ch sb c).sinkReady = s.sinkReady := rfl
@[simp] theorem State.setSub_delivered (ch : Fin 2) (sb : Fin 32) (c : SubCtx) : (s.setSub ch sb c).delivered = s.delivered := rfl
@[simp] theorem State.setSub_rdata (ch : Fin 2) (sb : Fin 32) (c : SubCtx) : (s.setSub ch sb c).rdata = s.rdata := rfl
@[simp] theorem State.setSub_bits (ch : Fin 2) (sb : Fin 32) (c : SubCtx) : (s.setSub ch sb c).bits = s.bits := rfl
@[simp] theorem State.setSub_script (ch : Fin 2) (sb : Fin 32) (c : SubCtx) : (s.setSub ch sb c).script = s.script := rfl

/-! ### setSbst -/

@[simp] theorem State.setSbst_params (sb : Fin 32) (x : SubState) : (s.setSbst sb x).params = s.params := rfl
@[simp] theorem State.setSbst_ctrl (sb : Fin 32) (x : SubState) : (s.setSbst sb x).ctrl = s.ctrl := rfl
@[simp] theorem State.setSbst_header (sb : Fin 32) (x : SubState) : (s.setSbst sb x).header = s.header := rfl
@[simp] theorem State.setSbst_info (sb : Fin 32) (x : SubState) : (s.setSbst sb x).info = s.info := rfl
@[simp] theorem State.setSbst_frameCount (sb : Fin 32) (x : SubState) : (s.setSbst sb x).frameCount = s.frameCount := rfl
@[simp] theorem State.setSbst_byteCount (sb : Fin 32) (x : SubState) : (s.setSbst sb x).byteCount = s.byteCount := rfl
@[simp] theorem State.setSbst_errOffset (sb : Fin 32) (x : SubState) : (s.setSbst sb x).errOffset = s.errOffset := rfl
@[simp] theorem State.setSbst_diagCorruptAlloc (sb : Fin 32) (x : SubState) : (s.setSbst sb x).diagCorruptAlloc = s.diagCorruptAlloc := rfl
@[simp] theorem State.setSbst_diagCrcMismatch (sb : Fin 32) (x : SubState) : (s.setSbst sb x).diagCrcMismatch = s.diagCrcMismatch := rfl
@[simp] theorem State.setSbst_diagBadGroup (sb : Fin 32) (x : SubState) : (s.setSbst sb x).diagBadGroup = s.diagBadGroup := rfl
@[simp] theorem State.setSbst_cfg (sb : Fin 32) (x : SubState) : (s.setSbst sb x).cfg = s.cfg := rfl
@[simp] theorem State.setSbst_seq (sb : Fin 32) (x : SubState) : (s.setSbst sb x).seq = s.seq := rfl
@[simp] theorem State.setSbst_stopReq (sb : Fin 32) (x : SubState) : (s.setSbst sb x).stopReq = s.stopReq := rfl
@[simp] theorem State.setSbst_errcode (sb : Fin 32) (x : SubState) : (s.setSbst sb x).errcode = s.errcode := rfl
@[simp] theorem State.setSbst_errdetail (sb : Fin 32) (x : SubState) : (s.setSbst sb x).errdetail = s.errdetail := rfl
@[simp] theorem State.setSbst_frameStart (sb : Fin 32) (x : SubState) : (s.setSbst sb x).frameStart = s.frameStart := rfl
@[simp] theorem State.setSbst_hdrBytes (sb : Fin 32) (x : SubState) : (s.setSbst sb x).hdrBytes = s.hdrBytes := rfl
@[simp] theorem State.setSbst_hdrWord (sb : Fin 32) (x : SubState) : (s.setSbst sb x).hdrWord = s.hdrWord := rfl
@[simp] theorem State.setSbst_hdr (sb : Fin 32) (x : SubState) : (s.setSbst sb x).hdr = s.hdr := rfl
@[simp] theorem State.setSbst_fb (sb : Fin 32) (x : SubState) : (s.setSbst sb x).fb = s.fb := rfl
@[simp] theorem State.setSbst_flen (sb : Fin 32) (x : SubState) : (s.setSbst sb x).flen = s.flen := rfl
@[simp] theorem State.setSbst_bitpos (sb : Fin 32) (x : SubState) : (s.setSbst sb x).bitpos = s.bitpos := rfl
@[simp] theorem State.setSbst_crc (sb : Fin 32) (x : SubState) : (s.setSbst sb x).crc = s.crc := rfl
@[simp] theorem State.setSbst_crcWord (sb : Fin 32) (x : SubState) : (s.setSbst sb x).crcWord = s.crcWord := rfl
@[simp] theorem State.setSbst_ctx (sb : Fin 32) (x : SubState) : (s.setSbst sb x).ctx = s.ctx := rfl
@[simp] theorem State.setSbst_sbst (sb : Fin 32) (x : SubState) : (s.setSbst sb x).sbst = s.sbst.set sb x := rfl
@[simp] theorem State.setSbst_slot (sb : Fin 32) (x : SubState) : (s.setSbst sb x).slot = s.slot := rfl
@[simp] theorem State.setSbst_l1n (sb : Fin 32) (x : SubState) : (s.setSbst sb x).l1n = s.l1n := rfl
@[simp] theorem State.setSbst_gn (sb : Fin 32) (x : SubState) : (s.setSbst sb x).gn = s.gn := rfl
@[simp] theorem State.setSbst_sn (sb : Fin 32) (x : SubState) : (s.setSbst sb x).sn = s.sn := rfl
@[simp] theorem State.setSbst_filt (sb : Fin 32) (x : SubState) : (s.setSbst sb x).filt = s.filt := rfl
@[simp] theorem State.setSbst_ob (sb : Fin 32) (x : SubState) : (s.setSbst sb x).ob = s.ob := rfl
@[simp] theorem State.setSbst_obRd (sb : Fin 32) (x : SubState) : (s.setSbst sb x).obRd = s.obRd := rfl
@[simp] theorem State.setSbst_src (sb : Fin 32) (x : SubState) : (s.setSbst sb x).src = s.src := rfl
@[simp] theorem State.setSbst_sinkReady (sb : Fin 32) (x : SubState) : (s.setSbst sb x).sinkReady = s.sinkReady := rfl
@[simp] theorem State.setSbst_delivered (sb : Fin 32) (x : SubState) : (s.setSbst sb x).delivered = s.delivered := rfl
@[simp] theorem State.setSbst_rdata (sb : Fin 32) (x : SubState) : (s.setSbst sb x).rdata = s.rdata := rfl
@[simp] theorem State.setSbst_bits (sb : Fin 32) (x : SubState) : (s.setSbst sb x).bits = s.bits := rfl
@[simp] theorem State.setSbst_script (sb : Fin 32) (x : SubState) : (s.setSbst sb x).script = s.script := rfl

/-! ### addSample -/

@[simp] theorem State.addSample_params (f : Fin 2) (sb : Fin 32) (x : NumVal) : (s.addSample f sb x).params = s.params := rfl
@[simp] theorem State.addSample_ctrl (f : Fin 2) (sb : Fin 32) (x : NumVal) : (s.addSample f sb x).ctrl = s.ctrl := rfl
@[simp] theorem State.addSample_header (f : Fin 2) (sb : Fin 32) (x : NumVal) : (s.addSample f sb x).header = s.header := rfl
@[simp] theorem State.addSample_info (f : Fin 2) (sb : Fin 32) (x : NumVal) : (s.addSample f sb x).info = s.info := rfl
@[simp] theorem State.addSample_frameCount (f : Fin 2) (sb : Fin 32) (x : NumVal) : (s.addSample f sb x).frameCount = s.frameCount := rfl
@[simp] theorem State.addSample_byteCount (f : Fin 2) (sb : Fin 32) (x : NumVal) : (s.addSample f sb x).byteCount = s.byteCount := rfl
@[simp] theorem State.addSample_errOffset (f : Fin 2) (sb : Fin 32) (x : NumVal) : (s.addSample f sb x).errOffset = s.errOffset := rfl
@[simp] theorem State.addSample_diagCorruptAlloc (f : Fin 2) (sb : Fin 32) (x : NumVal) : (s.addSample f sb x).diagCorruptAlloc = s.diagCorruptAlloc := rfl
@[simp] theorem State.addSample_diagCrcMismatch (f : Fin 2) (sb : Fin 32) (x : NumVal) : (s.addSample f sb x).diagCrcMismatch = s.diagCrcMismatch := rfl
@[simp] theorem State.addSample_diagBadGroup (f : Fin 2) (sb : Fin 32) (x : NumVal) : (s.addSample f sb x).diagBadGroup = s.diagBadGroup := rfl
@[simp] theorem State.addSample_cfg (f : Fin 2) (sb : Fin 32) (x : NumVal) : (s.addSample f sb x).cfg = s.cfg := rfl
@[simp] theorem State.addSample_seq (f : Fin 2) (sb : Fin 32) (x : NumVal) : (s.addSample f sb x).seq = s.seq := rfl
@[simp] theorem State.addSample_stopReq (f : Fin 2) (sb : Fin 32) (x : NumVal) : (s.addSample f sb x).stopReq = s.stopReq := rfl
@[simp] theorem State.addSample_errcode (f : Fin 2) (sb : Fin 32) (x : NumVal) : (s.addSample f sb x).errcode = s.errcode := rfl
@[simp] theorem State.addSample_errdetail (f : Fin 2) (sb : Fin 32) (x : NumVal) : (s.addSample f sb x).errdetail = s.errdetail := rfl
@[simp] theorem State.addSample_frameStart (f : Fin 2) (sb : Fin 32) (x : NumVal) : (s.addSample f sb x).frameStart = s.frameStart := rfl
@[simp] theorem State.addSample_hdrBytes (f : Fin 2) (sb : Fin 32) (x : NumVal) : (s.addSample f sb x).hdrBytes = s.hdrBytes := rfl
@[simp] theorem State.addSample_hdrWord (f : Fin 2) (sb : Fin 32) (x : NumVal) : (s.addSample f sb x).hdrWord = s.hdrWord := rfl
@[simp] theorem State.addSample_hdr (f : Fin 2) (sb : Fin 32) (x : NumVal) : (s.addSample f sb x).hdr = s.hdr := rfl
@[simp] theorem State.addSample_fb (f : Fin 2) (sb : Fin 32) (x : NumVal) : (s.addSample f sb x).fb = s.fb := rfl
@[simp] theorem State.addSample_flen (f : Fin 2) (sb : Fin 32) (x : NumVal) : (s.addSample f sb x).flen = s.flen := rfl
@[simp] theorem State.addSample_bitpos (f : Fin 2) (sb : Fin 32) (x : NumVal) : (s.addSample f sb x).bitpos = s.bitpos := rfl
@[simp] theorem State.addSample_crc (f : Fin 2) (sb : Fin 32) (x : NumVal) : (s.addSample f sb x).crc = s.crc := rfl
@[simp] theorem State.addSample_crcWord (f : Fin 2) (sb : Fin 32) (x : NumVal) : (s.addSample f sb x).crcWord = s.crcWord := rfl
@[simp] theorem State.addSample_ctx (f : Fin 2) (sb : Fin 32) (x : NumVal) : (s.addSample f sb x).ctx = s.ctx := rfl
@[simp] theorem State.addSample_sbst (f : Fin 2) (sb : Fin 32) (x : NumVal) : (s.addSample f sb x).sbst = s.sbst := rfl
@[simp] theorem State.addSample_slot (f : Fin 2) (sb : Fin 32) (x : NumVal) : (s.addSample f sb x).slot = s.slot := rfl
@[simp] theorem State.addSample_l1n (f : Fin 2) (sb : Fin 32) (x : NumVal) : (s.addSample f sb x).l1n = s.l1n := rfl
@[simp] theorem State.addSample_gn (f : Fin 2) (sb : Fin 32) (x : NumVal) : (s.addSample f sb x).gn = s.gn := rfl
@[simp] theorem State.addSample_sn (f : Fin 2) (sb : Fin 32) (x : NumVal) : (s.addSample f sb x).sn = s.sn := rfl
@[simp] theorem State.addSample_filt (f : Fin 2) (sb : Fin 32) (x : NumVal) : (s.addSample f sb x).filt = s.filt.set f { s.filt[f] with s := (s.filt[f]).s.set sb x } := rfl
@[simp] theorem State.addSample_ob (f : Fin 2) (sb : Fin 32) (x : NumVal) : (s.addSample f sb x).ob = s.ob := rfl
@[simp] theorem State.addSample_obRd (f : Fin 2) (sb : Fin 32) (x : NumVal) : (s.addSample f sb x).obRd = s.obRd := rfl
@[simp] theorem State.addSample_src (f : Fin 2) (sb : Fin 32) (x : NumVal) : (s.addSample f sb x).src = s.src := rfl
@[simp] theorem State.addSample_sinkReady (f : Fin 2) (sb : Fin 32) (x : NumVal) : (s.addSample f sb x).sinkReady = s.sinkReady := rfl
@[simp] theorem State.addSample_delivered (f : Fin 2) (sb : Fin 32) (x : NumVal) : (s.addSample f sb x).delivered = s.delivered := rfl
@[simp] theorem State.addSample_rdata (f : Fin 2) (sb : Fin 32) (x : NumVal) : (s.addSample f sb x).rdata = s.rdata := rfl
@[simp] theorem State.addSample_bits (f : Fin 2) (sb : Fin 32) (x : NumVal) : (s.addSample f sb x).bits = s.bits := rfl
@[simp] theorem State.addSample_script (f : Fin 2) (sb : Fin 32) (x : NumVal) : (s.addSample f sb x).script = s.script := rfl

/-! ### obPut -/

@[simp] theorem State.obPut_params (f : Fin 2) (j : Fin 32) (x : Sample) : (s.obPut f j x).params = s.params := rfl
@[simp] theorem State.obPut_ctrl (f : Fin 2) (j : Fin 32) (x : Sample) : (s.obPut f j x).ctrl = s.ctrl := rfl
@[simp] theorem State.obPut_header (f : Fin 2) (j : Fin 32) (x : Sample) : (s.obPut f j x).header = s.header := rfl
@[simp] theorem State.obPut_info (f : Fin 2) (j : Fin 32) (x : Sample) : (s.obPut f j x).info = s.info := rfl
@[simp] theorem State.obPut_frameCount (f : Fin 2) (j : Fin 32) (x : Sample) : (s.obPut f j x).frameCount = s.frameCount := rfl
@[simp] theorem State.obPut_byteCount (f : Fin 2) (j : Fin 32) (x : Sample) : (s.obPut f j x).byteCount = s.byteCount := rfl
@[simp] theorem State.obPut_errOffset (f : Fin 2) (j : Fin 32) (x : Sample) : (s.obPut f j x).errOffset = s.errOffset := rfl
@[simp] theorem State.obPut_diagCorruptAlloc (f : Fin 2) (j : Fin 32) (x : Sample) : (s.obPut f j x).diagCorruptAlloc = s.diagCorruptAlloc := rfl
@[simp] theorem State.obPut_diagCrcMismatch (f : Fin 2) (j : Fin 32) (x : Sample) : (s.obPut f j x).diagCrcMismatch = s.diagCrcMismatch := rfl
@[simp] theorem State.obPut_diagBadGroup (f : Fin 2) (j : Fin 32) (x : Sample) : (s.obPut f j x).diagBadGroup = s.diagBadGroup := rfl
@[simp] theorem State.obPut_cfg (f : Fin 2) (j : Fin 32) (x : Sample) : (s.obPut f j x).cfg = s.cfg := rfl
@[simp] theorem State.obPut_seq (f : Fin 2) (j : Fin 32) (x : Sample) : (s.obPut f j x).seq = s.seq := rfl
@[simp] theorem State.obPut_stopReq (f : Fin 2) (j : Fin 32) (x : Sample) : (s.obPut f j x).stopReq = s.stopReq := rfl
@[simp] theorem State.obPut_errcode (f : Fin 2) (j : Fin 32) (x : Sample) : (s.obPut f j x).errcode = s.errcode := rfl
@[simp] theorem State.obPut_errdetail (f : Fin 2) (j : Fin 32) (x : Sample) : (s.obPut f j x).errdetail = s.errdetail := rfl
@[simp] theorem State.obPut_frameStart (f : Fin 2) (j : Fin 32) (x : Sample) : (s.obPut f j x).frameStart = s.frameStart := rfl
@[simp] theorem State.obPut_hdrBytes (f : Fin 2) (j : Fin 32) (x : Sample) : (s.obPut f j x).hdrBytes = s.hdrBytes := rfl
@[simp] theorem State.obPut_hdrWord (f : Fin 2) (j : Fin 32) (x : Sample) : (s.obPut f j x).hdrWord = s.hdrWord := rfl
@[simp] theorem State.obPut_hdr (f : Fin 2) (j : Fin 32) (x : Sample) : (s.obPut f j x).hdr = s.hdr := rfl
@[simp] theorem State.obPut_fb (f : Fin 2) (j : Fin 32) (x : Sample) : (s.obPut f j x).fb = s.fb := rfl
@[simp] theorem State.obPut_flen (f : Fin 2) (j : Fin 32) (x : Sample) : (s.obPut f j x).flen = s.flen := rfl
@[simp] theorem State.obPut_bitpos (f : Fin 2) (j : Fin 32) (x : Sample) : (s.obPut f j x).bitpos = s.bitpos := rfl
@[simp] theorem State.obPut_crc (f : Fin 2) (j : Fin 32) (x : Sample) : (s.obPut f j x).crc = s.crc := rfl
@[simp] theorem State.obPut_crcWord (f : Fin 2) (j : Fin 32) (x : Sample) : (s.obPut f j x).crcWord = s.crcWord := rfl
@[simp] theorem State.obPut_ctx (f : Fin 2) (j : Fin 32) (x : Sample) : (s.obPut f j x).ctx = s.ctx := rfl
@[simp] theorem State.obPut_sbst (f : Fin 2) (j : Fin 32) (x : Sample) : (s.obPut f j x).sbst = s.sbst := rfl
@[simp] theorem State.obPut_slot (f : Fin 2) (j : Fin 32) (x : Sample) : (s.obPut f j x).slot = s.slot := rfl
@[simp] theorem State.obPut_l1n (f : Fin 2) (j : Fin 32) (x : Sample) : (s.obPut f j x).l1n = s.l1n := rfl
@[simp] theorem State.obPut_gn (f : Fin 2) (j : Fin 32) (x : Sample) : (s.obPut f j x).gn = s.gn := rfl
@[simp] theorem State.obPut_sn (f : Fin 2) (j : Fin 32) (x : Sample) : (s.obPut f j x).sn = s.sn := rfl
@[simp] theorem State.obPut_filt (f : Fin 2) (j : Fin 32) (x : Sample) : (s.obPut f j x).filt = s.filt := rfl
@[simp] theorem State.obPut_ob (f : Fin 2) (j : Fin 32) (x : Sample) : (s.obPut f j x).ob = changeBeat (fun b => b.put f x) s.ob (32 * s.slot + j.val) := rfl
@[simp] theorem State.obPut_obRd (f : Fin 2) (j : Fin 32) (x : Sample) : (s.obPut f j x).obRd = s.obRd := rfl
@[simp] theorem State.obPut_src (f : Fin 2) (j : Fin 32) (x : Sample) : (s.obPut f j x).src = s.src := rfl
@[simp] theorem State.obPut_sinkReady (f : Fin 2) (j : Fin 32) (x : Sample) : (s.obPut f j x).sinkReady = s.sinkReady := rfl
@[simp] theorem State.obPut_delivered (f : Fin 2) (j : Fin 32) (x : Sample) : (s.obPut f j x).delivered = s.delivered := rfl
@[simp] theorem State.obPut_rdata (f : Fin 2) (j : Fin 32) (x : Sample) : (s.obPut f j x).rdata = s.rdata := rfl
@[simp] theorem State.obPut_bits (f : Fin 2) (j : Fin 32) (x : Sample) : (s.obPut f j x).bits = s.bits := rfl
@[simp] theorem State.obPut_script (f : Fin 2) (j : Fin 32) (x : Sample) : (s.obPut f j x).script = s.script := rfl

/-! ### skipToFrameEnd -/

@[simp] theorem State.skipToFrameEnd_params : s.skipToFrameEnd.params = s.params := rfl
@[simp] theorem State.skipToFrameEnd_ctrl : s.skipToFrameEnd.ctrl = s.ctrl := rfl
@[simp] theorem State.skipToFrameEnd_header : s.skipToFrameEnd.header = s.header := rfl
@[simp] theorem State.skipToFrameEnd_info : s.skipToFrameEnd.info = s.info := rfl
@[simp] theorem State.skipToFrameEnd_frameCount : s.skipToFrameEnd.frameCount = s.frameCount := rfl
@[simp] theorem State.skipToFrameEnd_byteCount : s.skipToFrameEnd.byteCount = s.byteCount := rfl
@[simp] theorem State.skipToFrameEnd_errOffset : s.skipToFrameEnd.errOffset = s.errOffset := rfl
@[simp] theorem State.skipToFrameEnd_diagCorruptAlloc : s.skipToFrameEnd.diagCorruptAlloc = s.diagCorruptAlloc := rfl
@[simp] theorem State.skipToFrameEnd_diagCrcMismatch : s.skipToFrameEnd.diagCrcMismatch = s.diagCrcMismatch := rfl
@[simp] theorem State.skipToFrameEnd_diagBadGroup : s.skipToFrameEnd.diagBadGroup = s.diagBadGroup := rfl
@[simp] theorem State.skipToFrameEnd_cfg : s.skipToFrameEnd.cfg = s.cfg := rfl
@[simp] theorem State.skipToFrameEnd_seq : s.skipToFrameEnd.seq = s.seq := rfl
@[simp] theorem State.skipToFrameEnd_stopReq : s.skipToFrameEnd.stopReq = s.stopReq := rfl
@[simp] theorem State.skipToFrameEnd_errcode : s.skipToFrameEnd.errcode = s.errcode := rfl
@[simp] theorem State.skipToFrameEnd_errdetail : s.skipToFrameEnd.errdetail = s.errdetail := rfl
@[simp] theorem State.skipToFrameEnd_frameStart : s.skipToFrameEnd.frameStart = s.frameStart := rfl
@[simp] theorem State.skipToFrameEnd_hdrBytes : s.skipToFrameEnd.hdrBytes = s.hdrBytes := rfl
@[simp] theorem State.skipToFrameEnd_hdrWord : s.skipToFrameEnd.hdrWord = s.hdrWord := rfl
@[simp] theorem State.skipToFrameEnd_hdr : s.skipToFrameEnd.hdr = s.hdr := rfl
@[simp] theorem State.skipToFrameEnd_fb : s.skipToFrameEnd.fb = s.fb := rfl
@[simp] theorem State.skipToFrameEnd_flen : s.skipToFrameEnd.flen = s.flen := rfl
@[simp] theorem State.skipToFrameEnd_bitpos : s.skipToFrameEnd.bitpos = 8 * s.flen.toNat := rfl
@[simp] theorem State.skipToFrameEnd_crc : s.skipToFrameEnd.crc = s.crc := rfl
@[simp] theorem State.skipToFrameEnd_crcWord : s.skipToFrameEnd.crcWord = s.crcWord := rfl
@[simp] theorem State.skipToFrameEnd_ctx : s.skipToFrameEnd.ctx = s.ctx := rfl
@[simp] theorem State.skipToFrameEnd_sbst : s.skipToFrameEnd.sbst = s.sbst := rfl
@[simp] theorem State.skipToFrameEnd_slot : s.skipToFrameEnd.slot = s.slot := rfl
@[simp] theorem State.skipToFrameEnd_l1n : s.skipToFrameEnd.l1n = s.l1n := rfl
@[simp] theorem State.skipToFrameEnd_gn : s.skipToFrameEnd.gn = s.gn := rfl
@[simp] theorem State.skipToFrameEnd_sn : s.skipToFrameEnd.sn = s.sn := rfl
@[simp] theorem State.skipToFrameEnd_filt : s.skipToFrameEnd.filt = s.filt := rfl
@[simp] theorem State.skipToFrameEnd_ob : s.skipToFrameEnd.ob = s.ob := rfl
@[simp] theorem State.skipToFrameEnd_obRd : s.skipToFrameEnd.obRd = s.obRd := rfl
@[simp] theorem State.skipToFrameEnd_src : s.skipToFrameEnd.src = s.src := rfl
@[simp] theorem State.skipToFrameEnd_sinkReady : s.skipToFrameEnd.sinkReady = s.sinkReady := rfl
@[simp] theorem State.skipToFrameEnd_delivered : s.skipToFrameEnd.delivered = s.delivered := rfl
@[simp] theorem State.skipToFrameEnd_rdata : s.skipToFrameEnd.rdata = s.rdata := rfl
@[simp] theorem State.skipToFrameEnd_bits : s.skipToFrameEnd.bits = s.bits := rfl
@[simp] theorem State.skipToFrameEnd_script : s.skipToFrameEnd.script = s.script := rfl

/-! ### takeByte -/

@[simp] theorem State.takeByte_params (rest : List Byte) : (s.takeByte rest).params = s.params := rfl
@[simp] theorem State.takeByte_ctrl (rest : List Byte) : (s.takeByte rest).ctrl = s.ctrl := rfl
@[simp] theorem State.takeByte_header (rest : List Byte) : (s.takeByte rest).header = s.header := rfl
@[simp] theorem State.takeByte_info (rest : List Byte) : (s.takeByte rest).info = s.info := rfl
@[simp] theorem State.takeByte_frameCount (rest : List Byte) : (s.takeByte rest).frameCount = s.frameCount := rfl
@[simp] theorem State.takeByte_byteCount (rest : List Byte) : (s.takeByte rest).byteCount = s.byteCount + 1#32 := rfl
@[simp] theorem State.takeByte_errOffset (rest : List Byte) : (s.takeByte rest).errOffset = s.errOffset := rfl
@[simp] theorem State.takeByte_diagCorruptAlloc (rest : List Byte) : (s.takeByte rest).diagCorruptAlloc = s.diagCorruptAlloc := rfl
@[simp] theorem State.takeByte_diagCrcMismatch (rest : List Byte) : (s.takeByte rest).diagCrcMismatch = s.diagCrcMismatch := rfl
@[simp] theorem State.takeByte_diagBadGroup (rest : List Byte) : (s.takeByte rest).diagBadGroup = s.diagBadGroup := rfl
@[simp] theorem State.takeByte_cfg (rest : List Byte) : (s.takeByte rest).cfg = s.cfg := rfl
@[simp] theorem State.takeByte_seq (rest : List Byte) : (s.takeByte rest).seq = s.seq := rfl
@[simp] theorem State.takeByte_stopReq (rest : List Byte) : (s.takeByte rest).stopReq = s.stopReq := rfl
@[simp] theorem State.takeByte_errcode (rest : List Byte) : (s.takeByte rest).errcode = s.errcode := rfl
@[simp] theorem State.takeByte_errdetail (rest : List Byte) : (s.takeByte rest).errdetail = s.errdetail := rfl
@[simp] theorem State.takeByte_frameStart (rest : List Byte) : (s.takeByte rest).frameStart = s.frameStart := rfl
@[simp] theorem State.takeByte_hdrBytes (rest : List Byte) : (s.takeByte rest).hdrBytes = s.hdrBytes := rfl
@[simp] theorem State.takeByte_hdrWord (rest : List Byte) : (s.takeByte rest).hdrWord = s.hdrWord := rfl
@[simp] theorem State.takeByte_hdr (rest : List Byte) : (s.takeByte rest).hdr = s.hdr := rfl
@[simp] theorem State.takeByte_fb (rest : List Byte) : (s.takeByte rest).fb = s.fb := rfl
@[simp] theorem State.takeByte_flen (rest : List Byte) : (s.takeByte rest).flen = s.flen := rfl
@[simp] theorem State.takeByte_bitpos (rest : List Byte) : (s.takeByte rest).bitpos = s.bitpos := rfl
@[simp] theorem State.takeByte_crc (rest : List Byte) : (s.takeByte rest).crc = s.crc := rfl
@[simp] theorem State.takeByte_crcWord (rest : List Byte) : (s.takeByte rest).crcWord = s.crcWord := rfl
@[simp] theorem State.takeByte_ctx (rest : List Byte) : (s.takeByte rest).ctx = s.ctx := rfl
@[simp] theorem State.takeByte_sbst (rest : List Byte) : (s.takeByte rest).sbst = s.sbst := rfl
@[simp] theorem State.takeByte_slot (rest : List Byte) : (s.takeByte rest).slot = s.slot := rfl
@[simp] theorem State.takeByte_l1n (rest : List Byte) : (s.takeByte rest).l1n = s.l1n := rfl
@[simp] theorem State.takeByte_gn (rest : List Byte) : (s.takeByte rest).gn = s.gn := rfl
@[simp] theorem State.takeByte_sn (rest : List Byte) : (s.takeByte rest).sn = s.sn := rfl
@[simp] theorem State.takeByte_filt (rest : List Byte) : (s.takeByte rest).filt = s.filt := rfl
@[simp] theorem State.takeByte_ob (rest : List Byte) : (s.takeByte rest).ob = s.ob := rfl
@[simp] theorem State.takeByte_obRd (rest : List Byte) : (s.takeByte rest).obRd = s.obRd := rfl
@[simp] theorem State.takeByte_src (rest : List Byte) : (s.takeByte rest).src = { s.src with avail := rest } := rfl
@[simp] theorem State.takeByte_sinkReady (rest : List Byte) : (s.takeByte rest).sinkReady = s.sinkReady := rfl
@[simp] theorem State.takeByte_delivered (rest : List Byte) : (s.takeByte rest).delivered = s.delivered := rfl
@[simp] theorem State.takeByte_rdata (rest : List Byte) : (s.takeByte rest).rdata = s.rdata := rfl
@[simp] theorem State.takeByte_bits (rest : List Byte) : (s.takeByte rest).bits = s.bits := rfl
@[simp] theorem State.takeByte_script (rest : List Byte) : (s.takeByte rest).script = s.script := rfl

/-! ### storeCtrl -/

@[simp] theorem State.storeCtrl_params (v : CtrlWrite) : (s.storeCtrl v).params = s.params := rfl
@[simp] theorem State.storeCtrl_ctrl (v : CtrlWrite) : (s.storeCtrl v).ctrl = CtrlReg.ofWrite v := rfl
@[simp] theorem State.storeCtrl_header (v : CtrlWrite) : (s.storeCtrl v).header = s.header := rfl
@[simp] theorem State.storeCtrl_info (v : CtrlWrite) : (s.storeCtrl v).info = s.info := rfl
@[simp] theorem State.storeCtrl_frameCount (v : CtrlWrite) : (s.storeCtrl v).frameCount = s.frameCount := rfl
@[simp] theorem State.storeCtrl_byteCount (v : CtrlWrite) : (s.storeCtrl v).byteCount = s.byteCount := rfl
@[simp] theorem State.storeCtrl_errOffset (v : CtrlWrite) : (s.storeCtrl v).errOffset = s.errOffset := rfl
@[simp] theorem State.storeCtrl_diagCorruptAlloc (v : CtrlWrite) : (s.storeCtrl v).diagCorruptAlloc = s.diagCorruptAlloc := rfl
@[simp] theorem State.storeCtrl_diagCrcMismatch (v : CtrlWrite) : (s.storeCtrl v).diagCrcMismatch = s.diagCrcMismatch := rfl
@[simp] theorem State.storeCtrl_diagBadGroup (v : CtrlWrite) : (s.storeCtrl v).diagBadGroup = s.diagBadGroup := rfl
@[simp] theorem State.storeCtrl_cfg (v : CtrlWrite) : (s.storeCtrl v).cfg = s.cfg := rfl
@[simp] theorem State.storeCtrl_seq (v : CtrlWrite) : (s.storeCtrl v).seq = s.seq := rfl
@[simp] theorem State.storeCtrl_stopReq (v : CtrlWrite) : (s.storeCtrl v).stopReq = s.stopReq := rfl
@[simp] theorem State.storeCtrl_errcode (v : CtrlWrite) : (s.storeCtrl v).errcode = s.errcode := rfl
@[simp] theorem State.storeCtrl_errdetail (v : CtrlWrite) : (s.storeCtrl v).errdetail = s.errdetail := rfl
@[simp] theorem State.storeCtrl_frameStart (v : CtrlWrite) : (s.storeCtrl v).frameStart = s.frameStart := rfl
@[simp] theorem State.storeCtrl_hdrBytes (v : CtrlWrite) : (s.storeCtrl v).hdrBytes = s.hdrBytes := rfl
@[simp] theorem State.storeCtrl_hdrWord (v : CtrlWrite) : (s.storeCtrl v).hdrWord = s.hdrWord := rfl
@[simp] theorem State.storeCtrl_hdr (v : CtrlWrite) : (s.storeCtrl v).hdr = s.hdr := rfl
@[simp] theorem State.storeCtrl_fb (v : CtrlWrite) : (s.storeCtrl v).fb = s.fb := rfl
@[simp] theorem State.storeCtrl_flen (v : CtrlWrite) : (s.storeCtrl v).flen = s.flen := rfl
@[simp] theorem State.storeCtrl_bitpos (v : CtrlWrite) : (s.storeCtrl v).bitpos = s.bitpos := rfl
@[simp] theorem State.storeCtrl_crc (v : CtrlWrite) : (s.storeCtrl v).crc = s.crc := rfl
@[simp] theorem State.storeCtrl_crcWord (v : CtrlWrite) : (s.storeCtrl v).crcWord = s.crcWord := rfl
@[simp] theorem State.storeCtrl_ctx (v : CtrlWrite) : (s.storeCtrl v).ctx = s.ctx := rfl
@[simp] theorem State.storeCtrl_sbst (v : CtrlWrite) : (s.storeCtrl v).sbst = s.sbst := rfl
@[simp] theorem State.storeCtrl_slot (v : CtrlWrite) : (s.storeCtrl v).slot = s.slot := rfl
@[simp] theorem State.storeCtrl_l1n (v : CtrlWrite) : (s.storeCtrl v).l1n = s.l1n := rfl
@[simp] theorem State.storeCtrl_gn (v : CtrlWrite) : (s.storeCtrl v).gn = s.gn := rfl
@[simp] theorem State.storeCtrl_sn (v : CtrlWrite) : (s.storeCtrl v).sn = s.sn := rfl
@[simp] theorem State.storeCtrl_filt (v : CtrlWrite) : (s.storeCtrl v).filt = s.filt := rfl
@[simp] theorem State.storeCtrl_ob (v : CtrlWrite) : (s.storeCtrl v).ob = s.ob := rfl
@[simp] theorem State.storeCtrl_obRd (v : CtrlWrite) : (s.storeCtrl v).obRd = s.obRd := rfl
@[simp] theorem State.storeCtrl_src (v : CtrlWrite) : (s.storeCtrl v).src = s.src := rfl
@[simp] theorem State.storeCtrl_sinkReady (v : CtrlWrite) : (s.storeCtrl v).sinkReady = s.sinkReady := rfl
@[simp] theorem State.storeCtrl_delivered (v : CtrlWrite) : (s.storeCtrl v).delivered = s.delivered := rfl
@[simp] theorem State.storeCtrl_rdata (v : CtrlWrite) : (s.storeCtrl v).rdata = s.rdata := rfl
@[simp] theorem State.storeCtrl_bits (v : CtrlWrite) : (s.storeCtrl v).bits = s.bits := rfl
@[simp] theorem State.storeCtrl_script (v : CtrlWrite) : (s.storeCtrl v).script = s.script := rfl

/-! ### stopCommand -/

@[simp] theorem State.stopCommand_params : s.stopCommand.params = s.params := rfl
@[simp] theorem State.stopCommand_ctrl : s.stopCommand.ctrl = s.ctrl := rfl
@[simp] theorem State.stopCommand_header : s.stopCommand.header = s.header := rfl
@[simp] theorem State.stopCommand_info : s.stopCommand.info = s.info := rfl
@[simp] theorem State.stopCommand_frameCount : s.stopCommand.frameCount = s.frameCount := rfl
@[simp] theorem State.stopCommand_byteCount : s.stopCommand.byteCount = s.byteCount := rfl
@[simp] theorem State.stopCommand_errOffset : s.stopCommand.errOffset = s.errOffset := rfl
@[simp] theorem State.stopCommand_diagCorruptAlloc : s.stopCommand.diagCorruptAlloc = s.diagCorruptAlloc := rfl
@[simp] theorem State.stopCommand_diagCrcMismatch : s.stopCommand.diagCrcMismatch = s.diagCrcMismatch := rfl
@[simp] theorem State.stopCommand_diagBadGroup : s.stopCommand.diagBadGroup = s.diagBadGroup := rfl
@[simp] theorem State.stopCommand_cfg : s.stopCommand.cfg = s.cfg := rfl
@[simp] theorem State.stopCommand_seq : s.stopCommand.seq = s.seq := rfl
@[simp] theorem State.stopCommand_stopReq : s.stopCommand.stopReq = true := rfl
@[simp] theorem State.stopCommand_errcode : s.stopCommand.errcode = s.errcode := rfl
@[simp] theorem State.stopCommand_errdetail : s.stopCommand.errdetail = s.errdetail := rfl
@[simp] theorem State.stopCommand_frameStart : s.stopCommand.frameStart = s.frameStart := rfl
@[simp] theorem State.stopCommand_hdrBytes : s.stopCommand.hdrBytes = s.hdrBytes := rfl
@[simp] theorem State.stopCommand_hdrWord : s.stopCommand.hdrWord = s.hdrWord := rfl
@[simp] theorem State.stopCommand_hdr : s.stopCommand.hdr = s.hdr := rfl
@[simp] theorem State.stopCommand_fb : s.stopCommand.fb = s.fb := rfl
@[simp] theorem State.stopCommand_flen : s.stopCommand.flen = s.flen := rfl
@[simp] theorem State.stopCommand_bitpos : s.stopCommand.bitpos = s.bitpos := rfl
@[simp] theorem State.stopCommand_crc : s.stopCommand.crc = s.crc := rfl
@[simp] theorem State.stopCommand_crcWord : s.stopCommand.crcWord = s.crcWord := rfl
@[simp] theorem State.stopCommand_ctx : s.stopCommand.ctx = s.ctx := rfl
@[simp] theorem State.stopCommand_sbst : s.stopCommand.sbst = s.sbst := rfl
@[simp] theorem State.stopCommand_slot : s.stopCommand.slot = s.slot := rfl
@[simp] theorem State.stopCommand_l1n : s.stopCommand.l1n = s.l1n := rfl
@[simp] theorem State.stopCommand_gn : s.stopCommand.gn = s.gn := rfl
@[simp] theorem State.stopCommand_sn : s.stopCommand.sn = s.sn := rfl
@[simp] theorem State.stopCommand_filt : s.stopCommand.filt = s.filt := rfl
@[simp] theorem State.stopCommand_ob : s.stopCommand.ob = s.ob := rfl
@[simp] theorem State.stopCommand_obRd : s.stopCommand.obRd = s.obRd := rfl
@[simp] theorem State.stopCommand_src : s.stopCommand.src = s.src := rfl
@[simp] theorem State.stopCommand_sinkReady : s.stopCommand.sinkReady = s.sinkReady := rfl
@[simp] theorem State.stopCommand_delivered : s.stopCommand.delivered = s.delivered := rfl
@[simp] theorem State.stopCommand_rdata : s.stopCommand.rdata = s.rdata := rfl
@[simp] theorem State.stopCommand_bits : s.stopCommand.bits = s.bits := rfl
@[simp] theorem State.stopCommand_script : s.stopCommand.script = s.script := rfl

/-! ### resume -/

@[simp] theorem State.resume_params : s.resume.params = s.params := rfl
@[simp] theorem State.resume_ctrl : s.resume.ctrl = s.ctrl := rfl
@[simp] theorem State.resume_header : s.resume.header = s.header := rfl
@[simp] theorem State.resume_info : s.resume.info = s.info := rfl
@[simp] theorem State.resume_frameCount : s.resume.frameCount = s.frameCount := rfl
@[simp] theorem State.resume_byteCount : s.resume.byteCount = s.byteCount := rfl
@[simp] theorem State.resume_errOffset : s.resume.errOffset = s.errOffset := rfl
@[simp] theorem State.resume_diagCorruptAlloc : s.resume.diagCorruptAlloc = s.diagCorruptAlloc := rfl
@[simp] theorem State.resume_diagCrcMismatch : s.resume.diagCrcMismatch = s.diagCrcMismatch := rfl
@[simp] theorem State.resume_diagBadGroup : s.resume.diagBadGroup = s.diagBadGroup := rfl
@[simp] theorem State.resume_cfg : s.resume.cfg = s.latched := rfl
@[simp] theorem State.resume_seq : s.resume.seq = .awaitSync := rfl
@[simp] theorem State.resume_stopReq : s.resume.stopReq = false := rfl
@[simp] theorem State.resume_errcode : s.resume.errcode = s.errcode := rfl
@[simp] theorem State.resume_errdetail : s.resume.errdetail = s.errdetail := rfl
@[simp] theorem State.resume_frameStart : s.resume.frameStart = s.frameStart := rfl
@[simp] theorem State.resume_hdrBytes : s.resume.hdrBytes = s.hdrBytes := rfl
@[simp] theorem State.resume_hdrWord : s.resume.hdrWord = s.hdrWord := rfl
@[simp] theorem State.resume_hdr : s.resume.hdr = s.hdr := rfl
@[simp] theorem State.resume_fb : s.resume.fb = s.fb := rfl
@[simp] theorem State.resume_flen : s.resume.flen = s.flen := rfl
@[simp] theorem State.resume_bitpos : s.resume.bitpos = s.bitpos := rfl
@[simp] theorem State.resume_crc : s.resume.crc = s.crc := rfl
@[simp] theorem State.resume_crcWord : s.resume.crcWord = s.crcWord := rfl
@[simp] theorem State.resume_ctx : s.resume.ctx = s.ctx := rfl
@[simp] theorem State.resume_sbst : s.resume.sbst = s.sbst := rfl
@[simp] theorem State.resume_slot : s.resume.slot = 0 := rfl
@[simp] theorem State.resume_l1n : s.resume.l1n = 0 := rfl
@[simp] theorem State.resume_gn : s.resume.gn = 0 := rfl
@[simp] theorem State.resume_sn : s.resume.sn = 0 := rfl
@[simp] theorem State.resume_filt : s.resume.filt = s.filt := rfl
@[simp] theorem State.resume_ob : s.resume.ob = s.ob := rfl
@[simp] theorem State.resume_obRd : s.resume.obRd = s.obRd := rfl
@[simp] theorem State.resume_src : s.resume.src = s.src := rfl
@[simp] theorem State.resume_sinkReady : s.resume.sinkReady = s.sinkReady := rfl
@[simp] theorem State.resume_delivered : s.resume.delivered = s.delivered := rfl
@[simp] theorem State.resume_rdata : s.resume.rdata = s.rdata := rfl
@[simp] theorem State.resume_bits : s.resume.bits = s.bits := rfl
@[simp] theorem State.resume_script : s.resume.script = s.script := rfl

/-! ### enterSamples -/

@[simp] theorem State.enterSamples_params : s.enterSamples.params = s.params := rfl
@[simp] theorem State.enterSamples_ctrl : s.enterSamples.ctrl = s.ctrl := rfl
@[simp] theorem State.enterSamples_header : s.enterSamples.header = s.header := rfl
@[simp] theorem State.enterSamples_info : s.enterSamples.info = s.info := rfl
@[simp] theorem State.enterSamples_frameCount : s.enterSamples.frameCount = s.frameCount := rfl
@[simp] theorem State.enterSamples_byteCount : s.enterSamples.byteCount = s.byteCount := rfl
@[simp] theorem State.enterSamples_errOffset : s.enterSamples.errOffset = s.errOffset := rfl
@[simp] theorem State.enterSamples_diagCorruptAlloc : s.enterSamples.diagCorruptAlloc = s.diagCorruptAlloc := rfl
@[simp] theorem State.enterSamples_diagCrcMismatch : s.enterSamples.diagCrcMismatch = s.diagCrcMismatch := rfl
@[simp] theorem State.enterSamples_diagBadGroup : s.enterSamples.diagBadGroup = s.diagBadGroup := rfl
@[simp] theorem State.enterSamples_cfg : s.enterSamples.cfg = s.cfg := rfl
@[simp] theorem State.enterSamples_seq : s.enterSamples.seq = .samples := rfl
@[simp] theorem State.enterSamples_stopReq : s.enterSamples.stopReq = s.stopReq := rfl
@[simp] theorem State.enterSamples_errcode : s.enterSamples.errcode = s.errcode := rfl
@[simp] theorem State.enterSamples_errdetail : s.enterSamples.errdetail = s.errdetail := rfl
@[simp] theorem State.enterSamples_frameStart : s.enterSamples.frameStart = s.frameStart := rfl
@[simp] theorem State.enterSamples_hdrBytes : s.enterSamples.hdrBytes = s.hdrBytes := rfl
@[simp] theorem State.enterSamples_hdrWord : s.enterSamples.hdrWord = s.hdrWord := rfl
@[simp] theorem State.enterSamples_hdr : s.enterSamples.hdr = s.hdr := rfl
@[simp] theorem State.enterSamples_fb : s.enterSamples.fb = s.fb := rfl
@[simp] theorem State.enterSamples_flen : s.enterSamples.flen = s.flen := rfl
@[simp] theorem State.enterSamples_bitpos : s.enterSamples.bitpos = s.bitpos := rfl
@[simp] theorem State.enterSamples_crc : s.enterSamples.crc = s.crc := rfl
@[simp] theorem State.enterSamples_crcWord : s.enterSamples.crcWord = s.crcWord := rfl
@[simp] theorem State.enterSamples_ctx : s.enterSamples.ctx = s.ctx := rfl
@[simp] theorem State.enterSamples_sbst : s.enterSamples.sbst = s.sbst := rfl
@[simp] theorem State.enterSamples_slot : s.enterSamples.slot = 0 := rfl
@[simp] theorem State.enterSamples_l1n : s.enterSamples.l1n = 0 := rfl
@[simp] theorem State.enterSamples_gn : s.enterSamples.gn = 0 := rfl
@[simp] theorem State.enterSamples_sn : s.enterSamples.sn = 0 := rfl
@[simp] theorem State.enterSamples_filt : s.enterSamples.filt = s.filt := rfl
@[simp] theorem State.enterSamples_ob : s.enterSamples.ob = [] := rfl
@[simp] theorem State.enterSamples_obRd : s.enterSamples.obRd = 0 := rfl
@[simp] theorem State.enterSamples_src : s.enterSamples.src = s.src := rfl
@[simp] theorem State.enterSamples_sinkReady : s.enterSamples.sinkReady = s.sinkReady := rfl
@[simp] theorem State.enterSamples_delivered : s.enterSamples.delivered = s.delivered := rfl
@[simp] theorem State.enterSamples_rdata : s.enterSamples.rdata = s.rdata := rfl
@[simp] theorem State.enterSamples_bits : s.enterSamples.bits = s.bits := rfl
@[simp] theorem State.enterSamples_script : s.enterSamples.script = s.script := rfl

/-! ### rearm -/

@[simp] theorem State.rearm_params : s.rearm.params = s.params := rfl
@[simp] theorem State.rearm_ctrl : s.rearm.ctrl = s.ctrl := rfl
@[simp] theorem State.rearm_header : s.rearm.header = s.header := rfl
@[simp] theorem State.rearm_info : s.rearm.info = s.info := rfl
@[simp] theorem State.rearm_frameCount : s.rearm.frameCount = s.frameCount := rfl
@[simp] theorem State.rearm_byteCount : s.rearm.byteCount = s.byteCount := rfl
@[simp] theorem State.rearm_errOffset : s.rearm.errOffset = s.errOffset := rfl
@[simp] theorem State.rearm_diagCorruptAlloc : s.rearm.diagCorruptAlloc = s.diagCorruptAlloc := rfl
@[simp] theorem State.rearm_diagCrcMismatch : s.rearm.diagCrcMismatch = s.diagCrcMismatch := rfl
@[simp] theorem State.rearm_diagBadGroup : s.rearm.diagBadGroup = s.diagBadGroup := rfl
@[simp] theorem State.rearm_cfg : s.rearm.cfg = s.cfg := rfl
@[simp] theorem State.rearm_seq : s.rearm.seq = s.seq := rfl
@[simp] theorem State.rearm_stopReq : s.rearm.stopReq = s.stopReq := rfl
@[simp] theorem State.rearm_errcode : s.rearm.errcode = s.errcode := rfl
@[simp] theorem State.rearm_errdetail : s.rearm.errdetail = s.errdetail := rfl
@[simp] theorem State.rearm_frameStart : s.rearm.frameStart = s.frameStart := rfl
@[simp] theorem State.rearm_hdrBytes : s.rearm.hdrBytes = s.hdrBytes := rfl
@[simp] theorem State.rearm_hdrWord : s.rearm.hdrWord = s.hdrWord := rfl
@[simp] theorem State.rearm_hdr : s.rearm.hdr = s.hdr := rfl
@[simp] theorem State.rearm_fb : s.rearm.fb = s.fb := rfl
@[simp] theorem State.rearm_flen : s.rearm.flen = s.flen := rfl
@[simp] theorem State.rearm_bitpos : s.rearm.bitpos = s.bitpos := rfl
@[simp] theorem State.rearm_crc : s.rearm.crc = s.crc := rfl
@[simp] theorem State.rearm_crcWord : s.rearm.crcWord = s.crcWord := rfl
@[simp] theorem State.rearm_ctx : s.rearm.ctx = s.ctx := rfl
@[simp] theorem State.rearm_sbst : s.rearm.sbst = s.sbst.map fun x => if x = .sampleReady then .awaitSamples else x := rfl
@[simp] theorem State.rearm_slot : s.rearm.slot = s.slot := rfl
@[simp] theorem State.rearm_l1n : s.rearm.l1n = s.l1n := rfl
@[simp] theorem State.rearm_gn : s.rearm.gn = s.gn := rfl
@[simp] theorem State.rearm_sn : s.rearm.sn = s.sn := rfl
@[simp] theorem State.rearm_filt : s.rearm.filt = s.filt := rfl
@[simp] theorem State.rearm_ob : s.rearm.ob = s.ob := rfl
@[simp] theorem State.rearm_obRd : s.rearm.obRd = s.obRd := rfl
@[simp] theorem State.rearm_src : s.rearm.src = s.src := rfl
@[simp] theorem State.rearm_sinkReady : s.rearm.sinkReady = s.sinkReady := rfl
@[simp] theorem State.rearm_delivered : s.rearm.delivered = s.delivered := rfl
@[simp] theorem State.rearm_rdata : s.rearm.rdata = s.rdata := rfl
@[simp] theorem State.rearm_bits : s.rearm.bits = s.bits := rfl
@[simp] theorem State.rearm_script : s.rearm.script = s.script := rfl

/-! ### freshStart -/

@[simp] theorem State.freshStart_params : s.freshStart.params = s.params := rfl
@[simp] theorem State.freshStart_ctrl : s.freshStart.ctrl = s.ctrl := rfl
@[simp] theorem State.freshStart_header : s.freshStart.header = State.reset.header := rfl
@[simp] theorem State.freshStart_info : s.freshStart.info = State.reset.info := rfl
@[simp] theorem State.freshStart_frameCount : s.freshStart.frameCount = State.reset.frameCount := rfl
@[simp] theorem State.freshStart_byteCount : s.freshStart.byteCount = State.reset.byteCount := rfl
@[simp] theorem State.freshStart_errOffset : s.freshStart.errOffset = State.reset.errOffset := rfl
@[simp] theorem State.freshStart_diagCorruptAlloc : s.freshStart.diagCorruptAlloc = State.reset.diagCorruptAlloc := rfl
@[simp] theorem State.freshStart_diagCrcMismatch : s.freshStart.diagCrcMismatch = State.reset.diagCrcMismatch := rfl
@[simp] theorem State.freshStart_diagBadGroup : s.freshStart.diagBadGroup = State.reset.diagBadGroup := rfl
@[simp] theorem State.freshStart_cfg : s.freshStart.cfg = s.latched := rfl
@[simp] theorem State.freshStart_seq : s.freshStart.seq = .awaitSync := rfl
@[simp] theorem State.freshStart_stopReq : s.freshStart.stopReq = (decide (s.seq = .idle) && s.stopReq) := rfl
@[simp] theorem State.freshStart_errcode : s.freshStart.errcode = State.reset.errcode := rfl
@[simp] theorem State.freshStart_errdetail : s.freshStart.errdetail = State.reset.errdetail := rfl
@[simp] theorem State.freshStart_frameStart : s.freshStart.frameStart = State.reset.frameStart := rfl
@[simp] theorem State.freshStart_hdrBytes : s.freshStart.hdrBytes = State.reset.hdrBytes := rfl
@[simp] theorem State.freshStart_hdrWord : s.freshStart.hdrWord = State.reset.hdrWord := rfl
@[simp] theorem State.freshStart_hdr : s.freshStart.hdr = State.reset.hdr := rfl
@[simp] theorem State.freshStart_fb : s.freshStart.fb = State.reset.fb := rfl
@[simp] theorem State.freshStart_flen : s.freshStart.flen = State.reset.flen := rfl
@[simp] theorem State.freshStart_bitpos : s.freshStart.bitpos = State.reset.bitpos := rfl
@[simp] theorem State.freshStart_crc : s.freshStart.crc = State.reset.crc := rfl
@[simp] theorem State.freshStart_crcWord : s.freshStart.crcWord = State.reset.crcWord := rfl
@[simp] theorem State.freshStart_ctx : s.freshStart.ctx = State.reset.ctx := rfl
@[simp] theorem State.freshStart_sbst : s.freshStart.sbst = State.reset.sbst := rfl
@[simp] theorem State.freshStart_slot : s.freshStart.slot = State.reset.slot := rfl
@[simp] theorem State.freshStart_l1n : s.freshStart.l1n = State.reset.l1n := rfl
@[simp] theorem State.freshStart_gn : s.freshStart.gn = State.reset.gn := rfl
@[simp] theorem State.freshStart_sn : s.freshStart.sn = State.reset.sn := rfl
@[simp] theorem State.freshStart_filt : s.freshStart.filt = State.reset.filt := rfl
@[simp] theorem State.freshStart_ob : s.freshStart.ob = State.reset.ob := rfl
@[simp] theorem State.freshStart_obRd : s.freshStart.obRd = State.reset.obRd := rfl
@[simp] theorem State.freshStart_src : s.freshStart.src = s.src := rfl
@[simp] theorem State.freshStart_sinkReady : s.freshStart.sinkReady = s.sinkReady := rfl
@[simp] theorem State.freshStart_delivered : s.freshStart.delivered = s.delivered := rfl
@[simp] theorem State.freshStart_rdata : s.freshStart.rdata = s.rdata := rfl
@[simp] theorem State.freshStart_bits : s.freshStart.bits = s.bits := rfl
@[simp] theorem State.freshStart_script : s.freshStart.script = s.script := rfl

/-! ### finishSlot -/

@[simp] theorem State.finishSlot_params (n : Nat) : (s.finishSlot n).params = s.params := rfl
@[simp] theorem State.finishSlot_ctrl (n : Nat) : (s.finishSlot n).ctrl = s.ctrl := rfl
@[simp] theorem State.finishSlot_header (n : Nat) : (s.finishSlot n).header = s.header := rfl
@[simp] theorem State.finishSlot_info (n : Nat) : (s.finishSlot n).info = s.info := rfl
@[simp] theorem State.finishSlot_frameCount (n : Nat) : (s.finishSlot n).frameCount = s.frameCount := rfl
@[simp] theorem State.finishSlot_byteCount (n : Nat) : (s.finishSlot n).byteCount = s.byteCount := rfl
@[simp] theorem State.finishSlot_errOffset (n : Nat) : (s.finishSlot n).errOffset = s.errOffset := rfl
@[simp] theorem State.finishSlot_diagCorruptAlloc (n : Nat) : (s.finishSlot n).diagCorruptAlloc = s.diagCorruptAlloc := rfl
@[simp] theorem State.finishSlot_diagCrcMismatch (n : Nat) : (s.finishSlot n).diagCrcMismatch = s.diagCrcMismatch := rfl
@[simp] theorem State.finishSlot_diagBadGroup (n : Nat) : (s.finishSlot n).diagBadGroup = s.diagBadGroup := rfl
@[simp] theorem State.finishSlot_cfg (n : Nat) : (s.finishSlot n).cfg = s.cfg := rfl
@[simp] theorem State.finishSlot_seq (n : Nat) : (s.finishSlot n).seq = if s.slot + 1 = n then .emit else s.seq := rfl
@[simp] theorem State.finishSlot_stopReq (n : Nat) : (s.finishSlot n).stopReq = s.stopReq := rfl
@[simp] theorem State.finishSlot_errcode (n : Nat) : (s.finishSlot n).errcode = s.errcode := rfl
@[simp] theorem State.finishSlot_errdetail (n : Nat) : (s.finishSlot n).errdetail = s.errdetail := rfl
@[simp] theorem State.finishSlot_frameStart (n : Nat) : (s.finishSlot n).frameStart = s.frameStart := rfl
@[simp] theorem State.finishSlot_hdrBytes (n : Nat) : (s.finishSlot n).hdrBytes = s.hdrBytes := rfl
@[simp] theorem State.finishSlot_hdrWord (n : Nat) : (s.finishSlot n).hdrWord = s.hdrWord := rfl
@[simp] theorem State.finishSlot_hdr (n : Nat) : (s.finishSlot n).hdr = s.hdr := rfl
@[simp] theorem State.finishSlot_fb (n : Nat) : (s.finishSlot n).fb = s.fb := rfl
@[simp] theorem State.finishSlot_flen (n : Nat) : (s.finishSlot n).flen = s.flen := rfl
@[simp] theorem State.finishSlot_bitpos (n : Nat) : (s.finishSlot n).bitpos = s.bitpos := rfl
@[simp] theorem State.finishSlot_crc (n : Nat) : (s.finishSlot n).crc = s.crc := rfl
@[simp] theorem State.finishSlot_crcWord (n : Nat) : (s.finishSlot n).crcWord = s.crcWord := rfl
@[simp] theorem State.finishSlot_ctx (n : Nat) : (s.finishSlot n).ctx = s.ctx := rfl
@[simp] theorem State.finishSlot_sbst (n : Nat) : (s.finishSlot n).sbst = s.sbst := rfl
@[simp] theorem State.finishSlot_slot (n : Nat) : (s.finishSlot n).slot = s.slot + 1 := rfl
@[simp] theorem State.finishSlot_l1n (n : Nat) : (s.finishSlot n).l1n = s.l1n := rfl
@[simp] theorem State.finishSlot_gn (n : Nat) : (s.finishSlot n).gn = s.gn := rfl
@[simp] theorem State.finishSlot_sn (n : Nat) : (s.finishSlot n).sn = s.sn := rfl
@[simp] theorem State.finishSlot_filt (n : Nat) : (s.finishSlot n).filt = s.filt := rfl
@[simp] theorem State.finishSlot_ob (n : Nat) : (s.finishSlot n).ob = s.ob := rfl
@[simp] theorem State.finishSlot_obRd (n : Nat) : (s.finishSlot n).obRd = s.obRd := rfl
@[simp] theorem State.finishSlot_src (n : Nat) : (s.finishSlot n).src = s.src := rfl
@[simp] theorem State.finishSlot_sinkReady (n : Nat) : (s.finishSlot n).sinkReady = s.sinkReady := rfl
@[simp] theorem State.finishSlot_delivered (n : Nat) : (s.finishSlot n).delivered = s.delivered := rfl
@[simp] theorem State.finishSlot_rdata (n : Nat) : (s.finishSlot n).rdata = s.rdata := rfl
@[simp] theorem State.finishSlot_bits (n : Nat) : (s.finishSlot n).bits = s.bits := rfl
@[simp] theorem State.finishSlot_script (n : Nat) : (s.finishSlot n).script = s.script := rfl

end Sys2Proof.Machine
end

