-- ==== Sys2Proof/Laws/Ops.lean ====
section
/-! SUPPORT. For each shared operation, once, everything it can do; proofs cite these and do not unfold it. -/
namespace Sys2Proof.Machine

/-! ### Composition -/

theorem andThen_next {s : State} {k : State → Result} (h : s.seq ≠ .failed) : andThen (.next s) k = k s := by
  simp [andThen, h]

theorem andThen_failed {s : State} {k : State → Result} (h : s.seq = .failed) : andThen (.next s) k = .next s := by
  simp [andThen, h]

/-- When a composition answers a next state. -/
theorem andThen_eq_next {o : Result} {k : State → Result} {t : State} (h : andThen o k = .next t) :
    ∃ s, o = .next s ∧ ((s.seq = .failed ∧ t = s) ∨ (s.seq ≠ .failed ∧ k s = .next t)) := by
  cases o with
  | next s =>
    refine ⟨s, rfl, ?_⟩
    by_cases hs : s.seq = .failed
    · rw [andThen_failed hs] at h; cases h; exact .inl ⟨hs, rfl⟩
    · rw [andThen_next hs] at h; exact .inr ⟨hs, h⟩
  | fault r => cases h
  | refused r => cases h

/-- When a composition stops with a fault. -/
theorem andThen_eq_fault {o : Result} {k : State → Result} {r : Fault} (h : andThen o k = .fault r) :
    o = .fault r ∨ ∃ s, o = .next s ∧ s.seq ≠ .failed ∧ k s = .fault r := by
  cases o with
  | next s =>
    by_cases hs : s.seq = .failed
    · rw [andThen_failed hs] at h; cases h
    · rw [andThen_next hs] at h; exact .inr ⟨s, rfl, hs, h⟩
  | fault r' => exact .inl h
  | refused r' => cases h

/-- A property kept by every body is kept by the loop, as long as FAILED is not entered. -/
theorem forEach_keeps {α : Type} {xs : List α} {body : α → State → Result} {P : State → Prop}
    (hb : ∀ x ∈ xs, ∀ s t, P s → body x s = .next t → P t) {s t : State} (hs : P s)
    (h : forEach xs body s = .next t) : P t := by
  induction xs generalizing s with
  | nil => simp only [forEach] at h; cases h; exact hs
  | cons x rest ih =>
    obtain ⟨u, hu, hu' | hu'⟩ := andThen_eq_next h
    · exact hu'.2 ▸ hb x (by simp) s u hs hu
    · exact ih (fun y hy => hb y (by simp [hy])) (hb x (by simp) s u hs hu) hu'.2

/-- A loop whose bodies keep a property and do not fault under it does not fault. -/
theorem forEach_no_fault {α : Type} {xs : List α} {body : α → State → Result} {P : State → Prop}
    (hb : ∀ x ∈ xs, ∀ s t, P s → body x s = .next t → P t) (hf : ∀ x ∈ xs, ∀ s r, P s → body x s ≠ .fault r)
    {s : State} (hs : P s) (r : Fault) : forEach xs body s ≠ .fault r := by
  induction xs generalizing s with
  | nil => simp [forEach]
  | cons x rest ih =>
    intro h
    rcases andThen_eq_fault h with h | ⟨u, hu, -, h⟩
    · exact hf x (by simp) s r hs h
    · exact ih (fun y hy => hb y (by simp [hy])) (fun y hy => hf y (by simp [hy])) (hb x (by simp) s u hs hu) h

/-! ### Reading -/

/-- The three things reading a field can do (40_bitstream_reader.md R85, R86). -/
theorem State.takeBits_cases (s : State) (n : Nat) (go : State → Result) :
    (8 * s.flen.toNat < s.bitpos + n ∧ s.takeBits n go = .next (s.raiseFatal .bitstreamUnderrun 2)) ∨
    (s.bitpos + n ≤ 8 * s.flen.toNat ∧ 8 * s.params.frameBufBytes < s.bitpos + n ∧
      s.takeBits n go = .fault .frameBufferOverrun) ∨
    (s.bitpos + n ≤ 8 * s.flen.toNat ∧ s.bitpos + n ≤ 8 * s.params.frameBufBytes ∧
      s.takeBits n go = go { s with bitpos := s.bitpos + n }) := by
  unfold State.takeBits
  split
  · exact .inl ⟨‹_›, rfl⟩
  · split
    · exact .inr (.inl ⟨by omega, ‹_›, rfl⟩)
    · exact .inr (.inr ⟨by omega, by omega, rfl⟩)

/-- A field that the frame and the frame buffer hold is read. -/
theorem State.takeBits_go {s : State} {n : Nat} {go : State → Result} (h1 : s.bitpos + n ≤ 8 * s.flen.toNat)
    (h2 : s.bitpos + n ≤ 8 * s.params.frameBufBytes) : s.takeBits n go = go { s with bitpos := s.bitpos + n } := by
  unfold State.takeBits
  rw [if_neg (by omega), if_neg (by omega)]

/-- The bits of a field fit its width. -/
theorem State.peekFrom_lt (s : State) (p n : Nat) : s.peekFrom p n < 2 ^ n := by
  induction n with
  | zero => simp [State.peekFrom]
  | succ n ih =>
    have : (s.frameBit (p + n)).toNat ≤ 1 := Bool.toNat_le _
    simp only [State.peekFrom, pow_succ]
    omega

theorem State.peekBits_lt (s : State) (n : Nat) : s.peekBits n < 2 ^ n := s.peekFrom_lt _ n

/-- Storing a byte of the frame goes on, or stops outside the frame buffer. -/
theorem State.storeFb_cases (s : State) (k : Nat) (b : Byte) (go : State → Result) :
    (k < s.params.frameBufBytes ∧ s.storeFb k b go = go { s with fb := s.fb.write k b }) ∨
    (s.params.frameBufBytes ≤ k ∧ s.storeFb k b go = .fault .frameBufferOverrun) := by
  unfold State.storeFb
  split
  · exact .inl ⟨‹_›, rfl⟩
  · exact .inr ⟨by omega, rfl⟩

/-- A field that runs is a decoded operation that ran. -/
theorem runField_eq_next {fmt : Format} {s t : State} (h : runField fmt s = .next t) :
    ∃ i, decode fmt (s.peekBits fmt.width) = .ok i ∧ exec i s = .next t := by
  unfold runField at h
  split at h
  · exact ⟨_, ‹_›, h⟩
  · cases h

/-! ### The context file and the filters -/

@[simp] theorem State.sub_setSub_same (s : State) (ch : Fin 2) (sb : Fin 32) (c : SubCtx) :
    (s.setSub ch sb c).sub ch sb = c := by
  simp [State.sub, State.setSub]

theorem State.sub_setSub_other (s : State) {ch ch' : Fin 2} {sb sb' : Fin 32} (c : SubCtx)
    (h : ch' ≠ ch ∨ sb' ≠ sb) : (s.setSub ch sb c).sub ch' sb' = s.sub ch' sb' := by
  unfold State.sub State.setSub
  by_cases hc : ch' = ch
  · subst hc
    have hb : (sb : Nat) ≠ sb' := fun e => (h.resolve_left (by simp)) (Fin.ext e.symm)
    simp [hb]
  · have hb : (ch : Nat) ≠ ch' := fun e => hc (Fin.ext e.symm)
    simp [hb]

/-! ### Headers -/

/-- A choice of operations is a choice of their meanings. -/
theorem exec_ite (c : Prop) [Decidable c] (i j : Instr) (s : State) :
    exec (if c then i else j) s = if c then exec i s else exec j s := by
  split <;> rfl

/-- PARSE_HEADER runs the meaning of the decoded header word. -/
theorem parseHeader_eq_exec (h : HeaderFields) (s : State) : parseHeader h s = exec (decodeHeader h) s := by
  simp only [decodeHeader, exec_ite]
  rfl

/-- The block's step with nothing else planned. -/
theorem nextStep_block {s : State} (h : s.script = []) : nextStep s = blockStep s := by simp [nextStep, h]

end Sys2Proof.Machine
end

