-- ==== Sys2Proof/Laws/Loops.lean ====
section
/-! SUPPORT. The laws of the composition of operations: how `andThen` and `forEach` nest, and when two loops are equal. -/
namespace Sys2Proof.Machine

theorem andThen_assoc (o : Result) (k l : State → Result) :
    andThen (andThen o k) l = andThen o fun s => andThen (k s) l := by
  cases o with
  | next s => by_cases h : s.seq = .failed <;> simp [andThen, h]
  | fault r => rfl
  | refused r => rfl

/-- What follows an operation matters only where it did not fail. -/
theorem andThen_congr {o : Result} {k l : State → Result} (h : ∀ s, o = .next s → s.seq ≠ .failed → k s = l s) :
    andThen o k = andThen o l := by
  cases o with
  | next s =>
    by_cases hs : s.seq = .failed
    · simp [andThen, hs]
    · simpa [andThen, hs] using h s rfl hs
  | fault r => rfl
  | refused r => rfl

theorem forEach_append {α : Type} (xs ys : List α) (body : α → State → Result) {s : State} (hs : s.seq ≠ .failed) :
    forEach (xs ++ ys) body s = andThen (forEach xs body s) (forEach ys body) := by
  induction xs generalizing s with
  | nil => exact (andThen_next hs).symm
  | cons x rest ih =>
    rw [List.cons_append, forEach, forEach, andThen_assoc]
    exact andThen_congr fun t _ ht => ih ht

/-- A loop over a flattened list is a nested loop. -/
theorem forEach_flatMap {α β : Type} (xs : List α) (f : α → List β) (body : β → State → Result) {s : State}
    (hs : s.seq ≠ .failed) : forEach (xs.flatMap f) body s = forEach xs (fun x => forEach (f x) body) s := by
  induction xs generalizing s with
  | nil => rfl
  | cons x rest ih =>
    rw [List.flatMap_cons, forEach_append _ _ _ hs, forEach]
    exact andThen_congr fun t _ ht => ih ht

/-- Two loops whose bodies agree under a property that the first body keeps. -/
theorem forEach_congr {α : Type} {xs : List α} {body body' : α → State → Result} {P : State → Prop}
    (hk : ∀ x ∈ xs, ∀ s t, P s → body x s = .next t → P t)
    (he : ∀ x ∈ xs, ∀ s, P s → s.seq ≠ .failed → body x s = body' x s)
    {s : State} (hP : P s) (hs : s.seq ≠ .failed) : forEach xs body s = forEach xs body' s := by
  induction xs generalizing s with
  | nil => rfl
  | cons x rest ih =>
    rw [forEach, forEach, ← he x (by simp) s hP hs]
    exact andThen_congr fun t ht hf =>
      ih (fun y hy => hk y (by simp [hy])) (fun y hy => he y (by simp [hy])) (hk x (by simp) s t hP ht) hf

/-- Items that a filter drops may be skipped inside the loop. -/
theorem forEach_filter {α : Type} (xs : List α) (p : α → Bool) (body : α → State → Result) {s : State}
    (hs : s.seq ≠ .failed) :
    forEach (xs.filter p) body s = forEach xs (fun x s => if p x then body x s else .next s) s := by
  induction xs generalizing s with
  | nil => rfl
  | cons x rest ih =>
    cases hx : p x
    · simp only [List.filter_cons, hx, forEach, Bool.false_eq_true, if_false, andThen_next hs]
      exact ih hs
    · simp only [List.filter_cons, hx, forEach, if_true]
      exact andThen_congr fun t _ ht => ih ht

theorem andThen_return (o : Result) : andThen o .next = o := by
  cases o with
  | next s => simp [andThen]
  | fault r => rfl
  | refused r => rfl

theorem forEach_one {α : Type} (x : α) (body : α → State → Result) (s : State) : forEach [x] body s = body x s :=
  andThen_return _

theorem forEach_skip {α : Type} (xs : List α) {s : State} (hs : s.seq ≠ .failed) :
    forEach xs (fun _ s => .next s) s = .next s := by
  induction xs with
  | nil => rfl
  | cons x rest ih => rw [forEach, andThen_next hs]; exact ih

end Sys2Proof.Machine
end

