-- ==== Sys2Proof/Laws/Fields.lean ====
section
/-! SUPPORT. The fields an SCFSI, SCALEFACTORS or SAMPLES step reads: what such a field leaves alone, that it does not
depend on `sbst`, and how a loop over them runs with `sbst` advanced between the subbands. -/
namespace Sys2Proof.Machine

/-- The whole of `sbst` replaced. -/
def State.withSbst (s : State) (v : Vector SubState 32) : State := { s with sbst := v }

@[simp] theorem State.withSbst_sbst (s : State) (v : Vector SubState 32) : (s.withSbst v).sbst = v := rfl
@[simp] theorem State.withSbst_seq (s : State) (v : Vector SubState 32) : (s.withSbst v).seq = s.seq := rfl
@[simp] theorem State.withSbst_hdr (s : State) (v : Vector SubState 32) : (s.withSbst v).hdr = s.hdr := rfl
@[simp] theorem State.withSbst_sn (s : State) (v : Vector SubState 32) : (s.withSbst v).sn = s.sn := rfl
@[simp] theorem State.withSbst_sub (s : State) (v : Vector SubState 32) (ch : Fin 2) (sb : Fin 32) :
    (s.withSbst v).sub ch sb = s.sub ch sb := rfl
@[simp] theorem State.withSbst_self (s : State) : s.withSbst s.sbst = s := rfl
@[simp] theorem State.withSbst_withSbst (s : State) (v v' : Vector SubState 32) :
    (s.withSbst v).withSbst v' = s.withSbst v' := rfl

/-- The next state of a result changed, if there is one. -/
def mapNext (g : State → State) : Result → Result
  | .next s => .next (g s)
  | .fault r => .fault r
  | .refused r => .refused r

@[simp] theorem mapNext_next (g : State → State) (s : State) : mapNext g (.next s) = .next (g s) := rfl

theorem mapNext_eq_next {g : State → State} {o : Result} {t : State} (h : mapNext g o = .next t) :
    ∃ s, o = .next s ∧ t = g s := by
  cases o with
  | next s => simp only [mapNext_next] at h; cases h; exact ⟨s, rfl, rfl⟩
  | fault r => cases h
  | refused r => cases h

/-- The operations that read a scale-factor or sample field. -/
inductive ReadsData : Instr → Prop
  | l1Scalefactor (sb ch x) : ReadsData (.l1Scalefactor sb ch x)
  | l1Sample (sb ch a q) : ReadsData (.l1Sample sb ch a q)
  | l2Scfsi (sb ch x) : ReadsData (.l2Scfsi sb ch x)
  | l2Scalefactor (sb ch r) : ReadsData (.l2Scalefactor sb ch r)
  | l2Grouped (sb ch n c) : ReadsData (.l2Grouped sb ch n c)
  | l2GroupedOutOfRange (sb ch n c) : ReadsData (.l2GroupedOutOfRange sb ch n c)
  | l2Ungrouped (sb ch n v0 v1 v2) : ReadsData (.l2Ungrouped sb ch n v0 v1 v2)

/-- Their formats. -/
inductive DataFormat : Format → Prop
  | l1Scalefactor (sb ch) : DataFormat (.l1Scalefactor sb ch)
  | l1Sample (sb ch a) : DataFormat (.l1Sample sb ch a)
  | l2Scfsi (sb ch) : DataFormat (.l2Scfsi sb ch)
  | l2Scalefactor (sb ch c) : DataFormat (.l2Scalefactor sb ch c)
  | l2Grouped (sb ch n) : DataFormat (.l2Grouped sb ch n)
  | l2Ungrouped (sb ch n) : DataFormat (.l2Ungrouped sb ch n)

theorem decode_readsData {fmt : Format} {w : Nat} {i : Instr} (hf : DataFormat fmt) (h : decode fmt w = .ok i) :
    ReadsData i := by
  unfold decode at h
  split at h
  · cases hf <;> simp only [decodeFitting] at h
    case l1Scalefactor => cases h; constructor
    case l2Scfsi => cases h; constructor
    case l2Scalefactor => cases h; constructor
    case l1Sample => split at h <;> cases h; constructor
    case l2Ungrouped => split at h <;> cases h; constructor
    case l2Grouped =>
      split at h
      · cases h; split <;> constructor
      · cases h
  · cases h

/-! ### A field does not depend on `sbst` -/

theorem State.takeBits_withSbst {s : State} {n : Nat} {go : State → Result} {v : Vector SubState 32}
    (hg : ∀ t, go (t.withSbst v) = mapNext (·.withSbst v) (go t)) :
    (s.withSbst v).takeBits n go = mapNext (·.withSbst v) (s.takeBits n go) := by
  have h : (s.withSbst v).takeBits n go = if 8 * s.flen.toNat < s.bitpos + n then
        .next ((s.raiseFatal .bitstreamUnderrun 2).withSbst v)
      else if 8 * s.params.frameBufBytes < s.bitpos + n then .fault .frameBufferOverrun
      else go (State.withSbst { s with bitpos := s.bitpos + n } v) := rfl
  rw [h, State.takeBits]
  split
  · rfl
  · split
    · rfl
    · exact hg _

theorem State.takeFields_withSbst {width count : Nat} {go : State → Result} {v : Vector SubState 32}
    (hg : ∀ t, go (t.withSbst v) = mapNext (·.withSbst v) (go t)) (s : State) :
    (s.withSbst v).takeFields width count go = mapNext (·.withSbst v) (s.takeFields width count go) := by
  induction count generalizing s with
  | zero => exact hg s
  | succ count ih => exact State.takeBits_withSbst ih

theorem exec_withSbst {i : Instr} (hi : ReadsData i) (s : State) (v : Vector SubState 32) :
    exec i (s.withSbst v) = mapNext (·.withSbst v) (exec i s) := by
  cases hi <;>
    simp only [exec, execL1Scalefactor, execL1Sample, execL2Scfsi, execL2Scalefactor, execL2Grouped,
      execL2GroupedOutOfRange, execL2Ungrouped]
  case l2Scalefactor => exact State.takeFields_withSbst (fun _ => rfl) s
  case l2Ungrouped =>
    exact State.takeBits_withSbst fun t => State.takeBits_withSbst (s := t.setSmp _ _ 0 _) fun t =>
      State.takeBits_withSbst (s := t.setSmp _ _ 1 _) fun _ => rfl
  all_goals exact State.takeBits_withSbst fun _ => rfl

theorem runField_withSbst {fmt : Format} (hf : DataFormat fmt) (s : State) (v : Vector SubState 32) :
    runField fmt (s.withSbst v) = mapNext (·.withSbst v) (runField fmt s) := by
  have hp : (s.withSbst v).peekBits fmt.width = s.peekBits fmt.width := by
    have : ∀ p n, (s.withSbst v).peekFrom p n = s.peekFrom p n := by
      intro p n
      induction n with
      | zero => rfl
      | succ n ih => simp only [State.peekFrom, ih]; rfl
    exact this _ _
  unfold runField
  rw [hp]
  split
  · exact exec_withSbst (decode_readsData hf ‹_›) s v
  · rfl

/-! ### What a field leaves alone -/

/-- What the fields of one step leave alone: the header, the loop counters, and the codes that say which fields there
are; SCFSI too where asked (an SCFSI step writes it). -/
structure SameFields (scfsiToo : Prop) (s t : State) : Prop where
  hdr : t.hdr = s.hdr
  sn : t.sn = s.sn
  seq : t.seq = s.seq ∨ t.seq = .failed
  code : ∀ ch sb, (t.sub ch sb).alloc = (s.sub ch sb).alloc ∧ (t.sub ch sb).lev = (s.sub ch sb).lev ∧
    (t.sub ch sb).grp = (s.sub ch sb).grp
  scfsi : scfsiToo → ∀ ch sb, (t.sub ch sb).scfsi = (s.sub ch sb).scfsi

variable {p : Prop}

theorem SameFields.refl (s : State) : SameFields p s s :=
  ⟨rfl, rfl, .inl rfl, fun _ _ => ⟨rfl, rfl, rfl⟩, fun _ _ _ => rfl⟩

theorem SameFields.trans {s t u : State} (h : SameFields p s t) (h' : SameFields p t u) : SameFields p s u where
  hdr := h'.hdr.trans h.hdr
  sn := h'.sn.trans h.sn
  seq := h'.seq.elim (fun e => e ▸ h.seq) .inr
  code ch sb := ⟨(h'.code ch sb).1.trans (h.code ch sb).1, (h'.code ch sb).2.1.trans (h.code ch sb).2.1,
    (h'.code ch sb).2.2.trans (h.code ch sb).2.2⟩
  scfsi hp ch sb := (h'.scfsi hp ch sb).trans (h.scfsi hp ch sb)

theorem SameFields.takeBits {r s t : State} {n : Nat} {go : State → Result} (hs : SameFields p r s)
    (hg : ∀ u, SameFields p r u → go u = .next t → SameFields p r t) (h : s.takeBits n go = .next t) :
    SameFields p r t := by
  rcases s.takeBits_cases n go with ⟨-, e⟩ | ⟨-, -, e⟩ | ⟨-, -, e⟩ <;> rw [e] at h
  · cases h; exact hs.trans ⟨rfl, rfl, .inr rfl, fun _ _ => ⟨rfl, rfl, rfl⟩, fun _ _ _ => rfl⟩
  · cases h
  · exact hg { s with bitpos := s.bitpos + n } (hs.trans ⟨rfl, rfl, .inl rfl, fun _ _ => ⟨rfl, rfl, rfl⟩, fun _ _ _ => rfl⟩) h

theorem SameFields.takeFields {r t : State} {width : Nat} {go : State → Result}
    (hg : ∀ u, SameFields p r u → go u = .next t → SameFields p r t) (count : Nat) {s : State} (hs : SameFields p r s)
    (h : s.takeFields width count go = .next t) : SameFields p r t := by
  induction count generalizing s with
  | zero => exact hg _ hs h
  | succ count ih => exact hs.takeBits (fun u hu e => ih hu e) h

/-- A context entry replaced by one with the same codes. -/
theorem SameFields.setSub {s u : State} (hu : SameFields p s u) {ch : Fin 2} {sb : Fin 32} {c : SubCtx}
    (h : c.alloc = (u.sub ch sb).alloc ∧ c.lev = (u.sub ch sb).lev ∧ c.grp = (u.sub ch sb).grp)
    (hp : p → c.scfsi = (u.sub ch sb).scfsi) : SameFields p s (u.setSub ch sb c) := by
  have same : ∀ ch' sb', ((u.setSub ch sb c).sub ch' sb' = c ∧ u.sub ch' sb' = u.sub ch sb) ∨
      (u.setSub ch sb c).sub ch' sb' = u.sub ch' sb' := fun ch' sb' => by
    by_cases e : ch' = ch ∧ sb' = sb
    · obtain ⟨rfl, rfl⟩ := e
      exact .inl ⟨State.sub_setSub_same .., rfl⟩
    · exact .inr (u.sub_setSub_other c (by tauto))
  refine hu.trans ⟨rfl, rfl, .inl rfl, fun ch' sb' => ?_, fun e ch' sb' => ?_⟩ <;>
    rcases same ch' sb' with ⟨e1, e2⟩ | e1
  · rw [e1, e2]; exact h
  · rw [e1]; exact ⟨rfl, rfl, rfl⟩
  · rw [e1, e2]; exact hp e
  · rw [e1]

theorem exec_sameFields {i : Instr} (hi : ReadsData i) (hp : p → ∀ sb ch x, i ≠ .l2Scfsi sb ch x) {s t : State}
    (h : exec i s = .next t) : SameFields p s t := by
  have counted {u : State} (hu : SameFields p s u) (c : BitVec 16) (d : Word) :
      SameFields p s { u with crc := c, diagBadGroup := d } :=
    hu.trans ⟨rfl, rfl, .inl rfl, fun _ _ => ⟨rfl, rfl, rfl⟩, fun _ _ _ => rfl⟩
  have put {u : State} (hu : SameFields p s u) (ch : Fin 2) (sb : Fin 32) (k : Fin 3) (x : NumVal) :
      SameFields p s (u.setSmp ch sb k x) := hu.setSub ⟨rfl, rfl, rfl⟩ fun _ => rfl
  cases hi <;>
    simp only [exec, execL1Scalefactor, execL1Sample, execL2Scfsi, execL2Scalefactor, execL2Grouped,
      execL2GroupedOutOfRange, execL2Ungrouped, State.storeTriplet, State.crcAdd] at h
  case l1Sample =>
    refine (SameFields.refl s).takeBits (fun u hu e => ?_) h
    cases e; exact put hu _ _ _ _
  case l2Scalefactor =>
    refine SameFields.takeFields (fun u hu e => ?_) _ (.refl s) h
    cases e; exact hu.setSub ⟨rfl, rfl, rfl⟩ fun _ => rfl
  case l2Ungrouped =>
    refine (SameFields.refl s).takeBits (fun u hu e => ?_) h
    refine (put hu _ _ _ _).takeBits (fun u hu e => ?_) e
    refine (put hu _ _ _ _).takeBits (fun u hu e => ?_) e
    cases e; exact put hu _ _ _ _
  case l2Scfsi =>
    refine (SameFields.refl s).takeBits (fun u hu e => ?_) h
    cases e; exact (counted hu _ u.diagBadGroup).setSub ⟨rfl, rfl, rfl⟩ fun e => absurd rfl (hp e _ _ _)
  case l2GroupedOutOfRange =>
    refine (SameFields.refl s).takeBits (fun u hu e => ?_) h
    cases e; exact (counted hu u.crc _).setSub ⟨rfl, rfl, rfl⟩ fun _ => rfl
  all_goals
    refine (SameFields.refl s).takeBits (fun u hu e => ?_) h
    cases e; exact hu.setSub ⟨rfl, rfl, rfl⟩ fun _ => rfl

/-- Only an SCFSI field decodes to an SCFSI operation. -/
theorem decode_l2Scfsi {fmt : Format} {w : Nat} {sb : Fin 32} {ch : Fin 2} {x : BitVec 2} (hf : DataFormat fmt)
    (h : decode fmt w = .ok (.l2Scfsi sb ch x)) : fmt = .l2Scfsi sb ch := by
  unfold decode at h
  split at h
  · cases hf <;> simp only [decodeFitting] at h
    case l2Scfsi => cases h; rfl
    case l2Grouped =>
      split at h
      · split at h <;> cases h
      · cases h
    all_goals first | cases h | (split at h <;> cases h)
  · cases h

theorem runField_sameFields {fmt : Format} (hf : DataFormat fmt) (hp : p → ∀ sb ch, fmt ≠ .l2Scfsi sb ch)
    {s t : State} (h : runField fmt s = .next t) : SameFields p s t := by
  obtain ⟨i, hi, e⟩ := runField_eq_next h
  exact exec_sameFields (decode_readsData hf hi)
    (fun hq sb ch x ei => hp hq sb ch (decode_l2Scfsi hf (ei ▸ hi))) e

/-! ### Nested loops against the lists of their fields -/

/-- A loop over data fields keeps what they keep. -/
theorem forEach_sameFields {fs : List Format} (hf : ∀ f ∈ fs, DataFormat f)
    (hp : p → ∀ sb ch, Format.l2Scfsi sb ch ∉ fs) {r s t : State} (hs : SameFields p r s)
    (h : forEach fs runField s = .next t) : SameFields p r t :=
  forEach_keeps (fun f hm _ _ hu e => hu.trans (runField_sameFields (hf f hm) (fun e sb ch he => hp e sb ch (he ▸ hm)) e)) hs h

/-- A nested loop against the list of its fields. -/
theorem forEach_fieldList {s : State} (hs : s.seq ≠ .failed) {body : Fin 32 → State → Result}
    {f : Fin 32 → Fin 2 → List Format} (hd : ∀ sb ch, ∀ x ∈ f sb ch, DataFormat x)
    (hp : p → ∀ sb ch sb' ch', Format.l2Scfsi sb ch ∉ f sb' ch')
    (hb : ∀ sb u, SameFields p s u → u.seq ≠ .failed → body sb u = forEach (List.finRange 2) (fun ch => forEach (f sb ch) runField) u) :
    forEach (List.finRange 32) body s =
      forEach ((List.finRange 32).flatMap fun sb => (List.finRange 2).flatMap (f sb)) runField s := by
  rw [forEach_flatMap _ _ _ hs]
  refine (forEach_congr (P := SameFields p s) (fun sb _ u t hu e => forEach_sameFields (fun x hx => ?_)
    (fun e sb' ch' hx => ?_) hu e) (fun sb _ u hu hf => ?_) (.refl s) hs).symm
  · obtain ⟨ch, -, h⟩ := List.mem_flatMap.1 hx
    exact hd sb ch x h
  · obtain ⟨ch, -, h⟩ := List.mem_flatMap.1 hx
    exact hp e sb' ch' sb ch h
  · rw [hb sb u hu hf, forEach_flatMap _ _ _ hf]

/-- The allocated channels' fields of a subband. -/
theorem forAllocated_eq {s u : State} (hu : SameFields p s u) (hf : u.seq ≠ .failed) {nch : Nat} {sb : Fin 32}
    {body : Fin 2 → State → Result} {g : Fin 2 → Format} (hd : ∀ ch, DataFormat (g ch)) (hp : p → ∀ ch sb' ch', g ch ≠ .l2Scfsi sb' ch')
    (hb : ∀ ch, ch.val < nch → (s.sub ch sb).alloc ≠ 0#4 → ∀ w, SameFields p s w → body ch w = runField (g ch) w) :
    forAllocated nch sb body u = forEach (List.finRange 2) (fun ch =>
      forEach (if ch.val < nch ∧ (s.sub ch sb).alloc ≠ 0#4 then [g ch] else []) runField) u := by
  unfold forAllocated channelsBelow
  rw [forEach_filter _ _ _ hf]
  refine (forEach_congr (P := SameFields p s) (fun ch _ w t hw e => forEach_sameFields (fun x hx => ?_)
    (fun e sb' ch' hx => ?_) hw e) (fun ch _ w hw hf => ?_) hu hf).symm
  · split at hx
    · cases List.mem_singleton.1 hx; exact hd ch
    · cases hx
  · split at hx
    · exact hp e ch sb' ch' (List.mem_singleton.1 hx).symm
    · cases hx
  · simp only [decide_eq_true_eq, (hw.code ch sb).1]
    by_cases h1 : ch.val < nch
    · by_cases h2 : (s.sub ch sb).alloc = 0#4
      · simp [h1, h2, forEach]
      · simp only [h1, h2, true_and, not_false_iff, if_true, ne_eq, forEach_one, hb ch h1 h2 w hw]
    · simp [h1, forEach]

theorem isLayerI_of {s u : State} (h : SameFields p s u) : u.isLayerI = s.isLayerI := by simp [State.isLayerI, h.hdr]

/-! ### Loops and subbands do not depend on `sbst` -/

theorem forEach_withSbst {α : Type} {xs : List α} {body : α → State → Result}
    (hb : ∀ x ∈ xs, ∀ s v, body x (s.withSbst v) = mapNext (·.withSbst v) (body x s)) (s : State) (v : Vector SubState 32) :
    forEach xs body (s.withSbst v) = mapNext (·.withSbst v) (forEach xs body s) := by
  induction xs generalizing s with
  | nil => rfl
  | cons x rest ih =>
    rw [forEach, forEach, hb x (by simp)]
    cases body x s with
    | next t =>
      by_cases ht : t.seq = .failed
      · rw [mapNext_next, andThen_failed (by exact ht), andThen_failed ht]; rfl
      · rw [mapNext_next, andThen_next (by exact ht), andThen_next ht]
        exact ih (fun y hy => hb y (by simp [hy])) t
    | fault r => rfl
    | refused r => rfl

theorem forAllocated_withSbst {nch : Nat} {sb : Fin 32} {body : Fin 2 → State → Result}
    (hb : ∀ ch s v, body ch (s.withSbst v) = mapNext (·.withSbst v) (body ch s)) (s : State) (v : Vector SubState 32) :
    forAllocated nch sb body (s.withSbst v) = mapNext (·.withSbst v) (forAllocated nch sb body s) := by
  refine forEach_withSbst (fun ch _ s v => ?_) s v
  rw [State.withSbst_sub]
  split
  · exact hb ch s v
  · rfl

theorem l1SubbandScalefactors_withSbst (sb : Fin 32) (s : State) (v : Vector SubState 32) :
    l1SubbandScalefactors sb (s.withSbst v) = mapNext (·.withSbst v) (l1SubbandScalefactors sb s) := by
  unfold l1SubbandScalefactors
  by_cases h1 : sb.val < s.hdr.bound ∨ s.hdr.nch = 1
  · rw [if_pos h1, if_pos (by exact h1)]
    exact forAllocated_withSbst (fun ch s v => runField_withSbst (.l1Scalefactor sb ch) s v) s v
  · rw [if_neg h1, if_neg (by exact h1), State.withSbst_sub]
    split
    · exact forEach_withSbst (fun ch _ s v => runField_withSbst (.l1Scalefactor sb ch) s v) s v
    · rfl

theorem l2SubbandScalefactors_withSbst (sb : Fin 32) (s : State) (v : Vector SubState 32) :
    l2SubbandScalefactors sb (s.withSbst v) = mapNext (·.withSbst v) (l2SubbandScalefactors sb s) :=
  forAllocated_withSbst (body := fun ch s => runField (.l2Scalefactor sb ch (s.sub ch sb).scfsi) s)
    (fun ch s v => runField_withSbst (.l2Scalefactor sb ch (s.sub ch sb).scfsi) s v) s v

theorem runSample_withSbst (sb : Fin 32) (ch : Fin 2) (s : State) (v : Vector SubState 32) :
    runSample sb ch (s.withSbst v) = mapNext (·.withSbst v) (runSample sb ch s) := by
  have hd : DataFormat (if s.isLayerI then .l1Sample sb ch (s.sub ch sb).alloc else s.tripletFormat sb ch) := by
    unfold State.tripletFormat
    split
    · constructor
    · split <;> constructor
  exact runField_withSbst hd s v

/-! ### A loop over subbands with `sbst` advanced after each -/

/-- A loop whose bodies end by advancing `sbst`, against the loop without it. -/
theorem forEach_advancing {α : Type} {xs : List α} {fields body : α → State → Result}
    {advance : α → Vector SubState 32 → Vector SubState 32}
    (hb : ∀ x s, body x s = andThen (fields x s) fun t => .next (t.withSbst (advance x t.sbst)))
    (hc : ∀ x ∈ xs, ∀ s v, fields x (s.withSbst v) = mapNext (·.withSbst v) (fields x s))
    {s u : State} {v : Vector SubState 32} (hs : s.seq ≠ .failed) (h : forEach xs fields s = .next u) :
    (u.seq = .failed → ∃ v', forEach xs body (s.withSbst v) = .next (u.withSbst v')) ∧
    (u.seq ≠ .failed → forEach xs body (s.withSbst v) = .next (u.withSbst (xs.foldl (fun v x => advance x v) v))) := by
  induction xs generalizing s v with
  | nil => cases h; exact ⟨fun e => absurd e hs, fun _ => rfl⟩
  | cons x rest ih =>
    obtain ⟨t, ht, h⟩ := andThen_eq_next h
    have hx : body x (s.withSbst v) = andThen (.next (t.withSbst v))
        fun t => .next (t.withSbst (advance x t.sbst)) := by rw [hb, hc x (by simp), ht]; rfl
    obtain ⟨htf, rfl⟩ | ⟨htf, h⟩ := h
    · rw [forEach, hx, andThen_failed (by exact htf), andThen_failed (by exact htf)]
      exact ⟨fun _ => ⟨v, rfl⟩, fun e => absurd htf e⟩
    · rw [forEach, hx, andThen_next (by exact htf), State.withSbst_withSbst, State.withSbst_sbst,
        andThen_next (by exact htf)]
      exact ih (fun y hy => hc y (by simp [hy])) htf h

/-- `advanceSbst` on `sbst` alone. -/
def advanceIn (old new : SubState) (sb : Fin 32) (v : Vector SubState 32) : Vector SubState 32 :=
  if v[sb] = old then v.set sb new else v

theorem advanceSbst_eq (t : State) (sb : Fin 32) (old new : SubState) :
    t.advanceSbst sb old new = t.withSbst (advanceIn old new sb t.sbst) := by
  unfold State.advanceSbst advanceIn
  split <;> rfl

theorem foldl_advanceIn {old new : SubState} (hne : new ≠ old) (xs : List (Fin 32)) (v : Vector SubState 32) (i : Fin 32) :
    (xs.foldl (fun v x => advanceIn old new x v) v)[i] = if i ∈ xs ∧ v[i] = old then new else v[i] := by
  induction xs generalizing v with
  | nil => simp
  | cons x rest ih =>
    rw [List.foldl_cons, ih]
    have key : (advanceIn old new x v)[i] = if i = x ∧ v[i] = old then new else v[i] := by
      unfold advanceIn
      by_cases h : x = i
      · subst h
        by_cases hv : v[x] = old
        · rw [if_pos hv, if_pos ⟨rfl, hv⟩]; simp
        · rw [if_neg hv, if_neg fun e => hv e.2]
      · have h' : (x : Nat) ≠ i := fun e => h (Fin.ext e)
        split
        · simp [h', Ne.symm h]
        · simp [Ne.symm h]
    rw [key]
    simp only [List.mem_cons]
    generalize v[i] = y
    split_ifs <;> tauto

theorem foldl_sbstMoved {old new : SubState} (hne : new ≠ old) (s : State) (limit : Nat) :
    (subbandsIn 0 limit).foldl (fun v x => advanceIn old new x v) s.sbst = s.sbstMoved limit old new := by
  ext i hi
  have := foldl_advanceIn hne (subbandsIn 0 limit) s.sbst ⟨i, hi⟩
  simp only [Fin.getElem_fin] at this
  rw [this]
  simp [State.sbstMoved, subbandsIn]

/-- What the three loops over subbands come to. -/
theorem advancing_loop {s u : State} (hs : s.seq ≠ .failed) {old new : SubState} (hne : new ≠ old) {limit : Nat}
    {fields body : Fin 32 → State → Result} {f : Fin 32 → Fin 2 → List Format}
    (hb : ∀ sb s, body sb s = andThen (fields sb s) fun t => .next (t.advanceSbst sb old new))
    (hc : ∀ sb s v, fields sb (s.withSbst v) = mapNext (·.withSbst v) (fields sb s))
    (hd : ∀ sb ch, ∀ x ∈ f sb ch, DataFormat x) (hp : p → ∀ sb ch sb' ch', Format.l2Scfsi sb ch ∉ f sb' ch')
    (hf : ∀ sb w, SameFields p s w → w.seq ≠ .failed → (if sb.val < limit then fields sb w else .next w) =
      forEach (List.finRange 2) (fun ch => forEach (f sb ch) runField) w)
    (h : forEach ((List.finRange 32).flatMap fun sb => (List.finRange 2).flatMap (f sb)) runField s = .next u) :
    (u.seq = .failed → ∃ v, forEach (subbandsIn 0 limit) body s = .next (u.withSbst v)) ∧
    (u.seq ≠ .failed → forEach (subbandsIn 0 limit) body s = .next (u.withSbst (u.sbstMoved limit old new))) := by
  have h' : forEach (subbandsIn 0 limit) fields s = .next u := by
    rw [← h, ← forEach_fieldList hs hd hp hf, subbandsIn, forEach_filter _ _ _ hs]
    simp
  have e : u.sbst = s.sbst := by
    have := forEach_withSbst (fun x _ s v => hc x s v) s s.sbst (xs := subbandsIn 0 limit)
    rw [h', State.withSbst_self, h', mapNext_next] at this
    injection this with this
    rw [this]; rfl
  have := forEach_advancing (body := body) (v := s.sbst) (advance := fun x v => advanceIn old new x v)
    (fun x s => by rw [hb]; simp only [advanceSbst_eq]) (fun x _ s v => hc x s v) hs h'
  rw [State.withSbst_self, ← e, foldl_sbstMoved hne] at this
  exact this

end Sys2Proof.Machine
end

