-- ==== Sys2Proof/Laws/Num.lean ====
section
/-! SUPPORT. What the default domain computes, read back from the codes it answers with. -/
namespace Sys2Proof.Machine

/-- A bit pattern's code stands for that pattern. -/
@[simp] theorem F32.ofCode_toNat (x : F32) : F32.ofCode x.toNat = x := by simp [F32.ofCode]

@[simp] theorem ofCode_binary32_add (x y : NumVal) :
    F32.ofCode (NumDomain.binary32.add x y) = F32.add (F32.ofCode x) (F32.ofCode y) := F32.ofCode_toNat _

@[simp] theorem ofCode_binary32_sub (x y : NumVal) :
    F32.ofCode (NumDomain.binary32.sub x y) = F32.sub (F32.ofCode x) (F32.ofCode y) := F32.ofCode_toNat _

@[simp] theorem ofCode_binary32_mul (x y : NumVal) :
    F32.ofCode (NumDomain.binary32.mul x y) = F32.mul (F32.ofCode x) (F32.ofCode y) := F32.ofCode_toNat _

@[simp] theorem ofCode_binary32_fl (c : ExactConst) :
    F32.ofCode (NumDomain.binary32.ops.fl c) = F32.fl c := F32.ofCode_toNat _

@[simp] theorem ofCode_binary32_ratio (num : Int) (den : Nat) :
    F32.ofCode (NumDomain.binary32.ratio num den) = F32.ofRat (num < 0) num.natAbs den := F32.ofCode_toNat _

@[simp] theorem ofCode_binary32_window (i : Fin 512) :
    F32.ofCode (NumDomain.binary32.ops.window i) = Config.windowD i := F32.ofCode_toNat _

/-- A float output sample of the default domain is the code's own bit pattern. -/
@[simp] theorem binary32_toF32 (x : NumVal) : NumDomain.binary32.ops.toF32 x = F32.ofCode x := rfl

end Sys2Proof.Machine
end

