-- ==== Sys2Proof/Laws/PerInstr.lean ====
section
/-! SUPPORT. Statements about every operation as syntax, one lemma per constructor: a well-formed operation that has an
encoding fits the width of its format (30_encoding.md R56, R79), so the decoder never sees a number too wide. -/
namespace Sys2Proof.Laws.EncodingFits

/-- The number of a well-formed operation fits its format. -/
def Statement (i : Instr) : Prop :=
  i.wf = true → ∀ fmt w, encode i = some (fmt, w) → w < 2 ^ fmt.width

/-- An operation without an encoding. -/
theorem ofNone {i : Instr} (h : encode i = none) : Statement i := by
  intro _ fmt w hw
  rw [h] at hw
  cases hw

/-- An operation whose number fits whenever it is well formed. -/
theorem ofSome {i : Instr} {fmt : Format} {w : Nat} (h : encode i = some (fmt, w))
    (hlt : i.wf = true → w < 2 ^ fmt.width) : Statement i := by
  intro hi fmt' w' hw
  rw [h] at hw
  cases hw
  exact hlt hi

/-- Two or three groups that fit their width fit together. -/
theorem joinGroups_lt {width : Nat} {xs : List Nat} (h : ∀ x ∈ xs, x < 2 ^ width) :
    joinGroups width xs < 2 ^ (width * xs.length) := by
  induction xs with
  | nil => simp [joinGroups]
  | cons x rest ih =>
    have hx : x + 1 ≤ 2 ^ width := h x (by simp)
    have hr := ih fun y hy => h y (by simp [hy])
    simp only [joinGroups, List.length_cons, Nat.mul_add, Nat.mul_one, pow_add]
    nlinarith

theorem hdrSyncLoss (h : HeaderFields) : Statement (.hdrSyncLoss h) := ofSome rfl fun _ => h.word.isLt

theorem hdrUnsupVersion (h : HeaderFields) : Statement (.hdrUnsupVersion h) := ofSome rfl fun _ => h.word.isLt

theorem hdrUnsupLayerReserved (h : HeaderFields) : Statement (.hdrUnsupLayerReserved h) :=
  ofSome rfl fun _ => h.word.isLt

theorem hdrUnsupLayerIII (h : HeaderFields) : Statement (.hdrUnsupLayerIII h) := ofSome rfl fun _ => h.word.isLt

theorem hdrUnsupFreeFormat (h : HeaderFields) : Statement (.hdrUnsupFreeFormat h) := ofSome rfl fun _ => h.word.isLt

theorem hdrUnsupBitrate (h : HeaderFields) : Statement (.hdrUnsupBitrate h) := ofSome rfl fun _ => h.word.isLt

theorem hdrUnsupSfreq (h : HeaderFields) : Statement (.hdrUnsupSfreq h) := ofSome rfl fun _ => h.word.isLt

theorem hdrMpeg1L1 (h : HeaderFields) : Statement (.hdrMpeg1L1 h) := ofSome rfl fun _ => h.word.isLt

theorem hdrMpeg1L2 (h : HeaderFields) : Statement (.hdrMpeg1L2 h) := ofSome rfl fun _ => h.word.isLt

theorem hdrMpeg2L1 (h : HeaderFields) : Statement (.hdrMpeg2L1 h) := ofSome rfl fun _ => h.word.isLt

theorem hdrMpeg2L2 (h : HeaderFields) : Statement (.hdrMpeg2L2 h) := ofSome rfl fun _ => h.word.isLt

theorem hdrMpeg25L1 (h : HeaderFields) : Statement (.hdrMpeg25L1 h) := ofSome rfl fun _ => h.word.isLt

theorem hdrMpeg25L2 (h : HeaderFields) : Statement (.hdrMpeg25L2 h) := ofSome rfl fun _ => h.word.isLt

theorem crcWord (c : BitVec 16) : Statement (.crcWord c) := ofSome rfl fun _ => c.isLt

theorem l1Alloc (sb : Fin 32) (ch : Fin 2) (a : BitVec 4) : Statement (.l1Alloc sb ch a) := ofSome rfl fun _ => a.isLt

theorem l1AllocCorrupt (sb : Fin 32) (ch : Fin 2) : Statement (.l1AllocCorrupt sb ch) :=
  ofSome rfl fun _ => show 15 < 2 ^ 4 by decide

theorem l1Scalefactor (sb : Fin 32) (ch : Fin 2) (x : BitVec 6) : Statement (.l1Scalefactor sb ch x) :=
  ofSome rfl fun _ => x.isLt

theorem l1Sample (sb : Fin 32) (ch : Fin 2) (a : BitVec 4) (q : BitVec 16) : Statement (.l1Sample sb ch a q) :=
  ofSome rfl fun h => by simp [Instr.wf] at h; exact h.2

theorem l2Alloc (tab : L2Tab) (sb : Fin 32) (ch : Fin 2) (a : BitVec 4) : Statement (.l2Alloc tab sb ch a) :=
  ofSome rfl fun h => by simp [Instr.wf] at h; exact h.2

theorem l2Scfsi (sb : Fin 32) (ch : Fin 2) (x : BitVec 2) : Statement (.l2Scfsi sb ch x) := ofSome rfl fun _ => x.isLt

theorem l2Scalefactor (sb : Fin 32) (ch : Fin 2) (r : SfRead) : Statement (.l2Scalefactor sb ch r) := by
  refine ofSome rfl fun _ => ?_
  have h := joinGroups_lt (width := 6) (xs := r.indices.map BitVec.toNat) (by simp; intro x _; exact x.isLt)
  cases r <;> simpa [SfRead.indices, SfRead.scfsi, Format.width] using h

theorem l2Grouped (sb : Fin 32) (ch : Fin 2) (n : Nat) (c : BitVec 16) : Statement (.l2Grouped sb ch n c) := by
  refine ofSome rfl fun h => ?_
  simp only [Instr.wf, groupedLevels, Bool.and_eq_true, Bool.or_eq_true, beq_iff_eq, decide_eq_true_eq] at h
  rcases h with ⟨(rfl | rfl) | rfl, h⟩
  · exact lt_trans h (show 3 ^ 3 < 2 ^ 5 by decide)
  · exact lt_trans h (show 5 ^ 3 < 2 ^ 7 by decide)
  · exact lt_trans h (show 9 ^ 3 < 2 ^ 10 by decide)

theorem l2GroupedOutOfRange (sb : Fin 32) (ch : Fin 2) (n : Nat) (c : BitVec 16) :
    Statement (.l2GroupedOutOfRange sb ch n c) :=
  ofSome rfl fun h => by simp [Instr.wf] at h; exact h.2

theorem l2Ungrouped (sb : Fin 32) (ch : Fin 2) (n : Nat) (v0 v1 v2 : BitVec 16) :
    Statement (.l2Ungrouped sb ch n v0 v1 v2) :=
  by
  refine ofSome rfl fun h => ?_
  simp only [Instr.wf, Bool.and_eq_true, decide_eq_true_eq] at h
  have := joinGroups_lt (width := Machine.codeWidth n) (xs := [v0.toNat, v1.toNat, v2.toNat])
    (by simp; exact ⟨h.1.1.2, h.1.2, h.2⟩)
  simpa [Format.width, Nat.mul_comm] using this

theorem ctrlSoftReset (v : CtrlWrite) : Statement (.ctrlSoftReset v) := ofSome rfl fun _ => v.word.isLt

theorem ctrlStart (v : CtrlWrite) : Statement (.ctrlStart v) := ofSome rfl fun _ => v.word.isLt

theorem ctrlStop (v : CtrlWrite) : Statement (.ctrlStop v) := ofSome rfl fun _ => v.word.isLt

theorem ctrlConfig (v : CtrlWrite) : Statement (.ctrlConfig v) := ofSome rfl fun _ => v.word.isLt

theorem regRead (off : Word) : Statement (.regRead off) := ofSome rfl fun _ => off.isLt

theorem readHeaderBytes : Statement .readHeaderBytes := ofNone rfl

theorem fetchFrame : Statement .fetchFrame := ofNone rfl

theorem getBits (n : Nat) : Statement (.getBits n) := ofNone rfl

theorem crcCheck : Statement .crcCheck := ofNone rfl

theorem skipToFrameEnd : Statement .skipToFrameEnd := ofNone rfl

theorem l1Dequant (sb : Fin 32) (ch : Fin 2) (code : BitVec 16) (a : BitVec 4) : Statement (.l1Dequant sb ch code a) :=
  ofNone rfl

theorem l1PutMono (sb : Fin 32) : Statement (.l1PutMono sb) := ofNone rfl

theorem l1PutStereo (sb : Fin 32) : Statement (.l1PutStereo sb) := ofNone rfl

theorem l1PutIntensity (sb : Fin 32) : Statement (.l1PutIntensity sb) := ofNone rfl

theorem rq2 (sb : Fin 32) (ch : Fin 2) (k : Fin 3) (v : BitVec 16) (n : Nat) : Statement (.rq2 sb ch k v n) :=
  ofNone rfl

theorem l2PutMono (sb : Fin 32) : Statement (.l2PutMono sb) := ofNone rfl

theorem l2PutStereo (sb : Fin 32) : Statement (.l2PutStereo sb) := ofNone rfl

theorem l2PutIntensity (sb : Fin 32) : Statement (.l2PutIntensity sb) := ofNone rfl

theorem addSample (f : Fin 2) (sb : Fin 32) (x : NumVal) : Statement (.addSample f sb x) := ofNone rfl

theorem synthStep (f : Fin 2) : Statement (.synthStep f) := ofNone rfl

theorem convert (f : Fin 2) (j : Fin 32) (y : NumVal) : Statement (.convert f j y) := ofNone rfl

theorem emit : Statement .emit := ofNone rfl

end Sys2Proof.Laws.EncodingFits
end

