-- ==== Sys2Proof/Laws/Reference.lean ====
section
/-! SUPPORT. What the exact-real domain computes, read back as real numbers: every operation is the exact one. -/
namespace Sys2Proof.Machine

@[simp] theorem readExact_code (e : ExactExpr) : readExact (exactCode e) = e := by simp [readExact, exactCode]

/-- A cleared element stands for 0. -/
@[simp] theorem referenceValue_zero : referenceValue 0 = 0 := by
  simp [referenceValue, readExact, exactZero, exactValue, exactConstant]

@[simp] theorem referenceValue_add (x y : NumVal) :
    referenceValue (NumDomain.reference.add x y) = referenceValue x + referenceValue y := by
  change exactValue (readExact (exactCode _)) = _
  rw [readExact_code]; rfl

@[simp] theorem referenceValue_sub (x y : NumVal) :
    referenceValue (NumDomain.reference.sub x y) = referenceValue x - referenceValue y := by
  change exactValue (readExact (exactCode _)) = _
  rw [readExact_code]; rfl

@[simp] theorem referenceValue_mul (x y : NumVal) :
    referenceValue (NumDomain.reference.mul x y) = referenceValue x * referenceValue y := by
  change exactValue (readExact (exactCode _)) = _
  rw [readExact_code]; rfl

@[simp] theorem referenceValue_fl (c : ExactConst) : referenceValue (NumDomain.reference.ops.fl c) = exactConstant c := by
  change exactValue (readExact (exactCode _)) = _
  rw [readExact_code]; rfl

@[simp] theorem referenceValue_ratio (num : Int) (den : Nat) :
    referenceValue (NumDomain.reference.ratio num den) = num / den := referenceValue_fl _

@[simp] theorem referenceValue_ofInt (n : Int) : referenceValue (NumDomain.reference.ofInt n) = n := by
  change exactValue (readExact (exactCode _)) = _
  rw [readExact_code]; simp [exactValue, exactConstant]

@[simp] theorem referenceValue_window (i : Fin 512) :
    referenceValue (NumDomain.reference.ops.window i) = F32.value (Config.windowD i) := by
  change exactValue (readExact (exactCode _)) = _
  rw [readExact_code]; rfl

/-- An entry of the synthesis matrix is its cosine (44_synthesis_filter.md R133). -/
@[simp] theorem referenceValue_synthMatrix (i k : Nat) :
    referenceValue (synthMatrix .reference i k) = Real.cos ((((16 + i) * (2 * k + 1) : Nat) : ℝ) * Real.pi / 64) :=
  referenceValue_fl _

/-- A finite binary32 value stands for its number. -/
theorem realOf_binary32 {x : NumVal} (h : F32.isFinite (F32.ofCode x) = true) :
    realOf .binary32 x = some (F32.value (F32.ofCode x) : ℝ) := if_pos h

/-- A sum of exact values, added in any order. -/
theorem referenceValue_foldl_add {α : Type} (g : α → NumVal) (l : List α) (x : NumVal) :
    referenceValue (l.foldl (fun acc a => NumDomain.reference.add acc (g a)) x) =
      referenceValue x + (l.map fun a => referenceValue (g a)).sum := by
  induction l generalizing x with
  | nil => simp
  | cons a rest ih => simp [ih, add_assoc]

end Sys2Proof.Machine
end

