-- ==== Sys2Proof/Laws/Synthesis.lean ====
section
/-! SUPPORT. What the output buffer's and the filters' operations do, once each. -/
namespace Sys2Proof.Machine

/-- A change at an index makes the list long enough and no longer. -/
theorem changeBeat_length (g : Beat → Beat) (l : List Beat) (n : Nat) :
    (changeBeat g l n).length = max l.length (n + 1) := by
  induction n generalizing l with
  | zero => cases l <;> simp [changeBeat]
  | succ n ih => cases l <;> simp [changeBeat, ih]

/-- The changed beat: the one before, or a blank one. -/
theorem changeBeat_same (g : Beat → Beat) (l : List Beat) (n : Nat) :
    (changeBeat g l n)[n]? = some (g (l[n]?.getD Beat.blank)) := by
  induction n generalizing l with
  | zero => cases l <;> simp [changeBeat]
  | succ n ih => cases l <;> simp [changeBeat, ih]

/-- Every other beat is unchanged, if the index is no further than one past the end. -/
theorem changeBeat_other (g : Beat → Beat) {l : List Beat} {n k : Nat} (hn : n ≤ l.length) (hk : k ≠ n) :
    (changeBeat g l n)[k]? = l[k]? := by
  induction n generalizing l k with
  | zero => cases k <;> cases l <;> simp_all [changeBeat]
  | succ n ih =>
    cases l with
    | nil => simp at hn
    | cons b rest => cases k <;> simp_all [changeBeat]

/-- The newest vector of the history is the matrixed input. -/
theorem nextHistory_newest (d : NumDomain) (sIn : Vector NumVal 32) (v : Vector NumVal 1024) {i : Nat} (h : i < 64) :
    (nextHistory d sIn v)[i] = matrixRow d sIn i := by
  simp [nextHistory, h]

/-- An older vector of the history moves by one vector. -/
theorem nextHistory_older (d : NumDomain) (sIn : Vector NumVal 32) (v : Vector NumVal 1024) {i : Nat} (h : i < 960) :
    (nextHistory d sIn v)[i + 64] = v[i] := by
  simp [nextHistory]

/-- Storing a slot's samples changes OB only. -/
theorem State.obPut_foldl (s : State) (f : Fin 2) (x : Fin 32 → Sample) (js : List (Fin 32)) :
    js.foldl (fun t j => t.obPut f j (x j)) s =
      { s with ob := js.foldl (fun ob j => changeBeat (fun b => b.put f (x j)) ob (32 * s.slot + j.val)) s.ob } := by
  induction js generalizing s with
  | nil => rfl
  | cons j rest ih => rw [List.foldl_cons, ih]; rfl

/-- A synthesis step changes its filter and OB only. -/
theorem State.synthStep_eq (s : State) (f : Fin 2) :
    s.synthStep f = { s with
      filt := s.filt.set f
        { s := Vector.replicate 32 0, v := nextHistory s.params.num (s.filt[f]).s (s.filt[f]).v }
      ob := (s.synthStep f).ob } := by
  simp only [State.synthStep, State.obPut_foldl]

end Sys2Proof.Machine
end

