-- ==== Sys2Proof/Tests/Slice0.lean ====
section
/-! SUPPORT. Tests of the model and witnesses of the statements' hypotheses. Every expected value is taken from the spec:
the vectors V1 to V11 of 95_test_vectors.md, or the encodings and tables of 30_encoding.md. -/
open Sys2Proof Sys2Proof.Machine
namespace Sys2Proof.Tests
set_option Elab.async false

/-! ### Helpers -/

/-- The fields of a header word after its 11 sync bits. -/
abbrev hdr (sync : BitVec 11) (ver layer : BitVec 2) (prot : BitVec 1) (bri : BitVec 4) (sfi : BitVec 2)
    (pad priv : BitVec 1) (mode mx : BitVec 2) (copy orig : BitVec 1) (emph : BitVec 2) : HeaderFields :=
  ⟨sync, ⟨ver, layer, prot, bri, sfi, pad, priv, mode, mx, copy, orig, emph⟩⟩

/-- A part of the next state, if there is one. -/
def after {α : Type} (o : Result) (part : State → α) : Option α :=
  match o with
  | .next s => some (part s)
  | .fault _ => none
  | .refused _ => none

/-- The refusal, if there is one. -/
def refusal (o : Result) : Option Refusal :=
  match o with
  | .next _ => none
  | .fault _ => none
  | .refused r => some r

/-- A frame of 32 bytes with the cursor after the header. -/
def frame : State := { State.reset with flen := 32, bitpos := 32, hdr := { HdrRecord.zero with nch := 2 } }

/-- A CTRL value's fields. -/
def ctrl (w : Word) : CtrlWrite := CtrlWrite.ofWord w

/-! ### WellFormed refuses ill-formed operations, one for each check -/

theorem test_wf_header_classes :
    let good := HeaderFields.ofWord 0xFFFF18C0
    (Instr.hdrSyncLoss good).wf = false ∧ (Instr.hdrUnsupVersion good).wf = false ∧
    (Instr.hdrUnsupLayerReserved good).wf = false ∧ (Instr.hdrUnsupLayerIII good).wf = false ∧
    (Instr.hdrUnsupFreeFormat good).wf = false ∧ (Instr.hdrUnsupBitrate good).wf = false ∧
    (Instr.hdrUnsupSfreq good).wf = false ∧ (Instr.hdrMpeg1L2 good).wf = false ∧ (Instr.hdrMpeg2L1 good).wf = false ∧
    (Instr.hdrMpeg2L2 good).wf = false ∧ (Instr.hdrMpeg25L1 good).wf = false ∧ (Instr.hdrMpeg25L2 good).wf = false ∧
    (Instr.hdrMpeg1L1 (HeaderFields.ofWord 0xFFFC14C0)).wf = false := by and_intros <;> decide +kernel

/-- A lower class does not take a header that a higher class takes (30_encoding.md R82). -/
theorem test_wf_header_priority :
    (Instr.hdrUnsupLayerReserved (HeaderFields.ofWord 0xFFE918C0)).wf = false ∧
    (Instr.hdrUnsupBitrate (HeaderFields.ofWord 0xFFEFF8C0)).wf = false ∧
    (Instr.hdrUnsupSfreq (HeaderFields.ofWord 0xFFFF0CC0)).wf = false ∧
    (Instr.hdrMpeg1L1 (HeaderFields.ofWord 0xFFFF1CC0)).wf = false := by and_intros <;> decide +kernel

theorem test_wf_fields :
    (Instr.l1Alloc 0 0 15).wf = false ∧ (Instr.l1Sample 0 0 0 0).wf = false ∧ (Instr.l1Sample 0 0 15 0).wf = false ∧
    (Instr.l1Sample 0 0 1 4).wf = false ∧ (Instr.l2Alloc .c 8 0 0).wf = false ∧ (Instr.l2Alloc .c 2 0 8).wf = false ∧
    (Instr.l2Grouped 0 0 7 0).wf = false ∧ (Instr.l2Grouped 0 0 3 27).wf = false ∧
    (Instr.l2GroupedOutOfRange 0 0 7 0).wf = false ∧ (Instr.l2GroupedOutOfRange 0 0 3 26).wf = false ∧
    (Instr.l2GroupedOutOfRange 0 0 3 32).wf = false ∧ (Instr.l2Ungrouped 0 0 3 0 0 0).wf = false ∧
    (Instr.l2Ungrouped 0 0 7 8 0 0).wf = false ∧ (Instr.l2Ungrouped 0 0 7 0 8 0).wf = false ∧
    (Instr.l2Ungrouped 0 0 7 0 0 8).wf = false := by and_intros <;> decide +kernel

theorem test_wf_commands_and_internal :
    (Instr.ctrlSoftReset (ctrl 1)).wf = false ∧ (Instr.ctrlStart (ctrl 5)).wf = false ∧
    (Instr.ctrlStart (ctrl 0)).wf = false ∧ (Instr.ctrlStop (ctrl 6)).wf = false ∧ (Instr.ctrlStop (ctrl 3)).wf = false ∧
    (Instr.ctrlStop (ctrl 0)).wf = false ∧ (Instr.ctrlConfig (ctrl 4)).wf = false ∧
    (Instr.ctrlConfig (ctrl 1)).wf = false ∧ (Instr.ctrlConfig (ctrl 2)).wf = false ∧
    (Instr.regRead 2).wf = false ∧ (Instr.getBits 0).wf = false ∧ (Instr.getBits 33).wf = false ∧
    (Instr.l1Dequant 0 0 0 0).wf = false ∧ (Instr.l1Dequant 0 0 0 15).wf = false ∧ (Instr.l1Dequant 0 0 4 1).wf = false ∧
    (Instr.rq2 0 0 0 3 3).wf = false ∧ (Instr.rq2 0 0 0 8 7).wf = false ∧ (Instr.rq2 0 0 0 0 4).wf = false := by and_intros <;> decide +kernel

/-! ### Words written out from the spec's encodings decode to what they stand for -/

/-- V2: the rejecting classes, the bits of 30_encoding.md R57 written out field by field. -/
theorem test_decode_rejected_headers :
    decode .hdr32 0x7FFF18C0 = .ok (.hdrSyncLoss (hdr 0x3FF 0b11 0b11 1 0b0001 0b10 0 0 0b11 0 0 0 0)) ∧
    decode .hdr32 0xFFEF18C0 = .ok (.hdrUnsupVersion (hdr 0x7FF 0b01 0b11 1 0b0001 0b10 0 0 0b11 0 0 0 0)) ∧
    decode .hdr32 0xFFF918C0 = .ok (.hdrUnsupLayerReserved (hdr 0x7FF 0b11 0b00 1 0b0001 0b10 0 0 0b11 0 0 0 0)) ∧
    decode .hdr32 0xFFFB18C0 = .ok (.hdrUnsupLayerIII (hdr 0x7FF 0b11 0b01 1 0b0001 0b10 0 0 0b11 0 0 0 0)) ∧
    decode .hdr32 0xFFFF08C0 = .ok (.hdrUnsupFreeFormat (hdr 0x7FF 0b11 0b11 1 0b0000 0b10 0 0 0b11 0 0 0 0)) ∧
    decode .hdr32 0xFFFFF8C0 = .ok (.hdrUnsupBitrate (hdr 0x7FF 0b11 0b11 1 0b1111 0b10 0 0 0b11 0 0 0 0)) ∧
    decode .hdr32 0xFFFF1CC0 = .ok (.hdrUnsupSfreq (hdr 0x7FF 0b11 0b11 1 0b0001 0b11 0 0 0b11 0 0 0 0)) := by and_intros <;> decide +kernel

/-- V1: an accepted header of each class; 0xFFF718C0 and 0xFFE718C0 are 0xFFFF18C0 with versions 10 and 00. -/
theorem test_decode_accepted_headers :
    decode .hdr32 0xFFFF2440 = .ok (.hdrMpeg1L1 (hdr 0x7FF 0b11 0b11 1 0b0010 0b01 0 0 0b01 0 0 0 0)) ∧
    decode .hdr32 0xFFFCE644 = .ok (.hdrMpeg1L2 (hdr 0x7FF 0b11 0b10 0 0b1110 0b01 1 0 0b01 0 0 1 0)) ∧
    decode .hdr32 0xFFF718C0 = .ok (.hdrMpeg2L1 (hdr 0x7FF 0b10 0b11 1 0b0001 0b10 0 0 0b11 0 0 0 0)) ∧
    decode .hdr32 0xFFF5B000 = .ok (.hdrMpeg2L2 (hdr 0x7FF 0b10 0b10 1 0b1011 0b00 0 0 0b00 0 0 0 0)) ∧
    decode .hdr32 0xFFE718C0 = .ok (.hdrMpeg25L1 (hdr 0x7FF 0b00 0b11 1 0b0001 0b10 0 0 0b11 0 0 0 0)) ∧
    decode .hdr32 0xFFE5A13B = .ok (.hdrMpeg25L2 (hdr 0x7FF 0b00 0b10 1 0b1010 0b00 0 1 0b00 0b11 1 0 0b11)) := by and_intros <;> decide +kernel

/-- V2: a reserved version with a reserved layer, or with bitrate 15, is a reserved version. -/
theorem test_decode_header_priority :
    decode .hdr32 0xFFE918C0 = .ok (.hdrUnsupVersion (hdr 0x7FF 0b01 0b00 1 0b0001 0b10 0 0 0b11 0 0 0 0)) ∧
    decode .hdr32 0xFFEFF8C0 = .ok (.hdrUnsupVersion (hdr 0x7FF 0b01 0b11 1 0b1111 0b10 0 0 0b11 0 0 0 0)) := by and_intros <;> decide +kernel

/-- 30_encoding.md R64, R65; P2, P3. -/
theorem test_decode_layer1_fields :
    decode .crc16 0xB023 = .ok (.crcWord 0xB023) ∧
    decode (.l1Alloc 4 1) 0b0001 = .ok (.l1Alloc 4 1 1) ∧ decode (.l1Alloc 4 1) 0b1111 = .ok (.l1AllocCorrupt 4 1) ∧
    decode (.l1Scalefactor 0 0) 0b000011 = .ok (.l1Scalefactor 0 0 3) ∧
    decode (.l1Sample 0 0 1) 0b10 = .ok (.l1Sample 0 0 1 2) ∧
    decode (.l1Sample 31 1 14) 0b100000000000001 = .ok (.l1Sample 31 1 14 16385) := by and_intros <;> decide +kernel

/-- 30_encoding.md R66, R74 to R76; P3, V6, V7. -/
theorem test_decode_layer2_fields :
    decode (.l2Alloc .c 0 0) 0b0001 = .ok (.l2Alloc .c 0 0 1) ∧ decode (.l2Alloc .c 7 0) 0b110 = .ok (.l2Alloc .c 7 0 6) ∧
    decode (.l2Scfsi 0 0) 0b10 = .ok (.l2Scfsi 0 0 2) ∧
    decode (.l2Scalefactor 0 0 0) 0b000011000110001001 = .ok (.l2Scalefactor 0 0 (.three 3 6 9)) ∧
    decode (.l2Scalefactor 0 0 1) 0b000011000110 = .ok (.l2Scalefactor 0 0 (.firstTwo 3 6)) ∧
    decode (.l2Scalefactor 0 0 2) 0b000011 = .ok (.l2Scalefactor 0 0 (.one 3)) ∧
    decode (.l2Scalefactor 0 0 3) 0b000011000110 = .ok (.l2Scalefactor 0 0 (.lastTwo 3 6)) ∧
    decode (.l2Grouped 0 0 9) 0b1011011000 = .ok (.l2Grouped 0 0 9 728) ∧
    decode (.l2Grouped 0 0 5) 0b1111111 = .ok (.l2GroupedOutOfRange 0 0 5 127) ∧
    decode (.l2Ungrouped 0 0 7) 0b001011111 = .ok (.l2Ungrouped 0 0 7 1 3 7) := by and_intros <;> decide +kernel

/-- 10_state.md R17, 30_encoding.md R80; V11. -/
theorem test_decode_commands :
    decode .ctrlWrite 0x7 = .ok (.ctrlSoftReset ⟨true, true, true, false, 0, false, false, 0⟩) ∧
    decode .ctrlWrite 0x81 = .ok (.ctrlStart ⟨true, false, false, false, 0, false, true, 0⟩) ∧
    decode .ctrlWrite 0x3 = .ok (.ctrlStart ⟨true, true, false, false, 0, false, false, 0⟩) ∧
    decode .ctrlWrite 0x42 = .ok (.ctrlStop ⟨false, true, false, false, 0, true, false, 0⟩) ∧
    decode .ctrlWrite 0x98 = .ok (.ctrlConfig ⟨false, false, false, true, 1, false, true, 0⟩) ∧
    decode .ctrlWrite 0xABCDEF30 = .ok (.ctrlConfig ⟨false, false, false, false, 3, false, false, 0xABCDEF⟩) ∧
    decode .regRead 0x24 = .ok (.regRead 0x24) := by and_intros <;> decide +kernel

/-- What is no operation of its format is refused by name. -/
theorem test_decode_refusals :
    decode (.l1Alloc 0 0) 16 = .error .tooWide ∧ decode (.l1Sample 0 0 0) 0 = .error .notAllocated ∧
    decode (.l1Sample 0 0 15) 0 = .error .notAllocated ∧ decode (.l2Alloc .c 8 0) 0 = .error .noSuchSubband ∧
    decode (.l2Grouped 0 0 7) 0 = .error .noSuchClass ∧ decode (.l2Ungrouped 0 0 9) 0 = .error .noSuchClass ∧
    decode (.l2Ungrouped 0 0 11) 0 = .error .noSuchClass ∧ decode .regRead 0x26 = .error .unalignedOffset := by and_intros <;> decide +kernel

/-- Stream words are big-endian, register words little-endian (20_memory.md R42, R43). -/
theorem test_byte_orders :
    wordOfStream [0xFF, 0xFF, 0x18, 0xC0] = 0xFFFF18C0 ∧ wordOfBus [0x98, 0, 0, 0] = 0x98 ∧
    busBytes 0x12345678 = [0x78, 0x56, 0x34, 0x12] := by and_intros <;> decide +kernel

/-- The host's numbering of a row's bits. -/
theorem test_table_words :
    decodeTableWord 32 0xFFFF18C0 = some (.hdrMpeg1L1 (HeaderFields.ofWord 0xFFFF18C0)) ∧
    decodeTableWord 16 0xB023 = some (.crcWord 0xB023) ∧ decodeTableWord 8 0x98 = some (.ctrlConfig (ctrl 0x98)) := by and_intros <;> decide +kernel

/-! ### V1, V2: headers -/

/-- The fields of V1's columns: kbit/s, Hz, flen, nch, table, sblimit, bound. -/
def v1 (w : Word) : Nat × Nat × Nat × Nat × Option L2Tab × Nat × Nat :=
  let r := headerRecord .both (HeaderFields.ofWord w).raw
  (r.bitrate, r.fs, r.flen, r.nch, r.l2tab, r.sblimit, r.bound)

theorem test_v1_layer1 :
    v1 0xFFFF18C0 = (32, 32000, 48, 1, none, 32, 32) ∧ v1 0xFFFF14C0 = (32, 48000, 32, 1, none, 32, 32) ∧
    v1 0xFFFF2440 = (64, 48000, 64, 2, none, 32, 4) := by and_intros <;> decide +kernel

theorem test_v1_layer2 :
    v1 0xFFFC14C0 = (32, 48000, 96, 1, some .c, 8, 8) ∧ v1 0xFFFD9000 = (160, 44100, 522, 2, some .a, 27, 27) ∧
    v1 0xFFFD9200 = (160, 44100, 523, 2, some .a, 27, 27) ∧ v1 0xFFFC9604 = (160, 48000, 481, 2, some .a, 27, 27) ∧
    v1 0xFFFDE400 = (384, 48000, 1152, 2, some .a, 27, 27) ∧ v1 0xFFFC4444 = (64, 48000, 192, 2, some .c, 8, 4) ∧
    v1 0xFFFC5444 = (80, 48000, 240, 2, some .c, 8, 4) ∧ v1 0xFFFCE644 = (384, 48000, 1153, 2, some .a, 27, 4) ∧
    v1 0xFFF5B000 = (112, 22050, 731, 2, some .lsf, 30, 30) ∧ v1 0xFFE5A000 = (96, 11025, 1253, 2, some .lsf, 30, 30) := by and_intros <;> decide +kernel

/-- V1: INFO, HEADER, `flen` and the sequencer after an accepted header; the latched CHANSEL decides `nch_out`. -/
theorem test_header_accepted :
    after (exec (.hdrMpeg1L1 (HeaderFields.ofWord 0xFFFF18C0)) State.reset)
      (fun s => (s.info, s.header, s.flen, s.seq)) = some (0x18200030, 0xFFFF18C0, 48, .fetch) ∧
    after (exec (.hdrMpeg1L2 (HeaderFields.ofWord 0xFFFC14C0)) State.reset)
      (fun s => (s.info, s.statusWord)) = some (0x12080060, 0x4003) ∧
    after (exec (.hdrMpeg1L1 (HeaderFields.ofWord 0xFFFF2440)) State.reset)
      (fun s => (s.info, s.statusWord)) = some (0x21200040, 0x2003) ∧
    after (exec (.hdrMpeg2L1 (HeaderFields.ofWord 0xFFF718C0)) State.reset)
      (fun s => (s.hdr.bitrate, s.hdr.fs, s.hdr.flen)) = some (32, 16000, 96) ∧
    after (exec (.hdrMpeg2L2 (HeaderFields.ofWord 0xFFF5B000)) State.reset) (fun s => s.flen) = some 731 ∧
    after (exec (.hdrMpeg25L1 (HeaderFields.ofWord 0xFFE718C0)) State.reset)
      (fun s => (s.hdr.bitrate, s.hdr.fs, s.hdr.flen)) = some (32, 8000, 192) ∧
    after (exec (.hdrMpeg25L2 (HeaderFields.ofWord 0xFFE5A000)) State.reset) (fun s => s.flen) = some 1253 := by and_intros <;> decide +kernel

/-- V2: ERRCODE, ERRDETAIL and HEADER after each rejection; ERR_OFFSET is the frame's start. -/
theorem test_v2_rejections :
    let run := fun (i : Instr) => after (exec i { State.reset with header := 5, frameStart := 48 })
      (fun s => (s.errcode.code, s.errdetail, s.header, s.errOffset))
    run (.hdrSyncLoss (HeaderFields.ofWord 0x7FFF18C0)) = some (1, 0, 5, 48) ∧
    run (.hdrUnsupVersion (HeaderFields.ofWord 0xFFEF18C0)) = some (2, 1, 0xFFEF18C0, 48) ∧
    run (.hdrUnsupLayerReserved (HeaderFields.ofWord 0xFFF918C0)) = some (2, 2, 0xFFF918C0, 48) ∧
    run (.hdrUnsupLayerIII (HeaderFields.ofWord 0xFFFB18C0)) = some (2, 3, 0xFFFB18C0, 48) ∧
    run (.hdrUnsupFreeFormat (HeaderFields.ofWord 0xFFFF08C0)) = some (2, 4, 0xFFFF08C0, 48) ∧
    run (.hdrUnsupBitrate (HeaderFields.ofWord 0xFFFFF8C0)) = some (2, 5, 0xFFFFF8C0, 48) ∧
    run (.hdrUnsupSfreq (HeaderFields.ofWord 0xFFFF1CC0)) = some (2, 6, 0xFFFF1CC0, 48) := by and_intros <;> decide +kernel

/-- 30_encoding.md R67: one frame of each table; 32 kHz with cbi 1 is D, 44.1 kHz with cbi 6 is B. -/
theorem test_table_selection :
    selectL2Tab false 1 1 32000 = .d ∧ selectL2Tab false 1 1 44100 = .c ∧ selectL2Tab false 1 6 44100 = .b ∧
    selectL2Tab false 1 6 48000 = .a ∧ selectL2Tab false 2 9 32000 = .a ∧ selectL2Tab true 2 9 24000 = .lsf := by and_intros <;> decide +kernel

/-! ### V3: the CRC -/

theorem test_v3_crc :
    crcAdd 0xFFFF 1 1 = 0xFFFE ∧ crcAdd 0xFFFF 0 1 = 0x7FFB ∧ crcAdd 0xFFFF 0 16 = 0x800D ∧
    crcAdd 0xFFFF 0xFFFF 16 = 0 ∧ crcAdd 0xFFFF 0x14C0 16 = 0xFA8D ∧
    [0x31, 0x32, 0x33, 0x34, 0x35, 0x36, 0x37, 0x38, 0x39].foldl (fun c b => crcAdd c b 8) 0xFFFF#16 = 0xAEE7 := by and_intros <;> decide +kernel

/-- P3's covered fields after the header: allocations 0001, 0000, six 000, and SCFSI 10. -/
theorem test_v3_p3_check_word : crcAdd (crcAdd 0xFA8D (0b0001 * 2 ^ 22) 26) 0b10 2 = 0xB023 := by decide +kernel

/-! ### V4, V5, V6: dequantization -/

theorem test_v4_dequant :
    l1DequantValue .binary32 0 1 = 0xBF2AAAAB ∧ l1DequantValue .binary32 1 1 = 0 ∧ l1DequantValue .binary32 2 1 = 0x3F2AAAAB ∧
    l1DequantValue .binary32 3 1 = 0x3FAAAAAA ∧ l1DequantValue .binary32 0 2 = 0xBF5B6DB7 ∧ l1DequantValue .binary32 1 2 = 0xBF124924 ∧
    l1DequantValue .binary32 3 2 = 0x33800000 ∧ l1DequantValue .binary32 6 2 = 0x3F5B6DB9 ∧ l1DequantValue .binary32 7 2 = 0x3F924924 ∧
    l1DequantValue .binary32 0 3 = 0xBF6EEEEF ∧ l1DequantValue .binary32 14 3 = 0x3F6EEEF1 ∧ l1DequantValue .binary32 0 14 = 0xBF7FFE00 ∧
    l1DequantValue .binary32 16383 14 = 0 ∧ l1DequantValue .binary32 32767 14 = 0x3F800100 := by and_intros <;> decide +kernel

theorem test_v5_rq2 :
    rq2Value .binary32 0 3 = 0xBF2AAAAB ∧ rq2Value .binary32 1 3 = 0 ∧ rq2Value .binary32 2 3 = 0x3F2AAAAB ∧ rq2Value .binary32 1 5 = 0xBECCCCCD ∧
    rq2Value .binary32 4 5 = 0x3F4CCCCD ∧ rq2Value .binary32 0 7 = 0xBF5B6DB8 ∧ rq2Value .binary32 1 7 = 0xBF124925 ∧ rq2Value .binary32 7 7 = 0x3F924925 ∧
    rq2Value .binary32 0 9 = 0xBF638E39 ∧ rq2Value .binary32 8 9 = 0x3F638E39 ∧ rq2Value .binary32 0 15 = 0xBF6EEEF0 ∧ rq2Value .binary32 15 15 = 0x3F888889 ∧
    rq2Value .binary32 0 65535 = 0xBF7FFF00 ∧ rq2Value .binary32 32767 65535 = 0 ∧ rq2Value .binary32 65535 65535 = 0x3F800080 := by and_intros <;> decide +kernel

/-- The samples of subband 0 of channel 0 after an operation, and DIAG_BAD_GROUP. -/
def triplet (o : Result) : Option (List NumVal × Word) := after o fun s => ((s.sub 0 0).smp.toList, s.diagBadGroup)

theorem test_v6_grouped :
    triplet (exec (.l2Grouped 0 0 3 5) frame) = some ([0x3F2AAAAB, 0, 0xBF2AAAAB], 0) ∧
    triplet (exec (.l2Grouped 0 0 5 37) frame) = some ([0, 0, 0xBECCCCCD], 0) ∧
    triplet (exec (.l2GroupedOutOfRange 0 0 3 31) frame) = some ([0x3F2AAAAB, 0x3F2AAAAB, 0x3F2AAAAB], 1) ∧
    triplet (exec (.l2GroupedOutOfRange 0 0 9 1000) frame) = some ([0x3F638E39, 0x3F638E39, 0x3F638E39], 1) := by and_intros <;> decide +kernel

theorem test_ungrouped :
    triplet (exec (.l2Ungrouped 0 0 7 0 1 7) frame) = some ([0xBF5B6DB8, 0xBF124925, 0x3F924925], 0) ∧
    triplet (exec (.rq2 0 0 1 7 7) frame) = some ([0, 0x3F924925, 0], 0) ∧
    triplet (exec (.l1Sample 0 0 1 2) frame) = some ([0x3F2AAAAB, 0, 0], 0) ∧
    triplet (exec (.l1Dequant 0 0 0 1) frame) = some ([0xBF2AAAAB, 0, 0], 0) := by and_intros <;> decide +kernel

/-! ### V7: scale factors and parts -/

theorem test_v7_scale_factors :
    let sf := scaleFactor Params.default
    sf 0 = 0x40000000 ∧ sf 1 = 0x3FCB2FF5 ∧ sf 2 = 0x3FA14518 ∧ sf 3 = 0x3F800000 ∧ sf 4 = 0x3F4B2FF5 ∧
    sf 5 = 0x3F214518 ∧ sf 6 = 0x3F000000 ∧ sf 62 = 0x35A14518 ∧ sf 63 = 0x35800000 := by and_intros <;> decide +kernel

/-- 30_encoding.md R73: the cubes of half a last place below and above SF[1] and SF[2] enclose 4 and 2, so those
entries are the nearest binary32 values (the unit is 2^-24). -/
theorem test_scale_factor_roots :
    let m1 := 2 * (2 ^ 23 + 0x4B2FF5)
    let m2 := 2 * (2 ^ 23 + 0x214518)
    (m1 - 1) ^ 3 < 4 * 2 ^ 72 ∧ 4 * 2 ^ 72 < (m1 + 1) ^ 3 ∧ (m2 - 1) ^ 3 < 2 * 2 ^ 72 ∧ 2 * 2 ^ 72 < (m2 + 1) ^ 3 := by and_intros <;> decide +kernel

theorem test_v7_parts :
    let parts := fun (r : SfRead) => after (exec (.l2Scalefactor 0 0 r) frame) fun s => ((s.sub 0 0).sfx.toList, s.bitpos)
    parts (.three 3 6 9) = some ([3, 6, 9], 50) ∧ parts (.firstTwo 3 6) = some ([3, 3, 6], 44) ∧
    parts (.one 3) = some ([3, 3, 3], 38) ∧ parts (.lastTwo 3 6) = some ([3, 6, 6], 44) := by and_intros <;> decide +kernel

/-- V7, L1.8: triplets 1 to 4, 5 to 8 and 9 to 12. -/
theorem test_v7_part_thresholds :
    [1, 4, 5, 8, 9, 12].map scalePart = [0, 0, 1, 1, 2, 2] := by decide +kernel

/-! ### V8: the bit reader -/

theorem test_v8_get_bits :
    let s := { State.reset with fb := [(0, 0x0E), (1, 0x55)], flen := 2 }
    after (exec (.getBits 6) s) (fun s => (s.bits, s.bitpos)) = some (3, 6) ∧
    after (exec (.getBits 2) { s with bitpos := 6 }) (fun s => (s.bits, s.bitpos)) = some (2, 8) ∧
    after (exec (.getBits 8) { s with bitpos := 8 }) (fun s => (s.bits, s.bitpos)) = some (0x55, 16) := by and_intros <;> decide +kernel

theorem test_v8_frame_end :
    after (exec (.getBits 15) { frame with bitpos := 250 }) (fun s => (s.errcode, s.errdetail, s.bitpos)) =
      some (.bitstreamUnderrun, 2, 250) ∧
    after (exec (.getBits 15) { frame with bitpos := 241 }) (fun s => (s.errcode, s.bitpos)) = some (.none, 256) := by and_intros <;> decide +kernel

/-- V8: the fourth header byte; R83: the first byte marks the frame's start; E2: EOS after two bytes. -/
theorem test_v8_header_bytes :
    let s := { State.reset with seq := .header, byteCount := 48, src := ⟨[0xFF], false⟩ }
    after (exec .readHeaderBytes s) (fun s => (s.hdrWord, s.frameStart, s.byteCount, s.fb)) =
      some (0xFF, 48, 49, [(0, 0xFF)]) ∧
    after (exec .readHeaderBytes { s with hdrBytes := 3, hdrWord := 0xFFFF18, src := ⟨[0xC0], false⟩ })
      (fun s => (s.hdrWord, s.header, s.seq)) = some (0xFFFF18C0, 0xFFFF18C0, .fetch) ∧
    after (exec .readHeaderBytes { s with hdrBytes := 2, src := ⟨[], true⟩ })
      (fun s => (s.errcode, s.errdetail, s.header)) = some (.bitstreamUnderrun, 1, 0) ∧
    after (exec .readHeaderBytes { s with src := ⟨[], true⟩ }) (fun s => s.seq) = some .done := by and_intros <;> decide +kernel

/-- P3: the last byte of a protected frame ends FETCH with the cursor at bit 48 and the check word of bytes 4 and 5. -/
theorem test_fetch_end :
    let s := { State.reset with
      seq := .fetch, flen := 96, byteCount := 95, hdrWord := 0xFFFC14C0, src := ⟨[0x00], true⟩
      fb := [(0, 0xFF), (1, 0xFC), (2, 0x14), (3, 0xC0), (4, 0xB0), (5, 0x23)] }
    after (exec .fetchFrame s) (fun s => (s.seq, s.bitpos, s.crc, s.crcWord, s.byteCount)) =
      some (.alloc, 48, 0xFA8D, 0xB023, 96) ∧
    after (exec .fetchFrame { s with byteCount := 30, src := ⟨[], true⟩ }) (fun s => (s.errcode, s.errdetail, s.byteCount)) =
      some (.bitstreamUnderrun, 1, 30) := by and_intros <;> decide +kernel

/-- R104: the check word moves the cursor by 16 and is not fed. -/
theorem test_crc_word : after (exec (.crcWord 0xB023) frame) (fun s => (s.crcWord, s.bitpos, s.crc)) =
    some (0xB023, 48, 0) := by decide +kernel

/-- E5, E5s: a mismatch is counted in lenient mode and fatal in strict mode. -/
theorem test_crc_check :
    let s := { frame with crc := 0xB023, crcWord := 0xB024, seq := .scfsi }
    after (exec .crcCheck s) (fun s => (s.diagCrcMismatch, s.errcode, s.seq)) = some (1, .none, .scfsi) ∧
    after (exec .crcCheck { s with cfg := { s.cfg with strict := true } }) (fun s => (s.diagCrcMismatch, s.errcode, s.seq)) =
      some (0, .crcMismatch, .failed) := by and_intros <;> decide +kernel

theorem test_skip_to_frame_end : after (exec .skipToFrameEnd frame) (fun s => s.bitpos) = some 256 := by decide +kernel

/-! ### Allocation, SCFSI, scale factors -/

/-- P2: allocation 1 is 3 levels, 2-bit codes; E4, E4s: code 15 is 14 in lenient mode and fatal in strict mode. -/
theorem test_l1_alloc :
    let part := fun (s : State) => ((s.sub 0 0).alloc, (s.sub 0 0).lev, (s.sub 0 0).cw, s.diagCorruptAlloc, s.crc)
    after (exec (.l1Alloc 0 0 1) { frame with crc := 0xFFFF }) part = some (1, 3, 2, 0, crcAdd 0xFFFF 1 4) ∧
    after (exec (.l1AllocCorrupt 0 0) { frame with crc := 0xFFFF }) part =
      some (14, 32767, 15, 1, crcAdd 0xFFFF 15 4) ∧
    after (exec (.l1AllocCorrupt 0 0) { frame with cfg := ⟨true, .both, .pcm16⟩ })
      (fun s => (s.errcode, s.errdetail, s.diagCorruptAlloc)) = some (.corruptAllocation, 1, 0) := by and_intros <;> decide +kernel

/-- P3: allocation 1 of table C is 3 levels, grouped, 5-bit codes; 30_encoding.md R68: code 15 of table A is 65535. -/
theorem test_l2_alloc :
    let part := fun (s : State) => ((s.sub 0 0).alloc, (s.sub 0 0).lev, (s.sub 0 0).cw, (s.sub 0 0).grp, s.bitpos)
    after (exec (.l2Alloc .c 0 0 1) frame) part = some (1, 3, 5, true, 36) ∧
    after (exec (.l2Alloc .a 0 0 15) frame) part = some (15, 65535, 16, false, 36) := by and_intros <;> decide +kernel

theorem test_l1_scalefactor_and_scfsi :
    after (exec (.l1Scalefactor 0 1 3) frame) (fun s => ((s.sub 1 0).sfx.toList, s.crc)) = some ([3, 0, 0], 0) ∧
    after (exec (.l2Scfsi 0 0 2) { frame with crc := 0xFFFF }) (fun s => ((s.sub 0 0).scfsi, s.crc)) =
      some (2, crcAdd 0xFFFF 2 2) := by and_intros <;> decide +kernel

/-! ### Puts -/

/-- Subband 4 with a shared sample 2/3, scale-factor indices 3 and 6, as P5 has it. -/
def intensity (sel : ChanSel) (alloc1 : BitVec 4) : State :=
  let c0 : SubCtx := { SubCtx.zero with alloc := 1, sfx := #v[3, 3, 3], smp := #v[0x3F2AAAAB, 0x3F2AAAAB, 0x3F2AAAAB] }
  let s := { frame with cfg := ⟨false, sel, .pcm16⟩, sn := 1, gn := 5 }.setSub 0 4 c0
  s.setSub 1 4 { c0 with alloc := alloc1, sfx := #v[6, 6, 6], smp := #v[0xBF2AAAAB, 0xBF2AAAAB, 0xBF2AAAAB] }

/-- `S_0[4]` and `S_1[4]` after an operation. -/
def inputs (o : Result) : Option (NumVal × NumVal) := after o fun s => (s.filt[0].s[4], s.filt[1].s[4])

/-- P5 and its variants: 2/3 and 1/3 of the one shared magnitude. -/
theorem test_intensity_puts :
    inputs (exec (.l1PutIntensity 4) (intensity .both 1)) = some (0x3F2AAAAB, 0x3EAAAAAB) ∧
    inputs (exec (.l1PutIntensity 4) (intensity .left 1)) = some (0x3F2AAAAB, 0) ∧
    inputs (exec (.l1PutIntensity 4) (intensity .right 1)) = some (0x3EAAAAAB, 0) ∧
    inputs (exec (.l2PutIntensity 4) (intensity .both 1)) = some (0x3F2AAAAB, 0x3EAAAAAB) := by and_intros <;> decide +kernel

/-- R112, R129: each channel's own sample; RIGHT goes to filter 0; an unallocated channel adds nothing. -/
theorem test_stereo_puts :
    inputs (exec (.l1PutStereo 4) (intensity .both 1)) = some (0x3F2AAAAB, 0xBEAAAAAB) ∧
    inputs (exec (.l1PutStereo 4) (intensity .right 1)) = some (0xBEAAAAAB, 0) ∧
    inputs (exec (.l2PutStereo 4) (intensity .both 0)) = some (0x3F2AAAAB, 0) ∧
    inputs (exec (.l2PutStereo 4) (intensity .right 1)) = some (0xBEAAAAAB, 0) := by and_intros <;> decide +kernel

theorem test_mono_puts :
    inputs (exec (.l1PutMono 4) (intensity .both 0)) = some (0x3F2AAAAB, 0) ∧
    inputs (exec (.l2PutMono 4) (intensity .left 0)) = some (0x3F2AAAAB, 0) ∧
    inputs (exec (.l1PutMono 5) (intensity .both 0)) = some (0, 0) := by and_intros <;> decide +kernel

/-! ### V9: the synthesis filter -/

/-- V9, column 0 of the matrix: within one binary32 last place (2^-24) of the eight digits given. -/
theorem test_v9_matrix_column :
    ([(0, 70710678), (1, 67155895), (15, 4906767), (16, 0), (17, -4906767), (32, -70710678), (33, -74095113)] ++
      [(48, -100000000), (63, -74095113)]).all (fun (c : Nat × Int) =>
        decide ((F32.scaled (F32.ofCode (synthMatrix .binary32 c.1 0)) * 10 ^ 8 - c.2 * 2 ^ 149).natAbs * 2 ^ 24 < 10 ^ 8 * 2 ^ 149)) = true := by
  decide +kernel

/-- cos(m·π/64) by its Taylor series in units of 2^-100, from π to 100 binary places. -/
def cosScaled (m : Nat) : Int :=
  let x : Int := m * 0x3243f6a8885a308d313198a2e0 / 64
  let x2 : Int := x * x / 2 ^ 100
  ((List.range 14).foldl (fun (acc : Int × Int) k =>
    (acc.1 + acc.2, -(acc.2 * x2 / 2 ^ 100) / ((2 * k + 1) * (2 * k + 2)))) (0, 2 ^ 100)).1

/-- 44_synthesis_filter.md R133, 00_scope.md R10: each entry of the cosine table is the binary32 value nearest its
exact value. -/
theorem test_cosines_are_nearest :
    (List.range 32).all (fun m =>
      F32.ofRat false (cosScaled m - 2 ^ 30).toNat (2 ^ 100) == F32.cosTable.getD m 1 &&
        F32.ofRat false (cosScaled m + 2 ^ 30).toNat (2 ^ 100) == F32.cosTable.getD m 1) = true := by decide +kernel

/-- V9: the impulse 2/3 in subband 0 gives fl(N[i][0] · fl(2/3)) in the newest vector. -/
theorem test_v9_impulse :
    let sIn := (Vector.replicate 32 0).set 0 0x3F2AAAAB
    let row := matrixRow .binary32 sIn
    row 0 = NumDomain.binary32.mul 0x3F3504F3 0x3F2AAAAB ∧ F32.isZero (F32.ofCode (row 16)) = true ∧ row 48 = 0xBF2AAAAB := by and_intros <;> decide +kernel

/-- R134 step 3: U takes the first half of every even vector and the second half of every odd one. -/
theorem test_u_vector :
    let v := ((Vector.replicate 1024 0).set 31 1).set 96 2
    let w := ((Vector.replicate 1024 0).set 128 3).set 1023 4
    buildU v 31 = 1 ∧ buildU v 32 = 2 ∧ buildU w 64 = 3 ∧ buildU w 511 = 4 := by and_intros <;> decide +kernel

theorem test_synth_step :
    after (exec (.synthStep 0) (intensity .both 1)) (fun s => (s.ob.length, s.filt[0].s[4], s.seq)) = some (32, 0, .idle) ∧
    after (exec (.addSample 1 4 0x3F800000) frame) (fun s => (s.filt[1].s[4], s.filt[0].s[4])) = some (0x3F800000, 0) := by and_intros <;> decide +kernel

/-! ### V10: conversion -/

theorem test_v10_pcm16 :
    let pcm := fun (y : NumVal) => convertSample Params.default .pcm16 y
    pcm 0 = .pcm16 0 ∧ pcm 0x3F000000 = .pcm16 16384 ∧ pcm 0xBF000000 = .pcm16 (-16384) ∧
    pcm (NumDomain.binary32.ratio (-1) 100000) = .pcm16 0 ∧ pcm 0x3F2AAAAB = .pcm16 21845 ∧ pcm 0xBF2AAAAB = .pcm16 (-21845) ∧
    pcm (NumDomain.binary32.ratio 99997 100000) = .pcm16 32767 ∧ pcm (NumDomain.binary32.ratio 32767 32768) = .pcm16 32767 ∧
    pcm 0x3F800000 = .pcm16 32767 ∧ pcm 0x3FC00000 = .pcm16 32767 ∧ pcm 0xBF800000 = .pcm16 (-32768) ∧
    pcm (NumDomain.binary32.ratio (-999999) 1000000) = .pcm16 (-32767) ∧ pcm 0xBFA00000 = .pcm16 (-32768) := by and_intros <;> decide +kernel

/-- V10's last line: rounding to nearest, ties to even, is the other choice of PCM_CONVERT. -/
theorem test_v10_nearest_even :
    let pcm := pcm16Of { Params.default with pcmConvert := .nearestEven }
    pcm 0x3F2AAAAB = 21845 ∧ pcm (NumDomain.binary32.ratio (-1) 100000) = 0 ∧ pcm (NumDomain.binary32.ratio 99999 100000) = 32767 := by
  and_intros <;> decide +kernel

/-- 00_scope.md R8: a run uses the parameters it is given. 1.5 / 32768 is between the codes 1 and 2, a tie goes to 2. -/
theorem test_parameters_are_used :
    let y := NumDomain.binary32.ratio 3 65536
    let code := fun (p : Params) =>
      after (exec (.convert 0 0 y) { frame with params := p }) fun s => s.ob[0]?
    code Params.default = some (some ⟨some (.pcm16 1), none⟩) ∧
    code { Params.default with pcmConvert := .nearestEven } = some (some ⟨some (.pcm16 2), none⟩) ∧
    code { Params.default with outScale := 16384 } = some (some ⟨some (.pcm16 0), none⟩) := by
  and_intros <;> decide +kernel

/-- 00_scope.md R8: the other operations of `NUM`: 0.5 - 0.75 = -0.25; -0 and +0 are equal. -/
theorem test_num_subtraction_comparison :
    let d := NumDomain.binary32
    d.sub 0x3F000000 0x3F400000 = 0xBE800000 ∧ d.sub 0x3F000000 0x3F000000 = 0 ∧ d.ofInt (-3) = 0xC0400000 ∧
    d.compare? 0x80000000 0 = some .eq ∧ d.compare? 0xBF800000 0x3F000000 = some .lt ∧
    d.compare? 0x7F800000 0x7F7FFFFF = some .gt ∧ d.compare? 0x7FC00000 0 = none := by and_intros <;> decide +kernel

/-- 00_scope.md R10: 0.5 lies within 1e-4 of 0.50009 and not of 0.50011. -/
theorem test_tolerance :
    withinTol Params.default 0x3F000000 (50009 / 100000) ∧ ¬withinTol Params.default 0x3F000000 (50011 / 100000) := by
  have hf : F32.isFinite (F32.ofCode 0x3F000000) = true := by decide +kernel
  have hv : F32.value (F32.ofCode 0x3F000000) = 1 / 2 := by decide +kernel
  have ht : Params.default.tol = 1 / 10000 := by decide +kernel
  constructor
  · exact ⟨_, realOf_binary32 hf, by rw [hv, ht, abs_le]; constructor <;> norm_num⟩
  · rintro ⟨x, hx, h⟩
    cases (realOf_binary32 hf).symm.trans hx
    rw [hv, ht, abs_le] at h
    norm_num at h

/-- 00_scope.md R10: the reference is irrational, cos(π/4), and the binary32 constant of it lies within TOL. -/
theorem test_tolerance_of_irrational_reference :
    withinTol Params.default 0x3F3504F3 (exactConstant (.cosine 16)) := by
  have hf : F32.isFinite (F32.ofCode 0x3F3504F3) = true := by decide +kernel
  have hv : F32.value (F32.ofCode 0x3F3504F3) = 11863283 / 2 ^ 24 := by decide +kernel
  have ht : Params.default.tol = 1 / 10000 := by decide +kernel
  have hc : exactConstant (.cosine 16) = √2 / 2 := by
    rw [← Real.cos_pi_div_four]; simp only [exactConstant]; congr 1; push_cast; ring
  have hlo : (1.41421 : ℝ) ≤ √2 := Real.le_sqrt_of_sq_le (by norm_num)
  have hhi : √2 ≤ (1.41422 : ℝ) := Real.sqrt_le_iff.mpr (by norm_num)
  refine ⟨_, realOf_binary32 hf, ?_⟩
  rw [hv, ht, hc, abs_le]
  push_cast
  constructor <;> linarith

/-- 42_layer1_decode.md R110, 00_scope.md R10: code 2 of 3 levels is exactly 2/3 in the reference evaluation. -/
theorem test_reference_value : referenceValue (l1DequantValue .reference 2 1) = 2 / 3 := by
  have hf : tableFactor .reference 1 = NumDomain.reference.ratio 2 3 := rfl
  have ho : tableOffset .reference 1 = NumDomain.reference.ratio (-2) 3 := rfl
  rw [l1DequantValue, hf, ho, show ((2 : BitVec 16).toNat : Int) = 2 from rfl]
  simp only [referenceValue_add, referenceValue_mul, referenceValue_ofInt, referenceValue_ratio]
  norm_num

/-- 70_reset_and_hazards.md R176: a fresh START begins the reference evaluation, which takes its steps in another `NUM`. -/
theorem test_reference_begins :
    (match exec (.ctrlStart (ctrl 1)) State.reset with
      | .next s => Shadows s s.inReference ∧ s.inReference.seq = .awaitSync ∧ s.inReference.params.num = .reference
      | .fault _ => False
      | .refused _ => False) := ⟨.start (.inl rfl) rfl, by decide +kernel, by decide +kernel⟩

/-- 00_scope.md R8: a run in another `NUM` computes with that domain's operations, here code 2 of 3 levels. -/
theorem test_another_num :
    let d := Config.otherNum 7
    after (exec (.l1Dequant 0 0 2 1) { frame with params := { Params.default with num := .other 7 } })
        (fun s => (s.sub 0 0).smp[0]) =
      some (d.add (d.mul (d.ofInt 2) (d.fl (.ratio 2 3))) (d.fl (.ratio (-2) 3))) := rfl

/-- 70_reset_and_hazards.md R187: a run's beats are its own, not those of the session before a resume. -/
theorem test_observation_of_a_later_session :
    let b : Beat := ⟨some (.pcm16 7), none⟩
    let entry := { State.reset with seq := .awaitSync, delivered := [⟨b, true⟩] }
    let final := { entry with seq := .done, delivered := [⟨b, true⟩, ⟨b, false⟩] }
    (observe entry final).beats = [⟨b, false⟩] ∧ final.ended = true ∧ (observe entry final).registers[1]? = some 9 := by
  and_intros <;> decide +kernel

/-- 20_memory.md R43: in another `NUM` a float sample is a binary32 pattern too, which the model leaves free. -/
theorem test_another_num_float_sample :
    convertSample { Params.default with num := .other 7 } .float32 5 = .float32 ((Config.otherNum 7).toF32 5) := rfl

theorem test_convert :
    after (exec (.convert 0 2 0x3FC00000) { frame with cfg := ⟨false, .both, .float32⟩ }) (fun s => s.ob[2]?) =
      some (some ⟨some (.float32 0x3FC00000), none⟩) ∧
    after (exec (.convert 1 0 0x3FC00000) { frame with ob := [⟨some (.pcm16 5), none⟩] }) (fun s => s.ob) =
      some [⟨some (.pcm16 5), some (.pcm16 32767)⟩] := by and_intros <;> decide +kernel

/-- R151: the last beat of a frame carries `last`, counts the frame and ends EMIT. -/
theorem test_emit :
    let b : Beat := ⟨some (.pcm16 7), none⟩
    after (exec .emit { frame with seq := .emit, ob := [b, b], obRd := 1 })
      (fun s => (s.delivered, s.frameCount, s.seq, s.ob, s.bitpos)) = some ([⟨b, true⟩], 1, .awaitSync, [], 256) ∧
    after (exec .emit { frame with seq := .emit, ob := [b, b] }) (fun s => (s.delivered, s.obRd, s.seq)) =
      some ([⟨b, false⟩], 1, .emit) ∧
    after (exec .emit { frame with seq := .emit, ob := [b, b], sinkReady := false }) (fun s => (s.delivered, s.obRd)) =
      some ([], 0) := by and_intros <;> decide +kernel

/-! ### V11: registers and host commands -/

theorem test_v11_config :
    after (exec (.ctrlConfig (ctrl 0x30)) State.reset) (fun s => s.readReg 0) = some 0 ∧
    after (exec (.ctrlConfig (ctrl 0x98)) State.reset) (fun s => (s.readReg 0, s.seq, s.irq)) = some (0x98, .idle, false) := by and_intros <;> decide +kernel

/-- Lines 4 to 7: START latches bits 7:3; STOP in the same write; the resume of a STOPPED block. -/
theorem test_v11_start :
    after (exec (.ctrlStart (ctrl 0x81)) State.reset) (fun s => (s.seq, s.readReg 0, s.cfg)) =
      some (.awaitSync, 0x80, ⟨false, .both, .pcm16⟩) ∧
    after (exec (.ctrlStart (ctrl 0x3)) { State.reset with seq := .done, byteCount := 7 })
      (fun s => (s.seq, s.readReg 0, s.byteCount)) = some (.awaitSync, 2, 0) ∧
    after (exec (.ctrlStart (ctrl 0x69)) { State.reset with seq := .stopped, stopReq := true, byteCount := 7 })
      (fun s => (s.seq, s.readReg 0, s.byteCount, s.cfg)) = some (.awaitSync, 0x68, 7, ⟨true, .right, .float32⟩) ∧
    after (exec (.ctrlStart (ctrl 1)) { State.reset with seq := .failed }) (fun s => s.seq) = some .failed := by and_intros <;> decide +kernel

/-- 92_eei_decisions.md D26: a STOP in IDLE is kept and acts on the next START's first boundary. 45_orchestrator.md R154: a
STOP in DONE is cleared by the next START. -/
theorem test_stop_in_idle_is_kept :
    let started := fun seq => exec (.ctrlStart (ctrl 1)) { State.reset with seq := seq, stopReq := true }
    after (started .idle) (fun s => (s.seq, s.readReg 0)) = some (.awaitSync, 2) ∧
    after (andThen (started .idle) step) (fun s => (s.seq, s.readReg 0, s.byteCount)) = some (.stopped, 2, 0) ∧
    after (started .done) (fun s => (s.seq, s.readReg 0)) = some (.awaitSync, 0) := by and_intros <;> decide +kernel

/-- Lines 6, 8, 9 and 15. -/
theorem test_v11_stop_and_soft_reset :
    after (step { State.reset with seq := .awaitSync, stopReq := true }) (fun s => (s.statusWord, s.byteCount)) =
      some (0xA, 0) ∧
    after (exec (.ctrlStop (ctrl 2)) { State.reset with seq := .done }) (fun s => (s.readReg 0, s.seq)) = some (2, .done) ∧
    after (exec (.ctrlSoftReset (ctrl 6)) { State.reset with seq := .failed, stopReq := true, errcode := .syncLoss, header := 5 })
      (fun s => (s.readReg 0, s.statusWord, s.header)) = some (0, 0, 0) := by and_intros <;> decide +kernel

/-- Lines 4, 5, 13: STATUS of a finished and of a failed block; the interrupt follows IRQ_EN. -/
theorem test_v11_status :
    { State.reset with seq := .done, ctrl := ⟨false, .both, .pcm16, true⟩ }.statusWord = 0x1009 ∧
    { State.reset with seq := .done }.statusWord = 9 ∧
    { State.reset with seq := .failed, errcode := .unsupportedStream, errdetail := 5 }.statusWord = 0x52B := by and_intros <;> decide +kernel

/-- Lines 10, 11, 12. -/
theorem test_v11_register_space :
    let write := fun (off : Word) (v : Word) => step { State.reset with script := [.csrWrite off (busBytes v)] }
    after (write 0x04 0xFFFFFFFF) (fun s => (s.statusWord, s.frameCount)) = some (0, 0) ∧
    after (write 0x10 5) (fun s => (s.statusWord, s.frameCount)) = some (0, 0) ∧
    after (exec (.regRead 0x28) { State.reset with header := 5 }) (fun s => s.rdata) = some (some 0) ∧
    after (exec (.regRead 0x08) { State.reset with header := 5 }) (fun s => s.rdata) = some (some 5) ∧
    refusal (step { State.reset with script := [.csrRead 0 2] }) = some .accessWidth ∧
    refusal (step { State.reset with script := [.csrRead 2 4] }) = some .unalignedAccess := by and_intros <;> decide +kernel

/-! ### A placed word is what the next step runs -/

theorem test_placed_words :
    after (step (State.reset.withFetchWord 32 0xFFFF18C0)) (fun s => (s.header, s.seq, s.src)) =
      some (0xFFFF18C0, .fetch, State.reset.src) ∧
    after (step (State.reset.withFetchWord 16 0xB023)) (fun s => (s.crcWord, s.seq)) = some (0xB023, .alloc) ∧
    after (step (State.reset.withFetchWord 8 0x81)) (fun s => s.seq) = some .awaitSync := by and_intros <;> decide +kernel

/-! ### Witnesses: states and operands that meet the hypotheses of the statements, for each clause -/

theorem next_of_after {α : Type} {o : Result} {part : State → α} {x : α} (h : after o part = some x) :
    ∃ t, o = .next t ∧ part t = x := by
  cases o with
  | next t => exact ⟨t, rfl, by simpa [after] using h⟩
  | fault r => cases h
  | refused r => cases h

/-- P1's frame with all its bytes read, at a sequencer state. -/
def p1At (seq : SeqState) : State :=
  { State.reset with
    seq := seq, hdr := headerRecord .both (HeaderFields.ofWord 0xFFFF18C0).raw, hdrWord := 0xFFFF18C0, flen := 48
    bitpos := 32, byteCount := 48, fb := [(0, 0xFF), (1, 0xFF), (2, 0x18), (3, 0xC0)] }

/-- A stereo Layer II frame (V1, 0xFFFD9000) of 522 bytes, at the first slot. -/
def layerIISlot : State :=
  { State.reset with
    seq := .samples, hdr := headerRecord .both (HeaderFields.ofWord 0xFFFD9000).raw, flen := 522, bitpos := 32
    byteCount := 522 }

theorem p1At_inv (seq : SeqState)
    (h : seq = .awaitSync ∨ seq = .alloc ∨ seq = .scalefactors ∨ seq = .samples ∨ seq = .done) : (p1At seq).Inv := by
  have alloc0 : ∀ (ch : Fin 2) (sb : Fin 32), (State.reset.sub ch sb).alloc = 0#4 := by decide +kernel
  rcases h with rfl | rfl | rfl | rfl | rfl
  all_goals
    exact {
      paramsLegal := by unfold Params.legal; decide
      fbCanonical := by decide +kernel
      fbInside := by decide +kernel
      errIffFailed := by decide +kernel
      detailZero := by decide +kernel
      obElsewhere := by decide +kernel
      obSamples := by decide +kernel
      obEmit := by decide +kernel
      headerBytes := by decide +kernel
      fetchBytes := by decide +kernel
      allBytes := by decide +kernel
      hdrLegal := fun _ => ⟨⟨by decide +kernel, rfl⟩, by decide +kernel⟩
      scfsiLayerII := by decide +kernel
      cursorInside := by decide +kernel
      ctxCoherent := fun _ ch sb _ _ h => absurd (alloc0 ch sb) h
      layerISlot := by decide +kernel
      layerIISlot := by decide +kernel }

theorem layerIISlot_inv : layerIISlot.Inv := by
  have alloc0 : ∀ (ch : Fin 2) (sb : Fin 32), (State.reset.sub ch sb).alloc = 0#4 := by decide +kernel
  exact {
    paramsLegal := by unfold Params.legal; decide
    fbCanonical := by decide +kernel
    fbInside := by decide +kernel
    errIffFailed := by decide +kernel
    detailZero := by decide +kernel
    obElsewhere := by decide +kernel
    obSamples := by decide +kernel
    obEmit := by decide +kernel
    headerBytes := by decide +kernel
    fetchBytes := by decide +kernel
    allBytes := by decide +kernel
    hdrLegal := fun _ => ⟨⟨by decide +kernel, rfl⟩, by decide +kernel⟩
    scfsiLayerII := by decide +kernel
    cursorInside := by decide +kernel
    ctxCoherent := fun _ ch sb _ _ h => absurd (alloc0 ch sb) h
    layerISlot := by decide +kernel
    layerIISlot := by decide +kernel }

/-- P1's frame one byte before the end of FETCH, the last byte at the source. -/
def lastByte (prot : BitVec 1) : State :=
  let s := p1At .fetch
  { s with hdr := { s.hdr with raw := { s.hdr.raw with prot := prot } }, byteCount := 47, src := ⟨[0], true⟩ }

theorem lastByte_inv : (lastByte 1).Inv := by
  exact {
    paramsLegal := by unfold Params.legal; decide
    fbCanonical := by decide +kernel
    fbInside := by decide +kernel
    errIffFailed := by decide +kernel
    detailZero := by decide +kernel
    obElsewhere := by decide +kernel
    obSamples := by decide +kernel
    obEmit := by decide +kernel
    headerBytes := by decide +kernel
    fetchBytes := by decide +kernel
    allBytes := by decide +kernel
    hdrLegal := fun _ => ⟨⟨by decide +kernel, rfl⟩, by decide +kernel⟩
    scfsiLayerII := by decide +kernel
    cursorInside := by decide +kernel
    ctxCoherent := fun h => absurd h (by decide +kernel)
    layerISlot := by decide +kernel
    layerIISlot := by decide +kernel }

theorem wit_DecodeOfEncode :
    (Instr.l2Alloc .a 26 1 3).wf = true ∧ encode (.l2Alloc .a 26 1 3) = some (.l2Alloc .a 26 1, 3) ∧
    (Instr.l2Ungrouped 31 1 65535 0xFFFF 0 1).wf = true ∧ (encode (.l2Ungrouped 31 1 65535 0xFFFF 0 1)).isSome = true ∧
    (Instr.hdrMpeg1L2 (HeaderFields.ofWord 0xFFFDE400)).wf = true ∧
    (encode (.hdrMpeg1L2 (HeaderFields.ofWord 0xFFFDE400))).isSome = true := by and_intros <;> decide +kernel

theorem wit_EncodeOfDecode : decode (.l2Grouped 0 1 9) 1023 = .ok (.l2GroupedOutOfRange 0 1 9 1023) ∧
    decode .hdr32 0xFFFFFFFF = .ok (.hdrUnsupBitrate (HeaderFields.ofWord 0xFFFFFFFF)) := by and_intros <;> decide +kernel

theorem wit_OpcodeRowsDecideInOrder :
    (0x7FFF18C0#32 : Word) &&& 0xFFE00000 ≠ 0xFFE00000 ∧ (0xFFE00000#32 : Word) &&& 0xFFE00000 = 0xFFE00000 := by decide

theorem wit_AcceptedHeaderWritesRecord :
    Instr.hdrMpeg25L2 (HeaderFields.ofWord 0xFFE5A000) ∈ acceptingClasses (HeaderFields.ofWord 0xFFE5A000) ∧
    (Instr.hdrMpeg25L2 (HeaderFields.ofWord 0xFFE5A000)).wf = true ∧
    Instr.hdrMpeg1L1 (HeaderFields.ofWord 0xFFFF14C0) ∈ acceptingClasses (HeaderFields.ofWord 0xFFFF14C0) ∧
    (Instr.hdrMpeg1L1 (HeaderFields.ofWord 0xFFFF14C0)).wf = true := by and_intros <;> decide +kernel

theorem wit_FrameLengthBounds : (HeaderFields.ofWord 0xFFFF14C0).accepted = true := by decide +kernel

/-- HEADER with 0 and with 3 bytes collected, in each case of the source's answer. -/
theorem wit_ReadHeaderByteResult :
    let s := { State.reset with seq := .header }
    2881 ≤ s.params.frameBufBytes ∧ s.hdrBytes = 0 ∧ { s with hdrBytes := 3 }.hdrBytes ≤ 3 ∧
    { s with src := ⟨[0xFF], false⟩ }.src.avail = 0xFF :: [] ∧
    s.src.avail = [] ∧ s.src.eos = false ∧ { s with src := ⟨[], true⟩ }.src.eos = true := by and_intros <;> decide +kernel

/-- The fourth byte and the one before the last of a frame of 48 bytes. -/
theorem wit_FetchByteResult :
    let s := { p1At .fetch with byteCount := 4, src := ⟨[7], false⟩ }
    let s' := { s with byteCount := 46 }
    s.byteCount = s.frameStart + BitVec.ofNat 32 4 ∧ 4 + 1 < s.flen.toNat ∧ s.flen.toNat ≤ s.params.frameBufBytes ∧
    s'.byteCount = s'.frameStart + BitVec.ofNat 32 46 ∧ 46 + 1 < s'.flen.toNat ∧
    { s with src := ⟨[], true⟩ }.src.eos = true ∧ { s with src := ⟨[], false⟩ }.src.eos = false := by
  and_intros <;> decide +kernel

theorem wit_FetchLastByteEndsFetch (prot : BitVec 1) :
    (lastByte prot).seq = .fetch ∧ (lastByte prot).byteCount = (lastByte prot).frameStart + BitVec.ofNat 32 47 ∧
    47 + 1 = (lastByte prot).flen.toNat ∧ 6 ≤ (lastByte prot).flen.toNat ∧
    (lastByte prot).flen.toNat ≤ (lastByte prot).params.frameBufBytes ∧ (lastByte prot).src.avail = 0 :: [] ∧
    (lastByte prot).hdr.raw.prot = prot := by
  refine ⟨rfl, rfl, rfl, ?_, ?_, rfl, rfl⟩ <;> (show _ ≤ _; exact of_decide_eq_true rfl)

theorem wit_FrameBufferFrame :
    (let s := { State.reset with seq := .header, src := ⟨[0xFF], false⟩ }
    s.fb.wf = true ∧ ∃ t, exec .readHeaderBytes s = .next t) ∧
    ((lastByte 1).fb.wf = true ∧ ((lastByte 1).byteCount - (lastByte 1).frameStart).toNat < (lastByte 1).flen.toNat ∧
      ∃ t, exec .fetchFrame (lastByte 1) = .next t) ∧
    ∃ t, exec .crcCheck (p1At .alloc) = .next t := by
  refine ⟨⟨by decide +kernel, ?_⟩, ⟨by decide +kernel, by decide +kernel, ?_⟩, ?_⟩
  all_goals exact ⟨_, rfl⟩

theorem wit_EqualReadsEqualMemory : ∃ m n : Memory, m.wf = true ∧ n.wf = true ∧ (∀ a, m.read a = n.read a) ∧ m ≠ [] :=
  ⟨[(3, 1)], [(3, 1)], by decide, by decide, fun _ => rfl, by decide⟩

/-- Fields up to the last bit of a frame of 32 bytes: the widths 2, 4, 6, 12, 16, 18, 32 and a triplet of 16-bit codes. -/
theorem wit_frameHolds :
    { frame with bitpos := 254 }.frameHolds 2 ∧ { frame with bitpos := 252 }.frameHolds 4 ∧
    { frame with bitpos := 250 }.frameHolds 6 ∧ { frame with bitpos := 244 }.frameHolds 12 ∧
    { frame with bitpos := 240 }.frameHolds 16 ∧ { frame with bitpos := 238 }.frameHolds 18 ∧
    { frame with bitpos := 224 }.frameHolds 32 ∧ { frame with bitpos := 208 }.frameHolds (3 * codeWidth 65535) := by
  unfold State.frameHolds; and_intros <;> decide +kernel

theorem wit_CrcWordResult : frame.frameHolds 16 := by unfold State.frameHolds; decide +kernel

/-- The widths 1 and 32; the last bit of the frame, and one bit past it. -/
theorem wit_GetBitsResult :
    1 ≤ 32 ∧ 32 ≤ 32 ∧ { frame with bitpos := 224 }.frameHolds 32 ∧ (31 : Nat) < 32 ∧
    { frame with bitpos := 255 }.frameHolds 1 ∧ 8 * frame.flen.toNat < 256 + 1 := by
  unfold State.frameHolds; and_intros <;> decide +kernel

theorem wit_FieldPastFrameEnd :
    (firstFieldWidth (.l2Alloc .a 0 0 1) = some 4 ∧ 8 * { frame with bitpos := 253 }.flen.toNat < 253 + 4) ∧
    (1 < (SfRead.three 3 6 9).indices.length ∧ { frame with bitpos := 246 }.frameHolds (6 * 1) ∧
      8 * frame.flen.toNat < 246 + 6 * (1 + 1)) ∧
    ({ frame with bitpos := 253 }.frameHolds (codeWidth 7) ∧ 8 * frame.flen.toNat < 253 + 2 * codeWidth 7) ∧
    ({ frame with bitpos := 250 }.frameHolds (2 * codeWidth 7) ∧ 8 * frame.flen.toNat < 250 + 3 * codeWidth 7) := by
  unfold State.frameHolds; and_intros <;> decide +kernel

theorem wit_CrcCheckResult :
    let s := { frame with crc := 1, crcWord := 2 }
    let strict := { s with cfg := ⟨true, .both, .pcm16⟩ }
    { s with hdr := { s.hdr with raw := { s.hdr.raw with prot := 1 } } }.hdr.raw.prot = 1#1 ∧ frame.crc = frame.crcWord ∧
    s.hdr.raw.prot = 0#1 ∧ s.crc ≠ s.crcWord ∧ s.cfg.strict = false ∧ strict.hdr.raw.prot = 0#1 ∧
    strict.crc ≠ strict.crcWord ∧ strict.cfg.strict = true := by and_intros <;> decide +kernel

theorem wit_DiagnosticsSaturate : (0xFFFFFFFE#32 : Word) ≠ 0xFFFFFFFF#32 ∧ (0xFFFFFFFF#32 : Word) = 0xFFFFFFFF#32 := by
  decide

theorem wit_L1AllocationResult : (0#4 : BitVec 4) ≠ 15#4 ∧ (14#4 : BitVec 4) ≠ 15#4 ∧ frame.frameHolds 4 := by
  unfold State.frameHolds; and_intros <;> decide +kernel

theorem wit_L1CorruptAllocationResult :
    frame.frameHolds 4 ∧ frame.cfg.strict = false ∧ { frame with cfg := ⟨true, .both, .pcm16⟩ }.frameHolds 4 := by
  unfold State.frameHolds; and_intros <;> decide +kernel

theorem wit_L1FieldResults :
    frame.frameHolds 6 ∧ (14#4 : BitVec 4) ≠ 0#4 ∧ (14#4 : BitVec 4) ≠ 15#4 ∧ frame.frameHolds ((14#4).toNat + 1) := by
  unfold State.frameHolds; and_intros <;> decide +kernel

theorem wit_L2AllocationResult :
    frame.frameHolds (nbal .b 29) ∧ (3#4 : BitVec 4).toNat = 2 + 1 ∧ (l2Row .b 29).2[2]? = some 65535 ∧
    29 < l2Sblimit .b ∧ 3 < 2 ^ nbal .b 29 := by
  unfold State.frameHolds; and_intros <;> decide +kernel

theorem wit_L2ScfsiAndScalefactorResults :
    frame.frameHolds 2 ∧ frame.frameHolds 18 ∧ frame.frameHolds 12 ∧ frame.frameHolds 6 := by
  unfold State.frameHolds; and_intros <;> decide +kernel

theorem wit_RequantizationResult : (⟨65535, false, 16, 16, 15⟩ : QClass) ∈ qClasses ∧ (65535#16).toNat < 2 ^ 16 := by
  decide +kernel

theorem wit_L2GroupedResults :
    groupedLevels 9 = true ∧ frame.frameHolds (codeWidth 9) ∧ (728#16).toNat = 8 + 9 * 8 + 9 ^ 2 * 8 ∧
    9 ^ 3 ≤ (729#16).toNat := by
  unfold State.frameHolds; and_intros <;> decide +kernel

theorem wit_L2UngroupedResult : ungroupedLevels 65535 = true ∧ frame.frameHolds (3 * codeWidth 65535) := by
  unfold State.frameHolds; and_intros <;> decide +kernel

theorem wit_L2PutResults : { frame with sn := 2, gn := 12 }.sn < 3 := by decide

theorem wit_StereoPutResults : { frame with sn := 0, gn := 4 }.sn < 3 := by decide

/-- Filter 0 before any beat of the slot, and filter 1 after filter 0's beats. -/
theorem wit_SynthStepResult :
    32 * frame.slot ≤ frame.ob.length ∧
    (let s := { frame with slot := 1, ob := List.replicate 64 ⟨some (.pcm16 1), none⟩ }
    32 * s.slot ≤ s.ob.length) := by decide

theorem wit_ConvertResult : 32 * frame.slot + (0 : Fin 32).val ≤ frame.ob.length := by decide

/-- Both choices of PCM_CONVERT with the default OUT_SCALE. -/
theorem wit_Pcm16IsClampedTruncation :
    F32.isFinite (F32.ofCode 0x7F7FFFFF) = true ∧ F32.isFinite (F32.ofCode 0x80000001) = true ∧
    Params.default.num = .binary32 ∧ Params.default.outScale = 32768 ∧ Params.default.pcmConvert = .trunc ∧
    { Params.default with pcmConvert := .nearestEven }.outScale = 32768 := by and_intros <;> decide +kernel

theorem wit_HistoryIsShiftOfVectors :
    let inputs := List.replicate 16 (Vector.replicate 32 0x3F800000)
    15 < inputs.length ∧ 16 ≤ inputs.length := by decide +kernel

/-- The impulse: a cleared history, and later inputs of silence, up to the last tap and one past it. -/
theorem wit_HistoryIsShiftOfVectors_impulse :
    (∀ i : Fin 1024, referenceValue (Vector.replicate 1024 (0 : NumVal))[i] = 0) ∧
    (∀ x ∈ List.replicate 16 (Vector.replicate 32 (0 : NumVal)), ∀ k : Fin 32, referenceValue x[k] = 0) := by
  refine ⟨fun i => by simp, fun x h k => ?_⟩
  rw [List.eq_of_mem_replicate h]
  simp

/-- The rows where the two clauses end and begin. -/
theorem wit_MatrixSymmetries : (32 ≤ 32 ∧ 31 < 32) ∧ (33 ≤ 33 ∧ 33 < 64) ∧ 63 < 64 := by decide

theorem wit_SilenceAfterSixteenSilentSteps :
    let inputs := List.replicate 16 (Vector.replicate 32 0x80000000)
    Params.default.num = .binary32 ∧
    F32.isFinite (F32.ofCode (Params.default.num.ofRat Params.default.outScale)) = true ∧ inputs.length = 16 ∧
    0 ≤ Params.default.tol ∧ ∀ sIn ∈ inputs, ∀ k : Fin 32, F32.isZero (F32.ofCode sIn[k]) = true := by
  refine ⟨rfl, by decide +kernel, by decide, by decide +kernel, fun sIn h k => ?_⟩
  rw [List.eq_of_mem_replicate h]
  simp only [Fin.getElem_fin, Vector.getElem_replicate]
  decide

theorem wit_SilenceAfterSixteenSilentSteps_reference :
    let inputs := List.replicate 16 (Vector.replicate 32 (0 : NumVal))
    inputs.length = 16 ∧ ∀ sIn ∈ inputs, ∀ k : Fin 32, referenceValue sIn[k] = 0 :=
  ⟨rfl, wit_HistoryIsShiftOfVectors_impulse.2⟩

theorem wit_RoundingIsToNearestEven : 0 < 2 ∧ F32.roundMag 5 2 < 0x7F800000 ∧ (3 : Nat) ≠ F32.roundMag 5 2 := by
  and_intros <;> decide +kernel

theorem wit_EmitResult :
    let b : Beat := ⟨some (.pcm16 7), none⟩
    let s := { frame with seq := .emit, ob := [b, b] }
    s.ob[s.obRd]? = some b ∧ s.sinkReady = true ∧ s.obRd + 1 < s.ob.length ∧
    { s with obRd := 1 }.obRd + 1 = { s with obRd := 1 }.ob.length ∧ { s with sinkReady := false }.sinkReady = false := by
  and_intros <;> decide +kernel

theorem wit_HardResetValues : { p1At .samples with script := [.hardReset] }.script = .hardReset :: [] := rfl

/-- The three cases of START. -/
theorem wit_StartResult :
    { State.reset with stopReq := true }.seq = .idle ∧ { State.reset with stopReq := true }.stopReq = true ∧
    (p1At .done).seq = .done ∧ (p1At .stopped).seq = .stopped ∧ (p1At .samples).seq ≠ .idle ∧
    (p1At .samples).seq ≠ .done ∧ (p1At .samples).seq ≠ .stopped := by and_intros <;> decide +kernel

theorem wit_CtrlReadsBackStoredBits :
    let v := ctrl 0xFB
    Instr.ctrlStop v ∈ [Instr.ctrlSoftReset v, .ctrlStart v, .ctrlStop v, .ctrlConfig v] ∧
    ∃ t, exec (.ctrlStop v) (p1At .samples) = .next t := ⟨by decide +kernel, _, rfl⟩

theorem wit_RegisterMapReads :
    (0x24#32 : Word).toNat % 4 = 0 ∧ (0x28#32 : Word).toNat % 4 = 0 ∧ (0x26#32 : Word).toNat % 4 ≠ 0 := by decide

theorem wit_HostAccessContract :
    (let s := { frame with script := [.csrRead 2 4] }
    s.script = .csrRead 2 4 :: [] ∧ (2#32 : Word).toNat % 4 ≠ 0) ∧
    (let s := { frame with script := [.csrWrite 0 [1, 2]] }
    s.script = .csrWrite 0 [1, 2] :: [] ∧ [1, 2].length ≠ 4) ∧
    (let s := { frame with script := [.csrWrite 4 [1, 2, 3, 4]] }
    s.script = .csrWrite 4 [1, 2, 3, 4] :: [] ∧ [1, 2, 3, 4].length = 4 ∧ (4#32 : Word).toNat % 4 = 0 ∧ (4#32 : Word) ≠ 0) := by
  and_intros <;> decide +kernel

/-- A stereo Layer II frame with channel 0 of subband 3 allocated, 7 levels ungrouped, cursor at a bit. -/
def allocatedAt (seq : SeqState) (cursor : Nat) : State :=
  let s := layerIISlot.setSub 0 3 ⟨2, 7, 3, false, 1, #v[0, 0, 0], #v[0, 0, 0]⟩
  { s with seq := seq, bitpos := cursor }

/-- The fields of each of the three steps, read whole and cut off by the frame end; and a step of the block by `.block`. -/
theorem wit_StepRunsDecodedOperation_fields :
    (allocatedAt .alloc 32).hdr.l2tab.isSome = true ∧ (p1At .alloc).hdr.raw.layer = 0b11#2 ∧
    (p1At .alloc).allocationFields .l1Alloc 31 = [.l1Alloc 31 0] ∧
    (allocatedAt .alloc 32).allocationFields (.l2Alloc .a) 26 = [.l2Alloc .a 26 0, .l2Alloc .a 26 1] ∧
    (allocatedAt .scfsi 32).scfsiFields = [.l2Scfsi 3 0] ∧
    (allocatedAt .scalefactors 32).scalefactorFields = [.l2Scalefactor 3 0 1] ∧
    (allocatedAt .samples 32).sampleFields = [.l2Ungrouped 3 0 7] ∧ (allocatedAt .samples 32).seq = .samples ∧
    after (forEach (allocatedAt .scfsi 32).scfsiFields runField (allocatedAt .scfsi 32)) (fun u => u.bitpos) = some 34 ∧
    (let s := allocatedAt .scalefactors 32
    after (forEach s.scalefactorFields runField s) (fun u => (u.bitpos, u.seq)) = some (44, .scalefactors)) ∧
    (let s := allocatedAt .scalefactors 4170
    after (forEach s.scalefactorFields runField s) (fun u => u.seq) = some .failed) ∧
    (let s := allocatedAt .samples 32
    after (forEach s.sampleFields runField s) (fun u => (u.bitpos, u.seq)) = some (41, .samples)) ∧
    (let s := allocatedAt .samples 4170
    after (forEach s.sampleFields runField s) (fun u => u.seq) = some .failed) ∧
    { p1At .alloc with script := [.block, .sinkReady false] }.script = .block :: [.sinkReady false] := by
  and_intros <;> decide +kernel

/-- A turn of the block with more planned after it is a step of the block (20_memory.md R51). -/
theorem test_block_turn :
    let planned := [EnvEvent.block, .sinkReady false]
    { p1At .alloc with script := planned }.blockTurn ∧
    after (step { p1At .alloc with script := planned }) (fun t => (t.seq, t.script)) =
      some (.scalefactors, [.sinkReady false]) := ⟨.inr ⟨_, rfl⟩, by decide +kernel⟩

theorem wit_StepRunsDecodedOperation :
    (decode .ctrlWrite (0x81#32 : Word).toNat = .ok (.ctrlStart (ctrl 0x81)) ∧
      { frame with script := [.csrWrite 0 (busBytes 0x81)] }.script = .csrWrite 0 (busBytes 0x81) :: []) ∧
    (decode .regRead (0x24#32 : Word).toNat = .ok (.regRead 0x24) ∧
      { frame with script := [.csrRead 0x24 4] }.script = .csrRead 0x24 4 :: []) ∧
    decode (.l1Alloc 0 0) ((p1At .alloc).peekBits (Format.l1Alloc 0 0).width) = .ok (.l1Alloc 0 0 0) ∧
    ((p1At .emit).script = [] ∧ (p1At .emit).seq = .emit) := by and_intros <;> decide +kernel

theorem wit_PlacedWordRunsNext :
    2881 ≤ (p1At .alloc).params.frameBufBytes ∧ 0xFFFF18C0 < 2 ^ 32 ∧ decodeTableWord 32 0xFFFF18C0 = some (.hdrMpeg1L1 (HeaderFields.ofWord 0xFFFF18C0)) ∧
    0xB023 < 2 ^ 16 ∧ (p1At .alloc).fb.wf = true ∧ 8 ≠ 32 ∧ 8 ≠ 16 ∧
    decodeTableWord 8 0x81 = some (.ctrlStart (ctrl 0x81)) := by and_intros <;> decide +kernel

/-- A step from each state the clauses name. -/
theorem wit_SequencerMovesByTable :
    after (step (p1At .done)) (fun t => t.seq) = some .done ∧
    after (step (p1At .awaitSync)) (fun t => t.seq) = some .header ∧
    after (step { p1At .awaitSync with stopReq := true }) (fun t => t.seq) = some .stopped ∧
    after (step (p1At .alloc)) (fun t => t.seq) = some .scalefactors ∧
    after (step (p1At .scalefactors)) (fun t => t.seq) = some .samples := by and_intros <;> decide +kernel

theorem wit_FoldedChannelCopied : (p1At .alloc).hdr.nch = 1 ∧ frame.hdr.nch = 2 ∧ frame.hdr.bound ≤ (0 : Fin 32).val := by
  decide +kernel

theorem wit_SilentLayerIFrameAllocatesNothing :
    let s := p1At .alloc
    s.script = [] ∧ s.seq = .alloc ∧ s.hdr.raw.layer = 0b11#2 ∧ s.hdr.raw.prot = 1#1 ∧ s.hdr.nch = 1 ∧ s.hdr.bound = 32 ∧
    s.frameHolds 128 ∧
    ∀ p, p < 128 → (s.fb.read ((s.bitpos + p) / 8)).getLsbD (7 - (s.bitpos + p) % 8) = false := by
  unfold State.frameHolds; and_intros <;> decide +kernel

/-- Slot 0 of a Layer I frame with one output channel, and of a Layer II frame with two. -/
theorem wit_SamplesStepCompletesSlot :
    ((p1At .samples).Inv ∧ ∃ t, step (p1At .samples) = .next t ∧ t.seq = .samples) ∧
    (layerIISlot.Inv ∧ layerIISlot.hdr.nchOut = 2 ∧ ∃ t, step layerIISlot = .next t ∧ t.seq = .samples) :=
  ⟨⟨p1At_inv _ (by decide), next_of_after (by decide +kernel)⟩,
    ⟨layerIISlot_inv, by decide +kernel, next_of_after (by decide +kernel)⟩⟩

/-- The events that clear the block, and a resume START, which does not. -/
theorem wit_nextClears :
    { p1At .samples with script := [.hardReset] }.nextClears ∧
    { p1At .samples with script := [.csrWrite 0 (busBytes 4)] }.nextClears ∧
    { p1At .done with script := [.csrWrite 0 (busBytes 1)] }.nextClears ∧
    ¬{ p1At .stopped with script := [.csrWrite 0 (busBytes 1)] }.nextClears ∧
    ∃ t, step { p1At .stopped with script := [.csrWrite 0 (busBytes 1)] } = .next t ∧ t.seq = .awaitSync := by
  refine ⟨⟨[], .inl rfl⟩, ⟨[], .inr ⟨_, ctrl 4, rfl, .inl (by decide +kernel)⟩⟩,
    ⟨[], .inr ⟨_, ctrl 1, rfl, .inr ⟨by decide +kernel, .inr rfl⟩⟩⟩, ?_, next_of_after (by decide +kernel)⟩
  have hd : decode .ctrlWrite (wordOfBus (busBytes 1)).toNat = .ok (.ctrlStart (ctrl 1)) := by decide +kernel
  rintro ⟨rest, h | ⟨lanes, v, h, hv⟩⟩
  · cases h
  · cases h
    rw [hd] at hv
    rcases hv with hv | ⟨_, hv | hv⟩
    · cases hv
    · exact absurd hv (by decide)
    · exact absurd hv (by decide)

theorem wit_ByteCountCountsBytesTaken :
    (∃ t, step (lastByte 1) = .next t ∧ t.seq = .alloc) ∧ (lastByte 1).Inv ∧
    (∃ t, step { p1At .done with script := [.csrWrite 0 (busBytes 1)] } = .next t ∧ t.seq = .awaitSync) ∧
    EnvEvent.csrWrite 0 (busBytes 1) ≠ .block :=
  ⟨next_of_after (by decide +kernel), lastByte_inv, next_of_after (by decide +kernel), by decide⟩

theorem wit_FailedLeftOnlyByReset :
    (∃ t, step { p1At .failed with script := [.csrWrite 0 (busBytes 4)] } = .next t ∧ t.seq = .idle) ∧
    (∃ t, step { p1At .failed with script := [.hardReset] } = .next t ∧ t.seq = .idle) ∧
    ∃ t, step (p1At .failed) = .next t ∧ t.seq = .failed :=
  ⟨next_of_after (by decide +kernel), next_of_after (by decide +kernel), next_of_after (by decide +kernel)⟩

/-- E4s: a corrupt allocation in strict mode. -/
theorem wit_FailingStepDeliversNothing :
    let s := { p1At .alloc with cfg := ⟨true, .both, .pcm16⟩, fb := [(4, 0xF0)] }
    s.seq ≠ .failed ∧ ∃ t, step s = .next t ∧ t.seq = .failed :=
  ⟨by decide, next_of_after (by decide +kernel)⟩

theorem wit_BeatsDeliveredOnlyByEmit :
    ∃ t, step { frame with seq := .emit, ob := [⟨some (.pcm16 7), none⟩] } = .next t ∧ t.delivered.length = 1 :=
  next_of_after (by decide +kernel)

theorem wit_FiltersCarryOver :
    (p1At .samples).Inv ∧ (p1At .samples).blockTurn ∧ (p1At .samples).seq = .samples ∧
    (p1At .samples).hdr.nchOut = 1 ∧ ∃ t, step (p1At .samples) = .next t ∧ t.seq = .samples :=
  ⟨p1At_inv _ (by decide), .inl rfl, rfl, by decide +kernel, next_of_after (by decide +kernel)⟩

theorem wit_DecodeIgnoresStoredConfig :
    (p1At .alloc).blockTurn ∧ ∃ t, step (p1At .alloc) = .next t ∧ t.seq = .scalefactors :=
  ⟨.inl rfl, next_of_after (by decide +kernel)⟩

theorem wit_StepKeepsInvariant : (p1At .alloc).Inv ∧ ∃ t, step (p1At .alloc) = .next t ∧ t.seq = .scalefactors :=
  ⟨p1At_inv _ (by decide), next_of_after (by decide +kernel)⟩

theorem wit_NoFaultUnderInvariant : (p1At .scalefactors).Inv := p1At_inv _ (by decide)

end Sys2Proof.Tests
end

section
/-! The narrowing of binary32 (00_scope.md R8, R10). `F32.patternMag` continues the magnitudes of the finite patterns
past the infinity, without a word size. It is strictly increasing, so an exact quotient lies between the magnitudes of
two neighbouring patterns, and `F32.roundMag` picks one of the two. -/
namespace Sys2Proof.Machine

/-- The magnitude, in units of 2^-149, of the pattern `z` with an exponent field of any size. -/
def F32.patternMag (z : Nat) : Nat :=
  if z / 2 ^ 23 = 0 then z % 2 ^ 23 else (2 ^ 23 + z % 2 ^ 23) * 2 ^ (z / 2 ^ 23 - 1)

/-- The exact quotient p/q lies in the upper half between the magnitudes of `z` and `z + 1`, or in the middle with `z`
odd. -/
def F32.RoundsUp (p q z : Nat) : Prop :=
  (F32.patternMag z + F32.patternMag (z + 1)) * q < 2 * p ∨
    ((F32.patternMag z + F32.patternMag (z + 1)) * q = 2 * p ∧ z % 2 = 1)

theorem F32.mag_ofNat {z : Nat} (hz : z < 2 ^ 31) : F32.mag (BitVec.ofNat 32 z) = F32.patternMag z := by
  have hexp : F32.expField (BitVec.ofNat 32 z) = z / 2 ^ 23 := by
    simp only [F32.expField, BitVec.extractLsb'_toNat, BitVec.toNat_ofNat, Nat.shiftRight_eq_div_pow]
    omega
  have hfrac : F32.fracField (BitVec.ofNat 32 z) = z % 2 ^ 23 := by
    simp only [F32.fracField, BitVec.extractLsb'_toNat, BitVec.toNat_ofNat, Nat.shiftRight_eq_div_pow]
    omega
  simp only [F32.mag, F32.patternMag, hexp, hfrac]

/-- The last place is 2^sh units in a whole binade, the first pattern of the next one included; with `sh = 0` also
below it. -/
theorem F32.patternMag_eq_mul {sh m : Nat} (hm : m ≤ 2 ^ 24) (hnorm : sh = 0 ∨ 2 ^ 23 ≤ m) :
    F32.patternMag (sh * 2 ^ 23 + m) = m * 2 ^ sh := by
  obtain hsub | ⟨hlow, hhigh⟩ | rfl : m < 2 ^ 23 ∨ (2 ^ 23 ≤ m ∧ m < 2 ^ 24) ∨ m = 2 ^ 24 := by omega
  · obtain rfl : sh = 0 := by omega
    rw [F32.patternMag, if_pos (by omega)]
    omega
  · have hfrac : 2 ^ 23 + (sh * 2 ^ 23 + m) % 2 ^ 23 = m := by omega
    have hexp : (sh * 2 ^ 23 + m) / 2 ^ 23 - 1 = sh := by omega
    rw [F32.patternMag, if_neg (by omega), hfrac, hexp]
  · have hfrac : 2 ^ 23 + (sh * 2 ^ 23 + 2 ^ 24) % 2 ^ 23 = 2 ^ 23 := by omega
    have hexp : (sh * 2 ^ 23 + 2 ^ 24) / 2 ^ 23 - 1 = 1 + sh := by omega
    rw [F32.patternMag, if_neg (by omega), hfrac, hexp, ← pow_add, ← pow_add, ← add_assoc]

theorem F32.patternMag_strictMono : StrictMono F32.patternMag := by
  refine strictMono_nat_of_lt_succ fun z => ?_
  obtain ⟨sh, m, rfl, hm, hnorm⟩ : ∃ sh m, z = sh * 2 ^ 23 + m ∧ m < 2 ^ 24 ∧ (sh = 0 ∨ 2 ^ 23 ≤ m) :=
    ⟨z / 2 ^ 23 - 1, z - (z / 2 ^ 23 - 1) * 2 ^ 23, by omega, by omega, by omega⟩
  rw [Nat.add_assoc, F32.patternMag_eq_mul (by omega) hnorm, F32.patternMag_eq_mul (by omega) (by omega)]
  exact Nat.mul_lt_mul_of_pos_right (Nat.lt_succ_self m) (by positivity)

/-- `roundMag`'s mantissa: 24 bits, the leading one set unless the unit is the last place. -/
theorem F32.mantissa_bounds (p q : Nat) :
    let sh := Nat.log2 (p / q) - 23
    let m := p / (q * 2 ^ sh)
    m < 2 ^ 24 ∧ (sh = 0 ∨ 2 ^ 23 ≤ m) := by
  intro sh m
  have hm : m = p / q / 2 ^ sh := (Nat.div_div_eq_div_mul p q (2 ^ sh)).symm
  rw [hm, Nat.div_lt_iff_lt_mul (by positivity), Nat.le_div_iff_mul_le (by positivity), ← pow_add, ← pow_add]
  constructor
  · exact Nat.lt_log2_self.trans_le (Nat.pow_le_pow_right (by decide) (by omega))
  · refine or_iff_not_imp_left.mpr fun hsh => ?_
    have hlog : 23 + sh = Nat.log2 (p / q) := by omega
    rw [hlog]
    refine Nat.log2_self_le fun h0 => hsh ?_
    simp [sh, h0]

/-- `roundMag` picks one of the two neighbouring patterns whose magnitudes enclose p/q. -/
theorem F32.roundMag_cases {p q : Nat} (hq : 0 < q) :
    ∃ z, F32.patternMag z * q ≤ p ∧ p < F32.patternMag (z + 1) * q ∧
      ((F32.RoundsUp p q z ∧ F32.roundMag p q = min (z + 1) 0x7F800000) ∨
        (¬F32.RoundsUp p q z ∧ F32.roundMag p q = min z 0x7F800000)) := by
  let sh := Nat.log2 (p / q) - 23
  let d := q * 2 ^ sh
  let m := p / d
  obtain ⟨hm, hnorm⟩ : m < 2 ^ 24 ∧ (sh = 0 ∨ 2 ^ 23 ≤ m) := F32.mantissa_bounds p q
  have hd : 0 < d := by positivity
  have hdiv : m * d + p % d = p := Nat.div_add_mod' p d
  have hmod : p % d < d := Nat.mod_lt p hd
  have hlow : F32.patternMag (sh * 2 ^ 23 + m) * q = m * d := by
    rw [F32.patternMag_eq_mul hm.le hnorm, mul_assoc, mul_comm (2 ^ sh)]
  have hhigh : F32.patternMag (sh * 2 ^ 23 + m + 1) * q = m * d + d := by
    rw [add_assoc, F32.patternMag_eq_mul (by omega) (by omega), mul_assoc, mul_comm (2 ^ sh), Nat.succ_mul]
  have hup : F32.RoundsUp p q (sh * 2 ^ 23 + m) ↔ 2 * (p % d) > d ∨ (2 * (p % d) = d ∧ m % 2 = 1) := by
    rw [F32.RoundsUp, add_mul, hlow, hhigh]
    omega
  have hround : F32.roundMag p q = min (sh * 2 ^ 23 + m +
      if 2 * (p % d) > d ∨ (2 * (p % d) = d ∧ m % 2 = 1) then 1 else 0) 0x7F800000 := rfl
  refine ⟨sh * 2 ^ 23 + m, by omega, by omega, ?_⟩
  by_cases h : F32.RoundsUp p q (sh * 2 ^ 23 + m)
  · exact .inl ⟨h, by rw [hround, if_pos (hup.mp h)]⟩
  · exact .inr ⟨h, by rw [hround, if_neg (hup.not.mp h), add_zero]⟩

/-- The bound of the overflow is the middle between the largest finite magnitude and 2^128. -/
theorem F32.roundMag_eq_infinity_iff {p q : Nat} (hq : 0 < q) :
    F32.roundMag p q = 0x7F800000 ↔ (2 ^ 25 - 1) * 2 ^ 253 * q ≤ 2 * p := by
  obtain ⟨z, hlow, hhigh, hr⟩ := F32.roundMag_cases hq (p := p)
  have hmono {a b : Nat} (h : a ≤ b) : F32.patternMag a * q ≤ F32.patternMag b * q :=
    Nat.mul_le_mul_right q (F32.patternMag_strictMono.monotone h)
  have hmax : F32.patternMag 0x7F7FFFFF = (2 ^ 24 - 1) * 2 ^ 253 := rfl
  have hinf : F32.patternMag 0x7F800000 = 2 ^ 24 * 2 ^ 253 := rfl
  obtain hbelow | rfl | habove : z + 1 < 0x7F800000 ∨ z = 0x7F7FFFFF ∨ 0x7F800000 ≤ z := by omega
  · have hp : p < (2 ^ 24 - 1) * 2 ^ 253 * q := hhigh.trans_le (hmax ▸ hmono (by omega))
    omega
  · rw [F32.RoundsUp, hmax, hinf] at hr
    omega
  · have hp : 2 ^ 24 * 2 ^ 253 * q ≤ p := (hinf ▸ hmono habove).trans hlow
    omega

/-- A pattern is one of two neighbours, or its magnitude lies strictly outside theirs. -/
theorem F32.patternMag_outside_gap {q : Nat} (hq : 0 < q) (n z : Nat) :
    F32.patternMag z * q < F32.patternMag n * q ∨ z = n ∨ z = n + 1 ∨
      F32.patternMag (n + 1) * q < F32.patternMag z * q := by
  have hmono {a b : Nat} (h : a < b) : F32.patternMag a * q < F32.patternMag b * q :=
    Nat.mul_lt_mul_of_pos_right (F32.patternMag_strictMono h) hq
  obtain hbelow | rfl | rfl | habove : z < n ∨ z = n ∨ z = n + 1 ∨ n + 1 < z := by omega
  · exact .inl (hmono hbelow)
  · exact .inr (.inl rfl)
  · exact .inr (.inr (.inl rfl))
  · exact .inr (.inr (.inr (hmono habove)))

/-- A finite result is nearer to p/q than every other magnitude, or as near and even. -/
theorem F32.roundMag_nearest {p q z : Nat} (hq : 0 < q) (hfin : F32.roundMag p q < 0x7F800000)
    (hz : z ≠ F32.roundMag p q) :
    let error : Nat → Int := fun y => |(F32.patternMag y : Int) * q - p|
    error (F32.roundMag p q) ≤ error z ∧
      (error (F32.roundMag p q) = error z → F32.roundMag p q % 2 = 0) := by
  intro error
  obtain ⟨n, hlow, hhigh, hcases⟩ := F32.roundMag_cases hq (p := p)
  have hside := F32.patternMag_outside_gap hq n z
  rw [F32.RoundsUp, add_mul] at hcases
  simp only [error, abs_eq_max_neg]
  obtain ⟨hup, hr⟩ | ⟨hdown, hr⟩ := hcases
  · have hr : F32.roundMag p q = n + 1 := by omega
    rw [hr] at hz ⊢
    obtain hbelow | rfl | rfl | habove := hside <;> omega
  · have hr : F32.roundMag p q = n := by omega
    rw [hr] at hz ⊢
    obtain hbelow | rfl | rfl | habove := hside <;> omega

end Sys2Proof.Machine

namespace Sys2Proof
open Machine

/-- Settles O37: `roundMag` is one of the two patterns around the exact quotient, and every other pattern's magnitude
lies outside theirs. -/
theorem roundingIsToNearestEven : Obligations.RoundingIsToNearestEven := by
  intro p q hq r value
  have hvalue {z : Nat} (hz : z < 0x7F800000) : value z = F32.patternMag z :=
    congrArg Nat.cast (F32.mag_ofNat (by omega))
  refine ⟨Nat.min_le_right .., F32.roundMag_eq_infinity_iff hq, fun hfin z hz hne => ?_⟩
  rw [hvalue hfin, hvalue hz]
  exact F32.roundMag_nearest hq hfin hne

end Sys2Proof
end

section
/-! What an operation on the current frame can do, stated once: it writes nothing but the frame data (the cursor, the
CRC, the counters, the context file, the filters, `bits`), or it does that and then raises a fatal error. The loops of
a step are composed of such operations. -/
namespace Sys2Proof.Machine

/-- The frame data of `t` put into `s`. -/
def State.withData (s t : State) : State :=
  { s with
    bitpos := t.bitpos, crc := t.crc, crcWord := t.crcWord, diagCorruptAlloc := t.diagCorruptAlloc
    diagCrcMismatch := t.diagCrcMismatch, diagBadGroup := t.diagBadGroup, ctx := t.ctx, sbst := t.sbst, filt := t.filt
    bits := t.bits }

/-- The allocation of a context entry: `alloc`, `lev`, `cw` and `grp`, everything else 0. -/
def SubCtx.code (c : SubCtx) : SubCtx :=
  { SubCtx.zero with alloc := c.alloc, lev := c.lev, cw := c.cw, grp := c.grp }

/-- From `s` to `t` only frame data changed, the cursor stayed inside the frame, and every context entry whose
allocation has the property `K` keeps it. -/
structure Advances (K : SubCtx → Prop) (s t : State) : Prop where
  frame : t = s.withData t
  cursor : s.bitpos ≤ 8 * s.flen.toNat → t.bitpos ≤ 8 * s.flen.toNat
  kept : ∀ ch sb, K (s.sub ch sb).code → K (t.sub ch sb).code

/-- From `s` only frame data changed before a fatal error ended in `t`. -/
def FailsFrom (s t : State) : Prop :=
  ∃ u code detail, u = s.withData u ∧ code ≠ .none ∧ t = u.raiseFatal code detail

/-- An operation on the frame failed, or else it ended in a state with the property `Q`. -/
def Outcome (Q : State → Prop) (s t : State) : Prop := FailsFrom s t ∨ Q t

variable {K : SubCtx → Prop} {Q : State → Prop} {r s t : State}

theorem withData_trans (h : s = r.withData s) (h' : t = s.withData t) : t = r.withData t :=
  h'.trans (congrArg (·.withData t) h)

theorem Advances.refl (s : State) : Advances K s s := ⟨rfl, id, fun _ _ => id⟩

theorem Advances.seq (h : Advances K s t) : t.seq = s.seq := (congrArg State.seq h.frame :)
theorem Advances.hdr (h : Advances K s t) : t.hdr = s.hdr := (congrArg State.hdr h.frame :)
theorem Advances.flen (h : Advances K s t) : t.flen = s.flen := (congrArg State.flen h.frame :)
theorem Advances.isLayerI (h : Advances K s t) : t.isLayerI = s.isLayerI := by simp only [State.isLayerI, h.hdr]

theorem Advances.trans (h : Advances K r s) (h' : Advances K s t) : Advances K r t where
  frame := withData_trans h.frame h'.frame
  cursor hb := h.flen ▸ h'.cursor (by rw [h.flen]; exact h.cursor hb)
  kept ch sb hk := h'.kept ch sb (h.kept ch sb hk)

/-- A change of frame data that leaves the cursor and the context file alone. -/
theorem Advances.ofFrame (h : t = s.withData t) (hb : t.bitpos = s.bitpos) (hc : t.ctx = s.ctx) : Advances K s t where
  frame := h
  cursor := hb ▸ id
  kept ch sb := by simp only [State.sub, hc]; exact id

theorem Advances.setSub (h : Advances K r s) {ch : Fin 2} {sb : Fin 32} {c : SubCtx}
    (hc : K (s.sub ch sb).code → K c.code) : Advances K r (s.setSub ch sb c) := by
  refine h.trans ⟨rfl, id, fun ch' sb' hk => ?_⟩
  by_cases e : ch' = ch ∧ sb' = sb
  · obtain ⟨rfl, rfl⟩ := e
    rw [State.sub_setSub_same]
    exact hc hk
  · rw [State.sub_setSub_other _ _ (by tauto)]
    exact hk

/-- A context entry changed outside its allocation. -/
theorem Advances.setEntry (h : Advances K r s) {ch : Fin 2} {sb : Fin 32} {c : SubCtx}
    (hc : c.code = (s.sub ch sb).code := by rfl) : Advances K r (s.setSub ch sb c) :=
  h.setSub fun hk => hc ▸ hk

theorem Advances.setSmp (h : Advances K r s) (ch : Fin 2) (sb : Fin 32) (k : Fin 3) (x : NumVal) :
    Advances K r (s.setSmp ch sb k x) :=
  h.setEntry

/-- The CRC fed, an event counted, or a word of the frame kept. -/
theorem Advances.update (h : Advances K r s) (crc crcWord : BitVec 16) (alloc crcErr group bits : Word) :
    Advances K r { s with
      crc := crc, crcWord := crcWord, diagCorruptAlloc := alloc, diagCrcMismatch := crcErr, diagBadGroup := group
      bits := bits } :=
  h.trans (.ofFrame rfl rfl rfl)

theorem Advances.setSbst (h : Advances K r s) (sb : Fin 32) (x : SubState) : Advances K r (s.setSbst sb x) :=
  h.trans (.ofFrame rfl rfl rfl)

theorem Advances.addSample (h : Advances K r s) (f : Fin 2) (sb : Fin 32) (x : NumVal) :
    Advances K r (s.addSample f sb x) :=
  h.trans (.ofFrame rfl rfl rfl)

theorem FailsFrom.seq (h : FailsFrom s t) : t.seq = .failed := by
  obtain ⟨u, code, detail, -, -, rfl⟩ := h
  rfl

theorem FailsFrom.trans (h : Advances K r s) (h' : FailsFrom s t) : FailsFrom r t := by
  obtain ⟨u, code, detail, hu, hc, rfl⟩ := h'
  exact ⟨u, code, detail, withData_trans h.frame hu, hc, rfl⟩

theorem Outcome.fail (h : Advances K r s) {code : ErrCode} (hc : code ≠ .none) (detail : BitVec 4) :
    Outcome Q r (s.raiseFatal code detail) :=
  .inl ⟨s, code, detail, h.frame, hc, rfl⟩

theorem Outcome.mono {Q' : State → Prop} (h : Outcome Q s t) (hQ : Q t → Q' t) : Outcome Q' s t := h.imp id hQ

theorem Outcome.of_advances (h : Advances K r s) (h' : Outcome Q s t) : Outcome Q r t := h'.imp (FailsFrom.trans h) id

/-! ### Composition -/

theorem Advances.takeBits {n : Nat} {go : State → Result} (hs : Advances K r s)
    (hg : ∀ u, Advances K r u → go u = .next t → Outcome Q r t) (h : s.takeBits n go = .next t) : Outcome Q r t := by
  obtain ⟨-, e⟩ | ⟨-, -, e⟩ | ⟨hn, -, e⟩ := s.takeBits_cases n go <;> rw [e] at h
  · cases h
    exact .fail hs (by decide) 2
  · cases h
  · exact hg { s with bitpos := s.bitpos + n } (hs.trans ⟨rfl, fun _ => hn, fun _ _ => id⟩) h

theorem Advances.takeBits_next {n : Nat} {g : State → State} (hs : Advances K r s)
    (hg : ∀ u, Advances K r u → Q (g u)) (h : s.takeBits n (fun u => .next (g u)) = .next t) : Outcome Q r t :=
  hs.takeBits (fun u hu e => by cases e; exact .inr (hg u hu)) h

theorem Advances.takeFields {width : Nat} {go : State → Result}
    (hg : ∀ u, Advances K r u → go u = .next t → Outcome Q r t) (count : Nat) {s : State} (hs : Advances K r s)
    (h : s.takeFields width count go = .next t) : Outcome Q r t := by
  induction count generalizing s with
  | zero => exact hg _ hs h
  | succ count ih => exact hs.takeBits (fun _ hu e => ih hu e) h

theorem outcome_andThen {Q' : State → Prop} {o : Result} {k : State → Result}
    (ho : ∀ u, o = .next u → Outcome Q r u) (hk : ∀ u, Q u → k u = .next t → Outcome Q' r t)
    (h : andThen o k = .next t) (hlive : ∀ u, Q u → u.seq ≠ .failed) : Outcome Q' r t := by
  obtain ⟨u, hu, ⟨hf, rfl⟩ | ⟨hf, h⟩⟩ := andThen_eq_next h
  · exact (ho _ hu).imp id fun hq => absurd hf (hlive _ hq)
  · exact (ho u hu).elim (fun e => absurd e.seq hf) fun hq => hk u hq h

/-- A loop establishes what each of its bodies establishes and the operations on the frame keep. -/
theorem outcome_forEach_establishes {s : State} {α : Type} {xs : List α} {body : α → State → Result}
    {P : α → State → Prop}
    (hb : ∀ x ∈ xs, ∀ u v, Advances K r u → body x u = .next v → Outcome (fun v => Advances K u v ∧ P x v) u v)
    (hP : ∀ x u v, Advances K u v → P x u → P x v) (hs : Advances K r s) (hlive : r.seq ≠ .failed)
    (h : forEach xs body s = .next t) : Outcome (fun t => Advances K s t ∧ ∀ x ∈ xs, P x t) s t := by
  induction xs generalizing s with
  | nil => cases h; exact .inr ⟨.refl _, by simp⟩
  | cons x rest ih =>
    refine outcome_andThen (fun v e => hb x (by simp) s v hs e) (fun u ⟨hsu, hx⟩ e => ?_) h
      fun u ⟨hsu, _⟩ => (hs.trans hsu).seq ▸ hlive
    refine .of_advances hsu ((ih (fun y hy => hb y (by simp [hy])) (hs.trans hsu) e).mono fun ⟨hut, hrest⟩ => ?_)
    refine ⟨hsu.trans hut, fun y hy => ?_⟩
    obtain rfl | hy := List.mem_cons.1 hy
    · exact hP _ u t hut hx
    · exact hrest y hy

theorem outcome_forEach {α : Type} {xs : List α} {body : α → State → Result}
    (hb : ∀ x ∈ xs, ∀ u v, u.seq ≠ .failed → body x u = .next v → Outcome (Advances K u) u v)
    (hlive : s.seq ≠ .failed) (h : forEach xs body s = .next t) : Outcome (Advances K s) s t :=
  (outcome_forEach_establishes (P := fun _ _ => True)
    (fun x hx u v hu e => (hb x hx u v (hu.seq ▸ hlive) e).mono fun h => ⟨h, trivial⟩) (fun _ _ _ _ => id) (.refl s)
    hlive h).mono And.left

/-! ### The operations on the frame -/

/-- The operations that store an allocation of a subband and channel, one with the property `K`. -/
inductive Allocates (K : SubCtx → Prop) (sb : Fin 32) (ch : Fin 2) : Instr → Prop
  | l1Alloc (a) (h : ∀ c : SubCtx, K (c.withL1Alloc a).code) : Allocates K sb ch (.l1Alloc sb ch a)
  | l1AllocCorrupt (h : ∀ c : SubCtx, K (c.withL1Alloc 14).code) : Allocates K sb ch (.l1AllocCorrupt sb ch)
  | l2Alloc (tab a) (h : ∀ c : SubCtx, K (c.withL2Alloc tab sb a).code) : Allocates K sb ch (.l2Alloc tab sb ch a)

/-- The operations on the frame. -/
inductive OnFrame (K : SubCtx → Prop) : Instr → Prop
  | data {i : Instr} (h : ReadsData i) : OnFrame K i
  | alloc {i : Instr} {sb ch} (h : Allocates K sb ch i) : OnFrame K i
  | crcWord (c) : OnFrame K (.crcWord c)
  | getBits (n) : OnFrame K (.getBits n)
  | crcCheck : OnFrame K .crcCheck
  | skipToFrameEnd : OnFrame K .skipToFrameEnd
  | l1Dequant (sb ch q a) : OnFrame K (.l1Dequant sb ch q a)
  | l1PutMono (sb) : OnFrame K (.l1PutMono sb)
  | l1PutStereo (sb) : OnFrame K (.l1PutStereo sb)
  | l1PutIntensity (sb) : OnFrame K (.l1PutIntensity sb)
  | rq2 (sb ch k v n) : OnFrame K (.rq2 sb ch k v n)
  | l2PutMono (sb) : OnFrame K (.l2PutMono sb)
  | l2PutStereo (sb) : OnFrame K (.l2PutStereo sb)
  | l2PutIntensity (sb) : OnFrame K (.l2PutIntensity sb)
  | addSample (f sb x) : OnFrame K (.addSample f sb x)

theorem exec_outcome_of_readsData {i : Instr} (hi : ReadsData i) (h : exec i s = .next t) :
    Outcome (Advances K s) s t := by
  have hs : Advances K s s := .refl s
  cases hi <;>
    simp only [exec, execL1Scalefactor, execL1Sample, execL2Scfsi, execL2Scalefactor, execL2Grouped,
      execL2GroupedOutOfRange, execL2Ungrouped, State.storeTriplet, State.crcAdd] at h
  case l1Scalefactor => exact hs.takeBits_next (fun u hu => hu.setEntry) h
  case l1Sample => exact hs.takeBits_next (fun u hu => hu.setSmp ..) h
  case l2Scfsi => exact hs.takeBits_next (fun u hu => Advances.setEntry (hu.update ..)) h
  case l2Scalefactor => exact hs.takeFields (fun u hu e => by cases e; exact .inr hu.setEntry) _ h
  case l2Grouped => exact hs.takeBits_next (fun u hu => hu.setEntry) h
  case l2GroupedOutOfRange => exact hs.takeBits_next (fun u hu => Advances.setEntry (hu.update ..)) h
  case l2Ungrouped =>
    refine hs.takeBits (fun u hu e => ?_) h
    refine (hu.setSmp ..).takeBits (fun u hu e => ?_) e
    exact (hu.setSmp ..).takeBits_next (fun u hu => hu.setSmp ..) e

/-- An allocation that does not fail is stored. -/
theorem exec_outcome_of_allocates {i : Instr} {sb : Fin 32} {ch : Fin 2} (hi : Allocates K sb ch i)
    (h : exec i s = .next t) : Outcome (fun t => Advances K s t ∧ K (t.sub ch sb).code) s t := by
  have hs : Advances K s s := .refl s
  have stored {u : State} {c : SubCtx} (hu : Advances K s u) (hc : K c.code) :
      Advances K s (u.setSub ch sb c) ∧ K ((u.setSub ch sb c).sub ch sb).code :=
    ⟨hu.setSub fun _ => hc, by rwa [State.sub_setSub_same]⟩
  cases hi <;> simp only [exec, execL1Alloc, execL1AllocCorrupt, execL2Alloc] at h
  case l1Alloc hK => exact hs.takeBits_next (fun u hu => stored (hu.update ..) (hK _)) h
  case l2Alloc hK => exact hs.takeBits_next (fun u hu => stored (hu.update ..) (hK _)) h
  case l1AllocCorrupt hK =>
    refine hs.takeBits (fun u hu e => ?_) h
    split at e <;> cases e
    · exact .fail (hu.update ..) (by decide) 1
    · exact .inr (stored (hu.update ..) (hK _))

theorem execCrcCheck_outcome (h : execCrcCheck s = .next t) : Outcome (Advances K s) s t := by
  have hs : Advances K s s := .refl s
  unfold execCrcCheck at h
  split at h
  · split at h <;> cases h
    · exact .fail hs (by decide) 0
    · exact .inr (hs.update ..)
  · cases h
    exact .inr hs

theorem Advances.putMono (s : State) (sb : Fin 32) (k part : Fin 3) : Advances K s (s.putMono sb k part) := by
  unfold State.putMono
  dsimp only
  split
  · exact (Advances.refl s).addSample ..
  · exact .refl s

theorem Advances.putStereo (s : State) (sb : Fin 32) (k part : Fin 3) : Advances K s (s.putStereo sb k part) := by
  have hleft (p : Prop) [Decidable p] (x : NumVal) : Advances K s (if p then s.addSample 0 sb x else s) := by
    split
    · exact (Advances.refl s).addSample ..
    · exact .refl s
  unfold State.putStereo
  dsimp only
  split
  · exact (hleft ..).addSample ..
  · exact hleft ..

theorem Advances.putIntensity (s : State) (sb : Fin 32) (k part : Fin 3) :
    Advances K s (s.putIntensity sb k part) := by
  unfold State.putIntensity
  dsimp only
  split
  · split
    · exact ((Advances.refl s).addSample ..).addSample ..
    · exact (Advances.refl s).addSample ..
    · exact (Advances.refl s).addSample ..
  · exact .refl s

theorem putL2_outcome {put : Fin 3 → Fin 3 → State} (hput : ∀ k part, Advances K s (put k part))
    (h : s.putL2 put = .next t) : Outcome (Advances K s) s t := by
  unfold State.putL2 at h
  split at h
  · cases h
    exact .inr (hput _ _)
  · cases h

/-- What every operation on the frame can do. -/
theorem exec_outcome {i : Instr} (hi : OnFrame K i) (h : exec i s = .next t) : Outcome (Advances K s) s t := by
  have hs : Advances K s s := .refl s
  have next {u : State} (hu : Advances K s u) (e : Host.Outcome.next u = (.next t : Result)) :
      Outcome (Advances K s) s t := by
    cases e
    exact .inr hu
  cases hi <;>
    simp only [exec, execCrcWord, execGetBits, execSkipToFrameEnd, execL1Dequant, execRq2, execAddSample,
      execL1PutMono, execL1PutStereo, execL1PutIntensity] at h
  case data hi => exact exec_outcome_of_readsData hi h
  case alloc hi => exact (exec_outcome_of_allocates hi h).mono And.left
  case crcWord => exact hs.takeBits_next (fun u hu => hu.update ..) h
  case getBits => exact hs.takeBits_next (fun u hu => hu.update ..) h
  case crcCheck => exact execCrcCheck_outcome h
  case skipToFrameEnd => exact next (u := s.skipToFrameEnd) ⟨rfl, fun _ => le_rfl, fun _ _ => id⟩ h
  case l1Dequant => exact next (hs.setSmp ..) h
  case rq2 => exact next (hs.setSmp ..) h
  case addSample => exact next (hs.addSample ..) h
  case l1PutMono => exact next (.putMono ..) h
  case l1PutStereo => exact next (.putStereo ..) h
  case l1PutIntensity => exact next (.putIntensity ..) h
  case l2PutMono => exact putL2_outcome (fun _ _ => .putMono ..) h
  case l2PutStereo => exact putL2_outcome (fun _ _ => .putStereo ..) h
  case l2PutIntensity => exact putL2_outcome (fun _ _ => .putIntensity ..) h

theorem runField_outcome {fmt : Format} (hf : DataFormat fmt) (h : runField fmt s = .next t) :
    Outcome (Advances K s) s t := by
  obtain ⟨i, hi, e⟩ := runField_eq_next h
  exact exec_outcome_of_readsData (decode_readsData hf hi) e

end Sys2Proof.Machine
end

section
/-! The loops of the ALLOC, SCFSI, SCALEFACTORS and SAMPLES steps as operations on the frame. -/
namespace Sys2Proof.Machine

variable {K : SubCtx → Prop} {s t : State}

/-! ### SCFSI, SCALEFACTORS, SAMPLES -/

theorem forAllocated_outcome {nch : Nat} {sb : Fin 32} {body : Fin 2 → State → Result}
    (hb : ∀ ch u v, body ch u = .next v → Outcome (Advances K u) u v) (hlive : s.seq ≠ .failed)
    (h : forAllocated nch sb body s = .next t) : Outcome (Advances K s) s t := by
  refine outcome_forEach (fun ch _ u v _ e => ?_) hlive h
  split at e
  · exact hb ch u v e
  · cases e
    exact .inr (.refl u)

theorem l1SubbandScalefactors_outcome {sb : Fin 32} (hlive : s.seq ≠ .failed)
    (h : l1SubbandScalefactors sb s = .next t) : Outcome (Advances K s) s t := by
  unfold l1SubbandScalefactors at h
  split at h
  · exact forAllocated_outcome (fun ch _ _ e => runField_outcome (.l1Scalefactor sb ch) e) hlive h
  · split at h
    · exact outcome_forEach (fun ch _ _ _ _ e => runField_outcome (.l1Scalefactor sb ch) e) hlive h
    · cases h
      exact .inr (.refl s)

theorem l2SubbandScalefactors_outcome {sb : Fin 32} (hlive : s.seq ≠ .failed)
    (h : l2SubbandScalefactors sb s = .next t) : Outcome (Advances K s) s t :=
  forAllocated_outcome (fun ch _ _ e => runField_outcome (.l2Scalefactor sb ch _) e) hlive h

theorem runSample_outcome {sb : Fin 32} {ch : Fin 2} (h : runSample sb ch s = .next t) :
    Outcome (Advances K s) s t := by
  unfold runSample State.tripletFormat at h
  refine runField_outcome ?_ h
  split
  · exact .l1Sample ..
  · split
    · exact .l2Grouped ..
    · exact .l2Ungrouped ..

theorem Advances.advanceSbst (s : State) (sb : Fin 32) (old new : SubState) :
    Advances K s (s.advanceSbst sb old new) := by
  unfold State.advanceSbst
  split
  · exact (Advances.refl s).setSbst ..
  · exact .refl s

/-- Operations on the frame, then an update of the frame data. -/
theorem outcome_andThen_next {o : Result} {g : State → State} (hlive : s.seq ≠ .failed)
    (ho : ∀ u, o = .next u → Outcome (Advances K s) s u) (hg : ∀ u, Advances K u (g u))
    (h : andThen o (fun u => .next (g u)) = .next t) : Outcome (Advances K s) s t :=
  outcome_andThen ho (fun u hu e => by cases e; exact .inr (hu.trans (hg u))) h fun _ hu => hu.seq ▸ hlive

theorem subbandSamples_outcome {sb : Fin 32} (hlive : s.seq ≠ .failed) (h : subbandSamples sb s = .next t) :
    Outcome (Advances K s) s t :=
  outcome_andThen_next hlive (fun _ e => forAllocated_outcome (fun _ _ _ e => runSample_outcome e) hlive e)
    (fun u => .advanceSbst u ..) h

theorem putOp_onFrame (s : State) (sb : Fin 32) : OnFrame K (s.putOp sb) := by
  unfold State.putOp
  split_ifs
  exacts [.l1PutMono sb, .l1PutStereo sb, .l1PutIntensity sb, .l2PutMono sb, .l2PutStereo sb, .l2PutIntensity sb]

theorem putAll_outcome {limit : Nat} (hlive : s.seq ≠ .failed) (h : putAll limit s = .next t) :
    Outcome (Advances K s) s t :=
  outcome_forEach (fun sb _ u _ _ e => exec_outcome (putOp_onFrame u sb) e) hlive h

end Sys2Proof.Machine
end

section
/-! ALLOC: a loop over the subbands leaves a legal allocation in each of them (42_layer1_decode.md R106,
43_layer2_decode.md R118). -/
namespace Sys2Proof.Machine

variable {K : SubCtx → Prop} {s t : State}

@[simp] theorem mem_channelsBelow {n : Nat} {ch : Fin 2} : ch ∈ channelsBelow n ↔ ch.val < n := by
  simp [channelsBelow]

@[simp] theorem mem_subbandsIn {lo hi : Nat} {sb : Fin 32} : sb ∈ subbandsIn lo hi ↔ lo ≤ sb.val ∧ sb.val < hi := by
  simp [subbandsIn]

/-! ### The allocation a code stores -/

theorem withL1Alloc_coherent {a : BitVec 4} (ha : a ≠ 15#4) (c : SubCtx) : (c.withL1Alloc a).code.coherent true := by
  unfold SubCtx.withL1Alloc
  split
  · exact fun h => absurd ‹_› h
  · exact fun _ => ⟨ha, rfl, rfl⟩

/-- Every number of levels in an allocation table is a quantization class. -/
theorem codeWidth_ne_zero_of_mem {tab : L2Tab} {sb n : Nat} (h : n ∈ (l2Row tab sb).2) : codeWidth n ≠ 0 := by
  have hclasses : ∀ row ∈ ([
      [3, 7, 15, 31, 63, 127, 255, 511, 1023, 2047, 4095, 8191, 16383, 32767, 65535],
      [3, 5, 7, 9, 15, 31, 63, 127, 255, 511, 1023, 2047, 4095, 8191, 65535],
      [3, 5, 7, 9, 15, 31, 65535], [3, 5, 65535],
      [3, 5, 9, 15, 31, 63, 127, 255, 511, 1023, 2047, 4095, 8191, 16383, 32767], [3, 5, 9, 15, 31, 63, 127],
      [3, 5, 7, 9, 15, 31, 63, 127, 255, 511, 1023, 2047, 4095, 8191, 16383], [3, 5, 9], []] : List (List Nat)),
      ∀ n ∈ row, codeWidth n ≠ 0 := by decide
  refine hclasses _ ?_ n h
  cases tab <;> simp only [l2Row] <;> split_ifs <;> simp

/-- A subband below `sblimit` has a level for every code but 0. -/
theorem two_pow_nbal {tab : L2Tab} {sb : Nat} (h : sb < l2Sblimit tab) :
    2 ^ nbal tab sb = (l2Row tab sb).2.length + 1 := by
  cases tab
  case lsf =>
    have h30 : sb < 30 := h
    simp only [nbal, l2Row]
    split_ifs <;> rfl
  all_goals
    simp only [nbal, l2Row]
    split_ifs <;> rfl

theorem withL2Alloc_coherent {tab : L2Tab} {sb : Fin 32} {a : BitVec 4} (hsb : sb.val < l2Sblimit tab)
    (ha : a.toNat < 2 ^ nbal tab sb.val) (c : SubCtx) : (c.withL2Alloc tab sb a).code.coherent false := by
  unfold SubCtx.withL2Alloc
  split
  · exact fun h => absurd ‹_› h
  · next hne =>
    have hpos : a.toNat ≠ 0 := fun e => hne (BitVec.eq_of_toNat_eq e)
    have hlt : a.toNat - 1 < (l2Row tab sb.val).2.length := by
      rw [two_pow_nbal hsb] at ha
      omega
    have hmem : levels tab sb.val a.toNat ∈ (l2Row tab sb.val).2 := by
      rw [levels, List.getD_eq_getElem _ _ hlt]
      exact List.getElem_mem hlt
    exact fun _ => ⟨rfl, codeWidth_ne_zero_of_mem hmem, rfl⟩

theorem decode_l1Alloc_allocates {sb : Fin 32} {ch : Fin 2} {w : Nat} {i : Instr}
    (h : decode (.l1Alloc sb ch) w = .ok i) : Allocates (·.coherent true) sb ch i := by
  unfold decode at h
  split at h
  · next hw =>
    cases h
    split
    · exact .l1AllocCorrupt (withL1Alloc_coherent (by decide))
    · next hne =>
      refine .l1Alloc _ (withL1Alloc_coherent fun e => hne ?_)
      have := congrArg BitVec.toNat e
      simp only [BitVec.toNat_ofNat] at this
      simp only [Format.width] at hw
      omega
  · cases h

theorem decode_l2Alloc_allocates {tab : L2Tab} {sb : Fin 32} {ch : Fin 2} {w : Nat} {i : Instr}
    (h : decode (.l2Alloc tab sb ch) w = .ok i) : Allocates (·.coherent false) sb ch i := by
  unfold decode at h
  split at h
  · next hw =>
    simp only [decodeFitting] at h
    split at h <;> cases h
    have hmod : (BitVec.ofNat 4 w).toNat ≤ w := by
      rw [BitVec.toNat_ofNat]
      exact Nat.mod_le ..
    exact .l2Alloc tab _ (withL2Alloc_coherent ‹_› (hmod.trans_lt hw))
  · cases h

/-! ### The loop -/

/-- What ends a subband's allocation leaves a legal one in every stream channel. -/
theorem closeAlloc_advances {sb : Fin 32} (hnch : s.hdr.nch = 1 ∨ s.hdr.nch = 2)
    (h : ∀ ch ∈ s.allocChannels sb, K (s.sub ch sb).code) :
    Advances K s (s.closeAlloc sb) ∧ ∀ ch : Fin 2, ch.val < s.hdr.nch → K ((s.closeAlloc sb).sub ch sb).code := by
  have hmem {ch : Fin 2} : ch ∈ s.allocChannels sb ↔ ch.val < if sb.val < s.hdr.bound then s.hdr.nch else 1 :=
    mem_channelsBelow
  have h0 : K (s.sub 0 sb).code := h 0 (hmem.2 (by split <;> simp; omega))
  unfold State.closeAlloc
  dsimp only
  split
  · have hcopy := (Advances.refl s).setSub (ch := 1) (sb := sb) (c := { s.sub 1 sb with
      alloc := (s.sub 0 sb).alloc, lev := (s.sub 0 sb).lev, cw := (s.sub 0 sb).cw, grp := (s.sub 0 sb).grp })
      fun _ => h0
    refine ⟨hcopy.setSbst .., fun ch _ => ?_⟩
    match ch with
    | 0 => exact hcopy.kept 0 sb h0
    | 1 =>
      change K (State.sub (s.setSub 1 sb _) 1 sb).code
      rw [State.sub_setSub_same]
      exact h0
  · next hne =>
    refine ⟨(Advances.refl s).setSbst .., fun ch hch => h ch (hmem.2 ?_)⟩
    split <;> omega

theorem readAllocations_outcome {limit : Nat} {fmt : Fin 32 → Fin 2 → Format}
    (hfmt : ∀ sb ch w i, decode (fmt sb ch) w = .ok i → Allocates K sb ch i) (hnch : s.hdr.nch = 1 ∨ s.hdr.nch = 2)
    (hlive : s.seq ≠ .failed) (h : readAllocations limit fmt s = .next t) :
    Outcome (fun t => Advances K s t ∧
      ∀ sb : Fin 32, sb.val < limit → ∀ ch : Fin 2, ch.val < s.hdr.nch → K (t.sub ch sb).code) s t := by
  have hsubband : ∀ sb ∈ subbandsIn 0 limit, ∀ u v, Advances K s u →
      andThen (forEach (u.allocChannels sb) (fun ch => runField (fmt sb ch)) u) (fun w => .next (w.closeAlloc sb)) =
        .next v →
      Outcome (fun v => Advances K u v ∧ ∀ ch : Fin 2, ch.val < s.hdr.nch → K (v.sub ch sb).code) u v := by
    intro sb _ u v hu e
    refine outcome_andThen (Q := fun w => Advances K u w ∧ ∀ ch ∈ u.allocChannels sb, K (w.sub ch sb).code)
      (fun w e => ?_) (fun w ⟨huw, hw⟩ e => ?_) e fun w ⟨huw, _⟩ => (hu.trans huw).seq ▸ hlive
    · refine outcome_forEach_establishes (P := fun ch v => K (v.sub ch sb).code) (fun ch _ x y _ e => ?_)
        (fun ch x y hxy => hxy.kept ch sb) (.refl u) (hu.seq ▸ hlive) e
      obtain ⟨i, hi, e⟩ := runField_eq_next e
      exact exec_outcome_of_allocates (hfmt _ _ _ _ hi) e
    · cases e
      have hhdr : w.hdr = s.hdr := (hu.trans huw).hdr
      obtain ⟨hclose, hall⟩ := closeAlloc_advances (s := w) (sb := sb) (hhdr ▸ hnch)
        (by simpa only [State.allocChannels, huw.hdr] using hw)
      exact .inr ⟨huw.trans hclose, fun ch hch => hall ch (hhdr ▸ hch)⟩
  refine (outcome_forEach_establishes hsubband (fun sb u v huv hq ch hch => huv.kept ch sb (hq ch hch)) (.refl s)
    hlive h).mono fun ⟨hst, hall⟩ => ⟨hst, fun sb hsb => hall sb (mem_subbandsIn.2 ⟨Nat.zero_le _, hsb⟩)⟩

theorem Advances.clearSbst (s : State) (sbs : List (Fin 32)) :
    Advances K s (sbs.foldl (fun s sb => s.setSbst sb .unalloc) s) := by
  induction sbs generalizing s with
  | nil => exact .refl s
  | cons sb rest ih => exact ((Advances.refl s).setSbst sb .unalloc).trans (ih _)

end Sys2Proof.Machine
end

section
/-! The record of an accepted header (41_header_parser.md R98 to R103): what its fields can be. -/
namespace Sys2Proof.Machine

/-- The rates of an accepted Layer I header keep the frame between 32 and 2880 bytes. -/
theorem layerI_rates : ∀ (ver sfi : BitVec 2) (bri : BitVec 4), ver ≠ 1#2 → sfi ≠ 3#2 → bri ≠ 0#4 → bri ≠ 15#4 →
    0 < sampleRate ver sfi ∧ 8 * sampleRate ver sfi ≤ 12000 * bitrateOf (ver != 0b11#2) true bri ∧
      12000 * bitrateOf (ver != 0b11#2) true bri < 720 * sampleRate ver sfi := by decide

/-- The rates of an accepted Layer II header keep the frame between 32 and 2881 bytes. -/
theorem layerII_rates : ∀ (ver sfi : BitVec 2) (bri : BitVec 4), ver ≠ 1#2 → sfi ≠ 3#2 → bri ≠ 0#4 → bri ≠ 15#4 →
    0 < sampleRate ver sfi ∧ 32 * sampleRate ver sfi ≤ 144000 * bitrateOf (ver != 0b11#2) false bri ∧
      144000 * bitrateOf (ver != 0b11#2) false bri < 2881 * sampleRate ver sfi := by decide

theorem accepted_iff {h : HeaderFields} : h.accepted = true ↔
    h.sync = 0x7FF#11 ∧ h.raw.ver ≠ 1#2 ∧ (h.raw.layer = 0b11#2 ∨ h.raw.layer = 0b10#2) ∧ h.raw.bri ≠ 0#4 ∧
      h.raw.bri ≠ 15#4 ∧ h.raw.sfi ≠ 3#2 := by
  simp [HeaderFields.accepted, HeaderFields.bitrateOk, HeaderFields.layerOk, HeaderFields.versionOk,
    HeaderFields.syncOk, and_assoc]

/-- 41_header_parser.md R100. -/
theorem headerRecord_flen_bounds {h : HeaderFields} (hacc : h.accepted = true) (sel : ChanSel) :
    32 ≤ (headerRecord sel h.raw).flen ∧ (headerRecord sel h.raw).flen ≤ 2881 := by
  obtain ⟨-, hver, hlayer, hbri, hbri', hsfi⟩ := accepted_iff.1 hacc
  have hpad : h.raw.pad.toNat < 2 := h.raw.pad.isLt
  change 32 ≤ frameLength (h.raw.layer == 0b11#2) (bitrateOf (h.raw.ver != 0b11#2) (h.raw.layer == 0b11#2) h.raw.bri)
      (sampleRate h.raw.ver h.raw.sfi) h.raw.pad.toNat ∧
    frameLength (h.raw.layer == 0b11#2) (bitrateOf (h.raw.ver != 0b11#2) (h.raw.layer == 0b11#2) h.raw.bri)
      (sampleRate h.raw.ver h.raw.sfi) h.raw.pad.toNat ≤ 2881
  cases h.raw.layer == 0b11#2 with
  | true =>
    obtain ⟨hpos, hlow, hhigh⟩ := layerI_rates _ _ _ hver hsfi hbri hbri'
    have := (Nat.le_div_iff_mul_le hpos).2 hlow
    have := (Nat.div_lt_iff_lt_mul hpos).2 hhigh
    simp only [frameLength, if_true]
    omega
  | false =>
    obtain ⟨hpos, hlow, hhigh⟩ := layerII_rates _ _ _ hver hsfi hbri hbri'
    have := (Nat.le_div_iff_mul_le hpos).2 hlow
    have := (Nat.div_lt_iff_lt_mul hpos).2 hhigh
    simp only [frameLength, Bool.false_eq_true, if_false]
    omega

variable {r : HdrRecord} {sel : ChanSel}

theorem headerRecord_legal {h : HeaderFields} (hacc : h.accepted = true) (sel : ChanSel) :
    (headerRecord sel h.raw).legal sel := by
  refine ⟨accepted_iff.2 ?_, rfl⟩
  obtain ⟨-, hrest⟩ := accepted_iff.1 hacc
  exact ⟨rfl, hrest⟩

theorem HdrRecord.legal.flen_bounds (h : r.legal sel) : 32 ≤ r.flen ∧ r.flen ≤ 2881 := by
  rw [h.2]
  exact headerRecord_flen_bounds h.1 sel

theorem HdrRecord.legal.nch (h : r.legal sel) : r.nch = 1 ∨ r.nch = 2 := by
  rw [h.2]
  change channelCount _ = 1 ∨ channelCount _ = 2
  unfold channelCount
  split
  · exact .inl rfl
  · exact .inr rfl

theorem HdrRecord.legal.nslots (h : r.legal sel) : r.nslots = if r.raw.layer == 0b11#2 then 12 else 36 := by
  rw [h.2]
  rfl

/-- A Layer I frame has no allocation table and 32 subbands. -/
theorem HdrRecord.legal.layerI (h : r.legal sel) (hl : (r.raw.layer == 0b11#2) = true) :
    r.l2tab = none ∧ r.sblimit = 32 := by
  rw [h.2]
  simp only [headerRecord, hl, if_true, Option.map_none, Option.getD_none, and_self]

/-- A Layer II frame has the subbands of its allocation table. -/
theorem HdrRecord.legal.layerII (h : r.legal sel) (hl : (r.raw.layer == 0b11#2) = false) :
    ∃ tab, r.l2tab = some tab ∧ r.sblimit = l2Sblimit tab := by
  rw [h.2]
  simp only [headerRecord, hl, Bool.false_eq_true, if_false, Option.map_some, Option.getD_some]
  exact ⟨_, rfl, rfl⟩

end Sys2Proof.Machine
end

section
/-! The invariant by the sequencer's state: outside a frame, in FETCH, and with the whole frame in FB; and that the
operations on the frame keep it. -/
namespace Sys2Proof.Machine

/-- The frame buffer is as the invariant asks. -/
structure State.BufferLegal (s : State) : Prop where
  params : s.params.legal
  canonical : s.fb.wf = true
  inside : ∀ c ∈ s.fb, c.1 < s.params.frameBufBytes

/-- No error is recorded and OB is empty. -/
structure State.Calm (s : State) : Prop extends s.BufferLegal where
  noError : s.errcode = .none
  noDetail : s.errdetail = 0
  obEmpty : s.ob = [] ∧ s.obRd = 0

/-- The frame of an accepted header is being read, without an error. -/
structure State.InFrame (s : State) : Prop extends s.BufferLegal where
  noError : s.errcode = .none
  noDetail : s.errdetail = 0
  hdrLegal : s.hdr.legal s.cfg.chansel
  flenHdr : s.flen.toNat = s.hdr.flen

/-- All of the frame is in FB, and the cursor is inside it. -/
structure State.HoldsFrame (s : State) : Prop extends s.InFrame where
  allBytes : s.framePos = s.flen.toNat
  cursor : s.bitpos ≤ 8 * s.flen.toNat

/-- The context file fits the frame. -/
def State.Coherent (s : State) : Prop :=
  ∀ (ch : Fin 2) (sb : Fin 32), ch.val < s.hdr.nch → sb.val < s.hdr.sblimit → (s.sub ch sb).coherent s.isLayerI

/-- The counters of SAMPLES in slot `slot`. -/
def State.SlotCounters (s : State) : Prop :=
  (s.isLayerI = true → s.slot < 12 ∧ s.l1n = s.slot) ∧
    (s.isLayerI = false → s.slot < 36 ∧ s.sn = s.slot % 3 ∧ s.gn = (s.slot + 2) / 3)

variable {s t : State}

/-! ### From the invariant -/

theorem State.Inv.bufferLegal (h : s.Inv) : s.BufferLegal := ⟨h.paramsLegal, h.fbCanonical, h.fbInside⟩

theorem State.Inv.calm (h : s.Inv) (hf : s.seq ≠ .failed) (hs : s.seq ≠ .samples) (he : s.seq ≠ .emit) : s.Calm :=
  ⟨h.bufferLegal, h.errIffFailed.2 hf, h.detailZero hf, h.obElsewhere hs he⟩

theorem State.Inv.inFrame (h : s.Inv) (hseq : s.seq.inFrame = true) : s.InFrame := by
  have hlive : s.seq ≠ .failed := fun e => by simp [e, SeqState.inFrame] at hseq
  exact ⟨h.bufferLegal, h.errIffFailed.2 hlive, h.detailZero hlive, (h.hdrLegal hseq).1, (h.hdrLegal hseq).2⟩

theorem State.Inv.holdsFrame (h : s.Inv) (hseq : s.seq.fetched = true) : s.HoldsFrame := by
  have hin : s.seq.inFrame = true := by
    cases e : s.seq <;> simp [e, SeqState.fetched, SeqState.inFrame] at hseq ⊢
  exact ⟨h.inFrame hin, h.allBytes hseq, h.cursorInside hseq⟩

theorem State.Inv.coherent (h : s.Inv) (hseq : s.seq.allocated = true) : s.Coherent := h.ctxCoherent hseq

/-! ### To the invariant -/

/-- Outside a frame. -/
theorem State.BufferLegal.inv (h : s.BufferLegal) (hout : s.seq.inFrame = false)
    (herr : s.errcode = .none ↔ s.seq ≠ .failed) (hdetail : s.seq ≠ .failed → s.errdetail = 0)
    (hob : s.ob = [] ∧ s.obRd = 0)
    (hheader : s.seq = .header → s.hdrBytes < 4 ∧ (s.hdrBytes ≠ 0 → s.framePos = s.hdrBytes)) : s.Inv := by
  have hne {p : SeqState} (hp : p.inFrame = true) : s.seq ≠ p := fun e => by simp [e, hp] at hout
  have hfetched : s.seq.fetched ≠ true := by
    cases e : s.seq <;> simp [e, SeqState.fetched, SeqState.inFrame] at hout ⊢
  have halloc : s.seq.allocated ≠ true := by
    cases e : s.seq <;> simp [e, SeqState.allocated, SeqState.inFrame] at hout ⊢
  exact {
    paramsLegal := h.params, fbCanonical := h.canonical, fbInside := h.inside
    errIffFailed := herr, detailZero := hdetail
    obElsewhere := fun _ _ => hob
    obSamples := fun e => absurd e (hne rfl)
    obEmit := fun e => absurd e (hne rfl)
    headerBytes := hheader
    fetchBytes := fun e => absurd e (hne rfl)
    allBytes := fun e => absurd e hfetched
    hdrLegal := fun e => by simp [hout] at e
    scfsiLayerII := fun e => absurd e (hne rfl)
    cursorInside := fun e => absurd e hfetched
    ctxCoherent := fun e => absurd e halloc
    layerISlot := fun e => absurd e (hne rfl)
    layerIISlot := fun e => absurd e (hne rfl) }

/-- Calm is a matter of six elements of the state. -/
theorem State.Calm.congr (h : s.Calm) (hparams : t.params = s.params := by rfl) (hfb : t.fb = s.fb := by rfl)
    (hcode : t.errcode = s.errcode := by rfl) (hdetail : t.errdetail = s.errdetail := by rfl)
    (hob : t.ob = s.ob := by rfl) (hrd : t.obRd = s.obRd := by rfl) : t.Calm := by
  obtain ⟨⟨hp, hc, hi⟩, he, hd, ho⟩ := h
  rw [← hfb] at hc hi
  rw [← hparams] at hp hi
  exact ⟨⟨hp, hc, hi⟩, hcode.trans he, hdetail.trans hd, hob.trans ho.1, hrd.trans ho.2⟩

/-- Outside a frame and outside FAILED. -/
theorem State.Calm.inv (h : s.Calm) (hout : s.seq.inFrame = false) (hf : s.seq ≠ .failed)
    (hheader : s.seq = .header → s.hdrBytes < 4 ∧ (s.hdrBytes ≠ 0 → s.framePos = s.hdrBytes)) : s.Inv :=
  h.toBufferLegal.inv hout (iff_of_true h.noError hf) (fun _ => h.noDetail) h.obEmpty hheader

/-- In a frame. -/
theorem State.InFrame.inv (h : s.InFrame) (hin : s.seq.inFrame = true)
    (hob : s.seq ≠ .samples → s.seq ≠ .emit → s.ob = [] ∧ s.obRd = 0)
    (hfetch : s.seq = .fetch → 4 ≤ s.framePos ∧ s.framePos < s.flen.toNat)
    (hholds : s.seq ≠ .fetch → s.HoldsFrame)
    (hscfsi : s.seq = .scfsi → s.isLayerI = false)
    (hctx : s.seq.allocated = true → s.Coherent)
    (hsamples : s.seq = .samples → s.ob.length = 32 * s.slot ∧ s.obRd = 0 ∧ s.SlotCounters)
    (hemit : s.seq = .emit → s.ob.length = 32 * s.hdr.nslots ∧ s.obRd < s.ob.length) : s.Inv := by
  have hne {p : SeqState} (hp : p.inFrame = false) : s.seq ≠ p := fun e => by simp [e, hp] at hin
  have hfetched (e : s.seq.fetched = true) : s.HoldsFrame := hholds fun e' => by simp [e', SeqState.fetched] at e
  exact {
    paramsLegal := h.params, fbCanonical := h.canonical, fbInside := h.inside
    errIffFailed := iff_of_true h.noError (hne rfl)
    detailZero := fun _ => h.noDetail
    obElsewhere := hob
    obSamples := fun e => ⟨(hsamples e).1, (hsamples e).2.1⟩
    obEmit := hemit
    headerBytes := fun e => absurd e (hne rfl)
    fetchBytes := hfetch
    allBytes := fun e => (hfetched e).allBytes
    hdrLegal := fun _ => ⟨h.hdrLegal, h.flenHdr⟩
    scfsiLayerII := hscfsi
    cursorInside := fun e => (hfetched e).cursor
    ctxCoherent := hctx
    layerISlot := fun e => (hsamples e).2.2.1
    layerIISlot := fun e => (hsamples e).2.2.2 }

/-! ### Operations on the frame -/

/-- The states an update of the sequencer, the counters or the output leaves are as good. -/
theorem State.HoldsFrame.update (h : s.HoldsFrame) (seq : SeqState) (slot l1n gn sn : Nat) (filt : Vector Filter 2)
    (ob : List Beat) (obRd : Nat) (sbst : Vector SubState 32) (delivered : List OutBeat) :
    State.HoldsFrame { s with
      seq := seq, slot := slot, l1n := l1n, gn := gn, sn := sn, filt := filt, ob := ob, obRd := obRd, sbst := sbst
      delivered := delivered } :=
  ⟨⟨⟨h.params, h.canonical, h.inside⟩, h.noError, h.noDetail, h.hdrLegal, h.flenHdr⟩, h.allBytes, h.cursor⟩

variable {K : SubCtx → Prop}

theorem Advances.bufferLegal (h : Advances K s t) (hs : s.BufferLegal) : t.BufferLegal := by
  rw [h.frame]
  exact ⟨hs.params, hs.canonical, hs.inside⟩

theorem Advances.holdsFrame (h : Advances K s t) (hs : s.HoldsFrame) : t.HoldsFrame := by
  have hcursor : t.bitpos ≤ 8 * s.flen.toNat := h.cursor hs.cursor
  rw [h.frame]
  exact ⟨⟨⟨hs.params, hs.canonical, hs.inside⟩, hs.noError, hs.noDetail, hs.hdrLegal, hs.flenHdr⟩, hs.allBytes,
    hcursor⟩

theorem Advances.coherent {layerI : Bool} (h : Advances (·.coherent layerI) s t) (hl : layerI = s.isLayerI)
    (hs : s.Coherent) : t.Coherent := by
  subst hl
  intro ch sb hch hsb
  rw [h.isLayerI]
  rw [h.hdr] at hch hsb
  exact h.kept ch sb (hs ch sb hch hsb)

/-- A step that fails keeps the invariant. -/
theorem FailsFrom.inv (hs : s.BufferLegal) (h : FailsFrom s t) : t.Inv := by
  obtain ⟨u, code, detail, hu, hcode, rfl⟩ := h
  have hbuf : State.BufferLegal (u.raiseFatal code detail) := by
    rw [hu]
    exact ⟨hs.params, hs.canonical, hs.inside⟩
  exact hbuf.inv rfl (iff_of_false hcode fun e => e rfl) (fun e => absurd rfl e) ⟨rfl, rfl⟩ fun e => by cases e

end Sys2Proof.Machine
end

section
/-! HEADER and FETCH: what taking a byte, the fourth byte and the last byte can do, and that the invariant is kept. -/
namespace Sys2Proof.Machine

variable {s t : State}

/-! ### The cases of the operations -/

/-- PARSE_HEADER raises a fatal error, HEADER written or not, or accepts the header. -/
theorem parseHeader_cases {h : HeaderFields} (ht : parseHeader h s = .next t) :
    (∃ w code detail, code ≠ .none ∧ t = State.raiseFatal { s with header := w } code detail) ∨
      (h.accepted = true ∧ t = s.acceptHeader h) := by
  have reject {u : State} {w : Word} {code : ErrCode} {detail : BitVec 4} (hcode : code ≠ .none)
      (hu : u = { s with header := w }) (e : Host.Outcome.next (u.raiseFatal code detail) = (.next t : Result)) :
      ∃ w code detail, code ≠ .none ∧ t = State.raiseFatal { s with header := w } code detail := by
    cases e
    exact ⟨w, code, detail, hcode, hu ▸ rfl⟩
  have two_layers : ∀ layer : BitVec 2, layer ≠ 0b00#2 → layer ≠ 0b01#2 → layer = 0b11#2 ∨ layer = 0b10#2 := by decide
  unfold parseHeader at ht
  obtain ⟨-, e⟩ | ⟨hsync, ht⟩ := ite_eq_iff.1 ht
  · exact .inl (reject (w := s.header) (by decide) rfl e)
  obtain ⟨-, e⟩ | ⟨hver, ht⟩ := ite_eq_iff.1 ht
  · exact .inl (reject (by decide) rfl e)
  obtain ⟨-, e⟩ | ⟨hlayer, ht⟩ := ite_eq_iff.1 ht
  · exact .inl (reject (by decide) rfl e)
  obtain ⟨-, e⟩ | ⟨hlayer', ht⟩ := ite_eq_iff.1 ht
  · exact .inl (reject (by decide) rfl e)
  obtain ⟨-, e⟩ | ⟨hbri, ht⟩ := ite_eq_iff.1 ht
  · exact .inl (reject (by decide) rfl e)
  obtain ⟨-, e⟩ | ⟨hbri', ht⟩ := ite_eq_iff.1 ht
  · exact .inl (reject (by decide) rfl e)
  obtain ⟨-, e⟩ | ⟨hsfi, ht⟩ := ite_eq_iff.1 ht
  · exact .inl (reject (by decide) rfl e)
  have hacc := accepted_iff.2 ⟨not_not.1 hsync, hver, two_layers _ hlayer hlayer', hbri, hbri', hsfi⟩
  have haccept : Host.Outcome.next (s.acceptHeader h) = (.next t : Result) := by split_ifs at ht <;> exact ht
  injection haccept with haccept
  exact .inr ⟨hacc, haccept.symm⟩

/-- `frame_start` written with the first byte of a header (40_bitstream_reader.md R83). -/
def State.markStart (s : State) : State := if s.hdrBytes = 0 then { s with frameStart := s.byteCount } else s

theorem State.markStart_eq (s : State) : s.markStart = { s with frameStart := s.markStart.frameStart } := by
  unfold State.markStart
  split <;> rfl

/-- A header byte taken, stored and collected (40_bitstream_reader.md R83). -/
def State.collectByte (s : State) (b : Byte) (rest : List Byte) : State :=
  { s.markStart.takeByte rest with
    fb := s.fb.write s.hdrBytes b, hdrWord := s.hdrWord.extractLsb' 0 24 ++ b, hdrBytes := s.hdrBytes + 1 }

theorem execReadHeaderBytes_byte {b : Byte} {rest : List Byte} (h : s.src.avail = b :: rest) :
    execReadHeaderBytes s = if s.hdrBytes < s.params.frameBufBytes then
        if s.hdrBytes + 1 = 4 then
          parseHeader (HeaderFields.ofWord (s.collectByte b rest).hdrWord) (s.collectByte b rest)
        else .next (s.collectByte b rest)
      else .fault .frameBufferOverrun := by
  have hanswer : s.src.answer = .byte b rest := by simp only [Source.answer, h]
  simp only [execReadHeaderBytes, hanswer, State.storeFb, State.collectByte, State.markStart]
  split <;> rfl

theorem execReadHeaderBytes_eos (h : s.src.avail = []) (he : s.src.eos = true) :
    execReadHeaderBytes s = .next (if s.hdrBytes = 0 then { s.markStart with seq := .done }
      else s.markStart.raiseFatal .bitstreamUnderrun 1) := by
  have hanswer : s.src.answer = .eos := by simp only [Source.answer, h, he, if_true]
  by_cases h0 : s.hdrBytes = 0 <;> simp only [execReadHeaderBytes, hanswer, State.markStart, h0, if_true, if_false]

theorem execReadHeaderBytes_waiting (h : s.src.avail = []) (he : s.src.eos = false) :
    execReadHeaderBytes s = .next s := by
  have hanswer : s.src.answer = .waiting := by simp only [Source.answer, h, he, Bool.false_eq_true, if_false]
  simp only [execReadHeaderBytes, hanswer]

/-- A frame byte taken and stored (40_bitstream_reader.md R84). -/
def State.fetchByte (s : State) (b : Byte) (rest : List Byte) : State :=
  { s.takeByte rest with fb := s.fb.write s.framePos b }

theorem execFetchFrame_end (h : s.flen.toNat ≤ s.framePos) : execFetchFrame s = finishFetch s := if_pos h

theorem execFetchFrame_byte {b : Byte} {rest : List Byte} (hpos : s.framePos < s.flen.toNat)
    (h : s.src.avail = b :: rest) :
    execFetchFrame s = if s.framePos < s.params.frameBufBytes then
        if s.flen.toNat ≤ (s.fetchByte b rest).framePos then finishFetch (s.fetchByte b rest)
        else .next (s.fetchByte b rest)
      else .fault .frameBufferOverrun := by
  have hanswer : s.src.answer = .byte b rest := by simp only [Source.answer, h]
  simp only [execFetchFrame, hanswer, if_neg (not_le.2 hpos)]
  rfl

theorem execFetchFrame_eos (hpos : s.framePos < s.flen.toNat) (h : s.src.avail = []) (he : s.src.eos = true) :
    execFetchFrame s = .next (s.raiseFatal .bitstreamUnderrun 1) := by
  have hanswer : s.src.answer = .eos := by simp only [Source.answer, h, he, if_true]
  simp only [execFetchFrame, hanswer, if_neg (not_le.2 hpos)]

theorem execFetchFrame_waiting (hpos : s.framePos < s.flen.toNat) (h : s.src.avail = []) (he : s.src.eos = false) :
    execFetchFrame s = .next s := by
  have hanswer : s.src.answer = .waiting := by simp only [Source.answer, h, he, Bool.false_eq_true, if_false]
  simp only [execFetchFrame, hanswer, if_neg (not_le.2 hpos)]

/-- The cursor after the header and the CRC as CrcInit leaves it (40_bitstream_reader.md R84, R87). -/
def State.startFrame (s : State) : State := State.crcInit { s with bitpos := 32 }

theorem State.startFrame_eq (s : State) : s.startFrame = { s with bitpos := 32, crc := s.startFrame.crc } := by
  unfold State.startFrame State.crcInit
  dsimp only
  split <;> rfl

/-- The end of FETCH: READ_CRC_WORD if there is one, then ALLOC. -/
theorem finishFetch_outcome {K : SubCtx → Prop} (hlive : s.seq ≠ .failed) (h : finishFetch s = .next t) :
    Outcome (fun t => ∃ u, Advances K s.startFrame u ∧ t = { u with seq := .alloc }) s.startFrame t := by
  have hseq : s.startFrame.seq = s.seq := by rw [s.startFrame_eq]
  refine outcome_andThen (Q := Advances K s.startFrame) (fun u e => ?_)
    (fun u hu e => by cases e; exact .inr ⟨u, hu, rfl⟩) h fun u hu => by rw [hu.seq, hseq]; exact hlive
  split at e
  · exact exec_outcome (.crcWord _) e
  · cases e
    exact .inr (.refl _)

end Sys2Proof.Machine
end

section
/-! HEADER and FETCH keep the invariant. -/
namespace Sys2Proof.Machine

variable {s t : State}

/-- One byte more between `frame_start` and BYTE_COUNT (40_bitstream_reader.md R91). -/
theorem toNat_sub_succ {a b : Word} {k : Nat} (h : (a - b).toNat = k) (hk : k + 1 < 2 ^ 32) :
    (a + 1#32 - b).toNat = k + 1 := by
  bv_omega

theorem State.BufferLegal.writeFb (h : s.BufferLegal) {u : State} {k : Nat} {b : Byte} (hp : u.params = s.params)
    (hfb : u.fb = s.fb.write k b) (hk : k < s.params.frameBufBytes) : u.BufferLegal where
  params := hp ▸ h.params
  canonical := hfb ▸ Memory.write_wf k b h.canonical
  inside := hp ▸ hfb ▸ Memory.write_inside h.inside hk

theorem markStart_first (h : s.hdrBytes = 0) : s.markStart = { s with frameStart := s.byteCount } := if_pos h
theorem markStart_later (h : s.hdrBytes ≠ 0) : s.markStart = s := if_neg h

theorem State.Calm.markStart (h : s.Calm) : s.markStart.Calm := by
  rw [s.markStart_eq]
  exact h.congr

theorem State.Calm.collectByte (h : s.Calm) (hk : s.hdrBytes < s.params.frameBufBytes) (b : Byte) (rest : List Byte) :
    (s.collectByte b rest).Calm := by
  rw [State.collectByte, s.markStart_eq]
  exact ⟨h.writeFb rfl rfl hk, h.noError, h.noDetail, h.obEmpty⟩

theorem collectByte_framePos (b : Byte) (rest : List Byte) (hlt : s.hdrBytes < 4)
    (hpos : s.hdrBytes ≠ 0 → s.framePos = s.hdrBytes) : (s.collectByte b rest).framePos = s.hdrBytes + 1 := by
  refine toNat_sub_succ (?_ : (s.markStart.byteCount - s.markStart.frameStart).toNat = s.hdrBytes) (by omega)
  by_cases h0 : s.hdrBytes = 0
  · simp [markStart_first h0, h0]
  · rw [markStart_later h0]
    exact hpos h0

/-- An accepted header starts FETCH (41_header_parser.md R92 step 7). -/
theorem State.Calm.acceptHeader {h : HeaderFields} (hs : s.Calm) (hacc : h.accepted = true) (hpos : s.framePos = 4) :
    (s.acceptHeader h).Inv := by
  obtain ⟨hge, hle⟩ := headerRecord_flen_bounds hacc s.cfg.chansel
  have hflen : (s.acceptHeader h).flen.toNat = (headerRecord s.cfg.chansel h.raw).flen := by
    change (BitVec.ofNat 16 (headerRecord s.cfg.chansel h.raw).flen).toNat = _
    rw [BitVec.toNat_ofNat, Nat.mod_eq_of_lt (by omega)]
  have hpos' : (s.acceptHeader h).framePos = 4 := hpos
  refine State.InFrame.inv ⟨⟨hs.params, hs.canonical, hs.inside⟩, hs.noError, hs.noDetail, headerRecord_legal hacc _,
    hflen⟩ rfl (fun _ _ => hs.obEmpty) (fun _ => by omega) (fun hne => absurd rfl hne) ?_ ?_ ?_ ?_ <;>
    exact fun e => by cases e

theorem State.Calm.parseHeader {h : HeaderFields} (hs : s.Calm) (hpos : s.framePos = 4)
    (ht : Machine.parseHeader h s = .next t) : t.Inv := by
  obtain ⟨w, code, detail, hcode, rfl⟩ | ⟨hacc, rfl⟩ := parseHeader_cases ht
  · exact FailsFrom.inv (s := { s with header := w }) ⟨hs.params, hs.canonical, hs.inside⟩ ⟨_, _, _, rfl, hcode, rfl⟩
  · exact hs.acceptHeader hacc hpos

theorem State.BufferLegal.lt_frameBufBytes (h : s.BufferLegal) {k : Nat} (hk : k < 2881) :
    k < s.params.frameBufBytes :=
  hk.trans_le h.params

theorem headerStep_inv (hs : s.Inv) (hseq : s.seq = .header) (h : execReadHeaderBytes s = .next t) : t.Inv := by
  have hcalm : s.Calm := hs.calm (by simp [hseq]) (by simp [hseq]) (by simp [hseq])
  obtain ⟨hlt, hpos⟩ := hs.headerBytes hseq
  cases havail : s.src.avail with
  | nil =>
    cases heos : s.src.eos with
    | false =>
      rw [execReadHeaderBytes_waiting havail heos] at h
      cases h
      exact hs
    | true =>
      rw [execReadHeaderBytes_eos havail heos] at h
      injection h with h
      obtain ⟨-, rfl⟩ | ⟨-, rfl⟩ := ite_eq_iff.1 h
      · exact State.Calm.inv hcalm.markStart.congr rfl (by simp) fun e => by cases e
      · exact FailsFrom.inv hcalm.markStart.toBufferLegal ⟨_, _, 1, rfl, by decide, rfl⟩
  | cons b rest =>
    have hk : s.hdrBytes < s.params.frameBufBytes := hcalm.lt_frameBufBytes (by omega)
    have hcalm' := hcalm.collectByte hk b rest
    have hpos' := collectByte_framePos b rest hlt hpos
    rw [execReadHeaderBytes_byte havail, if_pos hk] at h
    obtain ⟨h4, h⟩ | ⟨h4, h⟩ := ite_eq_iff.1 h
    · exact hcalm'.parseHeader (hpos'.trans h4) h
    · cases h
      have hseq' : (s.collectByte b rest).seq = .header := by rw [State.collectByte, s.markStart_eq]; exact hseq
      exact hcalm'.inv (by rw [hseq']; rfl) (by simp [hseq']) fun _ =>
        ⟨(by omega : s.hdrBytes + 1 < 4), fun _ => hpos'⟩

/-! ### FETCH -/

theorem finishFetch_inv (hs : s.InFrame) (hlive : s.seq ≠ .failed) (hob : s.ob = [] ∧ s.obRd = 0)
    (hall : s.framePos = s.flen.toNat) (h : finishFetch s = .next t) : t.Inv := by
  have hflen := hs.hdrLegal.flen_bounds.1
  have hstart : s.startFrame.HoldsFrame ∧ s.startFrame.ob = [] ∧ s.startFrame.obRd = 0 := by
    rw [s.startFrame_eq]
    refine ⟨⟨⟨⟨hs.params, hs.canonical, hs.inside⟩, hs.noError, hs.noDetail, hs.hdrLegal, hs.flenHdr⟩, hall, ?_⟩, hob⟩
    have := hs.flenHdr
    change 32 ≤ 8 * s.flen.toNat
    omega
  obtain hf | ⟨u, hu, rfl⟩ := finishFetch_outcome (K := fun _ => True) hlive h
  · exact hf.inv hstart.1.toBufferLegal
  · have hholds := (hu.holdsFrame hstart.1).update .alloc u.slot u.l1n u.gn u.sn u.filt u.ob u.obRd u.sbst u.delivered
    have hob' : u.ob = [] ∧ u.obRd = 0 := by rw [hu.frame]; exact hstart.2
    refine hholds.toInFrame.inv rfl (fun _ _ => hob') ?_ (fun _ => hholds) ?_ ?_ ?_ ?_ <;> exact fun e => by cases e

theorem fetchStep_inv (hs : s.Inv) (hseq : s.seq = .fetch) (h : execFetchFrame s = .next t) : t.Inv := by
  have hin : s.InFrame := hs.inFrame (by rw [hseq]; rfl)
  have hob := hs.obElsewhere (by simp [hseq]) (by simp [hseq])
  obtain ⟨hge, hpos⟩ := hs.fetchBytes hseq
  cases havail : s.src.avail with
  | nil =>
    cases heos : s.src.eos with
    | false =>
      rw [execFetchFrame_waiting hpos havail heos] at h
      cases h
      exact hs
    | true =>
      rw [execFetchFrame_eos hpos havail heos] at h
      cases h
      exact FailsFrom.inv hin.toBufferLegal ⟨s, _, 1, rfl, by decide, rfl⟩
  | cons b rest =>
    have hflen := hin.hdrLegal.flen_bounds.2
    have hflenHdr := hin.flenHdr
    have hk : s.framePos < s.params.frameBufBytes := hin.lt_frameBufBytes (by omega)
    have hin' : (s.fetchByte b rest).InFrame :=
      ⟨hin.writeFb rfl rfl hk, hin.noError, hin.noDetail, hin.hdrLegal, hin.flenHdr⟩
    have hpos' : (s.fetchByte b rest).framePos = s.framePos + 1 := toNat_sub_succ rfl (by omega)
    rw [execFetchFrame_byte hpos havail, if_pos hk] at h
    obtain ⟨hend, h⟩ | ⟨hend, h⟩ := ite_eq_iff.1 h
    · refine finishFetch_inv hin' (fun e => ?_) hob ?_ h
      · cases hseq.symm.trans e
      · change _ = s.flen.toNat
        omega
    · cases h
      have hseq' : (s.fetchByte b rest).seq = .fetch := hseq
      refine hin'.inv (by rw [hseq']; rfl) (fun _ _ => hob) (fun _ => ⟨by omega, not_le.1 hend⟩)
        (fun hne => absurd hseq' hne) ?_ ?_ ?_ ?_ <;> simp [hseq', SeqState.allocated]

end Sys2Proof.Machine
end

section
/-! ALLOC, SCFSI and SCALEFACTORS keep the invariant. -/
namespace Sys2Proof.Machine

variable {s t : State} {K : SubCtx → Prop}

/-- A step on a held frame that fails, or ends in a state of the invariant, keeps the invariant. -/
theorem Outcome.inv (hs : s.BufferLegal) (h : Outcome State.Inv s t) : t.Inv := h.elim (FailsFrom.inv hs) id

/-- The end of a step from ALLOC, SCFSI or SCALEFACTORS that stays before SAMPLES. -/
theorem Advances.inv_beforeSamples {u : State} (h : Advances K s u) (hs : s.HoldsFrame)
    (hob : s.ob = [] ∧ s.obRd = 0) (hctx : u.Coherent) {seq : SeqState}
    (hseq : seq = .scalefactors ∨ seq = .scfsi ∧ s.isLayerI = false) : State.Inv { u with seq := seq } := by
  have hholds := (h.holdsFrame hs).update seq u.slot u.l1n u.gn u.sn u.filt u.ob u.obRd u.sbst u.delivered
  have hob' : u.ob = [] ∧ u.obRd = 0 := by rw [h.frame]; exact hob
  obtain rfl | ⟨rfl, hl⟩ := hseq
  · exact hholds.toInFrame.inv rfl (fun _ _ => hob') (fun e => by cases e) (fun _ => hholds) (fun e => by cases e)
      (fun _ => hctx) (fun e => by cases e) (fun e => by cases e)
  · exact hholds.toInFrame.inv rfl (fun _ _ => hob') (fun e => by cases e) (fun _ => hholds)
      (fun _ => h.isLayerI.trans hl) (fun _ => hctx) (fun e => by cases e) (fun e => by cases e)

/-- CRC_CHECK, then on to SCALEFACTORS. -/
theorem checkCrc_outcome {u : State} (h : Advances (·.coherent s.isLayerI) s u) (hctx : u.Coherent) (hs : s.HoldsFrame)
    (hob : s.ob = [] ∧ s.obRd = 0) (hlive : s.seq ≠ .failed)
    (e : andThen (exec .crcCheck u) (fun v => .next { v with seq := .scalefactors }) = .next t) :
    Outcome State.Inv s t :=
  outcome_andThen (Q := Advances (·.coherent s.isLayerI) u) (fun v e => .of_advances h (exec_outcome .crcCheck e))
    (fun v hv e => by
      cases e
      exact .inr ((h.trans hv).inv_beforeSamples hs hob (hv.coherent h.isLayerI.symm hctx) (.inl rfl))) e
    fun v hv => (h.trans hv).seq ▸ hlive

theorem allocStep_inv (hs : s.Inv) (hseq : s.seq = .alloc) (h : allocStep s = .next t) : t.Inv := by
  have hholds := hs.holdsFrame (by rw [hseq]; rfl)
  have hob := hs.obElsewhere (by simp [hseq]) (by simp [hseq])
  have hlive : s.seq ≠ .failed := by simp [hseq]
  have hnch := hholds.hdrLegal.nch
  refine Outcome.inv hholds.toBufferLegal ?_
  unfold allocStep at h
  cases hl : s.isLayerI with
  | true =>
    rw [hl, if_pos rfl] at h
    refine outcome_andThen (fun u e => readAllocations_outcome (K := (·.coherent true))
      (fun _ _ _ _ => decode_l1Alloc_allocates) hnch hlive e) (fun u ⟨hu, hall⟩ e => ?_) h
      fun u ⟨hu, _⟩ => hu.seq ▸ hlive
    have hctx : u.Coherent := fun ch sb hch hsb => by
      rw [hu.hdr] at hch hsb
      rw [hu.isLayerI, hl]
      exact hall sb sb.isLt ch hch
    exact checkCrc_outcome (by rw [hl]; exact hu) hctx hholds hob hlive e
  | false =>
    obtain ⟨tab, htab, hsub⟩ := hholds.hdrLegal.layerII hl
    rw [hl, if_neg (by simp), htab] at h
    refine outcome_andThen (fun u e => readAllocations_outcome (K := (·.coherent false))
      (fun _ _ _ _ => decode_l2Alloc_allocates) hnch hlive e) (fun u ⟨hu, hall⟩ e => ?_) h
      fun u ⟨hu, _⟩ => hu.seq ▸ hlive
    have hclear := Advances.clearSbst (K := (·.coherent false)) u (subbandsIn u.hdr.sblimit 32)
    cases e
    refine .inr ((hu.trans hclear).inv_beforeSamples hholds hob ?_ (.inr ⟨rfl, hl⟩))
    refine hclear.coherent (hu.isLayerI.trans hl).symm fun ch sb hch hsb => ?_
    rw [hu.hdr] at hch hsb
    rw [hu.isLayerI, hl]
    exact hall sb hsb ch hch

theorem scfsiStep_inv (hs : s.Inv) (hseq : s.seq = .scfsi) (h : scfsiStep s = .next t) : t.Inv := by
  have hholds := hs.holdsFrame (by rw [hseq]; rfl)
  have hctx := hs.coherent (by rw [hseq]; rfl)
  have hob := hs.obElsewhere (by simp [hseq]) (by simp [hseq])
  have hlive : s.seq ≠ .failed := by simp [hseq]
  refine Outcome.inv hholds.toBufferLegal (outcome_andThen (Q := Advances (·.coherent s.isLayerI) s)
    (fun u e => outcome_forEach (fun sb _ v w hv e =>
      forAllocated_outcome (fun ch _ _ e => runField_outcome (.l2Scfsi sb ch) e) hv e) hlive e)
    (fun u hu e => ?_) h fun u hu => hu.seq ▸ hlive)
  exact checkCrc_outcome hu (hu.coherent rfl hctx) hholds hob hlive e

/-- SAMPLES entry (45_orchestrator.md R148). -/
theorem enterSamples_inv (hs : s.HoldsFrame) (hctx : s.Coherent) : s.enterSamples.Inv := by
  have hholds := hs.update .samples 0 0 0 0 s.filt [] 0 s.sbst s.delivered
  have hcounters : s.enterSamples.SlotCounters := by simp [State.SlotCounters]
  exact hholds.toInFrame.inv rfl (fun e => absurd rfl e) (fun e => by cases e) (fun _ => hholds) (fun e => by cases e)
    (fun _ => hctx) (fun _ => ⟨rfl, rfl, hcounters⟩) (fun e => by cases e)

theorem scalefactorsStep_inv (hs : s.Inv) (hseq : s.seq = .scalefactors) (h : scalefactorsStep s = .next t) :
    t.Inv := by
  have hholds := hs.holdsFrame (by rw [hseq]; rfl)
  have hctx := hs.coherent (by rw [hseq]; rfl)
  have hlive : s.seq ≠ .failed := by simp [hseq]
  refine Outcome.inv hholds.toBufferLegal (outcome_andThen (Q := Advances (·.coherent s.isLayerI) s)
    (fun u e => outcome_forEach (fun sb _ v w hv e => ?_) hlive e) (fun u hu e => ?_) h fun u hu => hu.seq ▸ hlive)
  · refine outcome_andThen_next hv (fun x e => ?_) (fun x => .advanceSbst x ..) e
    split at e
    · exact l1SubbandScalefactors_outcome hv e
    · exact l2SubbandScalefactors_outcome hv e
  · cases e
    exact .inr (enterSamples_inv (hu.holdsFrame hholds) (hu.coherent rfl hctx))

end Sys2Proof.Machine
end

section
/-! SAMPLES keeps the invariant: the operations before the synthesis stay in one slot, the synthesis appends the slot's
32 beats, and the counters follow the slot (45_orchestrator.md R149, R150). -/
namespace Sys2Proof.Machine

variable {r s t u : State} {l1n gn sn : Nat}

/-! ### The synthesis of a slot -/

theorem foldl_changeBeat_length_le (x : Fin 32 → Beat → Beat) (base n : Nat) (js : List (Fin 32)) (ob : List Beat) :
    (js.foldl (fun ob j => changeBeat (x j) ob (base + j.val)) ob).length ≤ n ↔
      ob.length ≤ n ∧ ∀ j ∈ js, base + j.val < n := by
  induction js generalizing ob with
  | nil => simp
  | cons j rest ih =>
    rw [List.foldl_cons, ih, changeBeat_length]
    simp only [max_le_iff, List.forall_mem_cons, Nat.succ_le_iff, and_assoc]

/-- A synthesis step makes OB as long as the end of the slot. -/
theorem State.synthStep_ob_length (s : State) (f : Fin 2) :
    (s.synthStep f).ob.length = max s.ob.length (32 * s.slot + 32) := by
  refine eq_of_forall_ge_iff fun n => ?_
  simp only [State.synthStep, State.obPut_foldl, foldl_changeBeat_length_le, max_le_iff]
  refine and_congr_right fun _ => ⟨fun h => ?_, fun h j _ => ?_⟩
  · have := h 31 (List.mem_finRange _)
    simp at this
    omega
  · omega

/-- The synthesis of a slot changes the filters and OB only, and OB ends with the slot. -/
theorem synthesize_eq_next (hlive : s.seq ≠ .failed) (h : synthesize s = .next t) :
    t = { s with filt := t.filt, ob := t.ob } ∧ t.ob.length = max s.ob.length (32 * s.slot + 32) := by
  have h0 := s.synthStep_eq 0
  have hslot : (s.synthStep 0).slot = s.slot := by rw [h0]
  have hseq : (s.synthStep 0).seq ≠ .failed := by rw [h0]; exact hlive
  unfold synthesize at h
  rw [exec, execSynthStep, andThen_next hseq] at h
  split at h <;> cases h
  · refine ⟨by rw [State.synthStep_eq, h0], ?_⟩
    rw [State.synthStep_ob_length, State.synthStep_ob_length, hslot]
    omega
  · exact ⟨by rw [h0], s.synthStep_ob_length 0⟩

/-! ### The operations before the synthesis -/

/-- In a slot of SAMPLES: what the operations before the synthesis keep from its start `r`, and the counters. -/
structure InSlot (r : State) (l1n gn sn : Nat) (s : State) : Prop where
  holds : s.HoldsFrame
  coherent : s.Coherent
  hdr : s.hdr = r.hdr
  seq : s.seq = .samples
  slot : s.slot = r.slot
  ob : s.ob = r.ob
  obRd : s.obRd = 0
  l1n : s.l1n = l1n
  gn : s.gn = gn
  sn : s.sn = sn

theorem InSlot.live (h : InSlot r l1n gn sn s) : s.seq ≠ .failed := by simp [h.seq]

theorem InSlot.advances (h : InSlot r l1n gn sn s) (hst : Advances (·.coherent s.isLayerI) s t) :
    InSlot r l1n gn sn t := by
  have hholds := hst.holdsFrame h.holds
  have hctx := hst.coherent rfl h.coherent
  rw [hst.frame] at hholds hctx ⊢
  exact { h with holds := hholds, coherent := hctx }

theorem InSlot.setL1n (h : InSlot r l1n gn sn s) (n : Nat) : InSlot r n gn sn { s with l1n := n } :=
  { h with
    holds := h.holds.update s.seq s.slot n s.gn s.sn s.filt s.ob s.obRd s.sbst s.delivered, coherent := h.coherent
    l1n := rfl }

theorem InSlot.setTriplet (h : InSlot r l1n gn sn s) (g k : Nat) : InSlot r l1n g k { s with gn := g, sn := k } :=
  { h with
    holds := h.holds.update s.seq s.slot s.l1n g k s.filt s.ob s.obRd s.sbst s.delivered, coherent := h.coherent
    gn := rfl, sn := rfl }

/-- Reading the samples of a slot or triplet, then updating the counters. -/
theorem InSlot.readSamples {limit a b c : Nat} {g : State → State} (h : InSlot r l1n gn sn s)
    (hg : ∀ u, InSlot r l1n gn sn u → InSlot r a b c (g u))
    (e : andThen (forEach (subbandsIn 0 limit) subbandSamples s) (fun u => .next (g u)) = .next t) :
    Outcome (InSlot r a b c) s t :=
  outcome_andThen (Q := Advances (·.coherent s.isLayerI) s)
    (fun _ e => outcome_forEach (fun _ _ _ _ hv e => subbandSamples_outcome hv e) h.live e)
    (fun u hu e => by injection e with e; exact .inr (e ▸ hg u (h.advances hu))) e fun u hu => hu.seq ▸ h.live

theorem Advances.rearm {K : SubCtx → Prop} (s : State) : Advances K s s.rearm := .ofFrame rfl rfl rfl

/-- The puts and the synthesis of a slot, then its end. -/
theorem InSlot.finish {limit : Nat} {g f : State → State} (hs : InSlot r l1n gn sn s)
    (hg : ∀ u, Advances (·.coherent s.isLayerI) u (g u))
    (hf : ∀ u filt ob, InSlot r l1n gn sn u → ob.length = max r.ob.length (32 * r.slot + 32) →
      (f { u with filt := filt, ob := ob }).Inv)
    (h : andThen (putAll limit s) (fun u => andThen (synthesize (g u)) fun v => .next (f v)) = .next t) : t.Inv := by
  refine Outcome.inv hs.holds.toBufferLegal (outcome_andThen (Q := Advances (·.coherent s.isLayerI) s)
    (fun u e => putAll_outcome hs.live e) (fun u hu e => .inr ?_) h fun u hu => hu.seq ▸ hs.live)
  have hgu := hs.advances (hu.trans (hg u))
  obtain ⟨v, hv, hcase⟩ := andThen_eq_next e
  obtain ⟨hframe, hlen⟩ := synthesize_eq_next hgu.live hv
  rw [hgu.ob, hgu.slot] at hlen
  obtain ⟨hfailed, -⟩ | ⟨-, e⟩ := hcase
  · rw [hframe] at hfailed
    exact absurd hfailed hgu.live
  · injection e with e
    rw [← e, hframe]
    exact hf _ _ _ hgu hlen

/-- The end of a slot whose counters follow. -/
theorem finishSlot_inv {n : Nat} (hs : s.HoldsFrame) (hctx : s.Coherent) (hseq : s.seq = .samples) (hrd : s.obRd = 0)
    (hob : s.ob.length = 32 * s.slot + 32) (hn : s.hdr.nslots = n)
    (hcounters : s.slot + 1 ≠ n → (s.finishSlot n).SlotCounters) : (s.finishSlot n).Inv := by
  have hholds : (s.finishSlot n).HoldsFrame := hs.update _ _ s.l1n s.gn s.sn s.filt s.ob s.obRd s.sbst s.delivered
  have hlen : (s.finishSlot n).ob.length = 32 * (s.finishSlot n).slot := hob
  by_cases hlast : s.slot + 1 = n
  · have hemit : (s.finishSlot n).seq = .emit := if_pos hlast
    refine hholds.toInFrame.inv (by rw [hemit]; rfl) (fun _ e => absurd hemit e) ?_ (fun _ => hholds) ?_ ?_ ?_
      (fun _ => ?_)
    case refine_5 =>
      simp only [State.finishSlot_ob, State.finishSlot_hdr, State.finishSlot_obRd]
      omega
    all_goals simp [hlast, SeqState.allocated]
  · have hsamples : (s.finishSlot n).seq = .samples := (if_neg hlast).trans hseq
    refine hholds.toInFrame.inv (by rw [hsamples]; rfl) (fun e => absurd hsamples e) ?_ (fun _ => hholds) ?_
      (fun _ => hctx) (fun _ => ⟨hlen, hrd, hcounters hlast⟩) ?_ <;> simp [hlast, hseq]

theorem State.Inv.inSlot (hs : s.Inv) (hseq : s.seq = .samples) : InSlot s s.l1n s.gn s.sn s :=
  ⟨hs.holdsFrame (by rw [hseq]; rfl), hs.coherent (by rw [hseq]; rfl), rfl, hseq, rfl, rfl, (hs.obSamples hseq).2, rfl,
    rfl, rfl⟩

theorem l1SamplesStep_inv (hs : s.Inv) (hseq : s.seq = .samples) (hl : s.isLayerI = true)
    (h : l1SamplesStep s = .next t) : t.Inv := by
  have hin := hs.inSlot hseq
  obtain ⟨hslot, hl1n⟩ := hs.layerISlot hseq hl
  have hob := (hs.obSamples hseq).1
  have hnext : ∀ u, InSlot s s.l1n s.gn s.sn u →
      InSlot s (if s.l1n + 1 = 12 then 0 else s.l1n + 1) s.gn s.sn
        { u with l1n := if u.l1n + 1 = 12 then 0 else u.l1n + 1 } := fun u hu => by
    rw [hu.l1n]
    exact hu.setL1n _
  refine Outcome.inv hin.holds.toBufferLegal (outcome_andThen (fun u e => hin.readSamples hnext e)
    (fun u hu e => .inr (hu.finish Advances.rearm (fun w filt ob hw hlen => ?_) e)) h
    fun u hu => hu.live)
  have hlayer : w.isLayerI = true := by rw [State.isLayerI, hw.hdr]; exact hl
  refine finishSlot_inv (hw.holds.update w.seq w.slot w.l1n w.gn w.sn filt ob w.obRd w.sbst w.delivered) hw.coherent
    hw.seq hw.obRd ?_ (hw.holds.hdrLegal.nslots.trans (if_pos hlayer)) fun hne => ⟨fun _ => ?_, fun e => ?_⟩
  · change ob.length = 32 * w.slot + 32
    rw [hlen, hw.slot, hob]
    omega
  · change w.slot + 1 < 12 ∧ w.l1n = w.slot + 1
    change w.slot + 1 ≠ 12 at hne
    rw [hw.slot] at hne ⊢
    rw [hw.l1n, hl1n, if_neg hne]
    omega
  · exact absurd (hlayer.symm.trans e) (by decide)

theorem l2SamplesStep_inv (hs : s.Inv) (hseq : s.seq = .samples) (hl : s.isLayerI = false)
    (h : l2SamplesStep s = .next t) : t.Inv := by
  have hin := hs.inSlot hseq
  obtain ⟨hslot, hsn, hgn⟩ := hs.layerIISlot hseq hl
  have hob := (hs.obSamples hseq).1
  have hread (u : State) (e : (if s.sn = 0 then l2ReadSamples s else .next s) = .next u) :
      Outcome (InSlot s s.l1n (if s.sn = 0 then s.gn + 1 else s.gn) s.sn) s u := by
    split at e
    · next h0 =>
      refine hin.readSamples (fun v hv => ?_) e
      rw [if_pos h0, h0, ← hv.gn]
      exact hv.setTriplet _ _
    · next h0 =>
      cases e
      rw [if_neg h0]
      exact .inr hin
  refine Outcome.inv hin.holds.toBufferLegal (outcome_andThen hread
    (fun u hu e => .inr (hu.finish (fun w => ?_) (fun w filt ob hw hlen => ?_) e)) h fun u hu => hu.live)
  · split
    · exact .rearm w
    · exact .refl w
  have hlayer : w.isLayerI = false := by rw [State.isLayerI, hw.hdr]; exact hl
  refine finishSlot_inv (hw.holds.update w.seq w.slot w.l1n w.gn _ filt ob w.obRd w.sbst w.delivered) hw.coherent
    hw.seq hw.obRd ?_ (hw.holds.hdrLegal.nslots.trans (if_neg (ne_true_of_eq_false hlayer)))
    fun hne => ⟨fun e => ?_, fun _ => ?_⟩
  · change ob.length = 32 * w.slot + 32
    rw [hlen, hw.slot, hob]
    omega
  · exact absurd (hlayer.symm.trans e) (by decide)
  · change w.slot + 1 < 36 ∧ (if w.sn + 1 = 3 then 0 else w.sn + 1) = (w.slot + 1) % 3 ∧ w.gn = (w.slot + 1 + 2) / 3
    change w.slot + 1 ≠ 36 at hne
    rw [hw.slot] at hne ⊢
    rw [hw.sn, hw.gn]
    split_ifs <;> omega

end Sys2Proof.Machine
end

section
/-! Every event of the outside world and every step of the block keeps the invariant (O59). -/
namespace Sys2Proof.Machine

variable {s t : State}

/-! ### Resets, commands and the environment -/

/-- The invariant does not speak of CTRL, `stop_req`, the environment or `rdata`. -/
theorem State.Inv.update (h : s.Inv) (ctrl : CtrlReg) (stopReq : Bool) (src : Source) (ready : Bool)
    (rdata : Option Word) (script : List EnvEvent) :
    State.Inv { s with
      ctrl := ctrl, stopReq := stopReq, src := src, sinkReady := ready, rdata := rdata, script := script } :=
  ⟨h.paramsLegal, h.fbCanonical, h.fbInside, h.errIffFailed, h.detailZero, h.obElsewhere, h.obSamples, h.obEmit,
    h.headerBytes, h.fetchBytes, h.allBytes, h.hdrLegal, h.scfsiLayerII, h.cursorInside, h.ctxCoherent, h.layerISlot,
    h.layerIISlot⟩

theorem State.hardReset_calm (h : s.params.legal) : s.hardReset.Calm :=
  ⟨⟨h, rfl, fun _ hc => absurd hc List.not_mem_nil⟩, rfl, rfl, rfl, rfl⟩

theorem State.hardReset_inv (h : s.params.legal) : s.hardReset.Inv :=
  (State.hardReset_calm h).inv rfl (fun e => by cases e) fun e => by cases e

theorem State.softReset_inv (h : s.params.legal) : s.softReset.Inv :=
  (State.hardReset_inv h).update s.ctrl _ _ _ _ _

theorem State.freshStart_inv (h : s.params.legal) : s.freshStart.Inv :=
  State.Calm.inv (State.hardReset_calm h).congr rfl (by simp) fun e => by cases e

theorem State.Calm.resume_inv (h : s.Calm) : s.resume.Inv :=
  State.Calm.inv h.congr rfl (by simp) fun e => by cases e

theorem State.Inv.startCommand (h : s.Inv) : s.startCommand.Inv := by
  cases hseq : s.seq <;> simp only [State.startCommand, hseq]
  case idle | done => exact State.freshStart_inv h.paramsLegal
  case stopped => exact (h.calm (by simp [hseq]) (by simp [hseq]) (by simp [hseq])).resume_inv
  all_goals exact h

theorem State.Inv.storeCtrl (h : s.Inv) (v : CtrlWrite) : (s.storeCtrl v).Inv := h.update _ _ _ _ _ _

theorem State.Inv.stopCommand (h : s.Inv) : s.stopCommand.Inv := h.update _ _ _ _ _ _

theorem exec_decodeCtrl_inv (h : s.Inv) (v : CtrlWrite) (e : exec (decodeCtrl v) s = .next t) : t.Inv := by
  have hv := h.storeCtrl v
  simp only [decodeCtrl, exec_ite] at e
  obtain ⟨-, e⟩ | ⟨-, e⟩ := ite_eq_iff.1 e
  · cases e
    exact State.softReset_inv hv.paramsLegal
  obtain ⟨-, e⟩ | ⟨-, e⟩ := ite_eq_iff.1 e
  · simp only [exec, execCtrlStart] at e
    injection e with e
    obtain ⟨-, rfl⟩ | ⟨-, rfl⟩ := ite_eq_iff.1 e
    · exact hv.startCommand.stopCommand
    · exact hv.startCommand
  obtain ⟨-, e⟩ | ⟨-, e⟩ := ite_eq_iff.1 e
  · cases e
    exact hv.stopCommand
  · cases e
    exact hv

theorem decode_ctrlWrite {w : Nat} {i : Instr} (h : decode .ctrlWrite w = .ok i) : ∃ v, i = decodeCtrl v := by
  unfold decode at h
  split at h <;> cases h
  exact ⟨_, rfl⟩

theorem decode_regRead {w : Nat} {i : Instr} (h : decode .regRead w = .ok i) : ∃ off, i = .regRead off := by
  unfold decode at h
  split at h
  · simp only [decodeFitting] at h
    split at h <;> cases h
    exact ⟨_, rfl⟩
  · cases h

theorem hostRead_inv (h : s.Inv) {off : Word} {n : Nat} (e : hostRead off n s = .next t) : t.Inv := by
  unfold hostRead at e
  split at e
  · cases e
  · split at e
    · next i hi =>
      obtain ⟨off', rfl⟩ := decode_regRead hi
      simp only [exec, execRegRead] at e
      split at e <;> cases e
      exact h.update _ _ _ _ _ _
    · cases e

theorem hostWrite_inv (h : s.Inv) {off : Word} {lanes : List Byte} (e : hostWrite off lanes s = .next t) : t.Inv := by
  unfold hostWrite at e
  split at e
  · cases e
  · split at e
    · cases e
    · split at e
      · split at e
        · next i hi =>
          obtain ⟨v, rfl⟩ := decode_ctrlWrite hi
          exact exec_decodeCtrl_inv h v e
        · cases e
      · cases e
        exact h

/-! ### The block -/

theorem awaitSyncStep_inv (h : s.Inv) (hseq : s.seq = .awaitSync) : (awaitSyncStep s).Inv := by
  have hcalm := h.calm (by simp [hseq]) (by simp [hseq]) (by simp [hseq])
  unfold awaitSyncStep
  split
  · exact State.Calm.inv hcalm.congr rfl (by simp) fun e => by cases e
  · exact State.Calm.inv hcalm.congr rfl (by simp) fun _ => ⟨by simp, fun e => absurd rfl e⟩

theorem emitStep_inv (h : s.Inv) (hseq : s.seq = .emit) (e : execEmit s = .next t) : t.Inv := by
  have hholds := h.holdsFrame (by rw [hseq]; rfl)
  obtain ⟨hlen, hrd⟩ := h.obEmit hseq
  rw [execEmit, List.getElem?_eq_getElem hrd] at e
  dsimp only at e
  split at e
  · injection e with e
    obtain ⟨-, rfl⟩ | ⟨hne, rfl⟩ := ite_eq_iff.1 e
    · exact State.Calm.inv ⟨⟨hholds.params, hholds.canonical, hholds.inside⟩, hholds.noError, hholds.noDetail, rfl, rfl⟩
        rfl (by simp [State.finishFrame]) fun e => by cases e
    · have hholds' := hholds.update s.seq s.slot s.l1n s.gn s.sn s.filt s.ob (s.obRd + 1) s.sbst
        (s.delivered ++ [{ beat := s.ob[s.obRd], last := s.obRd + 1 == s.ob.length }])
      refine hholds'.toInFrame.inv (by simp [hseq, SeqState.inFrame]) (fun _ e => absurd hseq e) ?_ (fun _ => hholds')
        ?_ ?_ ?_ (fun _ => ⟨hlen, Nat.lt_of_le_of_ne hrd hne⟩) <;> simp [hseq, SeqState.allocated]
  · cases e
    exact h

theorem blockStep_inv (h : s.Inv) (e : blockStep s = .next t) : t.Inv := by
  cases hseq : s.seq <;> simp only [blockStep, hseq] at e
  case idle | done | stopped | failed => cases e; exact h
  case awaitSync => cases e; exact awaitSyncStep_inv h hseq
  case header => exact headerStep_inv h hseq e
  case fetch => exact fetchStep_inv h hseq e
  case alloc => exact allocStep_inv h hseq e
  case scfsi => exact scfsiStep_inv h hseq e
  case scalefactors => exact scalefactorsStep_inv h hseq e
  case samples =>
    obtain ⟨hl, e⟩ | ⟨hl, e⟩ := ite_eq_iff.1 e
    · exact l1SamplesStep_inv h hseq hl e
    · exact l2SamplesStep_inv h hseq (Bool.eq_false_of_not_eq_true hl) e
  case emit => exact emitStep_inv h hseq e

theorem envStep_inv {ev : EnvEvent} (h : s.Inv) (e : envStep ev s = .next t) : t.Inv := by
  cases ev with
  | block => exact blockStep_inv h e
  | csrRead off n => exact hostRead_inv h e
  | csrWrite off lanes => exact hostWrite_inv h e
  | hardReset => cases e; exact State.hardReset_inv h.paramsLegal
  | srcConnect bytes eos => cases e; exact h.update _ _ _ _ _ _
  | srcBytes bytes => cases e; exact h.update _ _ _ _ _ _
  | srcEos => cases e; exact h.update _ _ _ _ _ _
  | sinkReady ready => cases e; exact h.update _ _ _ _ _ _

theorem step_inv (h : s.Inv) (e : step s = .next t) : t.Inv := by
  unfold step nextStep at e
  split at e
  · exact blockStep_inv h e
  · exact envStep_inv (h.update _ _ _ _ _ _) e

end Sys2Proof.Machine

namespace Sys2Proof
open Machine

/-- Settles O59: each step of the block keeps the invariant by the sequencer's state, and so does each event of the
outside world. -/
theorem stepKeepsInvariant : Obligations.StepKeepsInvariant := fun _ _ => step_inv

/-- Settles O58: the reset state is the hard reset of itself. -/
theorem resetMeetsInvariant : Obligations.ResetMeetsInvariant :=
  State.hardReset_inv (s := State.reset) (by decide : (2881 : Nat) ≤ 4096)

end Sys2Proof
end

section
/-! A step of the block does not read CTRL: every operation it runs answers the same with another stored configuration,
and leaves that configuration stored (O57). -/
namespace Sys2Proof.Machine

/-- Another configuration stored in CTRL. -/
def State.withCtrl (s : State) (c : CtrlReg) : State := { s with ctrl := c }

@[simp] theorem State.withCtrl_seq (s : State) (c : CtrlReg) : (s.withCtrl c).seq = s.seq := rfl
@[simp] theorem State.withCtrl_hdr (s : State) (c : CtrlReg) : (s.withCtrl c).hdr = s.hdr := rfl
@[simp] theorem State.withCtrl_cfg (s : State) (c : CtrlReg) : (s.withCtrl c).cfg = s.cfg := rfl

/-- An operation that neither reads nor writes CTRL. -/
def IgnoresCtrl (f : State → Result) : Prop := ∀ s c, f (s.withCtrl c) = mapNext (·.withCtrl c) (f s)

/-! ### Composition -/

theorem IgnoresCtrl.next {g : State → State} (h : ∀ s c, g (s.withCtrl c) = (g s).withCtrl c) :
    IgnoresCtrl fun s => .next (g s) :=
  fun s c => congrArg Host.Outcome.next (h s c)

theorem ite_mapNext {p p' : Prop} [Decidable p] [Decidable p'] {g : State → State} {o o' q q' : Result} (hp : p' ↔ p)
    (ho : o' = mapNext g o) (hq : q' = mapNext g q) : (if p' then o' else q') = mapNext g (if p then o else q) := by
  subst ho hq
  simp only [hp]
  split <;> rfl

theorem andThen_mapNext {c : CtrlReg} {o o' : Result} {k : State → Result} (ho : o' = mapNext (·.withCtrl c) o)
    (hk : IgnoresCtrl k) : andThen o' k = mapNext (·.withCtrl c) (andThen o k) := by
  subst ho
  cases o with
  | next t =>
    by_cases ht : t.seq = .failed
    · rw [mapNext_next, andThen_failed (by exact ht), andThen_failed ht, mapNext_next]
    · rw [mapNext_next, andThen_next (by exact ht), andThen_next ht, hk t c]
  | fault e => rfl
  | refused e => rfl

theorem IgnoresCtrl.forEach {α : Type} {xs : List α} {body : α → State → Result}
    (hb : ∀ x, IgnoresCtrl (body x)) : IgnoresCtrl (Machine.forEach xs body) := by
  induction xs with
  | nil => exact fun _ _ => rfl
  | cons x rest ih => exact fun s c => andThen_mapNext (hb x s c) ih

theorem takeBits_withCtrl {s : State} {c : CtrlReg} {n : Nat} {go go' : State → Result}
    (hg : ∀ t, go' (t.withCtrl c) = mapNext (·.withCtrl c) (go t)) :
    (s.withCtrl c).takeBits n go' = mapNext (·.withCtrl c) (s.takeBits n go) :=
  ite_mapNext .rfl rfl (ite_mapNext .rfl rfl (hg { s with bitpos := s.bitpos + n }))

theorem takeFields_withCtrl {c : CtrlReg} {width count : Nat} {go : State → Result}
    (hg : ∀ t, go (t.withCtrl c) = mapNext (·.withCtrl c) (go t)) (s : State) :
    (s.withCtrl c).takeFields width count go = mapNext (·.withCtrl c) (s.takeFields width count go) := by
  induction count generalizing s with
  | zero => exact hg s
  | succ count ih => exact takeBits_withCtrl ih

theorem peekBits_withCtrl (s : State) (c : CtrlReg) (n : Nat) : (s.withCtrl c).peekBits n = s.peekBits n := by
  have hpeek : ∀ p, (s.withCtrl c).peekFrom p n = s.peekFrom p n := by
    intro p
    induction n with
    | zero => rfl
    | succ n ih => simp only [State.peekFrom, ih]; rfl
  exact hpeek s.bitpos

/-! ### The operations on the frame -/

theorem ite_withCtrl {p p' : Prop} [Decidable p] [Decidable p'] {c : CtrlReg} {s t s' t' : State} (hp : p' ↔ p)
    (hs : s' = s.withCtrl c) (ht : t' = t.withCtrl c) : (if p' then s' else t') = (if p then s else t).withCtrl c := by
  subst hs ht
  simp only [hp]
  split <;> rfl

theorem addSample_withCtrl {c : CtrlReg} {s s' : State} (h : s' = s.withCtrl c) (f : Fin 2) (sb : Fin 32) (x : NumVal) :
    s'.addSample f sb x = (s.addSample f sb x).withCtrl c := by
  subst h
  rfl

theorem putMono_withCtrl (s : State) (c : CtrlReg) (sb : Fin 32) (k part : Fin 3) :
    (s.withCtrl c).putMono sb k part = (s.putMono sb k part).withCtrl c :=
  ite_withCtrl .rfl rfl rfl

theorem putStereo_withCtrl (s : State) (c : CtrlReg) (sb : Fin 32) (k part : Fin 3) :
    (s.withCtrl c).putStereo sb k part = (s.putStereo sb k part).withCtrl c := by
  refine ite_withCtrl .rfl (addSample_withCtrl ?_ ..) ?_ <;> exact ite_withCtrl .rfl rfl rfl

theorem putIntensity_withCtrl (s : State) (c : CtrlReg) (sb : Fin 32) (k part : Fin 3) :
    (s.withCtrl c).putIntensity sb k part = (s.putIntensity sb k part).withCtrl c := by
  refine ite_withCtrl .rfl ?_ rfl
  rw [State.withCtrl_cfg]
  split <;> rfl

theorem IgnoresCtrl.putL2 {put : State → Fin 3 → Fin 3 → State}
    (h : ∀ s c k part, put (s.withCtrl c) k part = (put s k part).withCtrl c) :
    IgnoresCtrl fun s => s.putL2 (put s) := by
  intro s c
  unfold State.putL2
  dsimp only
  by_cases hsn : s.sn < 3
  · rw [dif_pos hsn, dif_pos (by exact hsn), mapNext_next, ← h]
    rfl
  · rw [dif_neg hsn, dif_neg (by exact hsn)]
    rfl

theorem exec_readsData_ignoresCtrl {i : Instr} (hi : ReadsData i) : IgnoresCtrl (exec i) := by
  intro s c
  cases hi <;>
    simp only [exec, execL1Scalefactor, execL1Sample, execL2Scfsi, execL2Scalefactor, execL2Grouped,
      execL2GroupedOutOfRange, execL2Ungrouped]
  case l2Scalefactor => exact takeFields_withCtrl (fun _ => rfl) s
  case l2Ungrouped =>
    exact takeBits_withCtrl fun t => takeBits_withCtrl (s := t.setSmp _ _ 0 _) fun t =>
      takeBits_withCtrl (s := t.setSmp _ _ 1 _) fun _ => rfl
  all_goals exact takeBits_withCtrl fun _ => rfl

theorem exec_allocates_ignoresCtrl {K : SubCtx → Prop} {sb : Fin 32} {ch : Fin 2} {i : Instr}
    (hi : Allocates K sb ch i) : IgnoresCtrl (exec i) := by
  intro s c
  cases hi <;> simp only [exec, execL1Alloc, execL1AllocCorrupt, execL2Alloc]
  case l1AllocCorrupt => exact takeBits_withCtrl fun _ => ite_mapNext .rfl rfl rfl
  all_goals exact takeBits_withCtrl fun _ => rfl

theorem execCrcCheck_ignoresCtrl : IgnoresCtrl execCrcCheck :=
  fun _ _ => ite_mapNext .rfl (ite_mapNext .rfl rfl rfl) rfl

theorem exec_onFrame_ignoresCtrl {K : SubCtx → Prop} {i : Instr} (hi : OnFrame K i) : IgnoresCtrl (exec i) := by
  cases hi with
  | data hi => exact exec_readsData_ignoresCtrl hi
  | alloc hi => exact exec_allocates_ignoresCtrl hi
  | crcWord w =>
    intro s c
    simp only [exec, execCrcWord]
    exact takeBits_withCtrl fun _ => rfl
  | getBits n =>
    intro s c
    simp only [exec, execGetBits, peekBits_withCtrl]
    exact takeBits_withCtrl fun _ => rfl
  | crcCheck => exact execCrcCheck_ignoresCtrl
  | skipToFrameEnd | l1Dequant | rq2 | addSample => exact fun _ _ => rfl
  | l1PutMono => exact .next fun _ _ => putMono_withCtrl ..
  | l1PutStereo => exact .next fun _ _ => putStereo_withCtrl ..
  | l1PutIntensity => exact .next fun _ _ => putIntensity_withCtrl ..
  | l2PutMono => exact .putL2 fun _ _ _ _ => putMono_withCtrl ..
  | l2PutStereo => exact .putL2 fun _ _ _ _ => putStereo_withCtrl ..
  | l2PutIntensity => exact .putL2 fun _ _ _ _ => putIntensity_withCtrl ..

theorem runField_ignoresCtrl {fmt : Format} (h : ∀ w i, decode fmt w = .ok i → IgnoresCtrl (exec i)) :
    IgnoresCtrl (runField fmt) := by
  intro s c
  unfold runField
  rw [peekBits_withCtrl]
  split
  · next i hi => exact h _ i hi s c
  · rfl

theorem runField_data_ignoresCtrl {fmt : Format} (hf : DataFormat fmt) : IgnoresCtrl (runField fmt) :=
  runField_ignoresCtrl fun _ _ hi => exec_readsData_ignoresCtrl (decode_readsData hf hi)

/-! ### HEADER, FETCH and EMIT -/

theorem parseHeader_ignoresCtrl (h : HeaderFields) : IgnoresCtrl (parseHeader h) := by
  intro s c
  unfold parseHeader
  iterate 7 refine ite_mapNext .rfl rfl ?_
  refine ite_mapNext .rfl ?_ (ite_mapNext .rfl ?_ ?_) <;> exact ite_mapNext .rfl rfl rfl

theorem markStart_withCtrl (s : State) (c : CtrlReg) : (s.withCtrl c).markStart = s.markStart.withCtrl c :=
  ite_withCtrl .rfl rfl rfl

theorem collectByte_withCtrl (s : State) (c : CtrlReg) (b : Byte) (rest : List Byte) :
    (s.withCtrl c).collectByte b rest = (s.collectByte b rest).withCtrl c := by
  unfold State.collectByte
  rw [markStart_withCtrl]
  rfl

theorem execReadHeaderBytes_ignoresCtrl : IgnoresCtrl execReadHeaderBytes := by
  intro s c
  cases havail : s.src.avail with
  | nil =>
    cases heos : s.src.eos with
    | false =>
      rw [execReadHeaderBytes_waiting havail heos, execReadHeaderBytes_waiting (s := s.withCtrl c) havail heos,
        mapNext_next]
    | true =>
      rw [execReadHeaderBytes_eos havail heos, execReadHeaderBytes_eos (s := s.withCtrl c) havail heos, mapNext_next,
        markStart_withCtrl]
      exact congrArg Host.Outcome.next (ite_withCtrl .rfl rfl rfl)
  | cons b rest =>
    rw [execReadHeaderBytes_byte havail, execReadHeaderBytes_byte (s := s.withCtrl c) havail, collectByte_withCtrl]
    exact ite_mapNext .rfl (ite_mapNext .rfl (parseHeader_ignoresCtrl _ _ c) rfl) rfl

theorem startFrame_withCtrl (s : State) (c : CtrlReg) : (s.withCtrl c).startFrame = s.startFrame.withCtrl c :=
  ite_withCtrl .rfl rfl rfl

theorem finishFetch_ignoresCtrl : IgnoresCtrl finishFetch := by
  intro s c
  change andThen (if (s.withCtrl c).startFrame.hdr.raw.prot = 0#1 then
      execCrcWord (BitVec.ofNat 16 ((s.withCtrl c).startFrame.peekBits 16)) (s.withCtrl c).startFrame
    else .next (s.withCtrl c).startFrame) _ = _
  rw [startFrame_withCtrl, peekBits_withCtrl]
  exact andThen_mapNext (ite_mapNext .rfl (takeBits_withCtrl fun _ => rfl) rfl) fun _ _ => rfl

theorem execFetchFrame_ignoresCtrl : IgnoresCtrl execFetchFrame := by
  intro s c
  by_cases hend : s.flen.toNat ≤ s.framePos
  · rw [execFetchFrame_end hend, execFetchFrame_end (by exact hend)]
    exact finishFetch_ignoresCtrl s c
  have hpos : s.framePos < s.flen.toNat := not_le.1 hend
  have hpos' : (s.withCtrl c).framePos < (s.withCtrl c).flen.toNat := hpos
  cases havail : s.src.avail with
  | nil =>
    cases heos : s.src.eos with
    | false => rw [execFetchFrame_waiting hpos havail heos, execFetchFrame_waiting hpos' havail heos, mapNext_next]
    | true =>
      rw [execFetchFrame_eos hpos havail heos, execFetchFrame_eos hpos' havail heos]
      rfl
  | cons b rest =>
    rw [execFetchFrame_byte hpos havail, execFetchFrame_byte hpos' havail]
    exact ite_mapNext .rfl (ite_mapNext .rfl (finishFetch_ignoresCtrl (s.fetchByte b rest) c) rfl) rfl

theorem execEmit_ignoresCtrl : IgnoresCtrl execEmit := by
  intro s c
  cases hbeat : s.ob[s.obRd]? with
  | none =>
    have hbeat' : (s.withCtrl c).ob[(s.withCtrl c).obRd]? = none := hbeat
    simp only [execEmit, hbeat, hbeat']
    rfl
  | some b =>
    have hbeat' : (s.withCtrl c).ob[(s.withCtrl c).obRd]? = some b := hbeat
    simp only [execEmit, hbeat, hbeat']
    exact ite_mapNext .rfl (congrArg Host.Outcome.next (ite_withCtrl .rfl rfl rfl)) rfl

/-! ### The steps -/

theorem closeAlloc_withCtrl (s : State) (c : CtrlReg) (sb : Fin 32) :
    (s.withCtrl c).closeAlloc sb = (s.closeAlloc sb).withCtrl c := by
  unfold State.closeAlloc
  by_cases h : s.hdr.bound ≤ sb.val ∧ s.hdr.nch = 2
  · have h' : (s.withCtrl c).hdr.bound ≤ sb.val ∧ (s.withCtrl c).hdr.nch = 2 := h
    simp only [if_pos h, if_pos h']
    rfl
  · have h' : ¬((s.withCtrl c).hdr.bound ≤ sb.val ∧ (s.withCtrl c).hdr.nch = 2) := h
    simp only [if_neg h, if_neg h']
    rfl

theorem readAllocations_ignoresCtrl {limit : Nat} {fmt : Fin 32 → Fin 2 → Format}
    (h : ∀ sb ch w i, decode (fmt sb ch) w = .ok i → IgnoresCtrl (exec i)) :
    IgnoresCtrl (readAllocations limit fmt) :=
  .forEach fun sb s c => andThen_mapNext
    (IgnoresCtrl.forEach (xs := s.allocChannels sb) (fun ch => runField_ignoresCtrl (h sb ch)) s c)
    (.next fun s c => closeAlloc_withCtrl s c sb)

theorem clearSbst_withCtrl (s : State) (c : CtrlReg) (sbs : List (Fin 32)) :
    sbs.foldl (fun s sb => s.setSbst sb .unalloc) (s.withCtrl c) =
      (sbs.foldl (fun s sb => s.setSbst sb .unalloc) s).withCtrl c := by
  induction sbs generalizing s with
  | nil => rfl
  | cons sb rest ih => exact ih (s.setSbst sb .unalloc)

/-- CRC_CHECK, then on to SCALEFACTORS. -/
theorem checkCrc_ignoresCtrl :
    IgnoresCtrl fun s => andThen (exec .crcCheck s) fun s => .next { s with seq := .scalefactors } :=
  fun s c => andThen_mapNext (execCrcCheck_ignoresCtrl s c) fun _ _ => rfl

theorem allocStep_ignoresCtrl : IgnoresCtrl allocStep := by
  intro s c
  refine ite_mapNext .rfl ?_ ?_
  · exact andThen_mapNext (readAllocations_ignoresCtrl
      (fun _ _ _ _ hi => exec_allocates_ignoresCtrl (decode_l1Alloc_allocates hi)) s c) checkCrc_ignoresCtrl
  · rw [State.withCtrl_hdr]
    split
    · refine andThen_mapNext (readAllocations_ignoresCtrl
        (fun _ _ _ _ hi => exec_allocates_ignoresCtrl (decode_l2Alloc_allocates hi)) s c) (.next fun s c => ?_)
      rw [State.withCtrl_hdr, clearSbst_withCtrl]
      rfl
    · rfl

theorem forAllocated_withCtrl {s : State} {c : CtrlReg} {nch : Nat} {sb : Fin 32} {body : Fin 2 → State → Result}
    (hb : ∀ ch, IgnoresCtrl (body ch)) :
    forAllocated nch sb body (s.withCtrl c) = mapNext (·.withCtrl c) (forAllocated nch sb body s) :=
  IgnoresCtrl.forEach (fun ch s c => ite_mapNext (q := .next s) .rfl (hb ch s c) rfl) s c

theorem advanceSbst_withCtrl (s : State) (c : CtrlReg) (sb : Fin 32) (old new : SubState) :
    (s.withCtrl c).advanceSbst sb old new = (s.advanceSbst sb old new).withCtrl c :=
  ite_withCtrl .rfl rfl rfl

theorem scfsiStep_ignoresCtrl : IgnoresCtrl scfsiStep := fun s c =>
  andThen_mapNext (IgnoresCtrl.forEach
    (body := fun sb s => forAllocated s.hdr.nch sb (fun ch => runField (.l2Scfsi sb ch)) s)
    (fun sb _ _ => forAllocated_withCtrl fun ch => runField_data_ignoresCtrl (.l2Scfsi sb ch)) s c) checkCrc_ignoresCtrl

theorem l1SubbandScalefactors_ignoresCtrl (sb : Fin 32) : IgnoresCtrl (l1SubbandScalefactors sb) := by
  have hfield (ch : Fin 2) := runField_data_ignoresCtrl (.l1Scalefactor sb ch)
  exact fun s c => ite_mapNext .rfl (forAllocated_withCtrl hfield)
    (ite_mapNext .rfl (IgnoresCtrl.forEach hfield s c) rfl)

theorem l2SubbandScalefactors_ignoresCtrl (sb : Fin 32) : IgnoresCtrl (l2SubbandScalefactors sb) := fun _ _ =>
  forAllocated_withCtrl fun ch s c => runField_data_ignoresCtrl (.l2Scalefactor sb ch (s.sub ch sb).scfsi) s c

theorem scalefactorsStep_ignoresCtrl : IgnoresCtrl scalefactorsStep := fun s c =>
  andThen_mapNext (IgnoresCtrl.forEach (fun sb s c => andThen_mapNext
    (ite_mapNext .rfl (l1SubbandScalefactors_ignoresCtrl sb s c) (l2SubbandScalefactors_ignoresCtrl sb s c))
    (.next fun s c => advanceSbst_withCtrl s c ..)) s c) (.next fun _ _ => rfl)

theorem runSample_ignoresCtrl (sb : Fin 32) (ch : Fin 2) : IgnoresCtrl (runSample sb ch) := by
  intro s c
  refine runField_data_ignoresCtrl (fmt := if s.isLayerI then _ else s.tripletFormat sb ch) ?_ s c
  unfold State.tripletFormat
  split
  · exact .l1Sample ..
  · split
    · exact .l2Grouped ..
    · exact .l2Ungrouped ..

theorem subbandSamples_ignoresCtrl (sb : Fin 32) : IgnoresCtrl (subbandSamples sb) := fun _ _ =>
  andThen_mapNext (forAllocated_withCtrl (runSample_ignoresCtrl sb)) (.next fun s c => advanceSbst_withCtrl s c ..)

theorem putAll_ignoresCtrl (limit : Nat) : IgnoresCtrl (putAll limit) :=
  .forEach fun sb s c => exec_onFrame_ignoresCtrl (putOp_onFrame (K := fun _ => True) s sb) s c

theorem synthStep_withCtrl (s : State) (c : CtrlReg) (f : Fin 2) :
    (s.withCtrl c).synthStep f = (s.synthStep f).withCtrl c := by
  simp only [State.synthStep, State.obPut_foldl, State.withCtrl]

theorem synthesize_ignoresCtrl : IgnoresCtrl synthesize := fun s c =>
  andThen_mapNext (congrArg Host.Outcome.next (synthStep_withCtrl s c 0)) fun s c =>
    ite_mapNext .rfl (congrArg Host.Outcome.next (synthStep_withCtrl s c 1)) rfl

theorem l1SamplesStep_ignoresCtrl : IgnoresCtrl l1SamplesStep := fun s c =>
  andThen_mapNext (andThen_mapNext (IgnoresCtrl.forEach subbandSamples_ignoresCtrl s c) (.next fun _ _ => rfl))
    fun s c => andThen_mapNext (putAll_ignoresCtrl 32 s c)
      fun s c => andThen_mapNext (synthesize_ignoresCtrl s.rearm c) (.next fun _ _ => rfl)

theorem l2SamplesStep_ignoresCtrl : IgnoresCtrl l2SamplesStep := fun s c =>
  andThen_mapNext (ite_mapNext .rfl
    (andThen_mapNext (IgnoresCtrl.forEach subbandSamples_ignoresCtrl s c) (.next fun _ _ => rfl)) rfl)
    fun s c => andThen_mapNext (putAll_ignoresCtrl s.hdr.sblimit s c) fun s c => by
      refine andThen_mapNext ?_ (.next fun _ _ => rfl)
      rw [← synthesize_ignoresCtrl]
      exact congrArg synthesize (ite_withCtrl .rfl rfl rfl)

theorem blockStep_ignoresCtrl : IgnoresCtrl blockStep := by
  intro s c
  cases hseq : s.seq <;> simp only [blockStep, State.withCtrl_seq, hseq]
  case idle | done | stopped | failed => rfl
  case awaitSync => exact congrArg Host.Outcome.next (ite_withCtrl .rfl rfl rfl)
  case header => exact execReadHeaderBytes_ignoresCtrl s c
  case fetch => exact execFetchFrame_ignoresCtrl s c
  case alloc => exact allocStep_ignoresCtrl s c
  case scfsi => exact scfsiStep_ignoresCtrl s c
  case scalefactors => exact scalefactorsStep_ignoresCtrl s c
  case samples => exact ite_mapNext .rfl (l1SamplesStep_ignoresCtrl s c) (l2SamplesStep_ignoresCtrl s c)
  case emit => exact execEmit_ignoresCtrl s c

end Sys2Proof.Machine

namespace Sys2Proof
open Machine

/-- Settles O57: a step at the block's turn is `blockStep`, and every operation of it ignores CTRL. -/
theorem decodeIgnoresStoredConfig : Obligations.DecodeIgnoresStoredConfig := by
  intro s t c hturn h
  have hblock (script : List EnvEvent) (h : blockStep { s with script := script } = .next t) :
      blockStep (State.withCtrl { s with script := script } c) = .next (t.withCtrl c) := by
    rw [blockStep_ignoresCtrl, h, mapNext_next]
  obtain hs | ⟨rest, hs⟩ := hturn
  · change nextStep s = _ at h
    rw [nextStep_block hs] at h
    exact (nextStep_block (s := s.withCtrl c) hs).trans (hblock s.script h)
  · simp only [step, nextStep, hs] at h ⊢
    exact hblock rest h

end Sys2Proof
end

section
/-! The registers: what CTRL reads after a command (O42), the saturating counters (O18) and the values after a hard
reset (O39). -/
namespace Sys2Proof.Machine

/-! ### CTRL as read -/

theorem State.ctrlWord_toNat (s : State) :
    s.ctrlWord.toNat = 2 * s.stopReq.toNat + 8 * s.ctrl.strict.toNat + 16 * s.ctrl.chansel.code.toNat +
      64 * s.ctrl.fmt.code.toNat + 128 * s.ctrl.irqEn.toNat := by
  have fields : ∀ (irq : Bool) (fmt : BitVec 1) (chansel : BitVec 2) (strict stop : Bool),
      (0#24 ++ BitVec.ofBool irq ++ fmt ++ chansel ++ BitVec.ofBool strict ++ 0#1 ++ BitVec.ofBool stop ++ 0#1).toNat =
        2 * stop.toNat + 8 * strict.toNat + 16 * chansel.toNat + 64 * fmt.toNat + 128 * irq.toNat := by decide
  exact fields ..

theorem ChanSel.code_ofBits (v : BitVec 2) : (ChanSel.ofBits v).code.toNat = if v = 0b11#2 then 0 else v.toNat := by
  revert v
  decide

theorem OutFmt.code_ofWrite (v : CtrlWrite) : (CtrlReg.ofWrite v).fmt.code.toNat = v.fmt.toNat := by
  unfold CtrlReg.ofWrite
  cases v.fmt <;> rfl

theorem State.startCommand_ctrl (s : State) : s.startCommand.ctrl = s.ctrl := by
  unfold State.startCommand
  split <;> rfl

/-- Every command stores bits 7:3 of the write, and none of them changes what it stored. -/
theorem exec_command_ctrl {v : CtrlWrite} {i : Instr} {s t : State}
    (hi : i ∈ [Instr.ctrlSoftReset v, .ctrlStart v, .ctrlStop v, .ctrlConfig v]) (h : exec i s = .next t) :
    t.ctrl = CtrlReg.ofWrite v := by
  simp only [List.mem_cons, List.not_mem_nil, or_false] at hi
  obtain rfl | rfl | rfl | rfl := hi <;> cases h
  · rfl
  · split <;> exact (s.storeCtrl v).startCommand_ctrl
  · rfl
  · rfl

/-! ### Reset values -/

theorem State.readReg_reset (off : Word) : State.reset.readReg off = 0 := by
  unfold State.readReg
  split <;> rfl

theorem State.sub_reset (ch : Fin 2) (sb : Fin 32) : State.reset.sub ch sb = SubCtx.zero := by
  simp [State.sub, State.reset]

theorem State.filt_reset (f : Fin 2) : State.reset.filt[f] = Filter.zero := by
  simp [State.reset]

end Sys2Proof.Machine

namespace Sys2Proof
open Machine

/-- Settles O42, by what a command stores and the fields of the word. -/
theorem ctrlReadsBackStoredBits : Obligations.CtrlReadsBackStoredBits := by
  intro v i s t hi h
  have hctrl := exec_command_ctrl hi h
  calc (t.readReg 0).toNat = t.ctrlWord.toNat := rfl
    _ = _ := by rw [State.ctrlWord_toNat, hctrl, OutFmt.code_ofWrite, ← ChanSel.code_ofBits]; rfl

/-- Settles O18: below all ones the addition does not wrap. -/
theorem diagnosticsSaturate : Obligations.DiagnosticsSaturate := by
  intro c
  refine ⟨fun hc => ?_, fun hc => if_pos hc⟩
  rw [diagCount, if_neg hc]
  bv_omega

/-- Settles O39: the values stand in `State.reset`, and a hard reset of any state is `State.reset` with the parameters,
the environment and `bits` kept. -/
theorem hardResetValues : Obligations.HardResetValues := by
  refine ⟨by decide, by decide, by decide, ⟨fun _ => rfl, by decide⟩, fun ch sb => ⟨State.sub_reset ch sb, ?_⟩,
    by decide, fun f => ?_, ⟨rfl, State.readReg_reset⟩, fun s rest hscript => ?_⟩
  · simp [State.reset]
  · rw [State.filt_reset]
    simp [Filter.zero]
  · simp only [step, nextStep, hscript]
    rfl

end Sys2Proof
end

section
/-! The frame buffer: canonical memories that read the same are equal (O12), and which operations write it (O11). -/
namespace Sys2Proof.Machine

/-! ### Extensionality -/

theorem Memory.read_head (c : Host.Cell) (m : Memory) : Memory.read (c :: m) c.1 = c.2 := by
  rw [Memory.read_cons, if_pos rfl]

/-- Below its first index a canonical memory reads as blank, so it cannot read as one that starts there. -/
theorem Memory.head_le_of_read_eq {c d : Host.Cell} {m n : Memory} (hm : Memory.wf (c :: m) = true)
    (hn : Memory.wf (d :: n) = true) (h : ∀ a, Memory.read (c :: m) a = Memory.read (d :: n) a) : d.1 ≤ c.1 := by
  by_contra hlt
  have habove : ∀ e ∈ d :: n, c.1 < e.1 := by
    have hd := Memory.wf_above hn
    simp only [List.mem_cons, forall_eq_or_imp]
    exact ⟨not_le.1 hlt, fun e he => (not_le.1 hlt).trans (hd e he)⟩
  exact Memory.wf_head hm (by rw [← Memory.read_head c m, h, Memory.read_blank_of_above habove])

theorem Memory.ext_of_wf {m n : Memory} (hm : m.wf = true) (hn : n.wf = true) (h : ∀ a, m.read a = n.read a) :
    m = n := by
  induction m generalizing n with
  | nil =>
    cases n with
    | nil => rfl
    | cons d n => exact absurd (by rw [← Memory.read_head d n, ← h, Memory.read_nil]) (Memory.wf_head hn)
  | cons c m ih =>
    cases n with
    | nil => exact absurd (by rw [← Memory.read_head c m, h, Memory.read_nil]) (Memory.wf_head hm)
    | cons d n =>
      have hidx : c.1 = d.1 := le_antisymm (Memory.head_le_of_read_eq hn hm fun a => (h a).symm)
        (Memory.head_le_of_read_eq hm hn h)
      have hbyte : c.2 = d.2 := by rw [← Memory.read_head c m, h, hidx, Memory.read_head]
      have htail : ∀ a, Memory.read m a = Memory.read n a := by
        intro a
        by_cases ha : a = c.1
        · rw [Memory.read_blank_of_above (ha ▸ Memory.wf_above hm),
            Memory.read_blank_of_above (ha ▸ hidx ▸ Memory.wf_above hn)]
        · have := h a
          rwa [Memory.read_cons, Memory.read_cons, if_neg ha, if_neg (hidx ▸ ha)] at this
      rw [Prod.ext hidx hbyte, ih (Memory.wf_tail hm) (Memory.wf_tail hn) htail]

/-! ### The operations that leave the frame buffer alone -/

variable {K : SubCtx → Prop} {s t : State}

theorem Advances.fb (h : Advances K s t) : t.fb = s.fb := (congrArg State.fb h.frame :)

theorem FailsFrom.fb (h : FailsFrom s t) : t.fb = s.fb := by
  obtain ⟨u, code, detail, hu, -, rfl⟩ := h
  exact (congrArg State.fb hu :)

theorem exec_onFrame_fb {i : Instr} (hi : OnFrame (fun _ => True) i) (h : exec i s = .next t) : t.fb = s.fb :=
  (exec_outcome hi h).elim FailsFrom.fb Advances.fb

theorem parseHeader_fb {h : HeaderFields} (ht : parseHeader h s = .next t) : t.fb = s.fb := by
  obtain ⟨w, code, detail, -, rfl⟩ | ⟨-, rfl⟩ := parseHeader_cases ht <;> rfl

theorem finishFetch_fb (h : finishFetch s = .next t) : t.fb = s.fb := by
  have hstart : s.startFrame.fb = s.fb := by rw [s.startFrame_eq]
  obtain ⟨u, hword, hlast⟩ := andThen_eq_next h
  have hfb : u.fb = s.fb := by
    obtain ⟨-, e⟩ | ⟨-, e⟩ := ite_eq_iff.1 hword
    · exact (exec_onFrame_fb (.crcWord _) e).trans hstart
    · cases e
      exact hstart
  obtain ⟨-, rfl⟩ | ⟨-, e⟩ := hlast
  · exact hfb
  · cases e
    exact hfb

theorem execReadHeaderBytes_fb_of_no_byte (havail : s.src.avail = []) (h : execReadHeaderBytes s = .next t) :
    t.fb = s.fb := by
  cases heos : s.src.eos with
  | false =>
    rw [execReadHeaderBytes_waiting havail heos] at h
    cases h
    rfl
  | true =>
    rw [execReadHeaderBytes_eos havail heos, s.markStart_eq] at h
    cases h
    split <;> rfl

theorem execFetchFrame_fb_of_no_byte (havail : s.src.avail = []) (h : execFetchFrame s = .next t) : t.fb = s.fb := by
  by_cases hend : s.flen.toNat ≤ s.framePos
  · exact finishFetch_fb (execFetchFrame_end hend ▸ h)
  have hpos := not_le.1 hend
  cases heos : s.src.eos with
  | false =>
    rw [execFetchFrame_waiting hpos havail heos] at h
    cases h
    rfl
  | true =>
    rw [execFetchFrame_eos hpos havail heos] at h
    cases h
    rfl

theorem execEmit_fb (h : execEmit s = .next t) : t.fb = s.fb := by
  unfold execEmit at h
  split at h
  · cases h
  · split at h <;> cases h
    · split <;> rfl
    · rfl

theorem execRegRead_fb {off : Word} (h : execRegRead off s = .next t) : t.fb = s.fb := by
  unfold execRegRead at h
  split at h <;> cases h
  rfl

theorem exec_fb {i : Instr} (h : exec i s = .next t)
    (hbyte : s.src.avail = [] ∨ (i ≠ .readHeaderBytes ∧ i ≠ .fetchFrame)) (hreset : ∀ v, i ≠ .ctrlSoftReset v)
    (hstart : ∀ v, i ≠ .ctrlStart v) : t.fb = s.fb := by
  cases i
  case ctrlSoftReset v => exact absurd rfl (hreset v)
  case ctrlStart v => exact absurd rfl (hstart v)
  case readHeaderBytes => exact execReadHeaderBytes_fb_of_no_byte (hbyte.resolve_right fun h => h.1 rfl) h
  case fetchFrame => exact execFetchFrame_fb_of_no_byte (hbyte.resolve_right fun h => h.2 rfl) h
  case regRead => exact execRegRead_fb h
  case emit => exact execEmit_fb h
  case synthStep f =>
    cases h
    rw [s.synthStep_eq]
  case l1Scalefactor => exact exec_onFrame_fb (.data (.l1Scalefactor ..)) h
  case l1Sample => exact exec_onFrame_fb (.data (.l1Sample ..)) h
  case l2Scfsi => exact exec_onFrame_fb (.data (.l2Scfsi ..)) h
  case l2Scalefactor => exact exec_onFrame_fb (.data (.l2Scalefactor ..)) h
  case l2Grouped => exact exec_onFrame_fb (.data (.l2Grouped ..)) h
  case l2GroupedOutOfRange => exact exec_onFrame_fb (.data (.l2GroupedOutOfRange ..)) h
  case l2Ungrouped => exact exec_onFrame_fb (.data (.l2Ungrouped ..)) h
  case l1Alloc => exact exec_onFrame_fb (.alloc (.l1Alloc _ fun _ => trivial)) h
  case l1AllocCorrupt => exact exec_onFrame_fb (.alloc (.l1AllocCorrupt fun _ => trivial)) h
  case l2Alloc => exact exec_onFrame_fb (.alloc (.l2Alloc _ _ fun _ => trivial)) h
  case crcWord => exact exec_onFrame_fb (.crcWord _) h
  case getBits => exact exec_onFrame_fb (.getBits _) h
  case crcCheck => exact exec_onFrame_fb .crcCheck h
  case skipToFrameEnd => exact exec_onFrame_fb .skipToFrameEnd h
  case l1Dequant => exact exec_onFrame_fb (.l1Dequant ..) h
  case l1PutMono => exact exec_onFrame_fb (.l1PutMono _) h
  case l1PutStereo => exact exec_onFrame_fb (.l1PutStereo _) h
  case l1PutIntensity => exact exec_onFrame_fb (.l1PutIntensity _) h
  case rq2 => exact exec_onFrame_fb (.rq2 ..) h
  case l2PutMono => exact exec_onFrame_fb (.l2PutMono _) h
  case l2PutStereo => exact exec_onFrame_fb (.l2PutStereo _) h
  case l2PutIntensity => exact exec_onFrame_fb (.l2PutIntensity _) h
  case addSample => exact exec_onFrame_fb (.addSample ..) h
  -- the header classes, STOP, a write without a command, and CONVERT are one record update each
  all_goals
    cases h
    rfl

/-! ### The operations that take a byte -/

theorem execReadHeaderBytes_fb_of_byte {b : Byte} {rest : List Byte} (havail : s.src.avail = b :: rest)
    (h : execReadHeaderBytes s = .next t) : t.fb = s.fb.write s.hdrBytes b := by
  rw [execReadHeaderBytes_byte havail] at h
  obtain ⟨-, h⟩ | ⟨-, h⟩ := ite_eq_iff.1 h
  · obtain ⟨-, h⟩ | ⟨-, h⟩ := ite_eq_iff.1 h
    · exact parseHeader_fb h
    · cases h
      rfl
  · cases h

theorem execFetchFrame_fb_of_byte {b : Byte} {rest : List Byte} (hpos : s.framePos < s.flen.toNat)
    (havail : s.src.avail = b :: rest) (h : execFetchFrame s = .next t) : t.fb = s.fb.write s.framePos b := by
  rw [execFetchFrame_byte hpos havail] at h
  obtain ⟨-, h⟩ | ⟨-, h⟩ := ite_eq_iff.1 h
  · obtain ⟨-, h⟩ | ⟨-, h⟩ := ite_eq_iff.1 h
    · exact finishFetch_fb h
    · cases h
      rfl
  · cases h

/-- A canonical memory after the write of one byte. -/
theorem Memory.write_spec {m n : Memory} {a : Nat} {b : Byte} (hm : m.wf = true) (hn : n = m.write a b) :
    n.wf = true ∧ n.read a = b ∧ ∀ a', a' ≠ a → n.read a' = m.read a' := by
  subst hn
  exact ⟨Memory.write_wf a b hm, Memory.read_write_same a b hm, fun _ => Memory.read_write_other b hm⟩

end Sys2Proof.Machine

namespace Sys2Proof
open Machine

/-- Settles O12, by induction on both lists: their first cells agree, and then their tails read the same. -/
theorem equalReadsEqualMemory : Obligations.EqualReadsEqualMemory := fun _ _ => Memory.ext_of_wf

/-- Settles O11: the two operations that take a byte write it at their index, and no other operation on the frame buffer
is left. -/
theorem frameBufferFrame : Obligations.FrameBufferFrame :=
  ⟨fun _ _ _ _ hwf havail h => Memory.write_spec hwf (execReadHeaderBytes_fb_of_byte havail h),
    fun _ _ _ _ hwf havail hpos h => Memory.write_spec hwf (execFetchFrame_fb_of_byte hpos havail h),
    fun _ _ _ h hbyte hreset hstart => exec_fb h hbyte hreset hstart⟩

end Sys2Proof
end

section
/-! When an operation on the frame answers a next state (for O60). `RunsTo Q` is the total form of `Outcome Q`: the
operation answers, and its answer has the property `Q` unless it failed. -/
namespace Sys2Proof.Machine

variable {K : SubCtx → Prop} {Q : State → Prop} {s : State}

/-- The operation answers a next state, and unless that is FAILED it has the property `Q`. -/
def RunsTo (Q : State → Prop) (o : Result) : Prop := ∃ t, o = .next t ∧ (t.seq ≠ .failed → Q t)

/-- The operation answers a next state. -/
def Answers (o : Result) : Prop := ∃ t, o = .next t

/-- The frame lies inside the frame buffer (40_bitstream_reader.md R84). -/
def State.FrameFits (s : State) : Prop := s.flen.toNat ≤ s.params.frameBufBytes

/-! ### Composition -/

theorem RunsTo.answers {o : Result} (h : RunsTo Q o) : Answers o := by
  obtain ⟨t, ht, -⟩ := h
  exact ⟨t, ht⟩

/-- What every answer of an operation does holds of the one it gives. -/
theorem Answers.runsTo {o : Result} (h : Answers o) (ho : ∀ t, o = .next t → Outcome Q s t) : RunsTo Q o := by
  obtain ⟨t, ht⟩ := h
  exact ⟨t, ht, fun hlive => (ho t ht).resolve_left fun hf => hlive hf.seq⟩

theorem RunsTo.next (h : Q s) : RunsTo Q (.next s) := ⟨s, rfl, fun _ => h⟩

theorem Answers.ite {p : Prop} [Decidable p] {o o' : Result} (ho : Answers o) (ho' : Answers o') :
    Answers (if p then o else o') := by
  split
  · exact ho
  · exact ho'

theorem RunsTo.andThen {Q' : State → Prop} {o : Result} {k : State → Result} (ho : RunsTo Q o)
    (hk : ∀ u, Q u → RunsTo Q' (k u)) : RunsTo Q' (Machine.andThen o k) := by
  obtain ⟨u, rfl, hu⟩ := ho
  by_cases hf : u.seq = .failed
  · exact ⟨u, andThen_failed hf, fun hlive => absurd hf hlive⟩
  · rw [andThen_next hf]
    exact hk u (hu hf)

theorem RunsTo.andThen_answers {o : Result} {k : State → Result} (ho : RunsTo Q o) (hk : ∀ u, Q u → Answers (k u)) :
    Answers (Machine.andThen o k) := by
  obtain ⟨u, rfl, hu⟩ := ho
  by_cases hf : u.seq = .failed
  · exact ⟨u, andThen_failed hf⟩
  · rw [andThen_next hf]
    exact hk u (hu hf)

theorem Answers.andThen {o : Result} {k : State → Result} (ho : Answers o) (hk : ∀ u, Answers (k u)) :
    Answers (Machine.andThen o k) := by
  obtain ⟨u, hu⟩ := ho
  exact RunsTo.andThen_answers (Q := fun _ => True) ⟨u, hu, fun _ => trivial⟩ fun u _ => hk u

/-- A loop of operations on the frame, each of which answers wherever the ones before it lead. -/
theorem RunsTo.forEach {α : Type} {xs : List α} {body : α → State → Result}
    (hb : ∀ x ∈ xs, ∀ u, Advances K s u → RunsTo (Advances K u) (body x u)) :
    RunsTo (Advances K s) (Machine.forEach xs body s) := by
  suffices h : ∀ u, Advances K s u → RunsTo (Advances K s) (Machine.forEach xs body u) from h s (.refl s)
  induction xs with
  | nil => exact fun u hu => .next hu
  | cons x rest ih =>
    intro u hu
    exact .andThen (hb x (by simp) u hu) fun v hv => ih (fun y hy => hb y (by simp [hy])) v (hu.trans hv)

theorem takeBits_answers {n : Nat} {go : State → Result} (hs : s.FrameFits)
    (hg : Answers (go { s with bitpos := s.bitpos + n })) : Answers (s.takeBits n go) := by
  obtain ⟨-, e⟩ | ⟨hn, hover, -⟩ | ⟨-, -, e⟩ := s.takeBits_cases n go
  · exact ⟨_, e⟩
  · unfold State.FrameFits at hs
    omega
  · rwa [e]

theorem takeFields_answers {width : Nat} {go : State → Result} (hg : ∀ u, Answers (go u)) (count : Nat) {s : State}
    (hs : s.FrameFits) : Answers (s.takeFields width count go) := by
  induction count generalizing s with
  | zero => exact hg s
  | succ count ih => exact takeBits_answers hs (ih hs)

/-! ### The operations on the frame -/

theorem exec_readsData_answers {i : Instr} (hi : ReadsData i) (hs : s.FrameFits) : Answers (exec i s) := by
  cases hi <;>
    simp only [exec, execL1Scalefactor, execL1Sample, execL2Scfsi, execL2Scalefactor, execL2Grouped,
      execL2GroupedOutOfRange, execL2Ungrouped]
  case l2Scalefactor => exact takeFields_answers (fun _ => ⟨_, rfl⟩) _ hs
  case l2Ungrouped =>
    refine takeBits_answers hs (takeBits_answers (s := State.setSmp _ _ _ _ _) hs ?_)
    exact takeBits_answers (s := State.setSmp _ _ _ _ _) hs ⟨_, rfl⟩
  all_goals exact takeBits_answers hs ⟨_, rfl⟩

theorem exec_allocates_answers {sb : Fin 32} {ch : Fin 2} {i : Instr} (hi : Allocates K sb ch i) (hs : s.FrameFits) :
    Answers (exec i s) := by
  cases hi <;> simp only [exec, execL1Alloc, execL1AllocCorrupt, execL2Alloc]
  case l1AllocCorrupt =>
    exact takeBits_answers hs (.ite ⟨_, rfl⟩ ⟨_, rfl⟩)
  all_goals exact takeBits_answers hs ⟨_, rfl⟩

theorem execCrcCheck_answers (s : State) : Answers (execCrcCheck s) :=
  .ite (.ite ⟨_, rfl⟩ ⟨_, rfl⟩) ⟨_, rfl⟩

/-- A put answers, one of Layer II with a sample index inside the triplet (10_state.md R33). -/
theorem exec_putOp_answers (sb : Fin 32) (hsn : s.isLayerI = false → s.sn < 3) : Answers (exec (s.putOp sb) s) := by
  have hput (hl : ¬s.isLayerI = true) (put : Fin 3 → Fin 3 → State) : Answers (s.putL2 put) :=
    ⟨_, dif_pos (hsn (Bool.eq_false_of_not_eq_true hl))⟩
  unfold State.putOp
  split_ifs with hl
  exacts [⟨_, rfl⟩, ⟨_, rfl⟩, ⟨_, rfl⟩, hput hl _, hput hl _, hput hl _]

/-! ### Decoding a field of the frame -/

/-- A field answers if its bits, whatever they are, decode to an operation that does. -/
theorem runField_answers {fmt : Format} (hdecode : ∀ w, ∃ i, decodeFitting fmt w = .ok i)
    (hexec : ∀ w i, decode fmt w = .ok i → Answers (exec i s)) : Answers (runField fmt s) := by
  have hw := s.peekBits_lt fmt.width
  obtain ⟨i, hi⟩ := hdecode (s.peekBits fmt.width)
  have hi : decode fmt (s.peekBits fmt.width) = .ok i := (if_pos hw).trans hi
  simp only [runField, hi]
  exact hexec _ i hi

/-- The scale-factor and sample fields that exist (30_encoding.md R71, R76). -/
inductive FieldExists : Format → Prop
  | l1Scalefactor (sb ch) : FieldExists (.l1Scalefactor sb ch)
  | l1Sample (sb ch) {a : BitVec 4} (h0 : a ≠ 0#4) (h15 : a ≠ 15#4) : FieldExists (.l1Sample sb ch a)
  | l2Scfsi (sb ch) : FieldExists (.l2Scfsi sb ch)
  | l2Scalefactor (sb ch c) : FieldExists (.l2Scalefactor sb ch c)
  | l2Grouped (sb ch) {n : Nat} (h : isGrouped n = true) : FieldExists (.l2Grouped sb ch n)
  | l2Ungrouped (sb ch) {n : Nat} (h : isGrouped n = false) (hcw : codeWidth n ≠ 0) : FieldExists (.l2Ungrouped sb ch n)

theorem FieldExists.dataFormat {fmt : Format} (h : FieldExists fmt) : DataFormat fmt := by cases h <;> constructor

theorem FieldExists.decodes {fmt : Format} (h : FieldExists fmt) (w : Nat) : ∃ i, decodeFitting fmt w = .ok i := by
  cases h
  case l1Sample h0 h15 => exact ⟨_, if_neg (by simp [h0, h15])⟩
  case l2Grouped h => exact ⟨_, if_pos h⟩
  case l2Ungrouped h hcw => exact ⟨_, if_neg (by simp [h, hcw])⟩
  all_goals exact ⟨_, rfl⟩

theorem runField_runsTo {fmt : Format} (hf : FieldExists fmt) (hs : s.FrameFits) :
    RunsTo (Advances K s) (runField fmt s) :=
  (runField_answers (hf.decodes) fun _ _ hi =>
    exec_readsData_answers (decode_readsData hf.dataFormat hi) hs).runsTo fun _ => runField_outcome hf.dataFormat

end Sys2Proof.Machine
end

section
/-! Under the invariant every step of the block answers a next state (for O60). -/
namespace Sys2Proof.Machine

variable {K : SubCtx → Prop} {s t : State}

theorem State.InFrame.frameFits (h : s.InFrame) : s.FrameFits :=
  h.flenHdr.trans_le (h.hdrLegal.flen_bounds.2.trans h.params)

theorem Advances.frameFits (h : Advances K s t) (hs : s.FrameFits) : t.FrameFits := by
  rw [h.frame]
  exact hs

/-! ### HEADER and FETCH -/

theorem parseHeader_answers (h : HeaderFields) (s : State) : Answers (parseHeader h s) := by
  unfold parseHeader
  iterate 7 refine .ite ⟨_, rfl⟩ ?_
  exact .ite (.ite ⟨_, rfl⟩ ⟨_, rfl⟩) (.ite (.ite ⟨_, rfl⟩ ⟨_, rfl⟩) (.ite ⟨_, rfl⟩ ⟨_, rfl⟩))

theorem headerStep_answers (hs : s.BufferLegal) (hlt : s.hdrBytes < 4) : Answers (execReadHeaderBytes s) := by
  cases havail : s.src.avail with
  | nil =>
    cases heos : s.src.eos with
    | false => exact ⟨_, execReadHeaderBytes_waiting havail heos⟩
    | true => exact ⟨_, execReadHeaderBytes_eos havail heos⟩
  | cons b rest =>
    rw [execReadHeaderBytes_byte havail, if_pos (hs.lt_frameBufBytes (by omega))]
    split
    · exact parseHeader_answers ..
    · exact ⟨_, rfl⟩

theorem finishFetch_answers (hs : s.FrameFits) : Answers (finishFetch s) := by
  have hstart : s.startFrame.FrameFits := by rw [s.startFrame_eq]; exact hs
  have hword : Answers (if s.startFrame.hdr.raw.prot = 0#1 then
      execCrcWord (BitVec.ofNat 16 (s.startFrame.peekBits 16)) s.startFrame else .next s.startFrame) := by
    split
    · exact takeBits_answers hstart ⟨_, rfl⟩
    · exact ⟨_, rfl⟩
  exact hword.andThen fun u => ⟨_, rfl⟩

theorem fetchStep_answers (hs : s.InFrame) (hpos : s.framePos < s.flen.toNat) : Answers (execFetchFrame s) := by
  have hfits := hs.frameFits
  cases havail : s.src.avail with
  | nil =>
    cases heos : s.src.eos with
    | false => exact ⟨_, execFetchFrame_waiting hpos havail heos⟩
    | true => exact ⟨_, execFetchFrame_eos hpos havail heos⟩
  | cons b rest =>
    rw [execFetchFrame_byte hpos havail, if_pos (hpos.trans_le hfits)]
    split
    · exact finishFetch_answers hfits
    · exact ⟨_, rfl⟩

/-! ### ALLOC -/

theorem Allocates.unconstrained {sb : Fin 32} {ch : Fin 2} {i : Instr} (h : Allocates K sb ch i) :
    Allocates (fun _ => True) sb ch i := by
  cases h
  case l1Alloc => exact .l1Alloc _ fun _ => trivial
  case l1AllocCorrupt => exact .l1AllocCorrupt fun _ => trivial
  case l2Alloc => exact .l2Alloc _ _ fun _ => trivial

theorem readAllocations_runsTo {limit : Nat} {fmt : Fin 32 → Fin 2 → Format}
    (hdecode : ∀ sb : Fin 32, sb.val < limit → ∀ ch w, ∃ i, decodeFitting (fmt sb ch) w = .ok i)
    (halloc : ∀ sb ch w i, decode (fmt sb ch) w = .ok i → Allocates K sb ch i) (hnch : s.hdr.nch = 1 ∨ s.hdr.nch = 2)
    (hs : s.FrameFits) : RunsTo (Advances (fun _ => True) s) (readAllocations limit fmt s) := by
  refine RunsTo.forEach fun sb hsb u hu => RunsTo.andThen (Q := Advances (fun _ => True) u) ?_ fun v hv => ?_
  · refine RunsTo.forEach fun ch _ v hv => Answers.runsTo (s := v) ?_ fun t e => ?_
    · exact runField_answers (hdecode sb (mem_subbandsIn.1 hsb).2 ch) fun w i hi =>
        exec_allocates_answers (halloc sb ch w i hi) (hv.frameFits (hu.frameFits hs))
    · obtain ⟨i, hi, e⟩ := runField_eq_next e
      exact exec_outcome (.alloc (halloc _ _ _ _ hi).unconstrained) e
  · have hclose := closeAlloc_advances (K := fun _ => True) (s := v) (sb := sb) ((hu.trans hv).hdr ▸ hnch)
      fun _ _ => trivial
    exact .next (hv.trans hclose.1)

/-- CRC_CHECK, then on to SCALEFACTORS. -/
theorem checkCrc_answers (s : State) :
    Answers (andThen (exec .crcCheck s) fun u => .next { u with seq := .scalefactors }) :=
  (execCrcCheck_answers s).andThen fun _ => ⟨_, rfl⟩

theorem allocStep_answers (hs : s.InFrame) : Answers (allocStep s) := by
  unfold allocStep
  cases hl : s.isLayerI with
  | true =>
    exact (readAllocations_runsTo (fun sb _ ch w => ⟨_, rfl⟩) (fun _ _ _ _ => decode_l1Alloc_allocates) hs.hdrLegal.nch
      hs.frameFits).answers.andThen checkCrc_answers
  | false =>
    obtain ⟨tab, htab, hsub⟩ := hs.hdrLegal.layerII hl
    rw [if_neg (by simp), htab]
    have hdecode (sb : Fin 32) (hsb : sb.val < s.hdr.sblimit) (ch : Fin 2) (w : Nat) :
        ∃ i, decodeFitting (.l2Alloc tab sb ch) w = .ok i := ⟨_, if_pos (hsb.trans_eq hsub)⟩
    exact (readAllocations_runsTo hdecode (fun _ _ _ _ => decode_l2Alloc_allocates) hs.hdrLegal.nch
      hs.frameFits).answers.andThen fun _ => ⟨_, rfl⟩

/-! ### SCFSI and SCALEFACTORS -/

theorem forAllocated_runsTo {nch : Nat} {sb : Fin 32} {body : Fin 2 → State → Result}
    (hb : ∀ ch : Fin 2, ch.val < nch → ∀ u, Advances K s u → (u.sub ch sb).alloc ≠ 0#4 →
      RunsTo (Advances K u) (body ch u)) :
    RunsTo (Advances K s) (forAllocated nch sb body s) := by
  refine RunsTo.forEach fun ch hch u hu => ?_
  split
  · next ha => exact hb ch (mem_channelsBelow.1 hch) u hu ha
  · exact .next (.refl u)

/-- A field that exists wherever it is read, for each allocated channel. -/
theorem forAllocated_field_runsTo {nch : Nat} {sb : Fin 32} {fmt : Fin 2 → State → Format}
    (hf : ∀ ch u, FieldExists (fmt ch u)) (hs : s.FrameFits) :
    RunsTo (Advances K s) (forAllocated nch sb (fun ch u => runField (fmt ch u) u) s) :=
  forAllocated_runsTo fun ch _ u hu _ => runField_runsTo (hf ch u) (hu.frameFits hs)

theorem scfsiStep_answers (hs : s.FrameFits) : Answers (scfsiStep s) :=
  (RunsTo.forEach (K := fun _ => True) (s := s) fun sb _ _ hu =>
    forAllocated_field_runsTo (fun ch _ => .l2Scfsi sb ch) (hu.frameFits hs)).answers.andThen checkCrc_answers

theorem l1SubbandScalefactors_runsTo (sb : Fin 32) (hs : s.FrameFits) :
    RunsTo (Advances K s) (l1SubbandScalefactors sb s) := by
  unfold l1SubbandScalefactors
  split
  · exact forAllocated_field_runsTo (fun ch _ => .l1Scalefactor sb ch) hs
  · split
    · exact RunsTo.forEach fun ch _ u hu => runField_runsTo (.l1Scalefactor sb ch) (hu.frameFits hs)
    · exact .next (.refl s)

theorem scalefactorsStep_answers (hs : s.FrameFits) : Answers (scalefactorsStep s) := by
  refine (RunsTo.forEach (K := fun _ => True) (s := s) fun sb _ u hu => ?_).answers.andThen fun _ => ⟨_, rfl⟩
  refine RunsTo.andThen (Q := Advances (fun _ => True) u) ?_ fun v hv => .next (hv.trans (.advanceSbst v ..))
  split
  · exact l1SubbandScalefactors_runsTo sb (hu.frameFits hs)
  · exact forAllocated_field_runsTo (fun ch v => .l2Scalefactor sb ch _) (hu.frameFits hs)

/-! ### SAMPLES -/

/-- The sample field of an allocation that fits its layer exists (30_encoding.md R71, R76). -/
theorem SubCtx.coherent.fieldExists {sb : Fin 32} {ch : Fin 2} (h : (s.sub ch sb).coherent s.isLayerI)
    (ha : (s.sub ch sb).alloc ≠ 0#4) :
    FieldExists (if s.isLayerI then .l1Sample sb ch (s.sub ch sb).alloc else s.tripletFormat sb ch) := by
  have hclass := h ha
  cases hl : s.isLayerI with
  | true =>
    rw [hl, if_pos rfl] at hclass
    exact .l1Sample sb ch ha hclass.1
  | false =>
    rw [hl, if_neg (by simp)] at hclass
    obtain ⟨hcw, hne, hgrp⟩ := hclass
    rw [if_neg (by simp), State.tripletFormat]
    split
    · next hg => exact .l2Grouped sb ch (hgrp ▸ hg)
    · next hg => exact .l2Ungrouped sb ch (hgrp ▸ Bool.eq_false_of_not_eq_true hg) (hcw ▸ hne)

theorem runSample_runsTo {sb : Fin 32} {ch : Fin 2} (hs : s.FrameFits) (h : (s.sub ch sb).coherent s.isLayerI)
    (ha : (s.sub ch sb).alloc ≠ 0#4) : RunsTo (Advances K s) (runSample sb ch s) :=
  runField_runsTo (h.fieldExists ha) hs

theorem subbandSamples_runsTo {sb : Fin 32} (hs : s.InFrame) (hctx : s.Coherent) (hsb : sb.val < s.hdr.sblimit) :
    RunsTo (Advances (·.coherent s.isLayerI) s) (subbandSamples sb s) := by
  refine RunsTo.andThen (forAllocated_runsTo (K := (·.coherent s.isLayerI)) fun ch hch u hu ha => ?_)
    fun u hu => .next (hu.trans (.advanceSbst u ..))
  have hlt : ch.val < s.hdr.nch := by
    have := hs.hdrLegal.nch
    split at hch <;> omega
  exact runSample_runsTo (hu.frameFits hs.frameFits)
    (hu.coherent rfl hctx ch sb (hu.hdr ▸ hlt) (hu.hdr ▸ hsb)) ha

theorem readSamples_runsTo {limit : Nat} (hs : s.HoldsFrame) (hctx : s.Coherent) (hlimit : limit ≤ s.hdr.sblimit) :
    RunsTo (Advances (·.coherent s.isLayerI) s) (forEach (subbandsIn 0 limit) subbandSamples s) := by
  refine RunsTo.forEach fun sb hsb u hu => ?_
  have hlt := (mem_subbandsIn.1 hsb).2.trans_le hlimit
  have := subbandSamples_runsTo (hu.holdsFrame hs).toInFrame (hu.coherent rfl hctx) (hu.hdr ▸ hlt)
  rwa [hu.isLayerI] at this

theorem putAll_runsTo {limit : Nat} (hsn : s.isLayerI = false → s.sn < 3) :
    RunsTo (Advances (fun _ => True) s) (putAll limit s) := by
  refine RunsTo.forEach fun sb _ u hu => ?_
  have hsn' : u.sn = s.sn := (congrArg State.sn hu.frame :)
  exact (exec_putOp_answers sb fun hl => hsn' ▸ hsn (hu.isLayerI ▸ hl)).runsTo fun _ =>
    exec_outcome (putOp_onFrame u sb)

theorem synthesize_answers (s : State) : Answers (synthesize s) := by
  refine Answers.andThen (o := exec (.synthStep 0) s) ⟨_, rfl⟩ fun u => ?_
  split <;> exact ⟨_, rfl⟩

/-- The puts and the synthesis of a slot, then its end. -/
theorem slot_answers {limit : Nat} {g f : State → State} (hsn : s.isLayerI = false → s.sn < 3) :
    Answers (andThen (putAll limit s) fun u => andThen (synthesize (g u)) fun v => .next (f v)) :=
  (putAll_runsTo hsn).answers.andThen fun u => (synthesize_answers (g u)).andThen fun _ => ⟨_, rfl⟩

theorem l1SamplesStep_answers (hs : s.HoldsFrame) (hctx : s.Coherent) (hl : s.isLayerI = true) :
    Answers (l1SamplesStep s) := by
  have hread : RunsTo (fun u => u.isLayerI = true) (l1ReadSamples s) :=
    (readSamples_runsTo hs hctx (hs.hdrLegal.layerI hl).2.ge).andThen fun u hu => .next (hu.isLayerI.trans hl)
  exact hread.andThen_answers fun u hu => slot_answers fun hl' => absurd (hu.symm.trans hl') (by decide)

theorem l2SamplesStep_answers (hs : s.HoldsFrame) (hctx : s.Coherent) (hsn : s.sn < 3) : Answers (l2SamplesStep s) := by
  have hread : RunsTo (fun u => u.sn < 3) (if s.sn = 0 then l2ReadSamples s else .next s) := by
    split
    · exact (readSamples_runsTo hs hctx le_rfl).andThen fun u _ => .next (by simp)
    · exact .next hsn
  exact hread.andThen_answers fun u hu => slot_answers fun _ => hu

/-! ### EMIT -/

theorem emitStep_answers (h : s.obRd < s.ob.length) : Answers (execEmit s) := by
  rw [execEmit, List.getElem?_eq_getElem h]
  dsimp only
  split <;> exact ⟨_, rfl⟩

/-! ### The block -/

/-- Under the invariant the block never stops (log entry 12). -/
theorem blockStep_answers (h : s.Inv) : Answers (blockStep s) := by
  cases hseq : s.seq <;> simp only [blockStep, hseq]
  case idle | awaitSync | done | stopped | failed => exact ⟨_, rfl⟩
  case header => exact headerStep_answers h.bufferLegal (h.headerBytes hseq).1
  case fetch => exact fetchStep_answers (h.inFrame (by rw [hseq]; rfl)) (h.fetchBytes hseq).2
  case alloc => exact allocStep_answers (h.inFrame (by rw [hseq]; rfl))
  case scfsi => exact scfsiStep_answers (h.inFrame (by rw [hseq]; rfl)).frameFits
  case scalefactors => exact scalefactorsStep_answers (h.inFrame (by rw [hseq]; rfl)).frameFits
  case samples =>
    have hholds := h.holdsFrame (by rw [hseq]; rfl)
    have hctx := h.coherent (by rw [hseq]; rfl)
    unfold samplesStep
    split
    · next hl => exact l1SamplesStep_answers hholds hctx hl
    · next hl =>
      have hsn := (h.layerIISlot hseq (Bool.eq_false_of_not_eq_true hl)).2.1
      exact l2SamplesStep_answers hholds hctx (by omega)
  case emit => exact emitStep_answers (h.obEmit hseq).2

end Sys2Proof.Machine
end

section
/-! Host accesses and the events outside: an access inside the contract of 20_memory.md R43 is answered, any other is
refused (O43, O45), and so only such an access stops a machine that meets the invariant (O60). -/
namespace Sys2Proof.Machine

variable {s : State}

/-- A step with an event planned is what that event does. -/
theorem step_event {e : EnvEvent} {rest : List EnvEvent} (h : s.script = e :: rest) :
    step s = envStep e { s with script := rest } := by
  simp only [step, nextStep, h]

/-- REG_READ at an aligned offset decodes (20_memory.md R43). -/
theorem decode_regRead_aligned {off : Word} (h : off.toNat % 4 = 0) :
    decode .regRead off.toNat = .ok (.regRead off) := by
  have hlt : off.toNat < 2 ^ Format.regRead.width := off.isLt
  simp [decode, decodeFitting, hlt, h]

theorem execRegRead_aligned {off : Word} (h : off.toNat % 4 = 0) (s : State) :
    execRegRead off s = .next { s with rdata := some (s.readReg off) } :=
  if_neg (not_not.2 h)

theorem execRegRead_unaligned {off : Word} (h : off.toNat % 4 ≠ 0) (s : State) :
    execRegRead off s = .refused .unalignedAccess :=
  if_pos h

theorem hostRead_aligned {off : Word} (h : off.toNat % 4 = 0) (s : State) :
    hostRead off 4 s = .next { s with rdata := some (s.readReg off) } := by
  simp only [hostRead, decode_regRead_aligned h, ne_eq, not_true_eq_false, if_false]
  exact execRegRead_aligned h s

/-- A host access outside the contract (20_memory.md R43, 70_reset_and_hazards.md R188). -/
theorem hostRead_refused {off : Word} {n : Nat} (h : n ≠ 4 ∨ off.toNat % 4 ≠ 0) (s : State) :
    ∃ r, hostRead off n s = .refused r := by
  unfold hostRead
  split
  · exact ⟨_, rfl⟩
  · next hn =>
    have hoff : off.toNat % 4 ≠ 0 := h.resolve_left hn
    have hlt : off.toNat < 2 ^ Format.regRead.width := off.isLt
    have herror : decode .regRead off.toNat = .error .unalignedOffset := by simp [decode, decodeFitting, hlt, hoff]
    rw [herror]
    exact ⟨_, rfl⟩

theorem hostWrite_refused {off : Word} {lanes : List Byte} (h : lanes.length ≠ 4 ∨ off.toNat % 4 ≠ 0) (s : State) :
    ∃ r, hostWrite off lanes s = .refused r := by
  unfold hostWrite
  split
  · exact ⟨_, rfl⟩
  · next hn => exact ⟨_, if_pos (h.resolve_left hn)⟩

/-- A write to a register that is not CTRL (10_state.md R16). -/
theorem hostWrite_other {off : Word} {lanes : List Byte} (hn : lanes.length = 4) (hoff : off.toNat % 4 = 0)
    (hne : off ≠ 0) (s : State) : hostWrite off lanes s = .next s := by
  rw [hostWrite, if_neg (not_not.2 hn), if_neg (not_not.2 hoff), if_neg hne]

theorem decode_ctrlWrite_word (w : Word) : decode .ctrlWrite w.toNat = .ok (decodeCtrl (CtrlWrite.ofWord w)) := by
  have hlt : w.toNat < 2 ^ Format.ctrlWrite.width := w.isLt
  simp [decode, decodeFitting, hlt]

/-- A write to CTRL is the command of its value (30_encoding.md R80). -/
theorem hostWrite_ctrl {lanes : List Byte} (hn : lanes.length = 4) (s : State) :
    hostWrite 0 lanes s = exec (decodeCtrl (CtrlWrite.ofWord (wordOfBus lanes))) s := by
  simp [hostWrite, hn, decode_ctrlWrite_word]

theorem exec_decodeCtrl_answers (v : CtrlWrite) (s : State) : Answers (exec (decodeCtrl v) s) := by
  simp only [decodeCtrl, exec_ite]
  exact .ite ⟨_, rfl⟩ (.ite ⟨_, rfl⟩ (.ite ⟨_, rfl⟩ ⟨_, rfl⟩))

theorem hostWrite_answers {off : Word} {lanes : List Byte} (hn : lanes.length = 4) (hoff : off.toNat % 4 = 0)
    (s : State) : Answers (hostWrite off lanes s) := by
  by_cases h0 : off = 0
  · rw [h0, hostWrite_ctrl hn]
    exact exec_decodeCtrl_answers ..
  · exact ⟨_, hostWrite_other hn hoff h0 s⟩

end Sys2Proof.Machine

namespace Sys2Proof
open Machine

/-- Settles O60: the block answers in every state of the invariant, and an event outside is refused only as a host
access outside the contract. -/
theorem noFaultUnderInvariant : Obligations.NoFaultUnderInvariant := by
  intro s hs
  cases hscript : s.script with
  | nil =>
    rw [step, nextStep_block hscript]
    exact .inl (blockStep_answers hs)
  | cons e rest =>
    rw [step_event hscript]
    cases e with
    | block => exact .inl (blockStep_answers (hs.update _ _ _ _ _ _))
    | csrRead off n =>
      by_cases h : n = 4 ∧ off.toNat % 4 = 0
      · exact .inl (h.1 ▸ ⟨_, hostRead_aligned h.2 _⟩)
      · exact .inr ⟨off, rest, .inl ⟨n, rfl, by tauto⟩⟩
    | csrWrite off lanes =>
      by_cases h : lanes.length = 4 ∧ off.toNat % 4 = 0
      · exact .inl (hostWrite_answers h.1 h.2 _)
      · exact .inr ⟨off, rest, .inr ⟨lanes, rfl, by tauto⟩⟩
    | hardReset | srcConnect | srcBytes | srcEos | sinkReady => exact .inl ⟨_, rfl⟩

/-- Settles O43: an aligned read answers with `readReg`, which is the map of R40 read at the offset's value. -/
theorem registerMapReads : Obligations.RegisterMapReads := by
  intro off s
  refine ⟨fun h => ⟨s.readReg off, execRegRead_aligned h s, ?_⟩, fun h => execRegRead_unaligned h s⟩
  split_ifs
  case neg =>
    unfold State.readReg
    split
    case h_11 => rfl
    all_goals bv_omega
  all_goals
    subst off
    rfl

/-- Settles O45, by the cases of a host access. -/
theorem hostAccessContract : Obligations.HostAccessContract := by
  refine fun s off rest => ⟨fun n hscript h => ?_, fun lanes hscript h => ?_, fun lanes hscript hn hoff hne => ?_⟩ <;>
    rw [step_event hscript]
  · exact hostRead_refused h _
  · exact hostWrite_refused h _
  · exact hostWrite_other hn hoff hne _

end Sys2Proof
end

section
/-! What the steps on a frame leave alone, in every state: all but the frame data, the sequencer's state and error, the
loop counters and OB. So only EMIT delivers a beat (O55). -/
namespace Sys2Proof.Machine

variable {K : SubCtx → Prop} {s t u : State}

/-- The frame data of `t` put into `s`, with the sequencer's state and error, the loop counters and OB. -/
def State.withProgress (s t : State) : State :=
  { s.withData t with
    seq := t.seq, errcode := t.errcode, errdetail := t.errdetail, errOffset := t.errOffset, slot := t.slot
    l1n := t.l1n, gn := t.gn, sn := t.sn, ob := t.ob, obRd := t.obRd }

/-- A next state the operation answers is `s` but for the progress in its frame. -/
def OnlyProgress (s : State) (o : Result) : Prop := ∀ t, o = .next t → t = s.withProgress t

/-! ### Composition -/

theorem withProgress_trans (h : t = s.withProgress t) (h' : u = t.withProgress u) : u = s.withProgress u :=
  h'.trans (congrArg (·.withProgress u) h)

theorem Advances.withProgress (h : Advances K s t) : t = s.withProgress t := by
  rw [h.frame]
  rfl

theorem Outcome.withProgress (h : Outcome (Advances K s) s t) : t = s.withProgress t := by
  obtain ⟨u, code, detail, hu, -, rfl⟩ | h := h
  · rw [hu]
    rfl
  · exact h.withProgress

theorem OnlyProgress.next (h : t = s.withProgress t) : OnlyProgress s (.next t) := by
  intro u e
  cases e
  exact h

theorem OnlyProgress.fault (r : Fault) : OnlyProgress s (.fault r) := fun _ e => by cases e

theorem OnlyProgress.ite {p : Prop} [Decidable p] {o o' : Result} (ho : OnlyProgress s o) (ho' : OnlyProgress s o') :
    OnlyProgress s (if p then o else o') := by
  split
  · exact ho
  · exact ho'

theorem OnlyProgress.andThen {o : Result} {k : State → Result} (ho : OnlyProgress s o)
    (hk : ∀ u, OnlyProgress u (k u)) : OnlyProgress s (Machine.andThen o k) := by
  intro t e
  obtain ⟨u, hu, ⟨-, rfl⟩ | ⟨-, e⟩⟩ := andThen_eq_next e
  · exact ho t hu
  · exact withProgress_trans (ho u hu) (hk u t e)

theorem OnlyProgress.forEach {α : Type} {xs : List α} {body : α → State → Result}
    (hb : ∀ x u, OnlyProgress u (body x u)) (s : State) : OnlyProgress s (Machine.forEach xs body s) := by
  induction xs generalizing s with
  | nil => exact .next rfl
  | cons x rest ih => exact (hb x s).andThen ih

/-! ### The operations and the steps on a frame -/

theorem exec_onlyProgress {i : Instr} (hi : OnFrame (fun _ => True) i) (s : State) : OnlyProgress s (exec i s) :=
  fun _ e => (exec_outcome hi e).withProgress

theorem runField_onlyProgress {fmt : Format} (h : ∀ w i, decode fmt w = .ok i → OnFrame (fun _ => True) i) (s : State) :
    OnlyProgress s (runField fmt s) := by
  intro t e
  obtain ⟨i, hi, e⟩ := runField_eq_next e
  exact exec_onlyProgress (h _ i hi) s t e

theorem runField_data_onlyProgress {fmt : Format} (hf : DataFormat fmt) (s : State) :
    OnlyProgress s (runField fmt s) :=
  runField_onlyProgress (fun _ _ hi => .data (decode_readsData hf hi)) s

theorem closeAlloc_withProgress (s : State) (sb : Fin 32) : s.closeAlloc sb = s.withProgress (s.closeAlloc sb) := by
  unfold State.closeAlloc
  dsimp only
  split <;> rfl

theorem readAllocations_onlyProgress {limit : Nat} {fmt : Fin 32 → Fin 2 → Format}
    (halloc : ∀ sb ch w i, decode (fmt sb ch) w = .ok i → Allocates K sb ch i) (s : State) :
    OnlyProgress s (readAllocations limit fmt s) :=
  OnlyProgress.forEach (fun sb u => OnlyProgress.andThen
    (OnlyProgress.forEach (fun ch => runField_onlyProgress fun w i hi => .alloc (halloc sb ch w i hi).unconstrained) u)
    fun v => .next (closeAlloc_withProgress v sb)) s

/-- CRC_CHECK, then on to SCALEFACTORS. -/
theorem checkCrc_onlyProgress (s : State) :
    OnlyProgress s (andThen (exec .crcCheck s) fun u => .next { u with seq := .scalefactors }) :=
  (exec_onlyProgress .crcCheck s).andThen fun _ => .next rfl

theorem allocStep_onlyProgress (s : State) : OnlyProgress s (allocStep s) := by
  refine .ite ?_ ?_
  · exact (readAllocations_onlyProgress (fun _ _ _ _ => decode_l1Alloc_allocates) s).andThen checkCrc_onlyProgress
  · split
    · refine (readAllocations_onlyProgress (fun _ _ _ _ => decode_l2Alloc_allocates) s).andThen fun u => .next ?_
      have hclear := (Advances.clearSbst (K := fun _ => True) u (subbandsIn u.hdr.sblimit 32)).withProgress
      exact withProgress_trans hclear rfl
    · exact .fault _

theorem forAllocated_onlyProgress {nch : Nat} {sb : Fin 32} {body : Fin 2 → State → Result}
    (hb : ∀ ch u, OnlyProgress u (body ch u)) (s : State) : OnlyProgress s (forAllocated nch sb body s) :=
  OnlyProgress.forEach (fun ch u => .ite (hb ch u) (.next rfl)) s

theorem scfsiStep_onlyProgress (s : State) : OnlyProgress s (scfsiStep s) := by
  refine OnlyProgress.andThen (OnlyProgress.forEach (fun sb u => ?_) s) checkCrc_onlyProgress
  exact forAllocated_onlyProgress (fun ch => runField_data_onlyProgress (.l2Scfsi sb ch)) u

theorem l1SubbandScalefactors_onlyProgress (sb : Fin 32) (s : State) :
    OnlyProgress s (l1SubbandScalefactors sb s) := by
  have hfield (ch : Fin 2) := runField_data_onlyProgress (.l1Scalefactor sb ch)
  exact .ite (forAllocated_onlyProgress hfield s) (.ite (OnlyProgress.forEach hfield s) (.next rfl))

theorem advanceSbst_onlyProgress (s : State) (sb : Fin 32) (old new : SubState) :
    OnlyProgress s (.next (s.advanceSbst sb old new)) :=
  .next (Advances.advanceSbst (K := fun _ => True) s sb old new).withProgress

theorem scalefactorsStep_onlyProgress (s : State) : OnlyProgress s (scalefactorsStep s) := by
  refine (OnlyProgress.forEach (fun sb u => ?_) s).andThen fun u => .next rfl
  refine OnlyProgress.andThen (.ite (l1SubbandScalefactors_onlyProgress sb u) ?_) fun v => advanceSbst_onlyProgress v sb _ _
  exact forAllocated_onlyProgress (fun ch v => runField_data_onlyProgress (.l2Scalefactor sb ch _) v) u

theorem subbandSamples_onlyProgress (sb : Fin 32) (s : State) : OnlyProgress s (subbandSamples sb s) :=
  (forAllocated_onlyProgress (fun _ _ _ e => (runSample_outcome (K := fun _ => True) e).withProgress) s).andThen
    fun v => advanceSbst_onlyProgress v sb _ _

theorem putAll_onlyProgress (limit : Nat) (s : State) : OnlyProgress s (putAll limit s) :=
  OnlyProgress.forEach (fun sb u => exec_onlyProgress (putOp_onFrame u sb) u) s

theorem synthStep_withProgress (s : State) (f : Fin 2) : s.synthStep f = s.withProgress (s.synthStep f) := by
  have h := s.synthStep_eq f
  generalize s.synthStep f = u at h ⊢
  rw [h]
  rfl

theorem synthesize_onlyProgress (s : State) : OnlyProgress s (synthesize s) :=
  OnlyProgress.andThen (.next (synthStep_withProgress s 0)) fun u =>
    .ite (.next (synthStep_withProgress u 1)) (.next rfl)

/-- The puts and the synthesis of a slot, then its end. -/
theorem slot_onlyProgress {limit : Nat} {g f : State → State} (hg : ∀ u, g u = u.withProgress (g u))
    (hf : ∀ u, f u = u.withProgress (f u)) (s : State) :
    OnlyProgress s (andThen (putAll limit s) fun u => andThen (synthesize (g u)) fun v => .next (f v)) :=
  (putAll_onlyProgress limit s).andThen fun u => OnlyProgress.andThen
    (fun _ e => withProgress_trans (hg u) (synthesize_onlyProgress (g u) _ e)) fun v => .next (hf v)

theorem samplesStep_onlyProgress (s : State) : OnlyProgress s (samplesStep s) := by
  have hread (limit : Nat) := OnlyProgress.forEach (xs := subbandsIn 0 limit) subbandSamples_onlyProgress s
  refine .ite ?_ ?_
  · exact ((hread 32).andThen fun u => .next rfl).andThen (slot_onlyProgress (fun _ => rfl) fun _ => rfl)
  · refine OnlyProgress.andThen (.ite ((hread _).andThen fun u => .next rfl) (.next rfl)) fun u => ?_
    refine slot_onlyProgress (fun v => ?_) (fun _ => rfl) u
    split <;> rfl

/-- A step from ALLOC to SAMPLES. -/
theorem blockStep_onlyProgress
    (hseq : s.seq = .alloc ∨ s.seq = .scfsi ∨ s.seq = .scalefactors ∨ s.seq = .samples) :
    OnlyProgress s (blockStep s) := by
  obtain hseq | hseq | hseq | hseq := hseq <;> simp only [blockStep, hseq]
  · exact allocStep_onlyProgress s
  · exact scfsiStep_onlyProgress s
  · exact scalefactorsStep_onlyProgress s
  · exact samplesStep_onlyProgress s

/-- The end of FETCH. -/
theorem finishFetch_onlyProgress (s : State) : OnlyProgress s (finishFetch s) := by
  have hstart : s.startFrame = s.withProgress s.startFrame := by rw [s.startFrame_eq]; rfl
  have hword : OnlyProgress s.startFrame (if s.startFrame.hdr.raw.prot = 0#1 then
      execCrcWord (BitVec.ofNat 16 (s.startFrame.peekBits 16)) s.startFrame else .next s.startFrame) :=
    .ite (exec_onlyProgress (.crcWord _) _) (.next rfl)
  exact fun t e => withProgress_trans hstart ((hword.andThen fun u => .next rfl) t e)

/-! ### The beats delivered -/

theorem OnlyProgress.delivered {o : Result} (h : OnlyProgress s o) (e : o = .next t) : t.delivered = s.delivered :=
  (congrArg State.delivered (h t e) :)

theorem parseHeader_delivered {h : HeaderFields} (e : parseHeader h s = .next t) : t.delivered = s.delivered := by
  obtain ⟨w, code, detail, -, rfl⟩ | ⟨-, rfl⟩ := parseHeader_cases e <;> rfl

theorem headerStep_delivered (e : execReadHeaderBytes s = .next t) : t.delivered = s.delivered := by
  cases havail : s.src.avail with
  | nil =>
    cases heos : s.src.eos with
    | false =>
      rw [execReadHeaderBytes_waiting havail heos] at e
      cases e
      rfl
    | true =>
      rw [execReadHeaderBytes_eos havail heos, s.markStart_eq] at e
      cases e
      split <;> rfl
  | cons b rest =>
    have hcollect : (s.collectByte b rest).delivered = s.delivered := by
      rw [State.collectByte, s.markStart_eq]
      rfl
    rw [execReadHeaderBytes_byte havail] at e
    obtain ⟨-, e⟩ | ⟨-, e⟩ := ite_eq_iff.1 e
    · obtain ⟨-, e⟩ | ⟨-, e⟩ := ite_eq_iff.1 e
      · exact (parseHeader_delivered e).trans hcollect
      · cases e
        exact hcollect
    · cases e

theorem fetchStep_delivered (e : execFetchFrame s = .next t) : t.delivered = s.delivered := by
  by_cases hend : s.flen.toNat ≤ s.framePos
  · rw [execFetchFrame_end hend] at e
    exact (finishFetch_onlyProgress s).delivered e
  have hpos := not_le.1 hend
  cases havail : s.src.avail with
  | nil =>
    cases heos : s.src.eos with
    | false =>
      rw [execFetchFrame_waiting hpos havail heos] at e
      cases e
      rfl
    | true =>
      rw [execFetchFrame_eos hpos havail heos] at e
      cases e
      rfl
  | cons b rest =>
    rw [execFetchFrame_byte hpos havail] at e
    obtain ⟨-, e⟩ | ⟨-, e⟩ := ite_eq_iff.1 e
    · obtain ⟨-, e⟩ | ⟨-, e⟩ := ite_eq_iff.1 e
      · exact (finishFetch_onlyProgress (s.fetchByte b rest)).delivered e
      · cases e
        rfl
    · cases e

/-- What EMIT delivers (45_orchestrator.md R151): nothing, or the next beat of OB. -/
def EmitsBeat (s t : State) : Prop :=
  t.delivered = s.delivered ∨
    (s.seq = .emit ∧ s.sinkReady = true ∧ ∃ b, s.ob[s.obRd]? = some b ∧
      t.delivered = s.delivered ++ [⟨b, s.obRd + 1 == s.ob.length⟩] ∧
      (t.obRd = s.obRd + 1 ∨ (t.ob = [] ∧ t.frameCount = s.frameCount + 1#32)))

theorem emitStep_emitsBeat (hseq : s.seq = .emit) (e : execEmit s = .next t) : EmitsBeat s t := by
  unfold execEmit at e
  split at e
  · cases e
  · next b hb =>
    split at e
    · next hready =>
      refine .inr ⟨hseq, hready, b, hb, ?_⟩
      injection e with e
      obtain ⟨-, rfl⟩ | ⟨-, rfl⟩ := ite_eq_iff.1 e
      · exact ⟨rfl, .inr ⟨rfl, rfl⟩⟩
      · exact ⟨rfl, .inl rfl⟩
    · cases e
      exact .inl rfl

theorem blockStep_emitsBeat (e : blockStep s = .next t) : EmitsBeat s t := by
  cases hseq : s.seq
  case alloc | scfsi | scalefactors | samples =>
    exact .inl ((blockStep_onlyProgress (by simp [hseq])).delivered e)
  all_goals simp only [blockStep, hseq] at e
  case idle | done | stopped | failed => cases e; exact .inl rfl
  case awaitSync =>
    cases e
    refine .inl ?_
    unfold awaitSyncStep
    split <;> rfl
  case header => exact .inl (headerStep_delivered e)
  case fetch => exact .inl (fetchStep_delivered e)
  case emit => exact emitStep_emitsBeat hseq e

theorem State.startCommand_delivered (s : State) : s.startCommand.delivered = s.delivered := by
  unfold State.startCommand
  split <;> rfl

theorem exec_decodeCtrl_delivered {v : CtrlWrite} (e : exec (decodeCtrl v) s = .next t) :
    t.delivered = s.delivered := by
  simp only [decodeCtrl, exec_ite] at e
  obtain ⟨-, e⟩ | ⟨-, e⟩ := ite_eq_iff.1 e
  · cases e
    rfl
  obtain ⟨-, e⟩ | ⟨-, e⟩ := ite_eq_iff.1 e
  · cases e
    split <;> exact (s.storeCtrl v).startCommand_delivered
  obtain ⟨-, e⟩ | ⟨-, e⟩ := ite_eq_iff.1 e <;>
  · cases e
    rfl

theorem hostRead_delivered {off : Word} {n : Nat} (e : hostRead off n s = .next t) : t.delivered = s.delivered := by
  by_cases h : n = 4 ∧ off.toNat % 4 = 0
  · obtain ⟨rfl, hoff⟩ := h
    rw [hostRead_aligned hoff] at e
    cases e
    rfl
  · obtain ⟨r, hr⟩ := hostRead_refused (off := off) (n := n) (by tauto) s
    cases hr.symm.trans e

theorem hostWrite_delivered {off : Word} {lanes : List Byte} (e : hostWrite off lanes s = .next t) :
    t.delivered = s.delivered := by
  by_cases h : lanes.length = 4 ∧ off.toNat % 4 = 0
  · obtain ⟨hn, hoff⟩ := h
    by_cases h0 : off = 0
    · rw [h0, hostWrite_ctrl hn] at e
      exact exec_decodeCtrl_delivered e
    · rw [hostWrite_other hn hoff h0] at e
      cases e
      rfl
  · obtain ⟨r, hr⟩ := hostWrite_refused (off := off) (lanes := lanes) (by tauto) s
    cases hr.symm.trans e

end Sys2Proof.Machine

namespace Sys2Proof
open Machine

/-- Settles O55: no step on a frame, no header or fetch step and no event outside touches the beats delivered; EMIT
appends one. -/
theorem beatsDeliveredOnlyByEmit : Obligations.BeatsDeliveredOnlyByEmit := by
  intro s t h
  cases hscript : s.script with
  | nil => exact blockStep_emitsBeat (nextStep_block hscript ▸ h)
  | cons e rest =>
    rw [step_event hscript] at h
    cases e with
    | block => exact blockStep_emitsBeat (s := { s with script := rest }) h
    | csrRead => exact .inl (hostRead_delivered (s := { s with script := rest }) h)
    | csrWrite => exact .inl (hostWrite_delivered (s := { s with script := rest }) h)
    | hardReset | srcConnect | srcBytes | srcEos | sinkReady => cases h; exact .inl rfl

end Sys2Proof
end

section
/-! What the decoder and the encoder are made of: groups of bits cut from a number and joined again, the scale-factor
indices read under an SCFSI code, and the quantization classes as the class table and well-formedness name them. -/
namespace Sys2Proof
open Machine

/-! ### Groups of bits -/

/-- The lowest `count` groups of a number, the most significant first. -/
def bitGroups (width : Nat) : Nat → Nat → List Nat
  | 0, _ => []
  | count + 1, w => bitGroup width count w :: bitGroups width count w

theorem bitGroup_mul_add {width k len : Nat} (hk : k < len) (x r : Nat) :
    bitGroup width k (x * 2 ^ (width * len) + r) = bitGroup width k r := by
  obtain ⟨m, rfl⟩ := Nat.exists_eq_add_of_lt hk
  have hpow : 2 ^ (width * (k + m + 1)) = 2 ^ (width * k) * 2 ^ width * 2 ^ (width * m) := by
    rw [← pow_add, ← pow_add]
    congr 1
    ring
  have hmul : x * 2 ^ (width * (k + m + 1)) = 2 ^ (width * k) * 2 ^ width * (2 ^ (width * m) * x) := by
    rw [hpow]
    ring
  rw [bitGroup, bitGroup, ← Nat.mod_mul_right_div_self, ← Nat.mod_mul_right_div_self, hmul, Nat.mul_add_mod]

theorem bitGroups_mul_add {width len : Nat} (x r count : Nat) (h : count ≤ len) :
    bitGroups width count (x * 2 ^ (width * len) + r) = bitGroups width count r := by
  induction count with
  | zero => rfl
  | succ count ih => rw [bitGroups, bitGroups, bitGroup_mul_add h, ih (by omega)]

/-- Groups that fit their width are cut out again as they were joined. -/
theorem bitGroups_joinGroups {width : Nat} {xs : List Nat} (h : ∀ x ∈ xs, x < 2 ^ width) :
    bitGroups width xs.length (joinGroups width xs) = xs := by
  induction xs with
  | nil => rfl
  | cons x rest ih =>
    obtain ⟨hx, hrest⟩ := List.forall_mem_cons.1 h
    have hlow : joinGroups width rest < 2 ^ (width * rest.length) := Laws.EncodingFits.joinGroups_lt hrest
    have hhead : bitGroup width rest.length (x * 2 ^ (width * rest.length) + joinGroups width rest) = x := by
      rw [bitGroup, mul_comm, Nat.mul_add_div (by positivity), Nat.div_eq_of_lt hlow, add_zero, Nat.mod_eq_of_lt hx]
    rw [joinGroups, List.length_cons, bitGroups, hhead, bitGroups_mul_add _ _ _ le_rfl, ih hrest]

theorem joinGroups_bitGroups (width count w : Nat) :
    joinGroups width (bitGroups width count w) = w % 2 ^ (width * count) := by
  have hlen : ∀ count, (bitGroups width count w).length = count := fun count => by
    induction count with
    | zero => rfl
    | succ count ih => rw [bitGroups, List.length_cons, ih]
  induction count with
  | zero => simp [bitGroups, joinGroups, Nat.mod_one]
  | succ count ih =>
    rw [bitGroups, joinGroups, hlen, ih, bitGroup, Nat.mul_succ, pow_add, Nat.mod_mul]
    ring

theorem bitGroup_lt (width k w : Nat) : bitGroup width k w < 2 ^ width := Nat.mod_lt _ (by positivity)

theorem bitGroups_lt {width count w x : Nat} (h : x ∈ bitGroups width count w) : x < 2 ^ width := by
  induction count with
  | zero => cases h
  | succ count ih =>
    obtain rfl | h := List.mem_cons.1 h
    · exact bitGroup_lt ..
    · exact ih h

/-! ### Numbers as words -/

theorem toNat_ofNat_of_lt {n w : Nat} (h : w < 2 ^ n) : (BitVec.ofNat n w).toNat = w := by
  rw [BitVec.toNat_ofNat, Nat.mod_eq_of_lt h]

theorem exists_toNat_eq {n width w : Nat} (h : w < 2 ^ width) (hle : width ≤ n) : ∃ x : BitVec n, x.toNat = w :=
  ⟨BitVec.ofNat n w, toNat_ofNat_of_lt (h.trans_le (Nat.pow_le_pow_right (by decide) hle))⟩

/-! ### Scale-factor indices -/

theorem SfRead.ext_indices {r r' : SfRead} (hc : r.scfsi = r'.scfsi) (hx : r.indices = r'.indices) : r = r' := by
  cases r <;> cases r' <;> simp_all [SfRead.scfsi, SfRead.indices]

theorem decodeSfRead_scfsi (c : BitVec 2) (w : Nat) : (decodeSfRead c w).scfsi = c := by
  obtain rfl | rfl | rfl | rfl : c = 0 ∨ c = 1 ∨ c = 2 ∨ c = 3 := by decide +revert
  all_goals rfl

/-- Under an SCFSI code the field is cut into groups of six bits, as many as the code reads (30_encoding.md R74). -/
theorem decodeSfRead_indices (c : BitVec 2) (w : Nat) :
    (decodeSfRead c w).indices = (bitGroups 6 (decodeSfRead c w).indices.length w).map (BitVec.ofNat 6) := by
  obtain rfl | rfl | rfl | rfl : c = 0 ∨ c = 1 ∨ c = 2 ∨ c = 3 := by decide +revert
  all_goals rfl

theorem SfRead.length_indices_eq {r r' : SfRead} (h : r.scfsi = r'.scfsi) : r.indices.length = r'.indices.length := by
  cases r <;> cases r' <;> simp_all [SfRead.scfsi, SfRead.indices]

theorem SfRead.width_eq (sb : Fin 32) (ch : Fin 2) (r : SfRead) :
    (Format.l2Scalefactor sb ch r.scfsi).width = 6 * r.indices.length := by
  cases r <;> rfl

theorem decodeSfRead_joinGroups (r : SfRead) :
    decodeSfRead r.scfsi (joinGroups 6 (r.indices.map BitVec.toNat)) = r := by
  have hfit : ∀ x ∈ r.indices.map BitVec.toNat, x < 2 ^ 6 := by simpa using fun (x : BitVec 6) _ => x.isLt
  have hcut := bitGroups_joinGroups hfit
  refine SfRead.ext_indices (decodeSfRead_scfsi ..) ?_
  rw [decodeSfRead_indices, SfRead.length_indices_eq (decodeSfRead_scfsi ..)]
  rw [List.length_map] at hcut
  rw [hcut, List.map_map]
  exact List.map_id'' (fun x => by simp) _

theorem joinGroups_decodeSfRead {sb : Fin 32} {ch : Fin 2} {c : BitVec 2} {w : Nat}
    (hw : w < 2 ^ (Format.l2Scalefactor sb ch c).width) :
    joinGroups 6 ((decodeSfRead c w).indices.map BitVec.toNat) = w := by
  have hwidth := SfRead.width_eq sb ch (decodeSfRead c w)
  rw [decodeSfRead_scfsi] at hwidth
  have hfit : (bitGroups 6 (decodeSfRead c w).indices.length w).map (BitVec.toNat ∘ BitVec.ofNat 6) =
      bitGroups 6 (decodeSfRead c w).indices.length w :=
    (List.map_congr_left (g := id) fun x hx => toNat_ofNat_of_lt (bitGroups_lt hx)).trans (List.map_id _)
  rw [decodeSfRead_indices, List.map_map, hfit, joinGroups_bitGroups, ← hwidth, Nat.mod_eq_of_lt hw]

/-! ### Quantization classes (30_encoding.md R76) -/

theorem mem_of_qClass? {n : Nat} {q : QClass} (h : qClass? n = some q) : q ∈ qClasses ∧ q.n = n :=
  ⟨List.mem_of_find?_eq_some h, eq_of_beq (List.find?_some (p := fun c : QClass => c.n == n) h)⟩

theorem qClass?_isSome {n : Nat} (h : groupedLevels n = true ∨ ungroupedLevels n = true) :
    (qClass? n).isSome = true := by
  obtain h | h := h
  · have hgrouped : ∀ n ∈ [3, 5, 9], (qClass? n).isSome = true := by decide
    exact hgrouped n (by simpa [groupedLevels, or_assoc] using h)
  · have hungrouped : ∀ n ∈ [7, 15, 31, 63, 127, 255, 511, 1023, 2047, 4095, 8191, 16383, 32767, 65535],
        (qClass? n).isSome = true := by decide
    exact hungrouped n (List.contains_iff_mem.1 h)

/-- A number of levels has a row of the class table, or it is the levels of no class. -/
theorem qClass?_cases (n : Nat) : (∃ q ∈ qClasses, q.n = n ∧ qClass? n = some q) ∨
    (qClass? n = none ∧ groupedLevels n = false ∧ ungroupedLevels n = false) := by
  cases h : qClass? n with
  | some q => exact .inl ⟨q, (mem_of_qClass? h).1, (mem_of_qClass? h).2, rfl⟩
  | none =>
    have hnone : ¬(groupedLevels n = true ∨ ungroupedLevels n = true) := fun hn => by simpa [h] using qClass?_isSome hn
    exact .inr ⟨rfl, by simpa using hnone⟩

theorem codeWidth_le (n : Nat) : codeWidth n ≤ 16 := by
  obtain ⟨q, hq, -, h⟩ | ⟨h, -⟩ := qClass?_cases n
  · have hcw : ∀ q ∈ qClasses, q.cw ≤ 16 := by decide
    simpa [codeWidth, h] using hcw q hq
  · simp [codeWidth, h]

theorem isGrouped_eq (n : Nat) : isGrouped n = groupedLevels n := by
  obtain ⟨q, hq, rfl, h⟩ | ⟨h, hgr, -⟩ := qClass?_cases n
  · have hgr : ∀ q ∈ qClasses, q.grouped = groupedLevels q.n := by decide
    simpa [isGrouped, h] using hgr q hq
  · simp [isGrouped, h, hgr]

theorem ungroupedLevels_iff (n : Nat) : ungroupedLevels n = true ↔ ¬(isGrouped n = true ∨ codeWidth n = 0) := by
  obtain ⟨q, hq, rfl, h⟩ | ⟨h, -, hun⟩ := qClass?_cases n
  · have hun : ∀ q ∈ qClasses, ungroupedLevels q.n = true ↔ ¬(q.grouped = true ∨ q.cw = 0) := by decide
    simpa [isGrouped, codeWidth, h] using hun q hq
  · simp [codeWidth, h, hun]

theorem nbal_le (tab : L2Tab) (sb : Nat) : nbal tab sb ≤ 4 := by
  cases tab <;> simp only [nbal, l2Row] <;> split_ifs <;> simp

end Sys2Proof
end

section
/-! Decoding and encoding are inverse to each other on well-formed operations (O1, O2): first header words and CTRL
values, whose number is a whole word, then the stream fields. -/
namespace Sys2Proof
open Machine

/-- The decoder answers for a number of the format's width what its format says. -/
theorem decode_eq_ok_iff {fmt : Format} {w : Nat} {i : Instr} :
    decode fmt w = .ok i ↔ w < 2 ^ fmt.width ∧ decodeFitting fmt w = .ok i := by
  unfold decode
  split <;> simp [*]

/-- A well-formed operation and its encoding. -/
def Encodes (i : Instr) (fmt : Format) (w : Nat) : Prop := i.wf = true ∧ encode i = some (fmt, w)

theorem Encodes.ite {p : Prop} [Decidable p] {i j : Instr} {fmt : Format} {w : Nat} (hi : p → Encodes i fmt w)
    (hj : ¬p → Encodes j fmt w) : Encodes (if p then i else j) fmt w :=
  iteInduction (motive := fun i => Encodes i fmt w) hi hj

/-- The number of an encoding fits its format, so only what the format says is left to see. -/
theorem Encodes.decode_eq {i : Instr} {fmt : Format} {w : Nat} (h : Encodes i fmt w)
    (hfits : Laws.EncodingFits.Statement i) (hd : decodeFitting fmt w = .ok i) : decode fmt w = .ok i :=
  decode_eq_ok_iff.2 ⟨hfits h.1 fmt w h.2, hd⟩

/-! ### Header words -/

theorem decode_hdr32_word (w : Word) : decode .hdr32 w.toNat = .ok (decodeHeader (HeaderFields.ofWord w)) :=
  decode_eq_ok_iff.2 ⟨w.isLt, by simp [decodeFitting]⟩

theorem decode_hdr32_fields (h : HeaderFields) : decode .hdr32 h.word.toNat = .ok (decodeHeader h) := by
  rw [decode_hdr32_word, HeaderFields.ofWord_word]

theorem HeaderFields.word_toNat_inj {h h' : HeaderFields} : h.word.toNat = h'.word.toNat ↔ h = h' := by
  refine ⟨fun e => ?_, fun e => e ▸ rfl⟩
  rw [← HeaderFields.ofWord_word h, BitVec.eq_of_toNat_eq e, HeaderFields.ofWord_word]

theorem HeaderFields.versionOk_iff {h : HeaderFields} :
    h.versionOk = true ↔ h.sync = 0x7FF#11 ∧ h.raw.ver ≠ 1#2 := by
  simp [HeaderFields.versionOk, HeaderFields.syncOk]

/-- A layer that is neither reserved nor Layer III is Layer I or Layer II. -/
theorem layer_cases {layer : BitVec 2} : (layer = 3#2 ∨ layer = 2#2) ↔ layer ≠ 0#2 ∧ layer ≠ 1#2 := by decide +revert

/-- A version that is not reserved is MPEG-1, MPEG-2 or MPEG-2.5. -/
theorem version_cases {ver : BitVec 2} : ver ≠ 1#2 → ver = 3#2 ∨ ver = 2#2 ∨ ver = 0#2 := by decide +revert

theorem HeaderFields.layerOk_iff {h : HeaderFields} :
    h.layerOk = true ↔ h.sync = 0x7FF#11 ∧ h.raw.ver ≠ 1#2 ∧ h.raw.layer ≠ 0#2 ∧ h.raw.layer ≠ 1#2 := by
  simp [HeaderFields.layerOk, HeaderFields.versionOk_iff, layer_cases, and_assoc]

theorem HeaderFields.bitrateOk_iff {h : HeaderFields} :
    h.bitrateOk = true ↔ h.layerOk = true ∧ h.raw.bri ≠ 0#4 ∧ h.raw.bri ≠ 15#4 := by
  simp [HeaderFields.bitrateOk, and_assoc]

theorem HeaderFields.acceptedAs_iff {h : HeaderFields} {ver layer : BitVec 2} :
    h.acceptedAs ver layer = true ↔ h.bitrateOk = true ∧ h.raw.sfi ≠ 3#2 ∧ h.raw.ver = ver ∧ h.raw.layer = layer := by
  simp [HeaderFields.acceptedAs, HeaderFields.accepted, and_assoc]

/-- The well-formed operation of a header word is the class decoded: the classes exclude each other. -/
theorem Encodes.decodeHeader_eq {h : HeaderFields} {i : Instr} (hi : Encodes i .hdr32 h.word.toNat) :
    decodeHeader h = i := by
  obtain ⟨hwf, hi⟩ := hi
  cases i
  case hdrSyncLoss | hdrUnsupVersion | hdrUnsupLayerReserved | hdrUnsupLayerIII | hdrUnsupFreeFormat | hdrUnsupBitrate
      | hdrUnsupSfreq | hdrMpeg1L1 | hdrMpeg1L2 | hdrMpeg2L1 | hdrMpeg2L2 | hdrMpeg25L1 | hdrMpeg25L2 =>
    obtain rfl := HeaderFields.word_toNat_inj.1 (Prod.mk.inj (Option.some.inj hi)).2
    simp_all [Instr.wf, decodeHeader, HeaderFields.syncOk, HeaderFields.versionOk_iff, HeaderFields.layerOk_iff,
      HeaderFields.bitrateOk_iff, HeaderFields.acceptedAs_iff]
  all_goals cases hi

/-- The class decoded is well formed and keeps every field: each class is reached only under its condition. -/
theorem decodeHeader_encodes (h : HeaderFields) : Encodes (decodeHeader h) .hdr32 h.word.toNat := by
  unfold decodeHeader
  refine .ite (fun hne => ⟨by simp [Instr.wf, HeaderFields.syncOk, hne], rfl⟩) fun hsync => ?_
  have hsync : h.sync = 0x7FF#11 := not_not.1 hsync
  refine .ite (fun heq => ⟨by simp [Instr.wf, HeaderFields.syncOk, hsync, heq], rfl⟩) fun hver => ?_
  have hversion : h.versionOk = true := HeaderFields.versionOk_iff.2 ⟨hsync, hver⟩
  refine .ite (fun heq => ⟨by simp [Instr.wf, hversion, heq], rfl⟩) fun hlayer0 => ?_
  refine .ite (fun heq => ⟨by simp [Instr.wf, hversion, heq], rfl⟩) fun hlayer1 => ?_
  have hlayer : h.layerOk = true := HeaderFields.layerOk_iff.2 ⟨hsync, hver, hlayer0, hlayer1⟩
  refine .ite (fun heq => ⟨by simp [Instr.wf, hlayer, heq], rfl⟩) fun hbri0 => ?_
  refine .ite (fun heq => ⟨by simp [Instr.wf, hlayer, heq], rfl⟩) fun hbri15 => ?_
  have hbitrate : h.bitrateOk = true := HeaderFields.bitrateOk_iff.2 ⟨hlayer, hbri0, hbri15⟩
  refine .ite (fun heq => ⟨by simp [Instr.wf, hbitrate, heq], rfl⟩) fun hsfi => ?_
  have haccepted {ver layer : BitVec 2} (hv : h.raw.ver = ver) (hl : h.raw.layer = layer) :
      h.acceptedAs ver layer = true := HeaderFields.acceptedAs_iff.2 ⟨hbitrate, hsfi, hv, hl⟩
  have hlayerII (hne : h.raw.layer ≠ 3#2) : h.raw.layer = 2#2 := (layer_cases.2 ⟨hlayer0, hlayer1⟩).resolve_left hne
  refine .ite (fun hv => .ite (fun hl => ⟨haccepted hv hl, rfl⟩) fun hl => ⟨haccepted hv (hlayerII hl), rfl⟩)
    fun hver3 => ?_
  refine .ite (fun hv => .ite (fun hl => ⟨haccepted hv hl, rfl⟩) fun hl => ⟨haccepted hv (hlayerII hl), rfl⟩)
    fun hver2 => ?_
  have hv : h.raw.ver = 0#2 := ((version_cases hver).resolve_left hver3).resolve_left hver2
  exact .ite (fun hl => ⟨haccepted hv hl, rfl⟩) fun hl => ⟨haccepted hv (hlayerII hl), rfl⟩

/-! ### CTRL values -/

theorem decode_ctrlWrite_fields (v : CtrlWrite) : decode .ctrlWrite v.word.toNat = .ok (decodeCtrl v) := by
  rw [decode_ctrlWrite_word, CtrlWrite.ofWord_word]

theorem decodeCtrl_encodes (v : CtrlWrite) : Encodes (decodeCtrl v) .ctrlWrite v.word.toNat := by
  unfold decodeCtrl
  refine .ite (fun hreset => ⟨hreset, rfl⟩) fun hreset => ?_
  refine .ite (fun hstart => ⟨by simp [Instr.wf, hreset, hstart], rfl⟩) fun hstart => ?_
  exact .ite (fun hstop => ⟨by simp [Instr.wf, hreset, hstart, hstop], rfl⟩)
    fun hstop => ⟨by simp [Instr.wf, hreset, hstart, hstop], rfl⟩

/-! ### What decodes is a well-formed operation with that encoding -/

theorem decode_encodes {fmt : Format} {w : Nat} {i : Instr} (h : decode fmt w = .ok i) : Encodes i fmt w := by
  obtain ⟨hw, h⟩ := decode_eq_ok_iff.1 h
  cases fmt with
  | hdr32 =>
    obtain ⟨x, rfl⟩ := exists_toNat_eq (n := 32) hw le_rfl
    cases h
    simpa [HeaderFields.word_ofWord] using decodeHeader_encodes (HeaderFields.ofWord x)
  | crc16 =>
    obtain ⟨c, rfl⟩ := exists_toNat_eq (n := 16) hw le_rfl
    cases h
    simp [Encodes, Instr.wf, encode]
  | l1Alloc sb ch =>
    obtain ⟨a, rfl⟩ := exists_toNat_eq (n := 4) hw le_rfl
    cases h
    refine .ite (fun heq => ⟨rfl, by rw [encode, heq]⟩) fun hne => ?_
    have ha : a ≠ 15#4 := fun e => hne (congrArg BitVec.toNat e)
    simp [Encodes, Instr.wf, encode, ha]
  | l1Scalefactor sb ch =>
    obtain ⟨x, rfl⟩ := exists_toNat_eq (n := 6) hw le_rfl
    cases h
    simp [Encodes, Instr.wf, encode]
  | l1Sample sb ch a =>
    have hwidth : a.toNat + 1 ≤ 16 := a.isLt
    obtain ⟨q, rfl⟩ := exists_toNat_eq (n := 16) hw hwidth
    rw [decodeFitting] at h
    split at h <;> cases h
    next ha =>
      rw [Format.width] at hw
      simp_all [Encodes, Instr.wf, encode]
  | l2Alloc tab sb ch =>
    obtain ⟨a, rfl⟩ := exists_toNat_eq (n := 4) hw (nbal_le ..)
    rw [decodeFitting] at h
    split at h <;> cases h
    next hsb =>
      rw [Format.width] at hw
      simp [Encodes, Instr.wf, encode, hsb, hw]
  | l2Scfsi sb ch =>
    obtain ⟨x, rfl⟩ := exists_toNat_eq (n := 2) hw le_rfl
    cases h
    simp [Encodes, Instr.wf, encode]
  | l2Scalefactor sb ch c =>
    cases h
    exact ⟨rfl, by rw [encode, decodeSfRead_scfsi, joinGroups_decodeSfRead hw]⟩
  | l2Grouped sb ch n =>
    obtain ⟨c, rfl⟩ := exists_toNat_eq (n := 16) hw (codeWidth_le n)
    rw [decodeFitting] at h
    split at h <;> cases h
    next hgr =>
      rw [isGrouped_eq] at hgr
      rw [Format.width] at hw
      rw [BitVec.ofNat_toNat, BitVec.setWidth_eq]
      exact .ite (fun hlt => ⟨by simp [Instr.wf, hgr, hlt], rfl⟩)
        fun hge => ⟨by simp [Instr.wf, hgr, hw, not_lt.1 hge], rfl⟩
  | l2Ungrouped sb ch n =>
    rw [decodeFitting] at h
    split at h <;> cases h
    next hun =>
      have hval (k : Nat) : (BitVec.ofNat 16 (bitGroup (codeWidth n) k w)).toNat = bitGroup (codeWidth n) k w :=
        toNat_ofNat_of_lt ((bitGroup_lt ..).trans_le (Nat.pow_le_pow_right (by decide) (codeWidth_le n)))
      have hjoin : joinGroups (codeWidth n) (bitGroups (codeWidth n) 3 w) = w := by
        rw [joinGroups_bitGroups, mul_comm]
        exact Nat.mod_eq_of_lt hw
      refine ⟨by simp [Instr.wf, (ungroupedLevels_iff n).2 hun, hval, bitGroup_lt], ?_⟩
      rw [encode, hval, hval, hval]
      exact congrArg (fun w => some (_, w)) hjoin
  | ctrlWrite =>
    obtain ⟨x, rfl⟩ := exists_toNat_eq (n := 32) hw le_rfl
    cases h
    simpa [CtrlWrite.word_ofWord] using decodeCtrl_encodes (CtrlWrite.ofWord x)
  | regRead =>
    obtain ⟨off, rfl⟩ := exists_toNat_eq (n := 32) hw le_rfl
    rw [decodeFitting] at h
    split at h <;> cases h
    next halign => simpa [Encodes, Instr.wf, encode] using halign

/-! ### The encoding of a well-formed operation decodes to it -/

theorem decode_of_encodes {fmt : Format} {w : Nat} {i : Instr} (h : Encodes i fmt w) : decode fmt w = .ok i := by
  obtain ⟨hwf, hi⟩ := h
  cases i with
  | hdrSyncLoss | hdrUnsupVersion | hdrUnsupLayerReserved | hdrUnsupLayerIII | hdrUnsupFreeFormat | hdrUnsupBitrate
      | hdrUnsupSfreq | hdrMpeg1L1 | hdrMpeg1L2 | hdrMpeg2L1 | hdrMpeg2L2 | hdrMpeg25L1 | hdrMpeg25L2 =>
    cases hi
    exact (decode_hdr32_fields _).trans (congrArg Except.ok (Encodes.decodeHeader_eq ⟨hwf, rfl⟩))
  | ctrlSoftReset | ctrlStart | ctrlStop | ctrlConfig =>
    cases hi
    simp_all [Instr.wf, decode_ctrlWrite_fields, decodeCtrl]
  | regRead =>
    cases hi
    exact decode_regRead_aligned (of_decide_eq_true hwf)
  | crcWord =>
    cases hi
    exact Encodes.decode_eq ⟨hwf, rfl⟩ (Laws.EncodingFits.crcWord _) (by simp [decodeFitting])
  | l1Alloc _ _ a =>
    cases hi
    refine Encodes.decode_eq ⟨hwf, rfl⟩ (Laws.EncodingFits.l1Alloc _ _ _) ?_
    have hne : a.toNat ≠ 15 := fun e => by simp [Instr.wf, BitVec.eq_of_toNat_eq (y := 15#4) e] at hwf
    simp [decodeFitting, hne]
  | l1AllocCorrupt =>
    cases hi
    rfl
  | l1Scalefactor =>
    cases hi
    exact Encodes.decode_eq ⟨hwf, rfl⟩ (Laws.EncodingFits.l1Scalefactor _ _ _) (by simp [decodeFitting])
  | l1Sample =>
    cases hi
    exact Encodes.decode_eq ⟨hwf, rfl⟩ (Laws.EncodingFits.l1Sample _ _ _ _) (by simp_all [decodeFitting, Instr.wf])
  | l2Alloc =>
    cases hi
    exact Encodes.decode_eq ⟨hwf, rfl⟩ (Laws.EncodingFits.l2Alloc _ _ _ _) (by simp_all [decodeFitting, Instr.wf])
  | l2Scfsi =>
    cases hi
    exact Encodes.decode_eq ⟨hwf, rfl⟩ (Laws.EncodingFits.l2Scfsi _ _ _) (by simp [decodeFitting])
  | l2Scalefactor =>
    cases hi
    refine Encodes.decode_eq ⟨hwf, rfl⟩ (Laws.EncodingFits.l2Scalefactor _ _ _) ?_
    rw [decodeFitting, decodeSfRead_joinGroups]
  | l2Grouped =>
    cases hi
    refine Encodes.decode_eq ⟨hwf, rfl⟩ (Laws.EncodingFits.l2Grouped _ _ _ _) ?_
    simp_all [decodeFitting, Instr.wf, isGrouped_eq]
  | l2GroupedOutOfRange =>
    cases hi
    refine Encodes.decode_eq ⟨hwf, rfl⟩ (Laws.EncodingFits.l2GroupedOutOfRange _ _ _ _) ?_
    simp only [Instr.wf, Bool.and_eq_true, decide_eq_true_eq] at hwf
    obtain ⟨⟨hgr, hge⟩, -⟩ := hwf
    simp [decodeFitting, isGrouped_eq, hgr, not_lt.2 hge]
  | l2Ungrouped sb ch n v0 v1 v2 =>
    cases hi
    refine Encodes.decode_eq ⟨hwf, rfl⟩ (Laws.EncodingFits.l2Ungrouped _ _ _ _ _ _) ?_
    simp only [Instr.wf, Bool.and_eq_true, decide_eq_true_eq] at hwf
    obtain ⟨⟨⟨hun, h0⟩, h1⟩, h2⟩ := hwf
    have hfit : ∀ v ∈ [v0.toNat, v1.toNat, v2.toNat], v < 2 ^ codeWidth n := by simp [h0, h1, h2]
    have hcut := bitGroups_joinGroups hfit
    simp only [List.length_cons, List.length_nil, bitGroups, List.cons.injEq] at hcut
    simp [decodeFitting, (ungroupedLevels_iff n).1 hun, hcut]
  | readHeaderBytes | fetchFrame | getBits | crcCheck | skipToFrameEnd | l1Dequant | l1PutMono | l1PutStereo
      | l1PutIntensity | rq2 | l2PutMono | l2PutStereo | l2PutIntensity | addSample | synthStep | convert | emit =>
    cases hi

/-- Settles O1: by the classes' conditions for header words and CTRL values, and by cutting the number of a stream field
into the groups it was joined of. -/
theorem decodeOfEncode : Obligations.DecodeOfEncode := fun _ _ _ hwf hi => decode_of_encodes ⟨hwf, hi⟩

/-- Settles O2: each format's number is cut into fields that fit, and the fields joined again are the number. -/
theorem encodeOfDecode : Obligations.EncodeOfDecode := fun _ _ _ => decode_encodes

end Sys2Proof
end

section
/-! The match and mask rows of spec/opcode_table.json against the decoder (O3): masking a word masks each of its fields,
so a row fixes the fields its mask covers and leaves the others free. -/
namespace Sys2Proof
open Machine

/-! ### Masked header words -/

/-- A word's fields masked by another word's fields. -/
@[simp] def HeaderFields.masked (h m : HeaderFields) : HeaderFields where
  sync := h.sync &&& m.sync
  raw :=
    { ver := h.raw.ver &&& m.raw.ver, layer := h.raw.layer &&& m.raw.layer, prot := h.raw.prot &&& m.raw.prot
      bri := h.raw.bri &&& m.raw.bri, sfi := h.raw.sfi &&& m.raw.sfi, pad := h.raw.pad &&& m.raw.pad
      priv := h.raw.priv &&& m.raw.priv, mode := h.raw.mode &&& m.raw.mode, mx := h.raw.mx &&& m.raw.mx
      copy := h.raw.copy &&& m.raw.copy, orig := h.raw.orig &&& m.raw.orig, emph := h.raw.emph &&& m.raw.emph }

theorem HeaderFields.ofWord_and (w mask : Word) : ofWord (w &&& mask) = (ofWord w).masked (ofWord mask) := by
  simp only [ofWord, masked, BitVec.extractLsb'_and]

theorem header_and_eq_iff {w mask bits : Word} :
    w &&& mask = bits ↔ (HeaderFields.ofWord w).masked (HeaderFields.ofWord mask) = HeaderFields.ofWord bits := by
  rw [← HeaderFields.ofWord_and]
  exact ⟨congrArg _, fun h => by rw [← HeaderFields.word_ofWord (w &&& mask), h, HeaderFields.word_ofWord]⟩

/-- A mask of ones leaves a field as it is. -/
@[simp] theorem and_ones :
    (∀ x : BitVec 2, x &&& 3#2 = x) ∧ (∀ x : BitVec 4, x &&& 15#4 = x) ∧ ∀ x : BitVec 11, x &&& 0x7FF#11 = x :=
  ⟨fun _ => BitVec.and_allOnes, fun _ => BitVec.and_allOnes, fun _ => BitVec.and_allOnes⟩

theorem header_sync_iff {w : Word} : w &&& 0xFFE00000 = 0xFFE00000 ↔ (HeaderFields.ofWord w).sync = 0x7FF#11 := by
  rw [header_and_eq_iff]
  generalize HeaderFields.ofWord w = h
  simp [HeaderFields.ofWord]

/-- The rows below HDR_SYNC_LOSS test what `decodeHeader` tests, in the same order; the last six leave no other version
and layer. -/
theorem firstRow_headerRows {w : Word} (hsync : (HeaderFields.ofWord w).sync = 0x7FF#11) :
    firstRow headerRows w (HeaderFields.ofWord w) = some (decodeHeader (HeaderFields.ofWord w)) := by
  simp only [headerRows, List.cons_append, List.nil_append, firstRow, header_and_eq_iff]
  generalize HeaderFields.ofWord w = h at *
  simp only [decodeHeader, ne_eq, hsync, not_true_eq_false, if_false, apply_ite some]
  refine ite_congr (by simp [HeaderFields.ofWord, hsync]) (fun _ => rfl) fun hver => ?_
  refine ite_congr (by simp [HeaderFields.ofWord, hsync]) (fun _ => rfl) fun hlayer0 => ?_
  refine ite_congr (by simp [HeaderFields.ofWord, hsync]) (fun _ => rfl) fun hlayer1 => ?_
  refine ite_congr (by simp [HeaderFields.ofWord, hsync]) (fun _ => rfl) fun _ => ?_
  refine ite_congr (by simp [HeaderFields.ofWord, hsync]) (fun _ => rfl) fun _ => ?_
  refine ite_congr (by simp [HeaderFields.ofWord, hsync]) (fun _ => rfl) fun _ => ?_
  obtain hl | hl := layer_cases.2 ⟨hlayer0, hlayer1⟩ <;> obtain hv | hv | hv := version_cases hver
  all_goals simp [HeaderFields.ofWord, hsync, hv, hl]

/-! ### Masked CTRL values -/

/-- A CTRL value's fields masked by another value's fields. -/
@[simp] def CtrlWrite.masked (v m : CtrlWrite) : CtrlWrite where
  start := v.start && m.start
  stop := v.stop && m.stop
  softReset := v.softReset && m.softReset
  strict := v.strict && m.strict
  chansel := v.chansel &&& m.chansel
  fmt := v.fmt && m.fmt
  irqEn := v.irqEn && m.irqEn
  reserved := v.reserved &&& m.reserved

theorem CtrlWrite.ofWord_and (w mask : Word) : ofWord (w &&& mask) = (ofWord w).masked (ofWord mask) := by
  simp only [ofWord, masked, BitVec.extractLsb'_and, BitVec.getLsbD_and]

theorem ctrl_and_eq_iff {w mask bits : Word} :
    w &&& mask = bits ↔ (CtrlWrite.ofWord w).masked (CtrlWrite.ofWord mask) = CtrlWrite.ofWord bits := by
  rw [← CtrlWrite.ofWord_and]
  exact ⟨congrArg _, fun h => by rw [← CtrlWrite.word_ofWord (w &&& mask), h, CtrlWrite.word_ofWord]⟩

theorem firstRow_ctrlRows (w : Word) :
    firstRow ctrlRows w (CtrlWrite.ofWord w) = some (decodeCtrl (CtrlWrite.ofWord w)) := by
  simp only [ctrlRows, List.cons_append, List.nil_append, firstRow, ctrl_and_eq_iff]
  generalize CtrlWrite.ofWord w = v
  simp only [decodeCtrl, apply_ite some]
  refine ite_congr (by simp [CtrlWrite.ofWord]) (fun _ => rfl) fun hreset => ?_
  refine ite_congr (by simp [CtrlWrite.ofWord, hreset]) (fun _ => rfl) fun hstart => ?_
  refine ite_congr (by simp [CtrlWrite.ofWord, hreset]) (fun _ => rfl) fun hstop => ?_
  simp [CtrlWrite.ofWord, hreset, hstart, hstop]

/-- Settles O3: a masked row compares the fields that `decodeHeader` and `decodeCtrl` compare. -/
theorem opcodeRowsDecideInOrder : Obligations.OpcodeRowsDecideInOrder := by
  refine fun w => ⟨fun hsync => ?_, fun hsync => ?_, _, firstRow_ctrlRows w, decode_ctrlWrite_word w⟩
  · rw [decode_hdr32_word, decodeHeader, if_pos (header_sync_iff.not.1 hsync)]
  · exact ⟨_, firstRow_headerRows (header_sync_iff.1 hsync), decode_hdr32_word w⟩

end Sys2Proof
end

section
/-! Written words (O4), and what SCFSI and scale factors store and stand for (O24). -/
namespace Sys2Proof.Machine

/-! ### Reading the fields -/

variable {s : State}

theorem State.takeFields_go {width count : Nat} {go : State → Result} (h : s.frameHolds (width * count)) :
    s.takeFields width count go = go { s with bitpos := s.bitpos + width * count } := by
  obtain ⟨hbuf, hend⟩ := h
  induction count generalizing s with
  | zero => rfl
  | succ count ih =>
    have hpos : s.bitpos + width + width * count = s.bitpos + width * (count + 1) := by ring
    rw [← hpos] at hend ⊢
    rw [State.takeFields, State.takeBits_go (by omega) (by omega)]
    exact ih hbuf hend

theorem exec_l2Scfsi (sb : Fin 32) (ch : Fin 2) (x : BitVec 2) (h : s.frameHolds 2) :
    exec (.l2Scfsi sb ch x) s = .next
      ({ s with bitpos := s.bitpos + 2, crc := crcAdd s.crc x.toNat 2 }.setSub ch sb
        { s.sub ch sb with scfsi := x }) := by
  obtain ⟨hbuf, hend⟩ := h
  change execL2Scfsi sb ch x s = _
  rw [execL2Scfsi, State.takeBits_go hend (by omega)]
  rfl

theorem exec_l2Scalefactor (sb : Fin 32) (ch : Fin 2) (r : SfRead) (h : s.frameHolds (6 * r.indices.length)) :
    exec (.l2Scalefactor sb ch r) s = .next
      ({ s with bitpos := s.bitpos + 6 * r.indices.length }.setSub ch sb { s.sub ch sb with sfx := partIndices r }) :=
  State.takeFields_go h

/-- The indices of a field, the first one most significant (30_encoding.md R74). -/
theorem decode_l2Scalefactor (sb : Fin 32) (ch : Fin 2) (r : SfRead) {w : Nat}
    (hw : joinGroups 6 (r.indices.map BitVec.toNat) = w) :
    decode (.l2Scalefactor sb ch r.scfsi) w = .ok (.l2Scalefactor sb ch r) :=
  decode_of_encodes ⟨rfl, by rw [encode, hw]⟩

/-- An index appended to a number is its last group. -/
theorem toNat_append_index {m : Nat} (x : BitVec m) (y : BitVec 6) : (x ++ y).toNat = x.toNat * 2 ^ 6 + y.toNat := by
  rw [BitVec.toNat_append, ← Nat.shiftLeft_add_eq_or_of_lt y.isLt, Nat.shiftLeft_eq]

/-! ### The table SF (30_encoding.md R73) -/

theorem scaleFactor_63 (p : Params) : scaleFactor p 63#6 = p.num.ofRat p.sf63Value := dif_neg (by decide)

/-- The next power of two is one more in the exponent field. -/
theorem F32.patternMag_add_exponent {z : Nat} (h : 2 ^ 23 ≤ z) :
    F32.patternMag (z + 2 ^ 23) = 2 * F32.patternMag z := by
  have hexp : (z + 2 ^ 23) / 2 ^ 23 = z / 2 ^ 23 + 1 := by omega
  have hpos : z / 2 ^ 23 - 1 + 1 = z / 2 ^ 23 := by omega
  rw [F32.patternMag, F32.patternMag, if_neg (by omega), if_neg (by omega), hexp, Nat.add_mod_right,
    Nat.add_sub_cancel, ← hpos, pow_succ, Nat.add_sub_cancel]
  ring

theorem F32.scaled_ofNat {z : Nat} (hz : z < 2 ^ 31) : F32.scaled (BitVec.ofNat 32 z) = F32.patternMag z := by
  have hsign : F32.signBit (BitVec.ofNat 32 z) = false := by
    rw [F32.signBit, BitVec.msb_eq_false_iff_two_mul_lt, BitVec.toNat_ofNat]
    omega
  simp [F32.scaled, hsign, F32.mag_ofNat hz]

theorem F32.scaleBase_bounds (k : Nat) : 40 * 2 ^ 23 ≤ F32.scaleBase k ∧ F32.scaleBase k < 2 ^ 31 := by
  unfold F32.scaleBase
  split <;> decide

/-- Under binary32 an entry below 63 has the pattern of `F32.scale`. -/
theorem scaled_scaleFactor {p : Params} (hp : p.num = .binary32) {i : Nat} (hi : i < 63) :
    F32.scaled (F32.ofCode (scaleFactor p (BitVec.ofNat 6 i))) =
      F32.patternMag (F32.scaleBase (i % 3) - i / 3 * 2 ^ 23) := by
  have hval : (BitVec.ofNat 6 i).toNat = i := toNat_ofNat_of_lt (by omega)
  have hbase := F32.scaleBase_bounds (i % 3)
  rw [scaleFactor, dif_pos (by omega), hp, ofCode_binary32_fl, F32.fl, F32.scale]
  simp only [hval]
  exact F32.scaled_ofNat (by omega)

theorem scaleFactor_halves {p : Params} (hp : p.num = .binary32) {i : Nat} (hi : i + 3 < 63) :
    2 * F32.scaled (F32.ofCode (scaleFactor p (BitVec.ofNat 6 (i + 3)))) =
      F32.scaled (F32.ofCode (scaleFactor p (BitVec.ofNat 6 i))) := by
  have hbase := F32.scaleBase_bounds (i % 3)
  have hmod : (i + 3) % 3 = i % 3 := by omega
  have hstep : F32.scaleBase (i % 3) - i / 3 * 2 ^ 23 =
      F32.scaleBase (i % 3) - (i + 3) / 3 * 2 ^ 23 + 2 ^ 23 := by omega
  rw [scaled_scaleFactor hp hi, scaled_scaleFactor hp (by omega), hmod, hstep, F32.patternMag_add_exponent (by omega)]
  norm_cast

end Sys2Proof.Machine

namespace Sys2Proof
open Machine

/-- Settles O4: the decoder evaluated on each word. -/
theorem writtenWordsDecode : Obligations.WrittenWordsDecode := by
  unfold Obligations.WrittenWordsDecode
  and_intros <;> decide +kernel

/-- Settles O24: the fields are read as the frame holds them, and each group of three entries of SF is the group before
it with one less in the exponent field. -/
theorem l2ScfsiAndScalefactorResults : Obligations.L2ScfsiAndScalefactorResults := by
  refine ⟨fun sb ch x s => exec_l2Scfsi sb ch x, fun sb ch x0 x1 x2 => ?_, fun sb ch x0 x1 x2 s => ?_, scaleFactor_63,
    fun p hp => ?_⟩
  · have hthree : joinGroups 6 [x0.toNat, x1.toNat, x2.toNat] = (x0 ++ x1 ++ x2).toNat := by
      simp only [toNat_append_index, joinGroups, List.length_cons, List.length_nil]
      ring
    have htwo : joinGroups 6 [x0.toNat, x1.toNat] = (x0 ++ x1).toNat := by simp [toNat_append_index, joinGroups]
    have hone : joinGroups 6 [x0.toNat] = x0.toNat := by simp [joinGroups]
    exact ⟨decode_l2Scalefactor sb ch (.three x0 x1 x2) hthree, decode_l2Scalefactor sb ch (.firstTwo x0 x1) htwo,
      decode_l2Scalefactor sb ch (.one x0) hone, decode_l2Scalefactor sb ch (.lastTwo x0 x1) htwo⟩
  · exact ⟨exec_l2Scalefactor sb ch (.three x0 x1 x2), exec_l2Scalefactor sb ch (.firstTwo x0 x1),
      exec_l2Scalefactor sb ch (.one x0), exec_l2Scalefactor sb ch (.lastTwo x0 x1)⟩
  · intro sf
    have hsf {i : Nat} (hi : i < 63) : sf i = F32.patternMag (F32.scaleBase (i % 3) - i / 3 * 2 ^ 23) :=
      scaled_scaleFactor hp hi
    refine ⟨hsf (by decide), fun i => scaleFactor_halves hp, ?_⟩
    rintro i (rfl | rfl)
    · exact ⟨2 ^ 23 + 0x4B2FF5, (hsf (by decide)).trans (by rfl), by decide, by decide⟩
    · exact ⟨2 ^ 23 + 0x214518, (hsf (by decide)).trans (by rfl), by decide, by decide⟩

end Sys2Proof
end

section
/-! The bits of a field, the first one most significant (O14), and a field that would cross the frame end (O15). -/
namespace Sys2Proof.Machine

variable {s : State}

/-! ### The bits at the cursor -/

/-- Bit j of a byte of the frame, the most significant one first (40_bitstream_reader.md R85). -/
theorem State.frameBit_byte (s : State) (a : Nat) {j : Nat} (hj : j < 8) :
    s.frameBit (8 * a + j) = (s.fb.read a).getLsbD (7 - j) := by
  rw [State.frameBit, Nat.mul_add_div (by decide), Nat.div_eq_of_lt hj, Nat.mul_add_mod, Nat.mod_eq_of_lt hj, add_zero]

theorem State.testBit_peekFrom (s : State) (p : Nat) {n k : Nat} (hk : k < n) :
    (s.peekFrom p n).testBit k = s.frameBit (p + (n - 1 - k)) := by
  induction n generalizing k with
  | zero => omega
  | succ n ih =>
    have hbit : s.peekFrom p (n + 1) = Nat.bit (s.frameBit (p + n)) (s.peekFrom p n) := (Nat.bit_val ..).symm
    rw [hbit]
    cases k with
    | zero => rw [Nat.testBit_bit_zero, Nat.sub_zero, Nat.add_sub_cancel]
    | succ k =>
      rw [Nat.testBit_bit_succ, ih (by omega)]
      congr 2
      omega

/-- Two bytes of the frame read as one field. -/
theorem State.peekFrom_two_bytes (s : State) (a : Nat) :
    BitVec.ofNat 16 (s.peekFrom (8 * a) 16) = s.fb.read a ++ s.fb.read (a + 1) := by
  apply BitVec.eq_of_getLsbD_eq
  intro i hi
  rw [BitVec.getLsbD_ofNat, s.testBit_peekFrom _ hi, BitVec.getLsbD_append, decide_eq_true hi, Bool.true_and]
  split
  · next hlow =>
    have hp : 8 * a + (16 - 1 - i) = 8 * (a + 1) + (7 - i) := by omega
    rw [hp, s.frameBit_byte _ (by omega)]
    congr 1
    omega
  · next hhigh =>
    rw [s.frameBit_byte _ (by omega)]
    congr 1
    omega

/-! ### Fields inside the frame and past its end -/

theorem State.takeBits_held {n : Nat} {go : State → Result} (h : s.frameHolds n) :
    s.takeBits n go = go { s with bitpos := s.bitpos + n } := by
  obtain ⟨hbuf, hend⟩ := h
  exact State.takeBits_go hend (by omega)

theorem State.takeBits_underrun {n : Nat} {go : State → Result} (h : 8 * s.flen.toNat < s.bitpos + n) :
    s.takeBits n go = .next (s.failedAt .bitstreamUnderrun 2) :=
  if_pos h

theorem State.takeFields_add (s : State) (width m n : Nat) (go : State → Result) :
    s.takeFields width (m + n) go = s.takeFields width m fun t => t.takeFields width n go := by
  induction m generalizing s with
  | zero => rw [Nat.zero_add]; rfl
  | succ m ih => rw [Nat.succ_add]; exact congrArg (s.takeBits width) (funext ih)

/-- A field of several past the frame end is an underrun after the fields before it (40_bitstream_reader.md R86). -/
theorem State.takeFields_underrun {width count k : Nat} {go : State → Result} (hk : k < count)
    (h : s.frameHolds (width * k)) (hend : 8 * s.flen.toNat < s.bitpos + width * (k + 1)) :
    s.takeFields width count go = .next ({ s with bitpos := s.bitpos + width * k }.failedAt .bitstreamUnderrun 2) := by
  obtain ⟨m, rfl⟩ := Nat.exists_eq_add_of_lt hk
  rw [add_assoc, State.takeFields_add, State.takeFields_go h]
  exact State.takeBits_underrun (by rw [mul_add, mul_one, ← add_assoc] at hend; exact hend)

theorem exec_firstField_underrun {i : Instr} {n : Nat} (hi : firstFieldWidth i = some n)
    (h : 8 * s.flen.toNat < s.bitpos + n) : exec i s = .next (s.failedAt .bitstreamUnderrun 2) := by
  cases i <;> cases hi
  case l2Scalefactor r => cases r <;> exact if_pos h
  all_goals exact if_pos h

theorem exec_getBits {n : Nat} (h : s.frameHolds n) : exec (.getBits n) s =
    .next { s with bitpos := s.bitpos + n, bits := BitVec.ofNat 32 (s.peekBits n) } := by
  change execGetBits n s = _
  rw [execGetBits, State.takeBits_held h]

theorem exec_l2Ungrouped_second_underrun (sb : Fin 32) (ch : Fin 2) (n : Nat) (v0 v1 v2 : BitVec 16)
    (h : s.frameHolds (codeWidth n)) (hend : 8 * s.flen.toNat < s.bitpos + 2 * codeWidth n) :
    exec (.l2Ungrouped sb ch n v0 v1 v2) s =
      .next (({ s with bitpos := s.bitpos + codeWidth n }.setSmp ch sb 0 (rq2Value s.params.num v0.toNat n)).failedAt
        .bitstreamUnderrun 2) := by
  rw [two_mul, ← add_assoc] at hend
  change execL2Ungrouped sb ch n v0 v1 v2 s = _
  rw [execL2Ungrouped, State.takeBits_held h]
  exact State.takeBits_underrun hend

theorem exec_l2Ungrouped_third_underrun (sb : Fin 32) (ch : Fin 2) (n : Nat) (v0 v1 v2 : BitVec 16)
    (h : s.frameHolds (2 * codeWidth n)) (hend : 8 * s.flen.toNat < s.bitpos + 3 * codeWidth n) :
    exec (.l2Ungrouped sb ch n v0 v1 v2) s =
      .next ((({ s with bitpos := s.bitpos + 2 * codeWidth n }.setSmp ch sb 0
        (rq2Value s.params.num v0.toNat n)).setSmp ch sb 1 (rq2Value s.params.num v1.toNat n)).failedAt
        .bitstreamUnderrun 2) := by
  obtain ⟨hbuf, h⟩ := h
  have htwo : s.bitpos + 2 * codeWidth n = s.bitpos + codeWidth n + codeWidth n := by ring
  have hthree : s.bitpos + 3 * codeWidth n = s.bitpos + codeWidth n + codeWidth n + codeWidth n := by ring
  rw [htwo] at h ⊢
  rw [hthree] at hend
  have hfirst : s.frameHolds (codeWidth n) := ⟨hbuf, by omega⟩
  have hsecond : (State.setSmp { s with bitpos := s.bitpos + codeWidth n } ch sb 0
    (rq2Value s.params.num v0.toNat n)).frameHolds (codeWidth n) := ⟨hbuf, h⟩
  change execL2Ungrouped sb ch n v0 v1 v2 s = _
  rw [execL2Ungrouped, State.takeBits_held hfirst, State.takeBits_held hsecond]
  exact State.takeBits_underrun hend

end Sys2Proof.Machine

namespace Sys2Proof
open Machine

/-- Settles O14: a bit of the value is a bit of the frame. -/
theorem getBitsResult : Obligations.GetBitsResult := by
  intro n s _ hn
  refine ⟨exec_firstField_underrun rfl, fun h => ⟨BitVec.ofNat 32 (s.peekBits n), exec_getBits h, fun k hk => ?_,
    fun k hk => ?_⟩⟩ <;> rw [BitVec.getLsbD_ofNat]
  · have hbit : (s.peekBits n).testBit (n - 1 - k) = s.frameBit (s.bitpos + (n - 1 - (n - 1 - k))) :=
      s.testBit_peekFrom _ (by omega)
    rw [hbit, decide_eq_true (by omega), Bool.true_and, Nat.sub_sub_self (by omega)]
    rfl
  · have hlt : s.peekBits n < 2 ^ k := (s.peekBits_lt n).trans_le (Nat.pow_le_pow_right (by decide) hk)
    rw [Nat.testBit_lt_two_pow hlt, Bool.and_false]

/-- Settles O15: the fields before the one that crosses the frame end are read, and then `takeBits` raises the error. -/
theorem fieldPastFrameEnd : Obligations.FieldPastFrameEnd :=
  ⟨fun _ _ _ => exec_firstField_underrun, fun _ _ _ _ _ hk h hend => State.takeFields_underrun hk h hend,
    fun sb ch n v0 v1 v2 _ => exec_l2Ungrouped_second_underrun sb ch n v0 v1 v2,
    fun sb ch n v0 v1 v2 _ => exec_l2Ungrouped_third_underrun sb ch n v0 v1 v2⟩

end Sys2Proof
end

section
/-! The CRC: feeding it (O16) and checking it (O17). -/
namespace Sys2Proof.Machine

theorem crcBit_eq_ite (c : BitVec 16) (b : Bool) :
    crcBit c b = if (c.getLsbD 15 ^^ b) = true then (c <<< 1) ^^^ 0x8005#16 else c <<< 1 := by
  rw [crcBit, BitVec.msb_eq_getLsbD_last, Bool.bne_eq_xor]

/-- What the feedback bit adds to the shifted accumulator. -/
def crcFeedback (b : Bool) : BitVec 16 := if b = true then 0x8005#16 else 0#16

theorem crcFeedback_xor (a b : Bool) : crcFeedback (a ^^ b) = crcFeedback a ^^^ crcFeedback b := by
  cases a <;> cases b <;> rfl

theorem crcBit_eq_xor (c : BitVec 16) (b : Bool) : crcBit c b = c <<< 1 ^^^ crcFeedback (c.getLsbD 15 ^^ b) := by
  rw [crcBit_eq_ite, crcFeedback]
  split
  · rfl
  · exact BitVec.xor_zero.symm

/-- One bit into the CRC is linear, as its feedback is. -/
theorem crcBit_xor (c d : BitVec 16) (a b : Bool) : crcBit (c ^^^ d) (a ^^ b) = crcBit c a ^^^ crcBit d b := by
  simp only [crcBit_eq_xor, crcFeedback_xor, BitVec.getLsbD_xor, BitVec.shiftLeft_xor_distrib]
  ac_rfl

theorem crcAdd_xor (c d : BitVec 16) (v w n : Nat) :
    crcAdd (c ^^^ d) (v ^^^ w) n = crcAdd c v n ^^^ crcAdd d w n := by
  induction n generalizing c d with
  | zero => rfl
  | succ n ih => rw [crcAdd, crcAdd, crcAdd, Nat.testBit_xor, crcBit_xor, ih]

/-- A value fed in two pieces, the upper one first. -/
theorem crcAdd_add (c : BitVec 16) (v m n : Nat) : crcAdd c v (m + n) = crcAdd (crcAdd c (v / 2 ^ n) m) v n := by
  induction m generalizing c with
  | zero => rw [Nat.zero_add]; rfl
  | succ m ih => rw [Nat.succ_add, crcAdd, crcAdd, ih, Nat.testBit_div_two_pow]

end Sys2Proof.Machine

namespace Sys2Proof
open Machine

/-- Settles O16, by induction on the number of bits. -/
theorem crcAddBitByBit : Obligations.CrcAddBitByBit :=
  ⟨fun _ _ => rfl, fun c v n => congrArg (crcAdd · v n) (crcBit_eq_ite c (v.testBit n)), crcAdd_add, crcAdd_xor⟩

/-- Settles O17, by the cases of CRC_CHECK. -/
theorem crcCheckResult : Obligations.CrcCheckResult := by
  refine fun s => ⟨fun h => if_neg ?_, fun hprot hcrc hstrict => ?_, fun hprot hcrc hstrict => ?_⟩
  · rintro ⟨hprot, hcrc⟩
    obtain h | h := h
    · exact absurd (h.symm.trans hprot) (by decide)
    · exact hcrc h
  · exact (if_pos ⟨hprot, hcrc⟩).trans (if_pos hstrict)
  · exact (if_pos ⟨hprot, hcrc⟩).trans (if_neg (by simp [hstrict]))

end Sys2Proof
end

section
/-! FETCH_FRAME byte by byte (O9), and the end of FETCH after the last byte (O10). -/
namespace Sys2Proof.Machine

variable {s : State}

/-! ### The end of FETCH -/

theorem finishFetch_eq (s : State) :
    finishFetch s = andThen (if s.startFrame.hdr.raw.prot = 0#1 then
        execCrcWord (BitVec.ofNat 16 (s.startFrame.peekBits 16)) s.startFrame
      else .next s.startFrame) fun t => .next { t with seq := .alloc } :=
  rfl

/-- The cursor after the header, and no check word (40_bitstream_reader.md R84, R87). -/
theorem finishFetch_unprotected (hprot : s.hdr.raw.prot = 1#1) (hlive : s.seq ≠ .failed) :
    finishFetch s = .next { s with bitpos := 32, crc := 0xFFFF#16, seq := .alloc } := by
  have hne : s.hdr.raw.prot ≠ 0#1 := by rw [hprot]; decide
  have hstart : s.startFrame = { s with bitpos := 32, crc := 0xFFFF#16 } := if_neg hne
  rw [finishFetch_eq, hstart, if_neg (by exact hne), andThen_next (by exact hlive)]

theorem execCrcWord_held {c : BitVec 16} (h : s.frameHolds 16) :
    execCrcWord c s = .next { s with bitpos := s.bitpos + 16, crcWord := c } :=
  State.takeBits_held h

/-- The cursor after the check word, which is bytes 4 and 5 (41_header_parser.md R104), and the header's low 16 bits fed
into the CRC (40_bitstream_reader.md R87). -/
theorem finishFetch_protected (hprot : s.hdr.raw.prot = 0#1) (hlive : s.seq ≠ .failed) (hlen : 6 ≤ s.flen.toNat)
    (hbuf : s.flen.toNat ≤ s.params.frameBufBytes) :
    finishFetch s = .next { s with
      bitpos := 48, crc := crcAdd 0xFFFF#16 (s.hdrWord.toNat % 2 ^ 16) 16, crcWord := s.fb.read 4 ++ s.fb.read 5
      seq := .alloc } := by
  have hlow : (s.hdrWord.extractLsb' 0 16).toNat = s.hdrWord.toNat % 2 ^ 16 := by
    rw [BitVec.extractLsb'_toNat, Nat.shiftRight_zero]
  have hstart : s.startFrame =
      { s with bitpos := 32, crc := crcAdd 0xFFFF#16 (s.hdrWord.toNat % 2 ^ 16) 16 } := hlow ▸ if_pos hprot
  have hheld : s.startFrame.frameHolds 16 := by
    rw [hstart]
    exact ⟨hbuf, (by omega : 32 + 16 ≤ 8 * s.flen.toNat)⟩
  have hword : BitVec.ofNat 16 (s.startFrame.peekBits 16) = s.fb.read 4 ++ s.fb.read 5 := by
    rw [hstart]
    exact State.peekFrom_two_bytes _ 4
  rw [finishFetch_eq, hword, execCrcWord_held hheld, hstart, if_pos (by exact hprot), andThen_next (by exact hlive)]

/-! ### One byte -/

theorem State.framePos_eq {k : Nat} (hk : s.byteCount = s.frameStart + BitVec.ofNat 32 k) (hlt : k < s.flen.toNat) :
    s.framePos = k := by
  have hflen := s.flen.isLt
  rw [State.framePos, hk]
  bv_omega

theorem fetchByte_framePos (b : Byte) (rest : List Byte) (hlt : s.framePos < s.flen.toNat) :
    (s.fetchByte b rest).framePos = s.framePos + 1 := by
  have hflen := s.flen.isLt
  exact toNat_sub_succ rfl (by omega)

/-- A byte stored, with the end of FETCH if it is the last (40_bitstream_reader.md R84). -/
theorem execFetchFrame_store {b : Byte} {rest : List Byte} (hlt : s.framePos < s.flen.toNat)
    (hbuf : s.flen.toNat ≤ s.params.frameBufBytes) (havail : s.src.avail = b :: rest) :
    execFetchFrame s = if s.framePos + 1 = s.flen.toNat then finishFetch (s.fetchByte b rest)
      else .next (s.fetchByte b rest) := by
  rw [execFetchFrame_byte hlt havail, if_pos (hlt.trans_le hbuf), fetchByte_framePos b rest hlt]
  exact if_congr (by omega) rfl rfl

end Sys2Proof.Machine

namespace Sys2Proof
open Machine

/-- Settles O9, by the source's answer. -/
theorem fetchByteResult : Obligations.FetchByteResult := by
  intro s k hk hlt hbuf
  have hpos := State.framePos_eq hk hlt
  rw [← hpos] at hlt
  refine ⟨fun b rest havail hnot => ?_, execFetchFrame_eos hlt, execFetchFrame_waiting hlt⟩
  rw [← hpos] at hnot ⊢
  exact (execFetchFrame_store hlt hbuf havail).trans (if_neg hnot.ne)

/-- Settles O10: the byte is stored, and then FETCH ends with or without a check word. -/
theorem fetchLastByteEndsFetch : Obligations.FetchLastByteEndsFetch := by
  intro s k b rest hseq hk hlast hlen hbuf havail
  have hpos := State.framePos_eq hk (by omega)
  rw [← hpos] at hlast ⊢
  have hstore : exec .fetchFrame s = finishFetch (s.fetchByte b rest) :=
    (execFetchFrame_store (by omega) hbuf havail).trans (if_pos hlast)
  have hlive : (s.fetchByte b rest).seq ≠ .failed := fun e => by cases hseq.symm.trans e
  rw [hstore]
  exact ⟨fun hprot => finishFetch_unprotected hprot hlive, fun hprot => finishFetch_protected hprot hlive hlen hbuf⟩

end Sys2Proof
end

section
/-! READ_HEADER_BYTES byte by byte (O8), and the operations placed for the next step (O47). -/
namespace Sys2Proof.Machine

variable {s : State}

/-! ### Header bytes -/

/-- One more byte at the end of a word, as a shift. -/
theorem appendByte_eq_shift (w : Word) (b : Byte) :
    (w.extractLsb' 0 24 ++ b : Word) = w <<< 8 ||| b.setWidth 32 := by
  apply BitVec.eq_of_getLsbD_eq
  intro i hi
  rw [getLsbD_appendByte, BitVec.getLsbD_or, BitVec.getLsbD_shiftLeft, BitVec.getLsbD_setWidth,
    BitVec.getLsbD_extractLsb']
  by_cases hlow : i < 8
  · simp [hlow, hi]
  · have hbyte : b.getLsbD i = false := BitVec.getLsbD_of_ge b i (by omega)
    have hup : i - 8 < 24 := by omega
    simp [hlow, hi, hbyte, hup]

theorem markStart_frameStart (s : State) :
    s.markStart.frameStart = if s.hdrBytes = 0 then s.byteCount else s.frameStart := by
  unfold State.markStart
  split <;> rfl

theorem collectByte_eq (s : State) (b : Byte) (rest : List Byte) : s.collectByte b rest =
    { s with
      frameStart := if s.hdrBytes = 0 then s.byteCount else s.frameStart, src := { s.src with avail := rest }
      fb := s.fb.write s.hdrBytes b, hdrWord := s.hdrWord <<< 8 ||| b.setWidth 32, hdrBytes := s.hdrBytes + 1
      byteCount := s.byteCount + 1#32 } := by
  rw [State.collectByte, s.markStart_eq, markStart_frameStart, appendByte_eq_shift]
  rfl

/-- The fourth byte runs the class the collected word decodes to (40_bitstream_reader.md R83). -/
theorem execReadHeaderBytes_fourth {b : Byte} {rest : List Byte} (hbuf : s.params.legal) (h3 : s.hdrBytes = 3)
    (havail : s.src.avail = b :: rest) :
    execReadHeaderBytes s =
      exec (decodeHeader (HeaderFields.ofWord (s.collectByte b rest).hdrWord)) (s.collectByte b rest) := by
  have hk : s.hdrBytes < s.params.frameBufBytes := h3 ▸ (by decide : 3 < 2881).trans_le hbuf
  rw [execReadHeaderBytes_byte havail, if_pos hk, if_pos (by rw [h3]), parseHeader_eq_exec]

theorem execReadHeaderBytes_before_fourth {b : Byte} {rest : List Byte} (hbuf : s.params.legal) (h3 : s.hdrBytes < 3)
    (havail : s.src.avail = b :: rest) : execReadHeaderBytes s = .next (s.collectByte b rest) := by
  have hk : s.hdrBytes < s.params.frameBufBytes := (h3.trans (by decide : 3 < 2881)).trans_le hbuf
  rw [execReadHeaderBytes_byte havail, if_pos hk, if_neg (by omega)]

/-! ### Placed words -/

theorem header_bytes_join (h : Word) :
    ((0#8 ++ h.extractLsb' 8 24 : Word).extractLsb' 0 24 ++ h.extractLsb' 0 8 : Word) = h :=
  calc ((0#8 ++ h.extractLsb' 8 24 : Word).extractLsb' 0 24 ++ h.extractLsb' 0 8 : Word)
    _ = h.extractLsb' 8 24 ++ h.extractLsb' 0 8 := congrArg (· ++ _) BitVec.extractLsb'_append_eq_right
    _ = h.extractLsb' 0 32 := BitVec.extractLsb'_append_extractLsb'_eq_extractLsb' rfl
    _ = h := BitVec.extractLsb'_eq_self

theorem decodeTableWord_header (w : Nat) :
    decodeTableWord 32 w = some (decodeHeader (HeaderFields.ofWord (BitVec.ofNat 32 w))) := by
  rw [decodeTableWord, if_pos rfl, wordOfStream_streamBytes, decode_hdr32_word]
  rfl

theorem decodeTableWord_crc {w : Nat} (h : w < 2 ^ 16) :
    decodeTableWord 16 w = some (.crcWord (BitVec.ofNat 16 w)) := by
  have hdecode : decode .crc16 w = .ok (.crcWord (BitVec.ofNat 16 w)) := decode_eq_ok_iff.2 ⟨h, rfl⟩
  rw [decodeTableWord, if_neg (by decide), if_pos rfl, Nat.mod_eq_of_lt h, hdecode]
  rfl

theorem decodeTableWord_ctrl {nbits : Nat} (h32 : nbits ≠ 32) (h16 : nbits ≠ 16) (w : Nat) :
    decodeTableWord nbits w = some (decodeCtrl (CtrlWrite.ofWord (BitVec.ofNat 32 w))) := by
  rw [decodeTableWord, if_neg h32, if_neg h16, wordOfBus_busBytes, decode_ctrlWrite_word]
  rfl

theorem step_placeHeader (hbuf : s.params.legal) (h : Word) :
    step (placeHeader s h) = exec (decodeHeader (HeaderFields.ofWord h)) { s with
      seq := .header, hdrBytes := 4, hdrWord := h, byteCount := s.byteCount + 1#32
      fb := s.fb.write 3 (h.extractLsb' 0 8), script := [] } := by
  have hstep : step (placeHeader s h) = execReadHeaderBytes (placeHeader s h) := nextStep_block rfl
  have hfourth := execReadHeaderBytes_fourth (s := placeHeader s h) (rest := s.src.avail) hbuf rfl rfl
  rw [hstep, hfourth, State.collectByte, markStart_later (by exact (by decide : 3 ≠ 0))]
  simp only [placeHeader, State.takeByte, header_bytes_join]

/-- The check word is read back from the two bytes written for it. -/
theorem placeCrcWord_bytes (hwf : s.fb.wf = true) (c : BitVec 16) :
    (placeCrcWord s c).fb.read 4 ++ (placeCrcWord s c).fb.read 5 = c := by
  have h4 : (placeCrcWord s c).fb.read 4 = c.extractLsb' 8 8 :=
    (Memory.read_write_other _ (Memory.write_wf 4 _ hwf) (by decide)).trans (Memory.read_write_same 4 _ hwf)
  have h5 : (placeCrcWord s c).fb.read 5 = c.extractLsb' 0 8 :=
    Memory.read_write_same 5 _ (Memory.write_wf 4 _ hwf)
  rw [h4, h5]
  exact (BitVec.extractLsb'_append_extractLsb'_eq_extractLsb' rfl).trans BitVec.extractLsb'_eq_self

theorem step_placeCrcWord (hbuf : s.params.legal) (hwf : s.fb.wf = true) (c : BitVec 16) :
    ∃ t, step (placeCrcWord s c) = .next t ∧ t.crcWord = c ∧ t.seq = .alloc := by
  have hpos : (placeCrcWord s c).flen.toNat ≤ (placeCrcWord s c).framePos := by
    change 6 ≤ (s.byteCount - (s.byteCount - 6)).toNat
    rw [sub_sub_cancel]
    decide
  have hfits : (placeCrcWord s c).flen.toNat ≤ (placeCrcWord s c).params.frameBufBytes :=
    (by decide : 6 ≤ 2881).trans hbuf
  have hstep : step (placeCrcWord s c) = execFetchFrame (placeCrcWord s c) := nextStep_block rfl
  refine ⟨_, hstep.trans ((execFetchFrame_end hpos).trans
    (finishFetch_protected rfl (fun e => by cases e) le_rfl hfits)), placeCrcWord_bytes hwf c, rfl⟩

theorem step_placeCtrlWrite (s : State) (v : Word) :
    step (placeCtrlWrite s v) = exec (decodeCtrl (CtrlWrite.ofWord v)) { s with script := [] } := by
  have hstep : step (placeCtrlWrite s v) = hostWrite 0 (busBytes v) { s with script := [] } :=
    step_event (s := placeCtrlWrite s v) rfl
  rw [hstep, hostWrite_ctrl rfl, wordOfBus_busBytes]

end Sys2Proof.Machine

namespace Sys2Proof
open Machine

/-- Settles O8, by the source's answer and the number of bytes collected. -/
theorem readHeaderByteResult : Obligations.ReadHeaderByteResult := by
  intro s hbuf _ start
  refine ⟨fun b rest havail => ?_, fun havail heos => ?_, execReadHeaderBytes_waiting⟩
  · rw [← collectByte_eq s b rest]
    refine ⟨fun h3 => execReadHeaderBytes_before_fourth hbuf h3 havail, fun h3 =>
      ⟨_, decode_hdr32_word _, execReadHeaderBytes_fourth hbuf h3 havail, ?_⟩⟩
    rw [← parseHeader_eq_exec]
    exact parseHeader_answers _ _
  · have hmark := markStart_frameStart s
    refine ⟨fun h0 => ?_, fun h0 => ?_⟩ <;> refine (execReadHeaderBytes_eos havail heos).trans ?_
    · rw [if_pos h0, s.markStart_eq, hmark]
    · rw [if_neg h0, markStart_later h0]
      rfl

/-- Settles O47: the placed bytes are taken, and the word they make is the one placed. -/
theorem placedWordRunsNext : Obligations.PlacedWordRunsNext := by
  refine ⟨fun s w i hbuf _ hi => ?_, fun s w hbuf hw => ⟨decodeTableWord_crc hw, fun hwf => ?_⟩,
    fun s nbits w i h32 h16 hi => ?_⟩
  · rw [decodeTableWord_header] at hi
    injection hi with hi
    have hbyte : (BitVec.ofNat 32 w).extractLsb' 0 8 = BitVec.ofNat 8 w := by
      apply BitVec.eq_of_toNat_eq
      simp
    rw [← hi, ← hbyte]
    exact step_placeHeader hbuf _
  · exact step_placeCrcWord hbuf hwf _
  · rw [decodeTableWord_ctrl h32 h16] at hi
    injection hi with hi
    rw [← hi, State.withFetchWord, placeWord, if_neg h32, if_neg h16]
    exact step_placeCtrlWrite s _

end Sys2Proof
end

section
/-! BYTE_COUNT against the bytes taken from the source (O52): a step of the block takes one byte at most and counts it,
and of the events outside only those of `State.nextClears` set BYTE_COUNT. -/
namespace Sys2Proof.Machine

variable {s t u : State}

/-! ### The block -/

/-- From `s` to `t` nothing was taken from the source, or one byte that was counted (40_bitstream_reader.md R91). -/
def CountsBytes (s t : State) : Prop :=
  (t.src = s.src ∧ t.byteCount = s.byteCount) ∨
    ∃ b, s.src.avail = b :: t.src.avail ∧ t.src.eos = s.src.eos ∧ t.byteCount = s.byteCount + 1#32

theorem CountsBytes.of_taken {b : Byte} {rest : List Byte} (havail : s.src.avail = b :: rest)
    (hsrc : t.src = { s.src with avail := rest }) (hcount : t.byteCount = s.byteCount + 1#32) : CountsBytes s t :=
  .inr ⟨b, hsrc ▸ havail, hsrc ▸ rfl, hcount⟩

theorem CountsBytes.trans_same (h : CountsBytes s u) (hsame : t.src = u.src ∧ t.byteCount = u.byteCount) :
    CountsBytes s t := by
  simpa only [CountsBytes, hsame.1, hsame.2] using h

theorem OnlyProgress.takes_nothing {o : Result} (h : OnlyProgress s o) (e : o = .next t) :
    t.src = s.src ∧ t.byteCount = s.byteCount :=
  ⟨(congrArg State.src (h t e) :), (congrArg State.byteCount (h t e) :)⟩

theorem parseHeader_takes_nothing {h : HeaderFields} (e : parseHeader h s = .next t) :
    t.src = s.src ∧ t.byteCount = s.byteCount := by
  obtain ⟨w, code, detail, -, rfl⟩ | ⟨-, rfl⟩ := parseHeader_cases e <;> exact ⟨rfl, rfl⟩

theorem headerStep_countsBytes (e : execReadHeaderBytes s = .next t) : CountsBytes s t := by
  cases havail : s.src.avail with
  | nil =>
    cases heos : s.src.eos with
    | false =>
      rw [execReadHeaderBytes_waiting havail heos] at e
      cases e
      exact .inl ⟨rfl, rfl⟩
    | true =>
      rw [execReadHeaderBytes_eos havail heos, s.markStart_eq] at e
      cases e
      split <;> exact .inl ⟨rfl, rfl⟩
  | cons b rest =>
    have hcollect : CountsBytes s (s.collectByte b rest) := by
      rw [collectByte_eq]
      exact .of_taken havail rfl rfl
    rw [execReadHeaderBytes_byte havail] at e
    obtain ⟨-, e⟩ | ⟨-, e⟩ := ite_eq_iff.1 e
    · obtain ⟨-, e⟩ | ⟨-, e⟩ := ite_eq_iff.1 e
      · exact hcollect.trans_same (parseHeader_takes_nothing e)
      · cases e
        exact hcollect
    · cases e

theorem fetchStep_countsBytes (e : execFetchFrame s = .next t) : CountsBytes s t := by
  by_cases hend : s.flen.toNat ≤ s.framePos
  · rw [execFetchFrame_end hend] at e
    exact .inl ((finishFetch_onlyProgress s).takes_nothing e)
  have hpos := not_le.1 hend
  cases havail : s.src.avail with
  | nil =>
    cases heos : s.src.eos with
    | false =>
      rw [execFetchFrame_waiting hpos havail heos] at e
      cases e
      exact .inl ⟨rfl, rfl⟩
    | true =>
      rw [execFetchFrame_eos hpos havail heos] at e
      cases e
      exact .inl ⟨rfl, rfl⟩
  | cons b rest =>
    have hfetch : CountsBytes s (s.fetchByte b rest) := .of_taken havail rfl rfl
    rw [execFetchFrame_byte hpos havail] at e
    obtain ⟨-, e⟩ | ⟨-, e⟩ := ite_eq_iff.1 e
    · obtain ⟨-, e⟩ | ⟨-, e⟩ := ite_eq_iff.1 e
      · exact hfetch.trans_same ((finishFetch_onlyProgress _).takes_nothing e)
      · cases e
        exact hfetch
    · cases e

theorem emitStep_takes_nothing (e : execEmit s = .next t) : t.src = s.src ∧ t.byteCount = s.byteCount := by
  unfold execEmit at e
  split at e
  · cases e
  · split at e <;> cases e
    · split <;> exact ⟨rfl, rfl⟩
    · exact ⟨rfl, rfl⟩

theorem blockStep_countsBytes (e : blockStep s = .next t) : CountsBytes s t := by
  cases hseq : s.seq
  case alloc | scfsi | scalefactors | samples =>
    exact .inl ((blockStep_onlyProgress (by simp [hseq])).takes_nothing e)
  all_goals simp only [blockStep, hseq] at e
  case idle | done | stopped | failed => cases e; exact .inl ⟨rfl, rfl⟩
  case awaitSync =>
    cases e
    unfold awaitSyncStep
    split <;> exact .inl ⟨rfl, rfl⟩
  case header => exact headerStep_countsBytes e
  case fetch => exact fetchStep_countsBytes e
  case emit => exact .inl (emitStep_takes_nothing e)

/-- The block's turn in the script is a step of the block. -/
theorem step_blockTurn (h : s.blockTurn) : step s = blockStep { s with script := s.script.tail } := by
  obtain hs | ⟨rest, hs⟩ := h
  · have hself : { s with script := s.script.tail } = s := by rw [hs, List.tail_nil, ← hs]
    rw [hself]
    exact nextStep_block hs
  · rw [step_event hs, hs]
    rfl

/-! ### The events outside -/

theorem hostRead_eq_next {off : Word} {n : Nat} (e : hostRead off n s = .next t) :
    t = { s with rdata := some (s.readReg off) } := by
  by_cases h : n = 4 ∧ off.toNat % 4 = 0
  · obtain ⟨rfl, hoff⟩ := h
    rw [hostRead_aligned hoff] at e
    cases e
    rfl
  · obtain ⟨r, hr⟩ := hostRead_refused (off := off) (n := n) (by tauto) s
    cases hr.symm.trans e

/-- A write that is answered is a command, or it leaves the block alone (10_state.md R16). -/
theorem hostWrite_eq_next {off : Word} {lanes : List Byte} (e : hostWrite off lanes s = .next t) :
    (off = 0 ∧ exec (decodeCtrl (CtrlWrite.ofWord (wordOfBus lanes))) s = .next t) ∨ (off ≠ 0 ∧ t = s) := by
  by_cases h : lanes.length = 4 ∧ off.toNat % 4 = 0
  · obtain ⟨hn, hoff⟩ := h
    by_cases h0 : off = 0
    · subst h0
      exact .inl ⟨rfl, hostWrite_ctrl hn s ▸ e⟩
    · rw [hostWrite_other hn hoff h0] at e
      cases e
      exact .inr ⟨h0, rfl⟩
  · obtain ⟨r, hr⟩ := hostWrite_refused (off := off) (lanes := lanes) (by tauto) s
    cases hr.symm.trans e

/-- The command is a soft reset, or a START that starts afresh (45_orchestrator.md R153, R155). -/
def State.ClearedBy (s : State) (i : Instr) : Prop :=
  ∃ v, i = .ctrlSoftReset v ∨ i = .ctrlStart v ∧ (s.seq = .idle ∨ s.seq = .done)

theorem nextClears_iff {e : EnvEvent} {rest : List EnvEvent} (h : s.script = e :: rest) :
    s.nextClears ↔ e = .hardReset ∨
      ∃ lanes, e = .csrWrite 0 lanes ∧ s.ClearedBy (decodeCtrl (CtrlWrite.ofWord (wordOfBus lanes))) := by
  simp only [State.nextClears, h, List.cons.injEq, decode_ctrlWrite_word, Except.ok.injEq]
  constructor
  · rintro ⟨_, ⟨he, -⟩ | ⟨lanes, v, ⟨he, -⟩, hv⟩⟩
    · exact .inl he
    · exact .inr ⟨lanes, he, v, hv⟩
  · rintro (he | ⟨lanes, he, v, hv⟩)
    · exact ⟨rest, .inl ⟨he, rfl⟩⟩
    · exact ⟨rest, .inr ⟨lanes, v, ⟨he, rfl⟩, hv⟩⟩

theorem nextClears_ctrlWrite {lanes : List Byte} {rest : List EnvEvent} (h : s.script = .csrWrite 0 lanes :: rest) :
    s.nextClears ↔ s.ClearedBy (decodeCtrl (CtrlWrite.ofWord (wordOfBus lanes))) := by
  simp [nextClears_iff h]

theorem decodeCtrl_cases (v : CtrlWrite) : decodeCtrl v = .ctrlSoftReset v ∨ decodeCtrl v = .ctrlStart v ∨
    decodeCtrl v = .ctrlStop v ∨ decodeCtrl v = .ctrlConfig v := by
  unfold decodeCtrl
  split_ifs <;> simp

theorem State.startCommand_byteCount_fresh (h : s.seq = .idle ∨ s.seq = .done) : s.startCommand.byteCount = 0 := by
  obtain h | h := h <;> simp only [State.startCommand, h] <;> rfl

theorem State.startCommand_byteCount_kept (h : ¬(s.seq = .idle ∨ s.seq = .done)) :
    s.startCommand.byteCount = s.byteCount := by
  unfold State.startCommand
  split
  · next hseq => exact absurd (.inl hseq) h
  · next hseq => exact absurd (.inr hseq) h
  all_goals rfl

/-- BYTE_COUNT is 0 after a step that clears the block, and kept by another. -/
def ByteCountCleared (clears : Prop) (s t : State) : Prop :=
  (clears → t.byteCount = 0) ∧ (¬clears → t.byteCount = s.byteCount)

theorem ByteCountCleared.of_kept {p : Prop} (hp : ¬p) (h : t.byteCount = s.byteCount) : ByteCountCleared p s t :=
  ⟨fun hp' => absurd hp' hp, fun _ => h⟩

theorem ByteCountCleared.of_cleared {p : Prop} (hp : p) (h : t.byteCount = 0) : ByteCountCleared p s t :=
  ⟨fun _ => h, fun hp' => absurd hp hp'⟩

theorem exec_decodeCtrl_byteCount {v : CtrlWrite} (e : exec (decodeCtrl v) s = .next t) :
    ByteCountCleared (s.ClearedBy (decodeCtrl v)) s t := by
  obtain hi | hi | hi | hi := decodeCtrl_cases v <;> rw [hi] at e ⊢ <;> cases e
  · exact .of_cleared ⟨v, .inl rfl⟩ rfl
  · have hstop (u : State) : (if v.stop = true then u.stopCommand else u).byteCount = u.byteCount := by
      split <;> rfl
    rw [ByteCountCleared, hstop]
    refine ⟨fun ⟨v', hv⟩ => ?_, fun h => ?_⟩
    · obtain hv | ⟨-, hseq⟩ := hv
      · cases hv
      · exact State.startCommand_byteCount_fresh (s := s.storeCtrl v) hseq
    · exact State.startCommand_byteCount_kept (s := s.storeCtrl v) fun hseq => h ⟨v, .inr ⟨rfl, hseq⟩⟩
  all_goals
    refine .of_kept ?_ rfl
    rintro ⟨v', hv | ⟨hv, -⟩⟩ <;> cases hv

theorem envStep_byteCount {e : EnvEvent} {rest : List EnvEvent} (hscript : s.script = e :: rest) (hne : e ≠ .block)
    (h : envStep e { s with script := rest } = .next t) : ByteCountCleared s.nextClears s t := by
  have hclears := nextClears_iff hscript
  cases e with
  | block => exact absurd rfl hne
  | hardReset => cases h; exact .of_cleared (hclears.2 (.inl rfl)) rfl
  | csrRead off n => exact .of_kept (by simp [hclears]) (hostRead_eq_next h ▸ rfl)
  | csrWrite off lanes =>
    obtain ⟨rfl, hexec⟩ | ⟨h0, rfl⟩ := hostWrite_eq_next h
    · rw [nextClears_ctrlWrite hscript]
      exact exec_decodeCtrl_byteCount (s := { s with script := rest }) hexec
    · exact .of_kept (by simpa [hclears] using fun hoff => absurd hoff h0) rfl
  | srcConnect | srcBytes | srcEos | sinkReady => cases h; exact .of_kept (by simp [hclears]) rfl

end Sys2Proof.Machine

namespace Sys2Proof
open Machine

/-- Settles O52: HEADER and FETCH take the only bytes, the clearing events are those of `nextClears`, and after FETCH
the invariant gives the number of bytes. -/
theorem byteCountCountsBytesTaken : Obligations.ByteCountCountsBytesTaken := by
  refine ⟨fun s t hturn h => ?_, fun s t e rest hscript hne h => ?_, fun s t hs _ _ h halloc => ?_⟩
  · rw [step_blockTurn hturn] at h
    exact blockStep_countsBytes (s := { s with script := s.script.tail }) h
  · rw [step_event hscript] at h
    exact envStep_byteCount hscript hne h
  · exact (step_inv hs h).allBytes (by rw [halloc]; rfl)

end Sys2Proof
end

section
/-! What the header classes do (41_header_parser.md R92 to R103): the record, INFO and `flen` of an accepted header
(O6), its frame length (O7), the rejecting classes (O5), and the CRC word (O13). -/
namespace Sys2Proof.Machine

/-! ### The record -/

/-- 41_header_parser.md R100. -/
theorem headerRecord_flen (sel : ChanSel) (raw : RawHeader) :
    (headerRecord sel raw).flen = if raw.layer = 0b11#2 then
        (12000 * (headerRecord sel raw).bitrate / (headerRecord sel raw).fs + raw.pad.toNat) * 4
      else 144000 * (headerRecord sel raw).bitrate / (headerRecord sel raw).fs + raw.pad.toNat :=
  if_congr beq_iff_eq rfl rfl

theorem headerRecord_l2tab (sel : ChanSel) (raw : RawHeader) :
    (headerRecord sel raw).l2tab = if raw.layer = 0b11#2 then none else
      some (selectL2Tab (raw.ver != 0b11#2) (headerRecord sel raw).nch raw.bri (headerRecord sel raw).fs) :=
  if_congr beq_iff_eq rfl rfl

theorem headerRecord_nslots (sel : ChanSel) (raw : RawHeader) :
    (headerRecord sel raw).nslots = if raw.layer = 0b11#2 then 12 else 36 :=
  if_congr beq_iff_eq rfl rfl

theorem l2Sblimit_le (tab : L2Tab) : l2Sblimit tab ≤ 30 := by cases tab <;> decide

theorem headerRecord_sblimit_le (sel : ChanSel) (raw : RawHeader) : (headerRecord sel raw).sblimit ≤ 32 := by
  change ((headerRecord sel raw).l2tab.map l2Sblimit).getD 32 ≤ 32
  cases (headerRecord sel raw).l2tab with
  | none => exact le_rfl
  | some tab => exact (l2Sblimit_le tab).trans (by decide)

theorem intensityBound_le (raw : RawHeader) (sblimit : Nat) : intensityBound raw sblimit ≤ sblimit := by
  unfold intensityBound
  split
  · exact Nat.min_le_right ..
  · exact le_rfl

/-! ### INFO and `flen` -/

theorem toNat_append_eq_mul_add {m n : Nat} (x : BitVec m) (y : BitVec n) :
    (x ++ y).toNat = x.toNat * 2 ^ n + y.toNat := by
  rw [BitVec.toNat_append, ← Nat.shiftLeft_add_eq_or_of_lt y.isLt, Nat.shiftLeft_eq]

/-- 10_state.md R20: the fields of INFO do not overlap when each fits its width. -/
theorem infoWord_toNat {r : HdrRecord} (hflen : r.flen < 2 ^ 16) (hsblimit : r.sblimit < 2 ^ 6)
    (hbound : r.bound < 2 ^ 6) (hnch : r.nch < 2 ^ 2) :
    (infoWord r).toNat = r.flen + r.sblimit * 2 ^ 16 + r.bound * 2 ^ 22 + r.nch * 2 ^ 28 := by
  simp only [infoWord, toNat_append_eq_mul_add, BitVec.toNat_ofNat, Nat.mod_eq_of_lt, hflen, hsblimit, hbound, hnch]
  omega

/-- Every field of an accepted header's record fits its place in INFO. -/
theorem headerRecord_infoWord {h : HeaderFields} (hacc : h.accepted = true) (sel : ChanSel) :
    let r := headerRecord sel h.raw
    (infoWord r).toNat = r.flen + r.sblimit * 2 ^ 16 + r.bound * 2 ^ 22 + r.nch * 2 ^ 28 := by
  intro r
  have hlegal : r.legal sel := headerRecord_legal hacc sel
  have hflen := hlegal.flen_bounds
  have hsblimit : r.sblimit ≤ 32 := headerRecord_sblimit_le sel h.raw
  have hbound : r.bound ≤ r.sblimit := intensityBound_le h.raw r.sblimit
  have hnch := hlegal.nch
  exact infoWord_toNat (by omega) (by omega) (by omega) (by omega)

theorem ofNat_headerRecord_flen {h : HeaderFields} (hacc : h.accepted = true) (sel : ChanSel) :
    (BitVec.ofNat 16 (headerRecord sel h.raw).flen).toNat = (headerRecord sel h.raw).flen := by
  have hflen := headerRecord_flen_bounds hacc sel
  exact Nat.mod_eq_of_lt (by omega)

/-! ### The accepting classes -/

theorem mem_acceptingClasses_iff {h : HeaderFields} {i : Instr} : i ∈ acceptingClasses h ↔
    i = .hdrMpeg1L1 h ∨ i = .hdrMpeg1L2 h ∨ i = .hdrMpeg2L1 h ∨ i = .hdrMpeg2L2 h ∨ i = .hdrMpeg25L1 h ∨
      i = .hdrMpeg25L2 h := by
  simp [acceptingClasses]

theorem HeaderFields.accepted_of_acceptedAs {h : HeaderFields} {ver layer : BitVec 2}
    (has : h.acceptedAs ver layer = true) : h.accepted = true := by
  obtain ⟨hbitrate, hsfi, -⟩ := HeaderFields.acceptedAs_iff.1 has
  simp [HeaderFields.accepted, hbitrate, hsfi]

/-- A well-formed operation of an accepting class has an accepted header. -/
theorem accepted_of_acceptingClass {h : HeaderFields} {i : Instr} (hi : i ∈ acceptingClasses h) (hwf : i.wf = true) :
    h.accepted = true := by
  obtain rfl | rfl | rfl | rfl | rfl | rfl := mem_acceptingClasses_iff.1 hi <;>
    exact HeaderFields.accepted_of_acceptedAs hwf

/-- The six accepting classes have one meaning (41_header_parser.md R92 step 7). -/
theorem exec_acceptingClass {h : HeaderFields} {i : Instr} (hi : i ∈ acceptingClasses h) (s : State) :
    exec i s = .next (s.acceptHeader h) := by
  obtain rfl | rfl | rfl | rfl | rfl | rfl := mem_acceptingClasses_iff.1 hi <;> rfl

end Sys2Proof.Machine

namespace Sys2Proof
open Machine

/-- Settles O6: the record is `headerRecord`, and its fields fit INFO and `flen`. -/
theorem acceptedHeaderWritesRecord : Obligations.AcceptedHeaderWritesRecord := by
  intro h i s hi hwf
  have hacc := accepted_of_acceptingClass hi hwf
  exact ⟨_, _, _, exec_acceptingClass hi s, rfl, rfl, rfl, rfl, headerRecord_flen _ h.raw, rfl, rfl,
    headerRecord_l2tab _ h.raw, rfl, rfl, headerRecord_nslots _ h.raw, ofNat_headerRecord_flen hacc _,
    headerRecord_infoWord hacc _⟩

/-- Settles O7: the ends are reached at MPEG-1 Layer I, 32 kbit/s and 48000 Hz, and at MPEG-2.5 Layer II, 160 kbit/s and
8000 Hz with a padding slot. -/
theorem frameLengthBounds : Obligations.FrameLengthBounds := by
  refine ⟨fun h sel hacc => ⟨headerRecord_flen sel h.raw, headerRecord_flen_bounds hacc sel⟩,
    ⟨HeaderFields.ofWord 0xFFFF14C0, ?_⟩, ⟨HeaderFields.ofWord 0xFFE5EA00, ?_⟩⟩ <;> decide

/-- Settles O5: each rejecting class raises its error after the write of HEADER, and a lost sync without it. -/
theorem rejectedHeaderEntersFailed : Obligations.RejectedHeaderEntersFailed :=
  fun _ _ => ⟨rfl, rfl, rfl, rfl, rfl, rfl, rfl⟩

/-- Settles O13: a field that the frame holds is taken. -/
theorem crcWordResult : Obligations.CrcWordResult :=
  fun _ _ h => execCrcWord_held h

end Sys2Proof
end

section
/-! Layer I fields: allocation codes (O19, O20), and scale factors and samples (O21). -/
namespace Sys2Proof.Machine

variable {s : State}

@[simp] theorem SubCtx.withL1Alloc_zero (c : SubCtx) :
    c.withL1Alloc 0#4 = { c with alloc := 0, lev := 0, cw := 0 } := rfl

theorem SubCtx.withL1Alloc_of_ne {a : BitVec 4} (ha : a ≠ 0#4) (c : SubCtx) :
    c.withL1Alloc a = { c with alloc := a, lev := 2 ^ (a.toNat + 1) - 1, cw := a.toNat + 1, grp := false } :=
  if_neg ha

/-! ### The fields, when the frame holds them -/

theorem execL1Alloc_held (sb : Fin 32) (ch : Fin 2) (a : BitVec 4) (h : s.frameHolds 4) :
    execL1Alloc sb ch a s = .next
      ({ s with bitpos := s.bitpos + 4, crc := crcAdd s.crc a.toNat 4 }.setSub ch sb ((s.sub ch sb).withL1Alloc a)) :=
  State.takeBits_held h

theorem execL1AllocCorrupt_held (sb : Fin 32) (ch : Fin 2) (h : s.frameHolds 4) :
    execL1AllocCorrupt sb ch s =
      let t := { s with bitpos := s.bitpos + 4, crc := crcAdd s.crc 15 4 }
      if s.cfg.strict then .next (t.raiseFatal .corruptAllocation 1)
      else .next ({ t with diagCorruptAlloc := diagCount s.diagCorruptAlloc }.setSub ch sb
        ((s.sub ch sb).withL1Alloc 14#4)) :=
  State.takeBits_held h

theorem execL1Scalefactor_held (sb : Fin 32) (ch : Fin 2) (x : BitVec 6) (h : s.frameHolds 6) :
    execL1Scalefactor sb ch x s = .next ({ s with bitpos := s.bitpos + 6 }.setSub ch sb
      { s.sub ch sb with sfx := (s.sub ch sb).sfx.set 0 x }) :=
  State.takeBits_held h

theorem execL1Sample_held (sb : Fin 32) (ch : Fin 2) (a : BitVec 4) (q : BitVec 16) (h : s.frameHolds (a.toNat + 1)) :
    execL1Sample sb ch a q s = .next ({ s with bitpos := s.bitpos + (a.toNat + 1) }.setSmp ch sb 0
      (l1DequantValue s.params.num q a)) :=
  State.takeBits_held h

theorem l1DequantValue_eq (d : NumDomain) (q : BitVec 16) {a : BitVec 4} (ha : a ≠ 0#4) :
    l1DequantValue d q a = d.add (d.mul (d.ofInt q.toNat) (d.ratio 2 (l1Levels a)))
      (d.ratio (-((l1Levels a : Int) - 1)) (l1Levels a)) := by
  rw [l1DequantValue, tableFactor, tableOffset, if_neg (by exact ha), if_neg (by exact ha), neg_sub]

end Sys2Proof.Machine

namespace Sys2Proof
open Machine

/-- Settles O19, by the two cases of the code. -/
theorem l1AllocationResult : Obligations.L1AllocationResult := by
  intro sb ch a s _ h
  refine (execL1Alloc_held sb ch a h).trans ?_
  split
  · next ha => rw [ha, SubCtx.withL1Alloc_zero]
  · next ha => rw [SubCtx.withL1Alloc_of_ne ha]

/-- Settles O20, by the two modes. -/
theorem l1CorruptAllocationResult : Obligations.L1CorruptAllocationResult :=
  fun sb ch _ h => ⟨fun hstrict => (execL1AllocCorrupt_held sb ch h).trans (if_pos hstrict),
    fun hlenient => (execL1AllocCorrupt_held sb ch h).trans (if_neg (by simp [hlenient]))⟩

/-- Settles O21: a dequantized code is written with the exact constants of its level count. -/
theorem l1FieldResults : Obligations.L1FieldResults := by
  refine ⟨fun sb ch x s => execL1Scalefactor_held sb ch x, fun sb ch a q s ha _ => ?_⟩
  intro n d y
  have hy : l1DequantValue d q a = y := l1DequantValue_eq d q ha
  rw [← hy]
  exact ⟨rfl, execL1Sample_held sb ch a q⟩

end Sys2Proof
end

section
/-! The puts of both layers, for every sample and part: Mono and IntensityStereo (O22), and Stereo (O29). -/
namespace Sys2Proof.Machine

variable {s : State}

/-- What the Mono put adds, if the subband is allocated (42_layer1_decode.md R111). -/
theorem State.putMono_eq (s : State) (sb : Fin 32) (k part : Fin 3) :
    s.putMono sb k part = if (s.sub 0 sb).alloc = 0#4 then s
      else s.addSample 0 sb (s.scaledSample (s.sub 0 sb) (s.sub 0 sb) k part) :=
  ite_not ..

/-- Where the two channels' samples of one subband go: an unallocated channel adds nothing, and a single output channel
is filter 0 (42_layer1_decode.md R112). -/
def State.stereoRouted (s : State) (sb : Fin 32) (y0 y1 : NumVal) : State :=
  match s.cfg.chansel with
  | .left => if (s.sub 0 sb).alloc = 0#4 then s else s.addSample 0 sb y0
  | .right => if (s.sub 1 sb).alloc = 0#4 then s else s.addSample 0 sb y1
  | .both =>
    let t := if (s.sub 0 sb).alloc = 0#4 then s else s.addSample 0 sb y0
    if (s.sub 1 sb).alloc = 0#4 then t else t.addSample 1 sb y1

theorem State.putStereo_eq (s : State) (sb : Fin 32) (k part : Fin 3) :
    s.putStereo sb k part = s.stereoRouted sb (s.scaledSample (s.sub 0 sb) (s.sub 0 sb) k part)
      (s.scaledSample (s.sub 1 sb) (s.sub 1 sb) k part) := by
  unfold State.putStereo State.stereoRouted
  cases s.cfg.chansel <;> simp

/-- Where one magnitude, scaled by each channel's own factor, goes (42_layer1_decode.md R113). -/
def State.intensityRouted (s : State) (sb : Fin 32) (y0 z1 : NumVal) : State :=
  if (s.sub 0 sb).alloc = 0#4 then s
  else match s.cfg.chansel with
    | .left => s.addSample 0 sb y0
    | .right => s.addSample 0 sb z1
    | .both => (s.addSample 0 sb y0).addSample 1 sb z1

theorem State.putIntensity_eq (s : State) (sb : Fin 32) (k part : Fin 3) :
    s.putIntensity sb k part = s.intensityRouted sb (s.scaledSample (s.sub 0 sb) (s.sub 0 sb) k part)
      (s.scaledSample (s.sub 0 sb) (s.sub 1 sb) k part) := by
  unfold State.putIntensity State.intensityRouted
  cases s.cfg.chansel <;> exact ite_not ..

theorem State.putL2_of_lt (put : Fin 3 → Fin 3 → State) (h : s.sn < 3) :
    s.putL2 put = .next (put ⟨s.sn, h⟩ (scalePart s.gn)) :=
  dif_pos h

end Sys2Proof.Machine

namespace Sys2Proof
open Machine

/-- Settles O22: the puts of sample 0 with part 0. -/
theorem l1PutResults : Obligations.L1PutResults :=
  fun sb s => ⟨congrArg Host.Outcome.next (s.putMono_eq sb 0 0),
    congrArg Host.Outcome.next (s.putIntensity_eq sb 0 0)⟩

/-- Settles O29: both layers route by the same put, Layer I sample 0 with part 0. -/
theorem stereoPutResults : Obligations.StereoPutResults :=
  fun sb s => ⟨congrArg Host.Outcome.next (s.putStereo_eq sb 0 0), fun h =>
    (State.putL2_of_lt _ h).trans (congrArg Host.Outcome.next (s.putStereo_eq sb ⟨s.sn, h⟩ (scalePart s.gn)))⟩

end Sys2Proof
end

section
/-! The end of a subband's allocation (O49). -/
namespace Sys2Proof.Machine

variable {s : State} {sb : Fin 32}

/-! ### The context file and `sbst` -/

theorem State.setSub_self (s : State) (ch : Fin 2) (sb : Fin 32) : s.setSub ch sb (s.sub ch sb) = s := by
  simp [State.setSub, State.sub]

@[simp] theorem State.sub_setSbst (s : State) (sb : Fin 32) (x : SubState) (ch : Fin 2) (sb' : Fin 32) :
    (s.setSbst sb x).sub ch sb' = s.sub ch sb' := rfl

theorem State.setSbst_same (s : State) (sb : Fin 32) (x : SubState) : (s.setSbst sb x).sbst[sb] = x := by
  simp

theorem State.setSbst_other (s : State) {sb sb' : Fin 32} (x : SubState) (h : sb' ≠ sb) :
    (s.setSbst sb x).sbst[sb'] = s.sbst[sb'] := by
  have hne : (sb : Nat) ≠ sb' := fun e => h (Fin.ext e.symm)
  simp [hne]

/-! ### What `closeAlloc` writes -/

/-- Channel 1's entry after the end of the allocation: from `bound` on in a two-channel frame with channel 0's codes. -/
def State.foldedEntry (s : State) (sb : Fin 32) : SubCtx :=
  if s.hdr.nch = 2 ∧ s.hdr.bound ≤ sb.val then
    { s.sub 1 sb with
      alloc := (s.sub 0 sb).alloc, lev := (s.sub 0 sb).lev, cw := (s.sub 0 sb).cw, grp := (s.sub 0 sb).grp }
  else s.sub 1 sb

/-- The subband's state after the end of its allocation. -/
def State.allocatedState (s : State) (sb : Fin 32) : SubState :=
  if (s.sub 0 sb).alloc = 0#4 ∧ (s.hdr.nch = 2 → (s.foldedEntry sb).alloc = 0#4) then .unalloc else .awaitSf

theorem all_channelsBelow {n : Nat} {p : Fin 2 → Bool} (hn : n = 1 ∨ n = 2) :
    (channelsBelow n).all p = true ↔ p 0 = true ∧ (n = 2 → p 1 = true) := by
  obtain rfl | rfl := hn <;> simp [channelsBelow, List.finRange_succ]

theorem closeAlloc_eq (hnch : s.hdr.nch = 1 ∨ s.hdr.nch = 2) (sb : Fin 32) :
    s.closeAlloc sb = (s.setSub 1 sb (s.foldedEntry sb)).setSbst sb (s.allocatedState sb) := by
  have hfold : (if s.hdr.bound ≤ sb.val ∧ s.hdr.nch = 2 then
      s.setSub 1 sb { s.sub 1 sb with
        alloc := (s.sub 0 sb).alloc, lev := (s.sub 0 sb).lev, cw := (s.sub 0 sb).cw, grp := (s.sub 0 sb).grp }
      else s) = s.setSub 1 sb (s.foldedEntry sb) := by
    rw [State.foldedEntry, if_congr and_comm rfl rfl]
    split
    · rfl
    · exact (s.setSub_self 1 sb).symm
  rw [State.closeAlloc, hfold, State.allocatedState]
  congr 1
  refine if_congr ?_ rfl rfl
  rw [State.setSub_hdr, all_channelsBelow hnch, State.sub_setSub_same,
    State.sub_setSub_other _ _ (.inl (by decide)), beq_iff_eq, beq_iff_eq]

theorem closeAlloc_sub_zero (hnch : s.hdr.nch = 1 ∨ s.hdr.nch = 2) (sb sb' : Fin 32) :
    (s.closeAlloc sb).sub 0 sb' = s.sub 0 sb' := by
  rw [closeAlloc_eq hnch, State.sub_setSbst, State.sub_setSub_other _ _ (.inl (by decide))]

theorem closeAlloc_sub_one (hnch : s.hdr.nch = 1 ∨ s.hdr.nch = 2) :
    (s.closeAlloc sb).sub 1 sb = s.foldedEntry sb := by
  rw [closeAlloc_eq hnch, State.sub_setSbst, State.sub_setSub_same]

theorem closeAlloc_sub_other (hnch : s.hdr.nch = 1 ∨ s.hdr.nch = 2) {sb' : Fin 32} (h : sb' ≠ sb) (ch : Fin 2) :
    (s.closeAlloc sb).sub ch sb' = s.sub ch sb' := by
  rw [closeAlloc_eq hnch, State.sub_setSbst, State.sub_setSub_other _ _ (.inr h)]

theorem closeAlloc_sbst_same (hnch : s.hdr.nch = 1 ∨ s.hdr.nch = 2) :
    (s.closeAlloc sb).sbst[sb] = s.allocatedState sb := by
  rw [closeAlloc_eq hnch, State.setSbst_same]

theorem closeAlloc_sbst_other (hnch : s.hdr.nch = 1 ∨ s.hdr.nch = 2) {sb' : Fin 32} (h : sb' ≠ sb) :
    (s.closeAlloc sb).sbst[sb'] = s.sbst[sb'] := by
  rw [closeAlloc_eq hnch, State.setSbst_other _ _ h]
  rfl

/-- A mono subband with code 0 ends unallocated. -/
theorem closeAlloc_sbst_unalloc (hnch : s.hdr.nch = 1) (h : (s.sub 0 sb).alloc = 0#4) :
    (s.closeAlloc sb).sbst[sb] = .unalloc :=
  (closeAlloc_sbst_same (.inl hnch)).trans (if_pos ⟨h, fun e => absurd (hnch.symm.trans e) (by decide)⟩)

/-- Nothing but the context file and `sbst` is written. -/
theorem closeAlloc_frame (hnch : s.hdr.nch = 1 ∨ s.hdr.nch = 2) (sb : Fin 32) :
    s.closeAlloc sb = { s with ctx := (s.closeAlloc sb).ctx, sbst := (s.closeAlloc sb).sbst } := by
  rw [closeAlloc_eq hnch]
  rfl

end Sys2Proof.Machine

namespace Sys2Proof
open Machine

/-- Settles O49, by what `closeAlloc` writes. -/
theorem foldedChannelCopied : Obligations.FoldedChannelCopied :=
  fun _ sb hnch => ⟨closeAlloc_sub_zero hnch sb sb, closeAlloc_sub_one hnch,
    fun ch _ h => closeAlloc_sub_other hnch h ch, closeAlloc_sbst_same hnch, fun _ h => closeAlloc_sbst_other hnch h,
    closeAlloc_frame hnch sb⟩

end Sys2Proof
end

section
/-! The ALLOC step of a Layer I mono frame whose allocation is all zeros (O50), one subband at a time. -/
namespace Sys2Proof.Machine

variable {s u : State}

/-! ### Loops and zero bits -/

/-- A loop in which body k takes the k-th of a sequence of properties to the next one. -/
theorem forEach_indexed {α : Type} {xs : List α} {body : α → State → Result} {P : Nat → State → Prop}
    (hbody : ∀ (k : Nat) (hk : k < xs.length) (u : State), P k u →
      ∃ v, body xs[k] u = .next v ∧ v.seq ≠ .failed ∧ P (k + 1) v)
    (hs : P 0 s) : ∃ t, forEach xs body s = .next t ∧ P xs.length t := by
  induction xs generalizing P s with
  | nil => exact ⟨s, rfl, hs⟩
  | cons x rest ih =>
    obtain ⟨v, hv, hlive, hP⟩ := hbody 0 (by simp) s hs
    obtain ⟨t, ht, hPt⟩ := ih (P := fun k => P (k + 1)) (fun k hk => hbody (k + 1) (Nat.succ_lt_succ hk)) hP
    refine ⟨t, ?_, hPt⟩
    rw [List.getElem_cons_zero] at hv
    rw [forEach, hv, andThen_next hlive, ht]

theorem State.peekFrom_eq_zero {p n : Nat} (h : ∀ j, j < n → s.frameBit (p + j) = false) : s.peekFrom p n = 0 := by
  induction n with
  | zero => rfl
  | succ n ih => rw [State.peekFrom, ih fun j hj => h j (by omega), h n (by omega)]; rfl

/-- A Layer I allocation field of zero bits leaves its channel unallocated. -/
theorem runField_l1Alloc_of_zero (sb : Fin 32) (ch : Fin 2) (h : s.frameHolds 4) (hzero : s.peekBits 4 = 0) :
    runField (.l1Alloc sb ch) s = .next
      ({ s with bitpos := s.bitpos + 4, crc := crcAdd s.crc 0 4 }.setSub ch sb
        { s.sub ch sb with alloc := 0, lev := 0, cw := 0 }) := by
  have hrun : runField (.l1Alloc sb ch) s = exec (.l1Alloc sb ch 0#4) s := by
    have hbits : s.peekBits (Format.l1Alloc sb ch).width = 0 := hzero
    rw [runField, hbits]
    rfl
  exact hrun.trans (execL1Alloc_held sb ch 0#4 h)

/-! ### The silent allocation -/

/-- The allocation of a mono frame lies ahead in 128 zero bits. -/
structure State.SilentAhead (s : State) : Prop where
  live : s.seq ≠ .failed
  mono : s.hdr.nch = 1
  held : s.frameHolds 128
  zero : ∀ p, p < 128 → s.frameBit (s.bitpos + p) = false

/-- From `s` to `u` the allocation codes of the first `k` subbands were read, and were all 0. -/
structure ReadsSilence (s : State) (k : Nat) (u : State) : Prop where
  frame : ∃ crc ctx sbst, u = { s with bitpos := s.bitpos + 4 * k, crc := crc, ctx := ctx, sbst := sbst }
  silent : ∀ sb : Fin 32, sb.val < k → (u.sub 0 sb).alloc = 0#4 ∧ u.sbst[sb] = .unalloc

theorem ReadsSilence.start (s : State) : ReadsSilence s 0 s :=
  ⟨⟨_, _, _, rfl⟩, fun _ h => absurd h (Nat.not_lt_zero _)⟩

variable {k : Nat}

theorem ReadsSilence.seq (h : ReadsSilence s k u) : u.seq = s.seq := by
  obtain ⟨crc, ctx, sbst, rfl⟩ := h.frame
  rfl

theorem ReadsSilence.hdr (h : ReadsSilence s k u) : u.hdr = s.hdr := by
  obtain ⟨crc, ctx, sbst, rfl⟩ := h.frame
  rfl

theorem ReadsSilence.frameHolds (h : ReadsSilence s k u) (hs : s.SilentAhead) (hk : k < 32) : u.frameHolds 4 := by
  obtain ⟨hbuf, hend⟩ := hs.held
  obtain ⟨crc, ctx, sbst, rfl⟩ := h.frame
  exact ⟨hbuf, (by omega : s.bitpos + 4 * k + 4 ≤ 8 * s.flen.toNat)⟩

theorem ReadsSilence.peekBits (h : ReadsSilence s k u) (hs : s.SilentAhead) (hk : k < 32) : u.peekBits 4 = 0 := by
  obtain ⟨crc, ctx, sbst, rfl⟩ := h.frame
  refine State.peekFrom_eq_zero fun j hj => ?_
  rw [add_assoc]
  exact hs.zero (4 * k + j) (by omega)

theorem ReadsSilence.allocChannels (h : ReadsSilence s k u) (hs : s.SilentAhead) (sb : Fin 32) :
    u.allocChannels sb = [0] := by
  rw [State.allocChannels, h.hdr, hs.mono, ite_self]
  rfl

/-- The code of the next subband is read into `w`, and the subband closed. -/
theorem ReadsSilence.close (h : ReadsSilence s k u) (hs : s.SilentAhead) (hk : k < 32) {crc : BitVec 16} {c : SubCtx}
    {w : State} (hw : w = State.setSub { u with bitpos := u.bitpos + 4, crc := crc } 0 ⟨k, hk⟩ c)
    (hc : c.alloc = 0#4) : ReadsSilence s (k + 1) (w.closeAlloc ⟨k, hk⟩) := by
  have hwhdr : w.hdr = s.hdr := (congrArg State.hdr hw).trans h.hdr
  have hnch : w.hdr.nch = 1 := hwhdr ▸ hs.mono
  refine ⟨?_, fun sb hsb => ?_⟩
  · obtain ⟨_, _, _, rfl⟩ := h.frame
    subst hw
    exact ⟨_, _, _, closeAlloc_frame (.inl hnch) ⟨k, hk⟩⟩
  · rw [closeAlloc_sub_zero (.inl hnch)]
    by_cases hlast : sb = ⟨k, hk⟩
    · have hzero : (w.sub 0 ⟨k, hk⟩).alloc = 0#4 := by rw [hw, State.sub_setSub_same, hc]
      subst hlast
      exact ⟨hzero, closeAlloc_sbst_unalloc hnch hzero⟩
    · have hne : sb.val ≠ k := fun e => hlast (Fin.ext e)
      rw [closeAlloc_sbst_other (.inl hnch) hlast, hw, State.sub_setSub_other _ _ (.inr hlast)]
      exact h.silent sb (by omega)

/-- The allocation of the first subband not read yet. -/
theorem ReadsSilence.next (h : ReadsSilence s k u) (hs : s.SilentAhead) (hk : k < 32) :
    ∃ v, andThen (forEach (u.allocChannels ⟨k, hk⟩) (fun ch => runField (.l1Alloc ⟨k, hk⟩ ch)) u)
      (fun w => .next (w.closeAlloc ⟨k, hk⟩)) = .next v ∧ v.seq ≠ .failed ∧ ReadsSilence s (k + 1) v := by
  have hlive : u.seq ≠ .failed := h.seq ▸ hs.live
  have hclosed := h.close hs hk (crc := crcAdd u.crc 0 4)
    (c := { u.sub 0 ⟨k, hk⟩ with alloc := 0, lev := 0, cw := 0 }) rfl rfl
  refine ⟨_, ?_, hclosed.seq ▸ hs.live, hclosed⟩
  rw [h.allocChannels hs, forEach_one, runField_l1Alloc_of_zero _ _ (h.frameHolds hs hk) (h.peekBits hs hk)]
  exact andThen_next hlive

theorem readAllocations_of_silentAhead (hs : s.SilentAhead) :
    ∃ u, readAllocations 32 .l1Alloc s = .next u ∧ ReadsSilence s 32 u := by
  have hall : subbandsIn 0 32 = List.finRange 32 := by simp [subbandsIn]
  unfold readAllocations
  rw [hall]
  refine forEach_indexed (xs := List.finRange 32) (P := ReadsSilence s) (fun k hk u h => ?_) (.start s)
  rw [List.getElem_finRange]
  exact h.next hs (by simpa using hk)

/-! ### The ALLOC step -/

theorem allocStep_layerI (h : s.hdr.raw.layer = 0b11#2) : allocStep s = l1AllocStep s := by
  simp [allocStep, State.isLayerI, h]

theorem execCrcCheck_unprotected (h : s.hdr.raw.prot = 1#1) : exec .crcCheck s = .next s :=
  (crcCheckResult s).1 (.inl h)

theorem l1AllocStep_of_silentAhead (hs : s.SilentAhead) (hprot : s.hdr.raw.prot = 1#1) :
    ∃ u, ReadsSilence s 32 u ∧ l1AllocStep s = .next { u with seq := .scalefactors } := by
  obtain ⟨u, hread, hu⟩ := readAllocations_of_silentAhead hs
  have hlive : u.seq ≠ .failed := hu.seq ▸ hs.live
  have huprot : u.hdr.raw.prot = 1#1 := hu.hdr ▸ hprot
  refine ⟨u, hu, ?_⟩
  rw [l1AllocStep, hread, andThen_next hlive, execCrcCheck_unprotected huprot, andThen_next hlive]

end Sys2Proof.Machine

namespace Sys2Proof
open Machine

/-- Settles O50: each subband's code is read as 0 and closed as UNALLOC, and the CRC is not checked. -/
theorem silentLayerIFrameAllocatesNothing : Obligations.SilentLayerIFrameAllocatesNothing := by
  intro s hscript hseq hlayer hprot hnch _ hheld hzero
  have hs : s.SilentAhead := ⟨by simp [hseq], hnch, hheld, hzero⟩
  obtain ⟨u, hu, hstep⟩ := l1AllocStep_of_silentAhead hs hprot
  have hblock : blockStep s = allocStep s := by rw [blockStep, hseq]
  refine ⟨_, (nextStep_block hscript).trans (hblock.trans ((allocStep_layerI hlayer).trans hstep)), rfl, ?_⟩
  have hsilent (sb : Fin 32) := hu.silent sb sb.isLt
  obtain ⟨crc, ctx, sbst, rfl⟩ := hu.frame
  exact ⟨rfl, hsilent, rfl, rfl, rfl⟩

end Sys2Proof
end

section
/-! Layer II fields and puts: allocation codes (O23), grouped and ungrouped triplets (O26, O27), and the Mono and
IntensityStereo puts (O28). -/
namespace Sys2Proof.Machine

variable {s : State}

/-! ### Allocation codes -/

/-- A code whose level count is a row of the class table stores that row. -/
theorem SubCtx.withL2Alloc_of_qClass {tab : L2Tab} {sb : Fin 32} {a : BitVec 4} {q : QClass} (ha : a ≠ 0#4)
    (hlev : levels tab sb a.toNat = q.n) (hq : qClass? q.n = some q) (c : SubCtx) :
    c.withL2Alloc tab sb a = { c with alloc := a, lev := q.n, cw := q.cw, grp := q.grouped } := by
  simp [SubCtx.withL2Alloc, ha, hlev, codeWidth, isGrouped, hq]

/-- Every number of levels in an allocation table has a row of the class table (30_encoding.md R76). -/
theorem exists_qClass_of_mem_l2Row {tab : L2Tab} {sb n : Nat} (h : n ∈ (l2Row tab sb).2) :
    ∃ q ∈ qClasses, q.n = n ∧ qClass? n = some q :=
  (qClass?_cases n).resolve_right fun ⟨hnone, _⟩ => codeWidth_ne_zero_of_mem h (by simp [codeWidth, hnone])

theorem execL2Alloc_held (tab : L2Tab) (sb : Fin 32) (ch : Fin 2) (a : BitVec 4) (h : s.frameHolds (nbal tab sb)) :
    execL2Alloc tab sb ch a s = .next
      ({ s with bitpos := s.bitpos + nbal tab sb, crc := crcAdd s.crc a.toNat (nbal tab sb) }.setSub ch sb
        ((s.sub ch sb).withL2Alloc tab sb a)) :=
  State.takeBits_held h

/-! ### Grouped codes -/

/-- The digits of a grouped code, least significant first (30_encoding.md R75). -/
theorem grouped_digits {n v0 v1 v2 : Nat} (h0 : v0 < n) (h1 : v1 < n) (h2 : v2 < n) :
    let c := v0 + n * v1 + n ^ 2 * v2
    c % n = v0 ∧ c / n % n = v1 ∧ c / n ^ 2 % n = v2 := by
  intro c
  have hc : c = v0 + n * (v1 + n * v2) := by ring
  have hn : 0 < n := by omega
  have hdiv : c / n = v1 + n * v2 := by rw [hc, Nat.add_mul_div_left _ _ hn, Nat.div_eq_of_lt h0, zero_add]
  have hdiv2 : c / n ^ 2 = v2 := by
    rw [pow_two, ← Nat.div_div_eq_div_mul, hdiv, Nat.add_mul_div_left _ _ hn, Nat.div_eq_of_lt h1, zero_add]
  refine ⟨?_, ?_, ?_⟩
  · rw [hc, Nat.add_mul_mod_self_left, Nat.mod_eq_of_lt h0]
  · rw [hdiv, Nat.add_mul_mod_self_left, Nat.mod_eq_of_lt h1]
  · rw [hdiv2, Nat.mod_eq_of_lt h2]

theorem State.storeTriplet_of_digits (s : State) (sb : Fin 32) (ch : Fin 2) {n c v0 v1 v2 : Nat} (h0 : v0 < n)
    (h1 : v1 < n) (h2 : v2 < n) (hc : c = v0 + n * v1 + n ^ 2 * v2) :
    s.storeTriplet sb ch n c = s.setSub ch sb { s.sub ch sb with
      smp := #v[rq2Value s.params.num v0 n, rq2Value s.params.num v1 n, rq2Value s.params.num v2 n] } := by
  obtain ⟨hd0, hd1, hd2⟩ := grouped_digits h0 h1 h2
  rw [State.storeTriplet, hc, hd0, hd1, hd2]

/-- The largest grouped code has every digit `n - 1` (43_layer2_decode.md R124). -/
theorem cube_sub_one {n : Nat} (hn : 0 < n) : n ^ 3 - 1 = n - 1 + n * (n - 1) + n ^ 2 * (n - 1) := by
  obtain ⟨m, rfl⟩ := Nat.exists_eq_add_of_lt hn
  rw [zero_add, Nat.add_sub_cancel]
  exact Nat.sub_eq_of_eq_add (by ring)

theorem groupedLevels_pos {n : Nat} (h : groupedLevels n = true) : 0 < n :=
  Nat.pos_of_ne_zero fun h0 => absurd (h0 ▸ h) (by decide)

theorem execL2Grouped_held (sb : Fin 32) (ch : Fin 2) (n : Nat) (c : BitVec 16) (h : s.frameHolds (codeWidth n)) :
    execL2Grouped sb ch n c s =
      .next (State.storeTriplet { s with bitpos := s.bitpos + codeWidth n } sb ch n c.toNat) :=
  State.takeBits_held h

theorem execL2GroupedOutOfRange_held (sb : Fin 32) (ch : Fin 2) (n : Nat) (c : BitVec 16)
    (h : s.frameHolds (codeWidth n)) : execL2GroupedOutOfRange sb ch n c s = .next (State.storeTriplet
      { s with bitpos := s.bitpos + codeWidth n, diagBadGroup := diagCount s.diagBadGroup } sb ch n (n ^ 3 - 1)) :=
  State.takeBits_held h

/-! ### Ungrouped codes -/

theorem State.setSub_setSub (s : State) (ch : Fin 2) (sb : Fin 32) (c d : SubCtx) :
    (s.setSub ch sb c).setSub ch sb d = s.setSub ch sb d := by
  simp [State.setSub]

theorem set_zero_one_two {α : Type} (v : Vector α 3) (x y z : α) : ((v.set 0 x).set 1 y).set 2 z = #v[x, y, z] := by
  ext i hi
  interval_cases i <;> simp

/-- The three elements of a triplet stored one after the other. -/
theorem State.setSmp_three (s : State) (ch : Fin 2) (sb : Fin 32) (x y z : NumVal) :
    ((s.setSmp ch sb 0 x).setSmp ch sb 1 y).setSmp ch sb 2 z =
      s.setSub ch sb { s.sub ch sb with smp := #v[x, y, z] } := by
  simp only [State.setSmp, State.sub_setSub_same, State.setSub_setSub]
  rw [← set_zero_one_two (s.sub ch sb).smp]
  rfl

theorem execL2Ungrouped_held (sb : Fin 32) (ch : Fin 2) (n : Nat) (v0 v1 v2 : BitVec 16)
    (h : s.frameHolds (3 * codeWidth n)) :
    execL2Ungrouped sb ch n v0 v1 v2 s = .next ((({ s with bitpos := s.bitpos + 3 * codeWidth n }.setSmp ch sb 0
      (rq2Value s.params.num v0.toNat n)).setSmp ch sb 1 (rq2Value s.params.num v1.toNat n)).setSmp ch sb 2
      (rq2Value s.params.num v2.toNat n)) := by
  obtain ⟨hbuf, hend⟩ := h
  have hpos : s.bitpos + 3 * codeWidth n = s.bitpos + codeWidth n + codeWidth n + codeWidth n := by ring
  rw [hpos] at hend ⊢
  have htwo : s.bitpos + codeWidth n + codeWidth n ≤ 8 * s.flen.toNat := (Nat.le_add_right ..).trans hend
  rw [execL2Ungrouped, State.takeBits_held, State.takeBits_held, State.takeBits_held]
  · rfl
  · exact ⟨hbuf, hend⟩
  · exact ⟨hbuf, htwo⟩
  · exact ⟨hbuf, (Nat.le_add_right ..).trans htwo⟩

end Sys2Proof.Machine

namespace Sys2Proof
open Machine

/-- Settles O23: a table's level counts all have a row of the class table, and each nonzero code has a level count. -/
theorem l2AllocationResult : Obligations.L2AllocationResult := by
  refine ⟨fun tab sb ch a s h => ?_, fun tab sb a hsb hpos hlt => ?_⟩
  · have hexec := execL2Alloc_held tab sb ch a h
    refine ⟨fun ha => ?_, fun k n hk hn => ?_⟩
    · subst ha
      exact hexec
    · obtain ⟨q, hq, rfl, hclass⟩ := exists_qClass_of_mem_l2Row (List.mem_of_getElem? hn)
      have ha : a ≠ 0#4 := fun h0 => by simp [h0] at hk
      have hlev : levels tab sb a.toNat = q.n := by simp [levels, hk, hn]
      refine ⟨q, hq, rfl, hexec.trans ?_⟩
      rw [SubCtx.withL2Alloc_of_qClass ha hlev hclass]
  · have hlen : a - 1 < (l2Row tab sb).2.length := by
      rw [two_pow_nbal hsb] at hlt
      omega
    obtain ⟨q, hq, hn, -⟩ := exists_qClass_of_mem_l2Row (List.getElem_mem hlen)
    exact ⟨q, hq, hn ▸ List.getElem?_eq_getElem hlen⟩

/-- Settles O26: a code in range has the given digits, and one out of range is read as the code of three digits
`n - 1`. -/
theorem l2GroupedResults : Obligations.L2GroupedResults := by
  intro sb ch n c s hn h
  refine ⟨fun v0 v1 v2 h0 h1 h2 hc => ?_, fun _ => ?_⟩
  · exact (execL2Grouped_held sb ch n c h).trans
      (congrArg Host.Outcome.next (State.storeTriplet_of_digits _ sb ch h0 h1 h2 hc))
  · have hlast : n - 1 < n := Nat.sub_one_lt (groupedLevels_pos hn).ne'
    exact (execL2GroupedOutOfRange_held sb ch n c h).trans (congrArg Host.Outcome.next
      (State.storeTriplet_of_digits _ sb ch hlast hlast hlast (cube_sub_one (groupedLevels_pos hn))))

/-- Settles O27: the three codes are read and stored one after the other. -/
theorem l2UngroupedResult : Obligations.L2UngroupedResult :=
  fun sb ch n v0 v1 v2 _ _ h => (execL2Ungrouped_held sb ch n v0 v1 v2 h).trans
    (congrArg Host.Outcome.next (State.setSmp_three ..))

/-- Settles O28: the puts of O22 with sample `sn` and the part of triplet `gn`. -/
theorem l2PutResults : Obligations.L2PutResults := fun sb s h =>
  ⟨(State.putL2_of_lt _ h).trans (congrArg Host.Outcome.next (s.putMono_eq sb ⟨s.sn, h⟩ (scalePart s.gn))),
    (State.putL2_of_lt _ h).trans (congrArg Host.Outcome.next (s.putIntensity_eq sb ⟨s.sn, h⟩ (scalePart s.gn)))⟩

end Sys2Proof
end

section
/-! Requantization (O25): `x` is a dyadic number of so few bits that binary32 holds it exactly. -/
namespace Sys2Proof.Machine

/-! ### Exact binary32 values -/

/-- A 24-bit multiple of a power of two below the overflow has a finite pattern. -/
theorem F32.exists_patternMag_eq {m e : Nat} (hm : m < 2 ^ 24) (he : e ≤ 253) :
    ∃ z < 0x7F800000, F32.patternMag z = m * 2 ^ e := by
  let sh := Nat.log2 (m * 2 ^ e) - 23
  obtain ⟨hlt, hnorm⟩ : m * 2 ^ e / 2 ^ sh < 2 ^ 24 ∧ (sh = 0 ∨ 2 ^ 23 ≤ m * 2 ^ e / 2 ^ sh) := by
    simpa [sh] using F32.mantissa_bounds (m * 2 ^ e) 1
  have hsh : sh ≤ e := by
    by_contra hlarge
    have hbig : 2 ^ 23 * 2 ^ sh ≤ m * 2 ^ e :=
      (Nat.le_div_iff_mul_le (by positivity)).mp (hnorm.resolve_left (by omega))
    have hsmall : m * 2 ^ e < 2 ^ 24 * 2 ^ e := Nat.mul_lt_mul_of_pos_right hm (by positivity)
    have hpow : 2 ^ (e + 1) ≤ 2 ^ sh := Nat.pow_le_pow_right (by decide) (by omega)
    omega
  have hval : F32.patternMag (sh * 2 ^ 23 + m * 2 ^ e / 2 ^ sh) = m * 2 ^ e := by
    rw [F32.patternMag_eq_mul hlt.le hnorm, Nat.div_mul_cancel ((Nat.pow_dvd_pow 2 hsh).mul_left m)]
  have hinf : F32.patternMag 0x7F800000 = 2 ^ 24 * 2 ^ 253 := rfl
  refine ⟨_, F32.patternMag_strictMono.lt_iff_lt.mp ?_, hval⟩
  rw [hval, hinf]
  exact Nat.mul_lt_mul_of_lt_of_le hm (Nat.pow_le_pow_right (by decide) he) (by positivity)

/-- The magnitude of a finite pattern is narrowed to that pattern. -/
theorem F32.roundMag_patternMag {q z : Nat} (hq : 0 < q) (hz : z < 0x7F800000) :
    F32.roundMag (F32.patternMag z * q) q = z := by
  obtain ⟨n, hlow, hhigh, hcases⟩ := F32.roundMag_cases hq (p := F32.patternMag z * q)
  have hle : n ≤ z := F32.patternMag_strictMono.le_iff_le.mp (Nat.le_of_mul_le_mul_right hlow hq)
  have hlt : z < n + 1 := F32.patternMag_strictMono.lt_iff_lt.mp (Nat.lt_of_mul_lt_mul_right hhigh)
  obtain rfl : n = z := by omega
  rw [F32.RoundsUp, add_mul] at hcases
  omega

theorem F32.signBit_withSign (neg : Bool) (z : Nat) : F32.signBit (F32.withSign neg z) = neg :=
  BitVec.msb_append.trans (by simp)

theorem F32.toNat_withSign (neg : Bool) {z : Nat} (hz : z < 2 ^ 31) :
    (F32.withSign neg z).toNat = neg.toNat * 2 ^ 31 + z := by
  rw [F32.withSign, BitVec.toNat_append, ← Nat.shiftLeft_add_eq_or_of_lt (BitVec.isLt _), Nat.shiftLeft_eq,
    BitVec.toNat_ofBool, toNat_ofNat_of_lt hz]

theorem F32.expField_withSign (neg : Bool) {z : Nat} (hz : z < 2 ^ 31) :
    F32.expField (F32.withSign neg z) = z / 2 ^ 23 := by
  rw [F32.expField, BitVec.extractLsb'_toNat, F32.toNat_withSign neg hz, Nat.shiftRight_eq_div_pow]
  omega

theorem F32.fracField_withSign (neg : Bool) {z : Nat} (hz : z < 2 ^ 31) :
    F32.fracField (F32.withSign neg z) = z % 2 ^ 23 := by
  rw [F32.fracField, BitVec.extractLsb'_toNat, F32.toNat_withSign neg hz, Nat.shiftRight_eq_div_pow]
  omega

theorem F32.scaled_withSign (neg : Bool) {z : Nat} (hz : z < 2 ^ 31) :
    F32.scaled (F32.withSign neg z) = if neg then -(F32.patternMag z : Int) else F32.patternMag z := by
  simp only [F32.scaled, F32.signBit_withSign, F32.mag, F32.expField_withSign neg hz, F32.fracField_withSign neg hz,
    F32.patternMag]

theorem F32.isFinite_withSign (neg : Bool) {z : Nat} (hz : z < 0x7F800000) :
    F32.isFinite (F32.withSign neg z) = true := by
  rw [F32.isFinite, F32.expField_withSign neg (by omega), bne_iff_ne]
  omega

/-- A dyadic number of 24 bits is a binary32 value. -/
theorem F32.ofRat_dyadic {num : Int} {nb : Nat} (hnum : num.natAbs < 2 ^ 24) (hnb : nb ≤ 149) :
    let x := F32.ofRat (num < 0) num.natAbs (2 ^ nb)
    F32.isFinite x = true ∧ F32.scaled x * 2 ^ nb = num * 2 ^ 149 := by
  intro x
  obtain ⟨z, hz, hmag⟩ := F32.exists_patternMag_eq (e := 149 - nb) hnum (by omega)
  have hunits : num.natAbs * 2 ^ 149 = F32.patternMag z * 2 ^ nb := by
    rw [hmag, mul_assoc, ← pow_add, Nat.sub_add_cancel hnb]
  have hx : x = F32.withSign (num < 0) z := by
    simp only [x, F32.ofRat]
    rw [hunits, F32.roundMag_patternMag (by positivity) hz]
  refine ⟨hx ▸ F32.isFinite_withSign _ hz, ?_⟩
  have hscaled : (num.natAbs : Int) * 2 ^ 149 = F32.patternMag z * 2 ^ nb := mod_cast hunits
  rw [hx, F32.scaled_withSign _ (by omega)]
  obtain hneg | hpos := lt_or_ge num 0
  · rw [Int.ofNat_natAbs_of_nonpos hneg.le] at hscaled
    rw [decide_eq_true hneg, if_pos rfl]
    linarith
  · rw [Int.natAbs_of_nonneg hpos] at hscaled
    rw [decide_eq_false hpos.not_gt, if_neg (by decide), hscaled]

/-! ### The classes -/

theorem qClass?_of_mem {q : QClass} (h : q ∈ qClasses) : qClass? q.n = some q := by
  revert q
  decide

theorem rq2Value_of_mem {q : QClass} (h : q ∈ qClasses) (d : NumDomain) (v : Nat) :
    rq2Value d v q.n = d.mul (d.ratio (2 ^ q.nb) q.n)
      (d.ratio (2 * (v : Int) - 2 ^ q.nb + 2 ^ (q.nb - q.dExp)) (2 ^ q.nb)) := by
  simp [rq2Value, rq2X, sampleBits, dExponent, qClass?_of_mem h]

/-- The numerator of `x` over 2^nb fits the 24 bits of a binary32 value. -/
theorem rq2_numerator_lt {q : QClass} (h : q ∈ qClasses) {v : Nat} (hv : v < 2 ^ q.nb) :
    (2 * (v : Int) - 2 ^ q.nb + 2 ^ (q.nb - q.dExp)).natAbs < 2 ^ 24 := by
  have hnb : q.nb ≤ 16 := (by decide : ∀ q ∈ qClasses, q.nb ≤ 16) q h
  have hpow : 2 ^ q.nb ≤ 2 ^ 16 := Nat.pow_le_pow_right (by decide) hnb
  have hpow' : 2 ^ (q.nb - q.dExp) ≤ 2 ^ 16 := Nat.pow_le_pow_right (by decide) (by omega)
  have hpos : (0 : Int) ≤ 2 ^ (q.nb - q.dExp) := by positivity
  zify at hv hpow hpow' ⊢
  rw [abs_lt]
  omega

end Sys2Proof.Machine

namespace Sys2Proof
open Machine

/-- Settles O25: the operation stores `rq2Value` with the row of the class, and `x` is a dyadic number of 24 bits. -/
theorem requantizationResult : Obligations.RequantizationResult := by
  intro sb ch k v q s hq hv d num x
  have hnb : q.nb ≤ 149 := (by decide : ∀ q ∈ qClasses, q.nb ≤ 149) q hq
  refine ⟨fun hd => ?_, ?_⟩
  · have hx : F32.ofCode x = F32.ofRat (num < 0) num.natAbs (2 ^ q.nb) := by
      simp only [x, hd, ofCode_binary32_ratio]
    rw [hx]
    exact F32.ofRat_dyadic (rq2_numerator_lt hq hv) hnb
  · exact congrArg (fun y => Host.Outcome.next (s.setSmp ch sb k y)) (rq2Value_of_mem hq d v.toNat)

end Sys2Proof
end

section
/-! The operations of the synthesis filter: the sums of SynthStep as chains of partial sums, U by its two halves, the
32 beats of a slot (44_synthesis_filter.md R134), and the stored samples of ADD_SAMPLE and CONVERT (R132, R140). -/
namespace Sys2Proof.Machine

/-! ### Sums in their order -/

/-- A fold over the positive indices as the sequence of its partial results. -/
theorem exists_partials_of_foldl {β : Type} {n : Nat} (g : β → Fin (n + 1) → β) (x : β) :
    ∃ acc : Nat → β, acc 0 = x ∧ (∀ (k : Nat) (hk : k < n), acc (k + 1) = g (acc k) ⟨k + 1, by omega⟩) ∧
      (List.finRange (n + 1)).tail.foldl g x = acc n := by
  have hlen : (List.finRange (n + 1)).tail.length = n := by simp
  refine ⟨fun k => ((List.finRange (n + 1)).tail.take k).foldl g x, rfl, fun k hk => ?_, ?_⟩
  · have hget : (List.finRange (n + 1)).tail[k]? = some ⟨k + 1, by omega⟩ := by
      rw [List.getElem?_eq_getElem (by omega)]
      simp
    simp only [List.take_add_one, hget, Option.toList_some, List.foldl_append, List.foldl_cons, List.foldl_nil]
  · simp only [List.take_of_length_le hlen.le]

/-- An entry of the matrixed vector is its 32 products added one after the other (R134 step 2). -/
theorem matrixRow_partials (d : NumDomain) (sIn : Vector NumVal 32) (i : Nat) : ∃ acc : Nat → NumVal,
    acc 0 = d.mul (synthMatrix d i 0) sIn[0] ∧
    (∀ (k : Nat) (hk : k < 31), acc (k + 1) = d.add (acc k) (d.mul (synthMatrix d i (k + 1)) sIn[k + 1])) ∧
    matrixRow d sIn i = acc 31 :=
  exists_partials_of_foldl (fun acc k => d.add acc (d.mul (synthMatrix d i k.val) sIn[k])) _

/-- An output is its 16 taps added one after the other (R134 step 5). -/
theorem filterOut_partials (d : NumDomain) (v : Vector NumVal 1024) (j : Fin 32) : ∃ y : Nat → NumVal,
    y 0 = windowed d v ⟨j, by omega⟩ ∧
    (∀ (i : Nat) (hi : i < 15), y (i + 1) = d.add (y i) (windowed d v ⟨j + 32 * (i + 1), by omega⟩)) ∧
    filterOut d v j = y 15 :=
  exists_partials_of_foldl (fun y i => d.add y (windowed d v ⟨j.val + 32 * i.val, by omega⟩)) _

/-- Tap i of output j looks at entry j, or for odd i at entry 32 + j, of the history's vector i (R134 step 3). -/
theorem buildU_tap (v : Vector NumVal 1024) {i j n m : Nat} (hi : i < 16) (hj : j < 32) (hn : n = j + 32 * i)
    (hm : m = 64 * i + (j + 32 * (i % 2))) : buildU v ⟨n, by omega⟩ = v[m]'(by omega) := by
  obtain heven | hodd := Nat.mod_two_eq_zero_or_one i
  · rw [buildU, if_pos (by dsimp only; omega)]
    congr 1
    dsimp only
    omega
  · rw [buildU, if_neg (by dsimp only; omega)]
    congr 1
    dsimp only
    omega

/-- A function of an index below n as a function of every number. -/
theorem exists_extension {α : Type} {n : Nat} [Inhabited α] (g : Fin n → α) :
    ∃ G : Nat → α, ∀ (i : Nat) (h : i < n), G i = g ⟨i, h⟩ :=
  ⟨fun i => if h : i < n then g ⟨i, h⟩ else default, fun _ h => dif_pos h⟩

/-! ### The output buffer -/

/-- Beats stored in a row from an index at most one past the end: each becomes what its change makes of it, and no
other beat changes. -/
theorem foldl_changeBeat_getElem? (g : Nat → Beat → Beat) {base : Nat} {ob : List Beat} (hbase : base ≤ ob.length)
    (n : Nat) :
    let ob' := (List.finRange n).foldl (fun ob j => changeBeat (g j.val) ob (base + j.val)) ob
    base + n ≤ ob'.length ∧ (∀ k, k < base ∨ base + n ≤ k → ob'[k]? = ob[k]?) ∧
      ∀ j, j < n → ob'[base + j]? = some (g j (ob[base + j]?.getD Beat.blank)) := by
  induction n with
  | zero => exact ⟨hbase, fun _ _ => rfl, fun j hj => absurd hj (Nat.not_lt_zero j)⟩
  | succ n ih =>
    obtain ⟨hlen, hother, hsame⟩ := ih
    simp only [List.finRange_succ_last, List.foldl_append, List.foldl_map, List.foldl_cons, List.foldl_nil,
      Fin.val_castSucc, Fin.val_last]
    refine ⟨?_, fun k hk => ?_, fun j hj => ?_⟩
    · rw [changeBeat_length]
      omega
    · rw [changeBeat_other _ hlen (by omega), hother k (by omega)]
    · obtain hlt | rfl : j < n ∨ j = n := by omega
      · rw [changeBeat_other _ hlen (by omega), hsame j hlt]
      · rw [changeBeat_same, hother _ (by omega)]

/-- The beats of OB after a synthesis step: those of the slot hold the converted outputs (R134 step 6). -/
theorem State.synthStep_ob (s : State) (f : Fin 2) : (s.synthStep f).ob =
    (List.finRange 32).foldl (fun ob j => changeBeat (fun b => b.put f (convertSample s.params s.cfg.fmt
      (filterOut s.params.num (nextHistory s.params.num (s.filt[f]).s (s.filt[f]).v) j))) ob (32 * s.slot + j.val))
      s.ob := by
  simp only [State.synthStep, State.obPut_foldl]

end Sys2Proof.Machine

namespace Sys2Proof
open Machine

/-- Settles O31: `nextHistory`, `buildU`, `windowed` and `filterOut` are V, U, W and out, each sum by its partial
sums. -/
theorem synthStepResult : Obligations.SynthStepResult := by
  intro f s hslot d
  let V := nextHistory d (s.filt[f]).s (s.filt[f]).v
  obtain ⟨U, hU⟩ := exists_extension (buildU V)
  obtain ⟨W, hW⟩ := exists_extension (windowed d V)
  obtain ⟨out, hout⟩ := exists_extension (filterOut d V)
  have hob : (s.synthStep f).ob = (List.finRange 32).foldl (fun ob j =>
      changeBeat (fun b => b.put f (convertSample s.params s.cfg.fmt (out j.val))) ob (32 * s.slot + j.val)) s.ob := by
    simp only [s.synthStep_ob, hout _ (Fin.isLt _)]
    rfl
  obtain ⟨-, hother, hsame⟩ :=
    foldl_changeBeat_getElem? (fun j b => b.put f (convertSample s.params s.cfg.fmt (out j))) hslot 32
  rw [← hob] at hother hsame
  refine ⟨V, U, W, out, (s.synthStep f).ob, fun i h => nextHistory_older _ _ _ h, fun i h => ?_,
    fun i j hi hj => ⟨?_, ?_⟩, fun i => ?_, fun j hj => ?_, hother, hsame,
    congrArg Host.Outcome.next (s.synthStep_eq f)⟩
  · obtain ⟨acc, h0, hstep, hlast⟩ := matrixRow_partials d (s.filt[f]).s i
    exact ⟨acc, h0, hstep, (nextHistory_newest _ _ _ h).trans hlast⟩
  · exact (hU _ (by omega)).trans (buildU_tap V (i := 2 * i) (by omega) hj (by omega) (by omega))
  · exact (hU _ (by omega)).trans (buildU_tap V (i := 2 * i + 1) (by omega) hj (by omega) (by omega))
  · rw [hW i i.isLt, hU i i.isLt]
    rfl
  · obtain ⟨y, h0, hstep, hlast⟩ := filterOut_partials d V ⟨j, hj⟩
    exact ⟨y, h0.trans (hW _ _).symm, fun i hi => by rw [hstep i hi, hW], (hout j hj).trans hlast⟩

/-- Settles O30: the two `set`s of `addSample`, read at the same and at another place. -/
theorem addSampleResult : Obligations.AddSampleResult := by
  intro f sb x s
  refine ⟨_, rfl, ?_, ?_, fun sb' h => ?_, fun g h => ?_⟩
  · simp
  · simp
  · have hsb : (sb : Nat) ≠ sb' := fun e => h (Fin.ext e.symm)
    simp [hsb]
  · have hf : (f : Nat) ≠ g := fun e => h (Fin.ext e.symm)
    simp [hf]

/-- Settles O32: CONVERT is one `changeBeat`. -/
theorem convertResult : Obligations.ConvertResult := by
  refine ⟨fun p y => ⟨⟨_, rfl, rfl, fun hp => ?_⟩, _, rfl⟩, fun f j y s h => ⟨_, rfl, fun k hk => ?_, ?_⟩⟩
  · rw [hp]
    exact BitVec.toNat_ofNat y 32
  · exact changeBeat_other _ h hk
  · exact changeBeat_same _ _ _

end Sys2Proof
end

section
/-! The history as a shift of matrixed vectors (44_synthesis_filter.md R136), what silent steps leave in it, and the
exact-real reference of a step: its two sums (R133, R134) and the impulse response (R138). -/
namespace Sys2Proof.Machine

/-! ### The history -/

/-- The history after steps with the inputs of a list. -/
def historyAfter (d : NumDomain) (inputs : List (Vector NumVal 32)) (v : Vector NumVal 1024) : Vector NumVal 1024 :=
  inputs.foldl (fun v sIn => nextHistory d sIn v) v

theorem historyAfter_cons (d : NumDomain) (x : Vector NumVal 32) (inputs : List (Vector NumVal 32))
    (v : Vector NumVal 1024) :
    historyAfter d (x :: inputs) v = inputs.foldl (fun v sIn => nextHistory d sIn v) (nextHistory d x v) := by
  rw [historyAfter, List.foldl_cons]

theorem historyAfter_concat (d : NumDomain) (inputs : List (Vector NumVal 32)) (x : Vector NumVal 32)
    (v : Vector NumVal 1024) : historyAfter d (inputs ++ [x]) v = nextHistory d x (historyAfter d inputs v) := by
  simp [historyAfter]

theorem nextHistory_nextVector (d : NumDomain) (sIn : Vector NumVal 32) (v : Vector NumVal 1024) {m i : Nat}
    (hm : m + 1 < 16) (hi : i < 64) : (nextHistory d sIn v)[64 * (m + 1) + i] = v[64 * m + i] := by
  have h := nextHistory_older d sIn v (i := 64 * m + i) (by omega)
  convert h using 2
  omega

/-- The last sixteen inputs stand in the history as matrixed vectors, the newest first (R136). -/
theorem historyAfter_newer (d : NumDomain) (inputs : List (Vector NumVal 32)) (v : Vector NumVal 1024) {m i : Nat}
    (hm : m < 16) (hi : i < 64) (h : m < inputs.length) :
    (historyAfter d inputs v)[64 * m + i] = matrixRow d (inputs[inputs.length - 1 - m]'(by omega)) i := by
  induction inputs using List.reverseRecOn generalizing m with
  | nil => simp at h
  | append_singleton inputs x ih =>
    simp only [historyAfter_concat]
    cases m with
    | zero => simp [nextHistory_newest d x _ hi]
    | succ m =>
      simp only [List.length_append, List.length_singleton] at h
      rw [nextHistory_nextVector d x _ hm hi, ih (by omega) (by omega)]
      have hidx : (inputs ++ [x]).length - 1 - (m + 1) = inputs.length - 1 - m := by
        simp only [List.length_append, List.length_singleton]
        omega
      simp only [hidx]
      rw [List.getElem_append_left]

/-- The vectors behind them are those of the history before, moved by one vector a step. -/
theorem historyAfter_older (d : NumDomain) (inputs : List (Vector NumVal 32)) (v : Vector NumVal 1024) {m i : Nat}
    (hm : m < 16) (hi : i < 64) (h : inputs.length ≤ m) :
    (historyAfter d inputs v)[64 * m + i] = v[64 * (m - inputs.length) + i] := by
  induction inputs using List.reverseRecOn generalizing m with
  | nil => rfl
  | append_singleton inputs x ih =>
    obtain ⟨m, rfl⟩ : ∃ k, m = k + 1 := ⟨m - 1, by simp at h; omega⟩
    simp only [List.length_append, List.length_singleton] at h
    simp only [historyAfter_concat]
    rw [nextHistory_nextVector d x _ hm hi, ih (by omega) (by omega)]
    congr 2
    simp

/-- What every vector of sixteen has in it, the history has. -/
theorem forall_history {P : NumVal → Prop} {v : Vector NumVal 1024}
    (h : ∀ (m i : Nat) (hm : m < 16) (hi : i < 64), P v[64 * m + i]) (i : Fin 1024) : P v[i] := by
  have hi := h (i / 64) (i % 64) (by omega) (by omega)
  simp only [Nat.div_add_mod] at hi
  exact hi

/-- Sixteen steps leave nothing of the history before (R136). -/
theorem historyAfter_forgets (d : NumDomain) {inputs : List (Vector NumVal 32)} (h : 16 ≤ inputs.length)
    (v v' : Vector NumVal 1024) : historyAfter d inputs v = historyAfter d inputs v' := by
  ext n hn
  obtain ⟨m, i, rfl, hm, hi⟩ : ∃ m i, n = 64 * m + i ∧ m < 16 ∧ i < 64 :=
    ⟨n / 64, n % 64, by omega, by omega, by omega⟩
  rw [historyAfter_newer d inputs v hm hi (by omega), historyAfter_newer d inputs v' hm hi (by omega)]

/-! ### Silent steps -/

/-- Values that behave as zeros in a step: their sums, and their products with the matrix and the window. -/
structure ZeroLike (d : NumDomain) (P : NumVal → Prop) : Prop where
  add : ∀ {a b}, P a → P b → P (d.add a b)
  matrix : ∀ (i k : Nat) {a}, P a → P (d.mul (synthMatrix d i k) a)
  window : ∀ (i : Fin 512) {a}, P a → P (d.mul a (d.ops.window i))

section
variable {d : NumDomain} {P : NumVal → Prop} (hP : ZeroLike d P)
include hP

theorem ZeroLike.matrixRow {sIn : Vector NumVal 32} (h : ∀ k : Fin 32, P sIn[k]) (i : Nat) :
    P (matrixRow d sIn i) :=
  List.foldlRecOn _ _ (hP.matrix i 0 (h 0)) fun _ hacc k _ => hP.add hacc (hP.matrix i k (h k))

theorem ZeroLike.filterOut {v : Vector NumVal 1024} (h : ∀ i : Fin 1024, P v[i]) (j : Fin 32) :
    P (filterOut d v j) := by
  have htap {i : Nat} (hi : i < 16) : P (windowed d v ⟨j + 32 * i, by omega⟩) := by
    rw [windowed, buildU_tap v hi j.isLt rfl rfl]
    exact hP.window _ (h ⟨_, by omega⟩)
  exact List.foldlRecOn _ _ (htap (i := 0) (by omega)) fun _ hacc i _ => hP.add hacc (htap i.isLt)

/-- Sixteen silent steps fill the history with zeros (R139). -/
theorem ZeroLike.historyAfter {inputs : List (Vector NumVal 32)} (hlen : inputs.length = 16)
    (h : ∀ sIn ∈ inputs, ∀ k : Fin 32, P sIn[k]) (v : Vector NumVal 1024) (i : Fin 1024) :
    P (historyAfter d inputs v)[i] := by
  refine forall_history (fun m i hm hi => ?_) i
  rw [historyAfter_newer d inputs v hm hi (by omega)]
  exact hP.matrixRow (h _ (List.getElem_mem _)) i

end

/-! ### The sums of a step under the exact reference -/

theorem referenceValue_foldl_tail {n : Nat} (g : Fin (n + 1) → NumVal) :
    referenceValue ((List.finRange (n + 1)).tail.foldl (fun acc k => NumDomain.reference.add acc (g k)) (g 0)) =
      ∑ k, referenceValue (g k) := by
  rw [referenceValue_foldl_add, List.finRange_succ, List.tail_cons, List.map_map, Fin.sum_univ_succ, Fin.sum_univ_def]
  rfl

/-- An entry of the matrixed vector (R133). -/
theorem referenceValue_matrixRow (sIn : Vector NumVal 32) (i : Nat) : referenceValue (matrixRow .reference sIn i) =
    ∑ k : Fin 32, Real.cos ((((16 + i) * (2 * k.val + 1) : Nat) : ℝ) * Real.pi / 64) * referenceValue sIn[k] := by
  refine (referenceValue_foldl_tail fun k : Fin 32 =>
    NumDomain.reference.mul (synthMatrix .reference i k) sIn[k]).trans ?_
  simp only [referenceValue_mul, referenceValue_synthMatrix]

/-- An output (R134 steps 3 to 5). -/
theorem referenceValue_filterOut (v : Vector NumVal 1024) (j : Fin 32) :
    referenceValue (filterOut .reference v j) =
      ∑ i : Fin 16, referenceValue (v[64 * i.val + (j.val + 32 * (i.val % 2))]'(by omega)) *
        F32.value (Config.windowD ⟨32 * i + j, by omega⟩) := by
  refine (referenceValue_foldl_tail fun i : Fin 16 => windowed .reference v ⟨j.val + 32 * i.val, by omega⟩).trans ?_
  refine Finset.sum_congr rfl fun i _ => ?_
  rw [windowed, referenceValue_mul, buildU_tap v i.isLt j.isLt rfl rfl, referenceValue_window]
  simp only [add_comm]

/-! ### The impulse response -/

theorem zeroLike_reference : ZeroLike .reference fun a => referenceValue a = 0 where
  add ha hb := by rw [referenceValue_add, ha, hb, add_zero]
  matrix i k _ ha := by rw [referenceValue_mul, ha, mul_zero]
  window i _ ha := by rw [referenceValue_mul, ha, zero_mul]

/-- After an input and silence, the input's matrixed vector is the only one in the history (R138). -/
theorem referenceValue_impulse {v : Vector NumVal 1024} (sIn : Vector NumVal 32) {later : List (Vector NumVal 32)}
    (hv : ∀ i : Fin 1024, referenceValue v[i] = 0) (hlater : ∀ x ∈ later, ∀ k : Fin 32, referenceValue x[k] = 0)
    {m i : Nat} (hm : m < 16) (hi : i < 64) :
    referenceValue (historyAfter .reference (sIn :: later) v)[64 * m + i] =
      if m = later.length then referenceValue (matrixRow .reference sIn i) else 0 := by
  obtain hlt | rfl | hgt := lt_trichotomy m later.length
  · rw [historyAfter_newer .reference _ v hm hi (by simp; omega), if_neg hlt.ne]
    refine zeroLike_reference.matrixRow (hlater _ ?_) i
    obtain ⟨n, hn⟩ : ∃ n, (sIn :: later).length - 1 - m = n + 1 := ⟨later.length - 1 - m, by simp; omega⟩
    simp only [hn, List.getElem_cons_succ, List.getElem_mem]
  · rw [historyAfter_newer .reference _ v hm hi (by simp), if_pos rfl]
    simp
  · rw [historyAfter_older .reference _ v hm hi (by simpa using hgt), if_neg hgt.ne']
    exact hv ⟨_, by simp; omega⟩

end Sys2Proof.Machine

namespace Sys2Proof
open Machine

/-- Settles O34: the history's vectors are the matrixed inputs, so of the sixteen taps of an output only the one at the
impulse's vector is not 0. -/
theorem historyIsShiftOfVectors : Obligations.HistoryIsShiftOfVectors := by
  constructor
  · exact fun d inputs v m i hm hi => ⟨historyAfter_newer d inputs v hm hi, fun h => historyAfter_forgets d h v⟩
  intro v sIn later j hv hlater t
  rw [← historyAfter_cons, referenceValue_filterOut]
  have htap (i : Fin 16) := referenceValue_impulse sIn hv hlater i.isLt (show j + 32 * (i.val % 2) < 64 by omega)
  simp only [htap, ite_mul, zero_mul]
  split
  next h =>
    rw [Finset.sum_eq_single ⟨t, h⟩ (fun i _ hi => if_neg fun e => hi (Fin.ext e)) (by simp), if_pos rfl]
  next h => exact Finset.sum_eq_zero fun i _ => if_neg (by omega)

end Sys2Proof
end

section
/-! The two symmetries of the synthesis matrix (44_synthesis_filter.md R137): in each column, the angles of two rows
whose indices sum to 32 or to 96 sum to a multiple of π. -/
namespace Sys2Proof.Machine

/-! ### Under the exact reference -/

theorem cos_angle_of_sum {a b n : Nat} (h : a + b = 64 * n) :
    Real.cos (b * Real.pi / 64) = (-1) ^ n * Real.cos (a * Real.pi / 64) := by
  have hsum : (a : ℝ) + b = 64 * n := mod_cast h
  rw [← Real.cos_nat_mul_pi_sub, eq_sub_of_add_eq' hsum]
  congr 1
  ring

/-- Two angles of the matrix in one column, at rows that sum to c (R137). -/
theorem angle_sum {i i' c : Nat} (h : i + i' = c) (k : Nat) :
    (16 + i) * (2 * k + 1) + (16 + i') * (2 * k + 1) = (32 + c) * (2 * k + 1) := by
  rw [← h]
  ring

theorem referenceValue_matrixRow_reflect (sIn : Vector NumVal 32) {i : Nat} (h : i ≤ 32) :
    referenceValue (matrixRow .reference sIn (32 - i)) = -referenceValue (matrixRow .reference sIn i) := by
  rw [referenceValue_matrixRow, referenceValue_matrixRow, ← Finset.sum_neg_distrib]
  refine Finset.sum_congr rfl fun k _ => ?_
  rw [cos_angle_of_sum (angle_sum (Nat.add_sub_of_le h) k), Odd.neg_one_pow ⟨k.val, rfl⟩]
  ring

theorem referenceValue_matrixRow_mirror (sIn : Vector NumVal 32) {i : Nat} (h : i ≤ 96) :
    referenceValue (matrixRow .reference sIn (96 - i)) = referenceValue (matrixRow .reference sIn i) := by
  rw [referenceValue_matrixRow, referenceValue_matrixRow]
  refine Finset.sum_congr rfl fun k _ => ?_
  have hsum := (angle_sum (Nat.add_sub_of_le h) k.val).trans (show _ = 64 * (2 * (2 * k.val + 1)) by ring)
  rw [cos_angle_of_sum hsum, Even.neg_one_pow (even_two_mul _), one_mul]

/-! ### Under binary32 -/

/-- The place of an angle between 0 and π, of the same cosine. -/
def F32.foldAngle (m : Nat) : Nat := if m % 128 > 64 then 128 - m % 128 else m % 128

/-- The magnitude bits of an entry of the cosine table. -/
def F32.cosBits (h : Nat) : Nat := (F32.cosTable.getD h 0).toNat

theorem F32.cosBits_lt (h : Nat) : F32.cosBits h < 0x7F800000 := by
  obtain hlt | hge := lt_or_ge h 33
  · exact (by decide : ∀ h < 33, F32.cosBits h < 0x7F800000) h hlt
  · rw [F32.cosBits, List.getD_eq_default _ _ hge]
    decide

theorem F32.withSign_false {x : F32} (h : x.toNat < 2 ^ 31) : F32.withSign false x.toNat = x :=
  BitVec.eq_of_toNat_eq (by rw [F32.toNat_withSign false h]; simp)

/-- A binary32 cosine is an entry of the table, with a minus past π/2. -/
theorem F32.cosine_eq (m : Nat) : F32.cosine m =
    F32.withSign (32 < F32.foldAngle m) (F32.cosBits (min (F32.foldAngle m) (64 - F32.foldAngle m))) := by
  change (if F32.foldAngle m > 32 then F32.withSign true (F32.cosBits (64 - F32.foldAngle m))
    else F32.cosTable.getD (F32.foldAngle m) 0) = _
  split
  next h => rw [decide_eq_true h, min_eq_right (by omega)]
  next h =>
    rw [decide_eq_false h, min_eq_left (by omega), F32.cosBits, F32.withSign_false]
    exact (F32.cosBits_lt _).trans (by decide)

theorem F32.isFinite_cosine (m : Nat) : F32.isFinite (F32.cosine m) = true := by
  rw [F32.cosine_eq]
  exact F32.isFinite_withSign _ (F32.cosBits_lt _)

/-- Angles that sum to a multiple of 2π have one cosine. -/
theorem F32.cosine_of_sum_even {a b n : Nat} (h : a + b = 128 * n) : F32.cosine b = F32.cosine a := by
  have hfold : F32.foldAngle b = F32.foldAngle a := by
    simp only [F32.foldAngle]
    split <;> split <;> omega
  rw [F32.cosine_eq, F32.cosine_eq, hfold]

/-- Angles that sum to an odd multiple of π have opposite cosines. -/
theorem F32.scaled_cosine_of_sum_odd {a b n : Nat} (h : a + b = 128 * n + 64) :
    F32.scaled (F32.cosine b) = -F32.scaled (F32.cosine a) := by
  have hfold : F32.foldAngle b = 64 - F32.foldAngle a ∧ F32.foldAngle a ≤ 64 := by
    simp only [F32.foldAngle]
    split <;> split <;> omega
  have hlt (h : Nat) : F32.cosBits h < 2 ^ 31 := (F32.cosBits_lt h).trans (by decide)
  rw [F32.cosine_eq, F32.cosine_eq, F32.scaled_withSign _ (hlt _), F32.scaled_withSign _ (hlt _), hfold.1,
    show 64 - (64 - F32.foldAngle a) = F32.foldAngle a by omega, min_comm]
  simp only [decide_eq_true_eq]
  obtain hlow | hmid | hhigh := lt_trichotomy (F32.foldAngle a) 32
  · rw [if_pos (by omega), if_neg (by omega)]
  · rw [hmid]
    decide
  · rw [if_neg (by omega), if_pos hhigh, neg_neg]

theorem ofCode_synthMatrix (i k : Nat) :
    F32.ofCode (synthMatrix .binary32 i k) = F32.cosine ((16 + i) * (2 * k + 1)) := ofCode_binary32_fl _

end Sys2Proof.Machine

namespace Sys2Proof
open Machine

/-- Settles O35: two rows whose indices sum to 32, or to 96, have angles that sum to an odd, or an even, multiple of
π in each column. -/
theorem matrixSymmetries : Obligations.MatrixSymmetries := by
  refine ⟨fun i k hi _ => ?_, fun i k _ hi _ => ?_, fun sIn => ⟨fun i _ => ?_, fun i hi => ?_, fun i _ hi => ?_⟩⟩
  · simp only [ofCode_synthMatrix]
    exact F32.scaled_cosine_of_sum_odd (n := k) ((angle_sum (Nat.add_sub_of_le hi) k).trans (by ring))
  · simp only [ofCode_synthMatrix]
    exact F32.cosine_of_sum_even (angle_sum (Nat.add_sub_of_le (by omega)) k)
  · refine (referenceValue_matrixRow sIn i).trans ?_
    push_cast
    rfl
  · exact referenceValue_matrixRow_reflect sIn hi
  · exact referenceValue_matrixRow_mirror sIn (by omega)

end Sys2Proof
end

section
/-! Silence (44_synthesis_filter.md R139): binary32 zeros behave as zeros in a step, and the PCM16 code of a zero
is 0. -/
namespace Sys2Proof.Machine

variable {x y : F32} {a : NumVal}

/-! ### Zeros of binary32 -/

theorem F32.isZero_iff : F32.isZero x = true ↔ F32.expField x = 0 ∧ F32.fracField x = 0 := by simp [F32.isZero]

theorem F32.isFinite_iff : F32.isFinite x = true ↔ F32.expField x ≠ 255 := by simp [F32.isFinite]

theorem F32.isFinite_of_isZero (h : F32.isZero x = true) : F32.isFinite x = true :=
  F32.isFinite_iff.mpr (by simp [(F32.isZero_iff.mp h).1])

theorem F32.isNaN_of_isFinite (h : F32.isFinite x = true) : F32.isNaN x = false := by
  simp [F32.isNaN, F32.isFinite_iff.mp h]

theorem F32.isInf_of_isFinite (h : F32.isFinite x = true) : F32.isInf x = false := by
  simp [F32.isInf, F32.isFinite_iff.mp h]

theorem F32.mag_of_isZero (h : F32.isZero x = true) : F32.mag x = 0 := by simp [F32.mag, F32.isZero_iff.mp h]

theorem F32.scaled_of_isZero (h : F32.isZero x = true) : F32.scaled x = 0 := by simp [F32.scaled, F32.mag_of_isZero h]

theorem F32.isZero_withSign (neg : Bool) : F32.isZero (F32.withSign neg 0) = true := by cases neg <;> decide

/-- A product of finite values is the exact one, narrowed. -/
theorem F32.mul_of_isFinite (hx : F32.isFinite x = true) (hy : F32.isFinite y = true) :
    F32.mul x y =
      F32.withSign (F32.signBit x != F32.signBit y) (F32.roundMag (F32.mag x * F32.mag y) (2 ^ 149)) := by
  simp [F32.mul, F32.isNaN_of_isFinite, F32.isInf_of_isFinite, hx, hy]

theorem F32.isZero_mul (hx : F32.isFinite x = true) (hy : F32.isFinite y = true)
    (h : F32.isZero x = true ∨ F32.isZero y = true) : F32.isZero (F32.mul x y) = true := by
  have hmag : F32.mag x * F32.mag y = F32.patternMag 0 * 2 ^ 149 :=
    Nat.mul_eq_zero.mpr (h.imp F32.mag_of_isZero F32.mag_of_isZero)
  rw [F32.mul_of_isFinite hx hy, hmag, F32.roundMag_patternMag (by decide) (by decide)]
  exact F32.isZero_withSign _

theorem F32.isZero_add (hx : F32.isZero x = true) (hy : F32.isZero y = true) : F32.isZero (F32.add x y) = true := by
  have hfx := F32.isFinite_of_isZero hx
  have hfy := F32.isFinite_of_isZero hy
  simp [F32.add, F32.isNaN_of_isFinite, F32.isInf_of_isFinite, hfx, hfy, F32.scaled_of_isZero, hx, hy,
    F32.isZero_withSign]

/-- A window coefficient is finite by its type (log entry 2). -/
theorem F32.isFinite_toF32 (x : FiniteF32) : F32.isFinite x.toF32 = true := by
  have hlt := x.exp.isLt
  have hfrac := x.frac.isLt
  have hexp : F32.expField x.toF32 = x.exp := by
    rw [F32.expField, FiniteF32.toF32, BitVec.extractLsb'_toNat, toNat_append_eq_mul_add, toNat_append_eq_mul_add,
      BitVec.toNat_ofNat, Nat.shiftRight_eq_div_pow]
    omega
  rw [F32.isFinite_iff, hexp]
  omega

theorem zeroLike_binary32 : ZeroLike .binary32 fun a => F32.isZero (F32.ofCode a) = true where
  add ha hb := by
    rw [ofCode_binary32_add]
    exact F32.isZero_add ha hb
  matrix i k _ ha := by
    rw [ofCode_binary32_mul, ofCode_synthMatrix]
    exact F32.isZero_mul (F32.isFinite_cosine _) (F32.isFinite_of_isZero ha) (.inr ha)
  window i _ ha := by
    rw [ofCode_binary32_mul, ofCode_binary32_window]
    exact F32.isZero_mul (F32.isFinite_of_isZero ha) (F32.isFinite_toF32 _) (.inl ha)

/-! ### The sample of a zero -/

theorem F32.toInt?_of_isFinite (mode : PcmConvert) (h : F32.isFinite x = true) :
    F32.toInt? mode x = some (F32.toInt mode x) := by
  simp [F32.toInt?, F32.isNaN_of_isFinite h, F32.isInf_of_isFinite h]

theorem F32.toInt_of_isZero (mode : PcmConvert) (h : F32.isZero x = true) : F32.toInt mode x = 0 := by
  unfold F32.toInt
  rw [F32.mag_of_isZero h]
  cases mode <;> simp

/-- Under binary32 the PCM16 code is the clamped integer of the product with OUT_SCALE (R140). -/
theorem pcm16Of_binary32 {p : Params} (hp : p.num = .binary32) {n : Int}
    (h : F32.toInt? p.pcmConvert (F32.mul (F32.ofCode a) (F32.ofCode (p.num.ofRat p.outScale))) = some n) :
    pcm16Of p a = clamp16 n := by
  have hint : p.num.ops.toInt? p.pcmConvert (p.num.mul a (p.num.ofRat p.outScale)) = some n := by
    rw [hp] at h ⊢
    rw [← h, ← ofCode_binary32_mul]
    rfl
  rw [pcm16Of]
  simp only [hint]

theorem pcm16Of_of_isZero {p : Params} (hp : p.num = .binary32)
    (hscale : F32.isFinite (F32.ofCode (p.num.ofRat p.outScale)) = true) (ha : F32.isZero (F32.ofCode a) = true) :
    pcm16Of p a = 0 := by
  have hzero := F32.isZero_mul (F32.isFinite_of_isZero ha) hscale (.inl ha)
  refine (pcm16Of_binary32 hp (F32.toInt?_of_isFinite _ (F32.isFinite_of_isZero hzero))).trans ?_
  rw [F32.toInt_of_isZero _ hzero]
  rfl

theorem withinTol_zero_of_isZero {p : Params} (hp : p.num = .binary32) (ha : F32.isZero (F32.ofCode a) = true)
    (htol : 0 ≤ p.tol) : withinTol p a 0 := by
  refine ⟨0, ?_, by simpa using htol⟩
  rw [hp, realOf_binary32 (F32.isFinite_of_isZero ha), F32.value, F32.scaled_of_isZero ha]
  simp

end Sys2Proof.Machine

namespace Sys2Proof
open Machine

/-- Settles O36: in both domains the zeros behave as zeros in a step, so the sixteen silent vectors hold only zeros. -/
theorem silenceAfterSixteenSilentSteps : Obligations.SilenceAfterSixteenSilentSteps := by
  constructor
  · intro p inputs v hp hscale hlen hin t
    have hP : ZeroLike p.num fun a => F32.isZero (F32.ofCode a) = true := hp ▸ zeroLike_binary32
    have ht : ∀ i : Fin 1024, F32.isZero (F32.ofCode t[i]) = true := hP.historyAfter hlen hin v
    refine ⟨ht, fun j => ?_⟩
    have hout := hP.filterOut ht j
    exact ⟨hout, congrArg Sample.pcm16 (pcm16Of_of_isZero hp hscale hout), withinTol_zero_of_isZero hp hout⟩
  · intro inputs v hlen hin t
    have ht : ∀ i : Fin 1024, referenceValue t[i] = 0 := zeroLike_reference.historyAfter hlen hin v
    exact ⟨ht, zeroLike_reference.filterOut ht⟩

end Sys2Proof
end

section
/-! PCM16 samples (44_synthesis_filter.md R140): under binary32 the product with 32768 is exact or overflows, and an
overflow is clamped as the exact product is. -/
namespace Sys2Proof.Machine

variable {x : F32}

/-! ### Rounding to an integer -/

/-- A number of units of 2^-149 rounded to an integer (00_scope.md R8, `PCM_CONVERT`). -/
def roundUnits (mode : PcmConvert) (n : Nat) : Nat :=
  match mode with
  | .trunc => n / 2 ^ 149
  | .nearestEven =>
    if 2 * (n % 2 ^ 149) > 2 ^ 149 ∨ (2 * (n % 2 ^ 149) = 2 ^ 149 ∧ n / 2 ^ 149 % 2 = 1) then n / 2 ^ 149 + 1
    else n / 2 ^ 149

/-- A magnitude with a sign. -/
def signed (neg : Bool) (n : Nat) : Int := if neg then -(n : Int) else n

@[simp] theorem signed_false (n : Nat) : signed false n = n := rfl

@[simp] theorem signed_true (n : Nat) : signed true n = -(n : Int) := rfl

theorem F32.toInt_eq (mode : PcmConvert) (x : F32) :
    F32.toInt mode x = signed (F32.signBit x) (roundUnits mode (F32.mag x)) := by
  cases mode <;> rfl

theorem F32.scaled_eq (x : F32) : F32.scaled x = signed (F32.signBit x) (F32.mag x) := rfl

theorem signed_mul (neg : Bool) (n k : Nat) : signed neg n * k = signed neg (n * k) := by
  cases neg <;> simp

theorem signed_trunc (neg : Bool) (n : Nat) :
    signed neg (roundUnits .trunc n) = (signed neg n).tdiv (2 ^ 149) := by
  have hdiv : ((roundUnits .trunc n : Nat) : Int) = (n : Int).tdiv (2 ^ 149) := by
    rw [roundUnits, Int.tdiv_eq_ediv_of_nonneg (by positivity)]
    norm_num
  cases neg
  · exact hdiv
  · simp only [signed_true, Int.neg_tdiv, hdiv]

theorem signed_nearestEven (neg : Bool) (n : Nat) :
    let q := signed neg (roundUnits .nearestEven n)
    2 * |q * 2 ^ 149 - signed neg n| ≤ 2 ^ 149 ∧ (2 * |q * 2 ^ 149 - signed neg n| = 2 ^ 149 → q % 2 = 0) := by
  have hround : let e := (roundUnits .nearestEven n : Int) * 2 ^ 149 - n
      2 * |e| ≤ 2 ^ 149 ∧ (2 * |e| = 2 ^ 149 → (roundUnits .nearestEven n : Int) % 2 = 0) := by
    simp only [roundUnits, abs_eq_max_neg]
    split <;> omega
  cases neg
  · exact hround
  · have hflip : -(roundUnits .nearestEven n : Int) * 2 ^ 149 - -(n : Int) =
        -((roundUnits .nearestEven n : Int) * 2 ^ 149 - n) := by ring
    simp only [signed_true, hflip, abs_neg]
    omega

/-! ### The product with 32768 -/

theorem F32.mag_withSign (neg : Bool) {z : Nat} (hz : z < 2 ^ 31) :
    F32.mag (F32.withSign neg z) = F32.patternMag z := by
  simp only [F32.mag, F32.patternMag, F32.expField_withSign neg hz, F32.fracField_withSign neg hz]

/-- A magnitude times 2^15 is the magnitude of a finite pattern, or lies above all of them. -/
theorem F32.mag_mul_32768 (x : F32) :
    (∃ z < 0x7F800000, F32.patternMag z = F32.mag x * 2 ^ 15) ∨ 2 ^ 277 ≤ F32.mag x * 2 ^ 15 := by
  have hfrac : F32.fracField x < 2 ^ 23 := BitVec.isLt _
  have hexp : F32.expField x < 256 := BitVec.isLt _
  rw [F32.mag]
  split
  next => exact .inl (F32.exists_patternMag_eq (by omega) (by omega))
  next hpos =>
    rw [mul_assoc, ← pow_add]
    obtain hsmall | hlarge := le_or_gt (F32.expField x - 1 + 15) 253
    · exact .inl (F32.exists_patternMag_eq (by omega) hsmall)
    · refine .inr ?_
      calc 2 ^ 277 = 2 ^ 23 * 2 ^ 254 := by rw [← pow_add]
        _ ≤ _ := Nat.mul_le_mul (by omega) (Nat.pow_le_pow_right (by decide) hlarge)

/-- 32768, the default OUT_SCALE, in binary32. -/
def F32.outScale : F32 := 0x47000000#32

theorem F32.mul_outScale (hx : F32.isFinite x = true) :
    F32.mul x F32.outScale = F32.withSign (F32.signBit x) (F32.roundMag (F32.mag x * 2 ^ 15 * 2 ^ 149) (2 ^ 149)) := by
  have hsign : F32.signBit F32.outScale = false := by decide
  have hmag : F32.mag F32.outScale = 2 ^ 15 * 2 ^ 149 := by decide
  rw [F32.mul_of_isFinite hx (by decide), hsign, hmag, Bool.bne_false, mul_assoc]

/-- An integer clamped to the signed 16-bit range. -/
def clampInt (q : Int) : Int := max (-32768) (min 32767 q)

theorem toInt_clamp16 (q : Int) : (clamp16 q).toInt = clampInt q := by
  rw [clamp16, clampInt, BitVec.toInt_ofInt_eq_self] <;> omega

/-- The rounded product with 32768 is clamped as the exact one is. -/
theorem F32.toInt?_mul_outScale (mode : PcmConvert) (hx : F32.isFinite x = true) :
    ∃ n, F32.toInt? mode (F32.mul x F32.outScale) = some n ∧
      clampInt n = clampInt (signed (F32.signBit x) (roundUnits mode (F32.mag x * 2 ^ 15))) := by
  rw [F32.mul_outScale hx]
  obtain ⟨z, hz, hmag⟩ | hlarge := F32.mag_mul_32768 x
  · rw [← hmag, F32.roundMag_patternMag (by decide) hz, F32.toInt?_of_isFinite mode (F32.isFinite_withSign _ hz),
      F32.toInt_eq, F32.signBit_withSign, F32.mag_withSign _ (by omega)]
    exact ⟨_, rfl, rfl⟩
  · have hinf : F32.roundMag (F32.mag x * 2 ^ 15 * 2 ^ 149) (2 ^ 149) = 0x7F800000 := by
      rw [F32.roundMag_eq_infinity_iff (by decide)]
      omega
    have hround : 2 ^ 128 ≤ roundUnits mode (F32.mag x * 2 ^ 15) := by
      cases mode <;> simp only [roundUnits]
      · omega
      · split <;> omega
    rw [hinf]
    cases F32.signBit x
    · refine ⟨2 ^ 128, by cases mode <;> decide, ?_⟩
      simp only [clampInt, signed_false]
      omega
    · refine ⟨-2 ^ 128, by cases mode <;> decide, ?_⟩
      simp only [clampInt, signed_true]
      omega

end Sys2Proof.Machine

namespace Sys2Proof
open Machine

/-- Settles O33: the rounded product is clamped as the exact one, and that one is rounded by its magnitude. -/
theorem pcm16IsClampedTruncation : Obligations.Pcm16IsClampedTruncation := by
  intro p y hp hscale hfin x
  have hone : F32.ofCode (p.num.ofRat p.outScale) = F32.outScale := by
    rw [hp, hscale]
    decide
  obtain ⟨n, hn, hclamp⟩ := F32.toInt?_mul_outScale p.pcmConvert hfin
  have hcode : pcm16Of p y = clamp16 n := pcm16Of_binary32 hp (hone ▸ hn)
  have hx : x = signed (F32.signBit (F32.ofCode y)) (F32.mag (F32.ofCode y) * 2 ^ 15) := by
    rw [← signed_mul, ← F32.scaled_eq]
    norm_num [x]
  refine ⟨_, _, rfl, (congrArg BitVec.toInt hcode).trans ((toInt_clamp16 n).trans hclamp), fun hmode => ?_,
    fun hmode => ?_⟩
  · rw [hmode, hx, signed_trunc]
  · rw [hmode, hx]
    exact signed_nearestEven _ _

end Sys2Proof
end

section
/-! STATUS and the interrupt line (O44), the commands of CTRL (O40, O41) and EMIT (O38). -/
namespace Sys2Proof.Machine

variable {s : State}

/-! ### STATUS as read -/

theorem State.statusWord_toNat (s : State) :
    s.statusWord.toNat = s.seq.code.toNat + 16 * s.errcode.code.toNat + 256 * s.errdetail.toNat +
      4096 * s.irq.toNat + 8192 * (s.hdr.valid && s.hdr.nchOut == 2).toNat +
      16384 * (s.hdr.valid && s.hdr.raw.prot == 0#1).toNat := by
  simp only [State.statusWord, toNat_append_eq_mul_add, BitVec.toNat_ofBool, BitVec.toNat_ofNat]
  omega

theorem State.irq_iff (s : State) :
    s.irq = true ↔ s.ctrl.irqEn = true ∧ (s.seq = .done ∨ s.seq = .stopped ∨ s.seq = .failed) := by
  simp [State.irq, or_assoc]

/-! ### START by the sequencer's state -/

theorem State.startCommand_fresh (h : s.seq = .idle ∨ s.seq = .done) : s.startCommand = s.freshStart := by
  obtain h | h := h <;> simp only [State.startCommand, h]

theorem State.startCommand_stopped (h : s.seq = .stopped) : s.startCommand = s.resume := by
  simp only [State.startCommand, h]

theorem State.startCommand_elsewhere (hidle : s.seq ≠ .idle) (hdone : s.seq ≠ .done) (hstopped : s.seq ≠ .stopped) :
    s.startCommand = s := by
  unfold State.startCommand
  split
  · exact absurd ‹_› hidle
  · exact absurd ‹_› hdone
  · exact absurd ‹_› hstopped
  all_goals rfl

/-- START, with the STOP of the same write after it (45_orchestrator.md R154). -/
theorem exec_ctrlStart (v : CtrlWrite) (s : State) : exec (.ctrlStart v) s =
    .next { (s.storeCtrl v).startCommand with stopReq := (s.storeCtrl v).startCommand.stopReq || v.stop } := by
  change Host.Outcome.next (if v.stop = true then (s.storeCtrl v).startCommand.stopCommand
    else (s.storeCtrl v).startCommand) = _
  cases v.stop with
  | true => simp [State.stopCommand]
  | false => simp

/-! ### EMIT by the beat and the sink -/

theorem execEmit_waiting {b : Beat} (hb : s.ob[s.obRd]? = some b) (hready : s.sinkReady = false) :
    execEmit s = .next s := by
  simp [execEmit, hb, hready]

theorem execEmit_ready {b : Beat} (hb : s.ob[s.obRd]? = some b) (hready : s.sinkReady = true) :
    let t := { s with
      delivered := s.delivered ++ [⟨b, s.obRd + 1 == s.ob.length⟩], obRd := s.obRd + 1 }
    execEmit s = .next (if s.obRd + 1 = s.ob.length then t.finishFrame else t) := by
  simp only [execEmit, hb, hready, if_true]

end Sys2Proof.Machine

namespace Sys2Proof
open Machine

/-- Settles O44, by the fields of the word. -/
theorem statusMirrorsSequencer : Obligations.StatusMirrorsSequencer := by
  intro s state code
  have hstate : s.seq.code.toNat = state := by
    simp only [state]
    cases s.seq <;> rfl
  have hcode : s.errcode.code.toNat = code := by
    simp only [code]
    cases s.errcode <;> rfl
  exact ⟨by rw [State.statusWord_toNat, hstate, hcode], s.irq_iff⟩

/-- Settles O40: each command is `storeCtrl` and one update of the state. -/
theorem softResetStopAndConfigResults : Obligations.SoftResetStopAndConfigResults := fun _ _ => ⟨rfl, rfl, rfl⟩

/-- Settles O41, by the sequencer's state. -/
theorem startResult : Obligations.StartResult := by
  intro v s c cfg
  have hseq : (s.storeCtrl v).seq = s.seq := rfl
  refine ⟨fun h => ?_, fun h => ?_, fun h => ?_, fun hidle hdone hstopped => ?_⟩ <;> rw [exec_ctrlStart]
  · rw [State.startCommand_fresh (.inl (hseq.trans h))]
    simp only [State.freshStart, hseq, h, decide_true, Bool.true_and]
    rfl
  · rw [State.startCommand_fresh (.inr (hseq.trans h))]
    simp only [State.freshStart, hseq, h]
    rfl
  · rw [State.startCommand_stopped (hseq.trans h)]
    rfl
  · rw [State.startCommand_elsewhere (by rwa [hseq]) (by rwa [hseq]) (by rwa [hseq])]
    rfl

/-- Settles O38, by the sink and by whether the beat is the last of OB. -/
theorem emitResult : Obligations.EmitResult := by
  refine ⟨fun _ => rfl, fun s b hb => ⟨execEmit_waiting hb, fun hready hmore => ?_, fun hready hlast => ?_⟩⟩ <;>
    refine (execEmit_ready hb hready).trans ?_
  · rw [if_neg hmore.ne, beq_false_of_ne hmore.ne]
  · rw [if_pos hlast, beq_iff_eq.2 hlast]
    rfl

end Sys2Proof
end

section
/-! Reading the fields of a frame, in every state: the filters, the header record, the latched configuration and the
script are left alone, and the sequencer stays where it is or enters FAILED. -/
namespace Sys2Proof.Machine

variable {r s t u : State}

/-- What reading fields of the frame leaves alone from `s` to `t`, and what it does to the sequencer. -/
structure ReadsOn (s t : State) : Prop where
  filt : t.filt = s.filt
  hdr : t.hdr = s.hdr
  cfg : t.cfg = s.cfg
  script : t.script = s.script
  seq : t.seq = s.seq ∨ t.seq = .failed

/-- Whatever the operation answers, it only read fields since `r`. -/
def Reads (r : State) (o : Result) : Prop := ∀ t, o = .next t → ReadsOn r t

/-! ### Composition -/

theorem ReadsOn.refl (s : State) : ReadsOn s s := ⟨rfl, rfl, rfl, rfl, .inl rfl⟩

/-- An update of anything else. -/
theorem ReadsOn.same (h : ReadsOn r s) (hfilt : t.filt = s.filt := by rfl) (hhdr : t.hdr = s.hdr := by rfl)
    (hcfg : t.cfg = s.cfg := by rfl) (hscript : t.script = s.script := by rfl) (hseq : t.seq = s.seq := by rfl) :
    ReadsOn r t :=
  ⟨hfilt.trans h.filt, hhdr.trans h.hdr, hcfg.trans h.cfg, hscript.trans h.script, hseq ▸ h.seq⟩

theorem ReadsOn.fail (h : ReadsOn r s) (code : ErrCode) (detail : BitVec 4) : ReadsOn r (s.raiseFatal code detail) :=
  ⟨h.filt, h.hdr, h.cfg, h.script, .inr rfl⟩

theorem Reads.next (h : ReadsOn r s) : Reads r (.next s) := by
  intro t e
  cases e
  exact h

theorem Reads.fault (e : Fault) : Reads r (.fault e) := fun _ e => by cases e

theorem Reads.ite {p : Prop} [Decidable p] {o o' : Result} (ho : Reads r o) (ho' : Reads r o') :
    Reads r (if p then o else o') := by
  split
  · exact ho
  · exact ho'

theorem Reads.andThen {o : Result} {k : State → Result} (ho : Reads r o) (hk : ∀ u, ReadsOn r u → Reads r (k u)) :
    Reads r (Machine.andThen o k) := by
  intro t e
  obtain ⟨u, hu, ⟨-, rfl⟩ | ⟨-, e⟩⟩ := andThen_eq_next e
  · exact ho t hu
  · exact hk u (ho u hu) t e

theorem Reads.forEach {α : Type} {xs : List α} {body : α → State → Result}
    (hb : ∀ x u, ReadsOn r u → Reads r (body x u)) (hs : ReadsOn r s) : Reads r (Machine.forEach xs body s) := by
  induction xs generalizing s with
  | nil => exact .next hs
  | cons x rest ih => exact (hb x s hs).andThen fun _ => ih

theorem ReadsOn.takeBits {n : Nat} {go : State → Result} (hs : ReadsOn r s)
    (hg : ∀ u, ReadsOn r u → Reads r (go u)) : Reads r (s.takeBits n go) :=
  .ite (.next (hs.fail ..)) (.ite (.fault _) (hg _ hs.same))

theorem ReadsOn.takeFields {width count : Nat} {go : State → Result} (hs : ReadsOn r s)
    (hg : ∀ u, ReadsOn r u → Reads r (go u)) : Reads r (s.takeFields width count go) := by
  induction count generalizing s with
  | zero => exact hg s hs
  | succ count ih => exact hs.takeBits fun _ => ih

/-! ### The operations -/

theorem exec_readsData_reads {i : Instr} (hi : ReadsData i) (hs : ReadsOn r s) : Reads r (exec i s) := by
  cases hi <;>
    simp only [exec, execL1Scalefactor, execL1Sample, execL2Scfsi, execL2Scalefactor, execL2Grouped,
      execL2GroupedOutOfRange, execL2Ungrouped]
  case l2Scalefactor => exact hs.takeFields fun u hu => .next hu.same
  case l2Ungrouped =>
    refine hs.takeBits fun u hu => ?_
    refine ReadsOn.takeBits (s := u.setSmp _ _ 0 _) hu.same fun u hu => ?_
    exact ReadsOn.takeBits (s := u.setSmp _ _ 1 _) hu.same fun u hu => .next hu.same
  all_goals exact hs.takeBits fun u hu => .next hu.same

theorem exec_allocates_reads {K : SubCtx → Prop} {sb : Fin 32} {ch : Fin 2} {i : Instr} (hi : Allocates K sb ch i)
    (hs : ReadsOn r s) : Reads r (exec i s) := by
  cases hi <;> simp only [exec, execL1Alloc, execL1AllocCorrupt, execL2Alloc]
  case l1AllocCorrupt =>
    refine hs.takeBits fun u hu => .ite (.next (ReadsOn.fail (s := u.crcAdd 15 4) hu.same ..)) (.next hu.same)
  all_goals exact hs.takeBits fun u hu => .next hu.same

theorem exec_crcCheck_reads (hs : ReadsOn r s) : Reads r (exec .crcCheck s) :=
  .ite (.ite (.next (hs.fail ..)) (.next hs.same)) (.next hs)

theorem runField_reads {fmt : Format} (h : ∀ w i, decode fmt w = .ok i → Reads r (exec i s)) :
    Reads r (runField fmt s) := by
  intro t e
  obtain ⟨i, hi, e⟩ := runField_eq_next e
  exact h _ i hi t e

theorem runField_data_reads {fmt : Format} (hf : DataFormat fmt) (hs : ReadsOn r s) : Reads r (runField fmt s) :=
  runField_reads fun _ _ hi => exec_readsData_reads (decode_readsData hf hi) hs

/-! ### The loops -/

theorem ReadsOn.closeAlloc (h : ReadsOn r s) (sb : Fin 32) : ReadsOn r (s.closeAlloc sb) := by
  unfold State.closeAlloc
  dsimp only
  split <;> exact h.same

theorem readAllocations_reads {K : SubCtx → Prop} {limit : Nat} {fmt : Fin 32 → Fin 2 → Format}
    (halloc : ∀ sb ch w i, decode (fmt sb ch) w = .ok i → Allocates K sb ch i) (hs : ReadsOn r s) :
    Reads r (readAllocations limit fmt s) :=
  Reads.forEach (fun sb _ hu => Reads.andThen
    (Reads.forEach (fun ch _ hv => runField_reads fun w i hi => exec_allocates_reads (halloc sb ch w i hi) hv) hu)
    fun _ hv => .next (hv.closeAlloc sb)) hs

theorem ReadsOn.clearSbst (h : ReadsOn r s) (sbs : List (Fin 32)) :
    ReadsOn r (sbs.foldl (fun s sb => s.setSbst sb .unalloc) s) := by
  induction sbs generalizing s with
  | nil => exact h
  | cons sb rest ih => exact ih h.same

theorem ReadsOn.advanceSbst (h : ReadsOn r s) (sb : Fin 32) (old new : SubState) :
    ReadsOn r (s.advanceSbst sb old new) := by
  unfold State.advanceSbst
  split
  · exact h.same
  · exact h

theorem forAllocated_reads {nch : Nat} {sb : Fin 32} {body : Fin 2 → State → Result}
    (hb : ∀ ch u, ReadsOn r u → Reads r (body ch u)) (hs : ReadsOn r s) : Reads r (forAllocated nch sb body s) :=
  Reads.forEach (fun ch u hu => .ite (hb ch u hu) (.next hu)) hs

theorem l1SubbandScalefactors_reads (sb : Fin 32) (hs : ReadsOn r s) : Reads r (l1SubbandScalefactors sb s) := by
  have hfield (ch : Fin 2) (u : State) (hu : ReadsOn r u) := runField_data_reads (.l1Scalefactor sb ch) hu
  exact .ite (forAllocated_reads hfield hs) (.ite (Reads.forEach hfield hs) (.next hs))

theorem l2SubbandScalefactors_reads (sb : Fin 32) (hs : ReadsOn r s) : Reads r (l2SubbandScalefactors sb s) :=
  forAllocated_reads (fun ch _ hu => runField_data_reads (.l2Scalefactor sb ch _) hu) hs

/-- The format of a sample field, of either layer. -/
theorem sampleFormat_dataFormat (s : State) (sb : Fin 32) (ch : Fin 2) :
    DataFormat (if s.isLayerI then .l1Sample sb ch (s.sub ch sb).alloc else s.tripletFormat sb ch) := by
  unfold State.tripletFormat
  split
  · exact .l1Sample ..
  · split
    · exact .l2Grouped ..
    · exact .l2Ungrouped ..

theorem subbandSamples_reads (sb : Fin 32) (hs : ReadsOn r s) : Reads r (subbandSamples sb s) :=
  (forAllocated_reads (fun ch u hu => runField_data_reads (sampleFormat_dataFormat u sb ch) hu) hs).andThen
    fun _ hu => .next (hu.advanceSbst ..)

end Sys2Proof.Machine
end

section
/-! The steps of the block outside SAMPLES: the script and the filters are left alone, and the sequencer moves as the
table of 45_orchestrator.md R142 says. -/
namespace Sys2Proof.Machine

variable {r s t u : State} {g : State → State}

/-- From `s` fields of the frame were read, and then the step failed, or it ended with `g`. -/
def ReadsThen (g : State → State) (s t : State) : Prop :=
  (ReadsOn s t ∧ t.seq = .failed) ∨ ∃ u, ReadsOn s u ∧ t = g u

/-- A step that leaves the script and the filters alone and moves the sequencer by the table. -/
structure MovesOn (s t : State) : Prop where
  script : t.script = s.script
  filt : t.filt = s.filt
  seq : t.seq ∈ s.seq.successors

/-! ### Steps that read fields -/

theorem Reads.thenNext {o : Result} (ho : Reads s o) (e : Machine.andThen o (fun u => .next (g u)) = .next t) :
    ReadsThen g s t := by
  obtain ⟨u, hu, ⟨hf, rfl⟩ | ⟨-, e⟩⟩ := andThen_eq_next e
  · exact .inl ⟨ho _ hu, hf⟩
  · cases e
    exact .inr ⟨u, ho u hu, rfl⟩

theorem allocStep_cases (e : allocStep s = .next t) :
    ReadsThen (fun u => { u with seq := if s.hdr.raw.layer = 0b11#2 then .scalefactors else .scfsi }) s t := by
  have hs := ReadsOn.refl s
  unfold allocStep at e
  split at e
  · next hl =>
    rw [if_pos (beq_iff_eq.1 hl)]
    rw [l1AllocStep, ← andThen_assoc] at e
    exact ((readAllocations_reads (fun _ _ _ _ => decode_l1Alloc_allocates) hs).andThen
      fun _ => exec_crcCheck_reads).thenNext e
  · next hl =>
    rw [if_neg fun h => hl (beq_iff_eq.2 h)]
    split at e
    · refine ((readAllocations_reads (fun _ _ _ _ => decode_l2Alloc_allocates) hs).thenNext e).imp id ?_
      rintro ⟨u, hu, rfl⟩
      exact ⟨_, hu.clearSbst (subbandsIn u.hdr.sblimit 32), rfl⟩
    · cases e

theorem scfsiStep_cases (e : scfsiStep s = .next t) : ReadsThen (fun u => { u with seq := .scalefactors }) s t := by
  rw [scfsiStep, ← andThen_assoc] at e
  refine (Reads.andThen (Reads.forEach (fun sb u hu => ?_) (.refl s)) fun _ => exec_crcCheck_reads).thenNext e
  exact forAllocated_reads (fun ch _ hv => runField_data_reads (.l2Scfsi sb ch) hv) hu

theorem scalefactorsStep_cases (e : scalefactorsStep s = .next t) : ReadsThen State.enterSamples s t :=
  (Reads.forEach (fun sb _ hu => (Reads.ite (l1SubbandScalefactors_reads sb hu)
    (l2SubbandScalefactors_reads sb hu)).andThen fun _ hv => .next (hv.advanceSbst ..)) (.refl s)).thenNext e

theorem finishFetch_cases (hs : ReadsOn r s) (e : finishFetch s = .next t) :
    ReadsThen (fun u => { u with seq := .alloc }) r t := by
  have hstart : ReadsOn r s.startFrame := by
    rw [s.startFrame_eq]
    exact hs.same
  have hword (c : BitVec 16) : Reads r (execCrcWord c s.startFrame) := hstart.takeBits fun _ hu => .next hu.same
  exact (Reads.ite (hword _) (.next hstart)).thenNext e

/-! ### HEADER -/

theorem markStart_readsOn (s : State) : ReadsOn s s.markStart := by
  rw [s.markStart_eq]
  exact (ReadsOn.refl s).same

theorem collectByte_readsOn (s : State) (b : Byte) (rest : List Byte) : ReadsOn s (s.collectByte b rest) := by
  rw [collectByte_eq]
  exact (ReadsOn.refl s).same

/-- READ_HEADER_BYTES waits or goes on in HEADER, ends the stream, or runs PARSE_HEADER. -/
theorem headerStep_cases (e : execReadHeaderBytes s = .next t) :
    ReadsOn s t ∨ t = { s.markStart with seq := .done } ∨
      ∃ h u, ReadsOn s u ∧ parseHeader h u = .next t := by
  cases havail : s.src.avail with
  | nil =>
    cases heos : s.src.eos with
    | false =>
      rw [execReadHeaderBytes_waiting havail heos] at e
      cases e
      exact .inl (.refl s)
    | true =>
      rw [execReadHeaderBytes_eos havail heos] at e
      injection e with e
      obtain ⟨-, rfl⟩ | ⟨-, rfl⟩ := ite_eq_iff.1 e
      · exact .inr (.inl rfl)
      · exact .inl ((markStart_readsOn s).fail ..)
  | cons b rest =>
    have hcollect := collectByte_readsOn s b rest
    rw [execReadHeaderBytes_byte havail] at e
    obtain ⟨-, e⟩ | ⟨-, e⟩ := ite_eq_iff.1 e
    · obtain ⟨-, e⟩ | ⟨-, e⟩ := ite_eq_iff.1 e
      · exact .inr (.inr ⟨_, _, hcollect, e⟩)
      · cases e
        exact .inl hcollect
    · cases e

/-! ### FETCH -/

/-- FETCH_FRAME waits, goes on or fails in FETCH, or ends it. -/
theorem fetchStep_cases (e : execFetchFrame s = .next t) :
    ReadsOn s t ∨ ReadsThen (fun u => { u with seq := .alloc }) s t := by
  by_cases hend : s.flen.toNat ≤ s.framePos
  · rw [execFetchFrame_end hend] at e
    exact .inr (finishFetch_cases (.refl s) e)
  have hpos := not_le.1 hend
  cases havail : s.src.avail with
  | nil =>
    cases heos : s.src.eos with
    | false =>
      rw [execFetchFrame_waiting hpos havail heos] at e
      cases e
      exact .inl (.refl s)
    | true =>
      rw [execFetchFrame_eos hpos havail heos] at e
      cases e
      exact .inl ((ReadsOn.refl s).fail ..)
  | cons b rest =>
    have hfetch : ReadsOn s (s.fetchByte b rest) := (ReadsOn.refl s).same
    rw [execFetchFrame_byte hpos havail] at e
    obtain ⟨-, e⟩ | ⟨-, e⟩ := ite_eq_iff.1 e
    · obtain ⟨-, e⟩ | ⟨-, e⟩ := ite_eq_iff.1 e
      · exact .inr (finishFetch_cases hfetch e)
      · cases e
        exact .inl hfetch
    · cases e

/-! ### The table -/

theorem ReadsOn.movesOn (h : ReadsOn s t) (hstay : s.seq ∈ s.seq.successors) (hfail : .failed ∈ s.seq.successors) :
    MovesOn s t :=
  ⟨h.script, h.filt, h.seq.elim (fun e => e ▸ hstay) fun e => e ▸ hfail⟩

theorem ReadsThen.movesOn {next : SeqState} (h : ReadsThen g s t) (hfail : .failed ∈ s.seq.successors)
    (hnext : next ∈ s.seq.successors) (hg : ∀ u, g u = { g u with script := u.script, filt := u.filt, seq := next }) :
    MovesOn s t := by
  obtain ⟨h, hf⟩ | ⟨u, hu, rfl⟩ := h
  · exact ⟨h.script, h.filt, hf ▸ hfail⟩
  · rw [hg u]
    exact ⟨hu.script, hu.filt, hnext⟩

theorem headerStep_movesOn (hseq : s.seq = .header) (e : execReadHeaderBytes s = .next t) : MovesOn s t := by
  have hmem (next : SeqState) (h : next ∈ SeqState.header.successors) : next ∈ s.seq.successors := hseq ▸ h
  obtain h | rfl | ⟨h, u, hu, e⟩ := headerStep_cases e
  · exact h.movesOn (hseq ▸ by decide) (hseq ▸ by decide)
  · have hmark := markStart_readsOn s
    exact ⟨hmark.script, hmark.filt, hmem .done (by decide)⟩
  · obtain ⟨w, code, detail, -, rfl⟩ | ⟨-, rfl⟩ := parseHeader_cases e
    · exact ⟨hu.script, hu.filt, hmem .failed (by decide)⟩
    · exact ⟨hu.script, hu.filt, hmem .fetch (by decide)⟩

theorem awaitSyncStep_movesOn (hseq : s.seq = .awaitSync) : MovesOn s (awaitSyncStep s) := by
  unfold awaitSyncStep
  split
  · exact ⟨rfl, rfl, hseq ▸ (by decide : SeqState.stopped ∈ SeqState.awaitSync.successors)⟩
  · exact ⟨rfl, rfl, hseq ▸ (by decide : SeqState.header ∈ SeqState.awaitSync.successors)⟩

theorem emitStep_movesOn (hseq : s.seq = .emit) (e : execEmit s = .next t) : MovesOn s t := by
  have hstay : s.seq ∈ s.seq.successors := hseq ▸ by decide
  cases hb : s.ob[s.obRd]? with
  | none =>
    rw [execEmit, hb] at e
    cases e
  | some b =>
    cases hready : s.sinkReady with
    | false =>
      rw [execEmit_waiting hb hready] at e
      cases e
      exact ⟨rfl, rfl, hstay⟩
    | true =>
      rw [execEmit_ready hb hready] at e
      injection e with e
      obtain ⟨-, rfl⟩ | ⟨-, rfl⟩ := ite_eq_iff.1 e
      · exact ⟨rfl, rfl, hseq ▸ (by decide : SeqState.awaitSync ∈ SeqState.emit.successors)⟩
      · exact ⟨rfl, rfl, hstay⟩

/-- 45_orchestrator.md R142, outside SAMPLES. -/
theorem blockStep_movesOn (hseq : s.seq ≠ .samples) (e : blockStep s = .next t) : MovesOn s t := by
  have hidle (h : s.seq ∈ s.seq.successors) : MovesOn s s := ⟨rfl, rfl, h⟩
  cases hs : s.seq <;> simp only [blockStep, hs] at e
  case idle | done | stopped | failed => cases e; exact hidle (hs ▸ by decide)
  case awaitSync => cases e; exact awaitSyncStep_movesOn hs
  case header => exact headerStep_movesOn hs e
  case fetch =>
    obtain h | h := fetchStep_cases e
    · exact h.movesOn (hs ▸ by decide) (hs ▸ by decide)
    · exact h.movesOn (next := .alloc) (hs ▸ by decide) (hs ▸ by decide) fun _ => rfl
  case alloc =>
    refine (allocStep_cases e).movesOn (hs ▸ by decide) ?_ fun _ => rfl
    rw [hs]
    split <;> decide
  case scfsi => exact (scfsiStep_cases e).movesOn (next := .scalefactors) (hs ▸ by decide) (hs ▸ by decide) fun _ => rfl
  case scalefactors =>
    exact (scalefactorsStep_cases e).movesOn (next := .samples) (hs ▸ by decide) (hs ▸ by decide) fun _ => rfl
  case samples => exact absurd hs hseq
  case emit => exact emitStep_movesOn hs e

end Sys2Proof.Machine
end

section
/-! The SAMPLES step: what a step that does not fail does to the counters, OB and the filters (O51), and that the
sequencer moves by the table (O48). -/
namespace Sys2Proof.Machine

variable {s t u : State} {n sn : Nat}

/-! ### The synthesis of a slot -/

theorem State.synthStep_input (s : State) (f : Fin 2) (k : Fin 32) : ((s.synthStep f).filt[f]).s[k] = 0 := by
  rw [s.synthStep_eq f]
  simp

theorem State.synthStep_filt_other (s : State) {f g : Fin 2} (h : g ≠ f) : (s.synthStep f).filt[g] = s.filt[g] := by
  have hne : (f : Nat) ≠ g := fun e => h (Fin.ext e.symm)
  rw [s.synthStep_eq f]
  simp [hne]

theorem synthesize_eq (hlive : s.seq ≠ .failed) :
    synthesize s = .next (if s.hdr.nchOut = 2 then (s.synthStep 0).synthStep 1 else s.synthStep 0) := by
  have h0 := s.synthStep_eq 0
  have hhdr : (s.synthStep 0).hdr = s.hdr := by rw [h0]
  have hseq : (s.synthStep 0).seq ≠ .failed := by rw [h0]; exact hlive
  refine (andThen_next hseq).trans ?_
  rw [hhdr]
  split <;> rfl

/-- The input of a filter that has stepped is 0 (44_synthesis_filter.md R134). -/
theorem synthesize_input (hlive : s.seq ≠ .failed) (e : synthesize s = .next t) {f : Fin 2}
    (hf : f = 0 ∨ s.hdr.nchOut = 2) (k : Fin 32) : (t.filt[f]).s[k] = 0 := by
  rw [synthesize_eq hlive] at e
  injection e with e
  obtain ⟨-, rfl⟩ | ⟨hone, rfl⟩ := ite_eq_iff.1 e
  · match f with
    | 0 =>
      rw [State.synthStep_filt_other _ (by decide)]
      exact s.synthStep_input 0 k
    | 1 => exact State.synthStep_input _ 1 k
  · obtain rfl := hf.resolve_right hone
    exact s.synthStep_input 0 k

/-! ### A slot -/

/-- From `s`, whose counters `l1n` and `gn` are those of the next slot, the samples of the slot were read and put, the
filters stepped, and the slot ended with `sn` as the next sample index. -/
def CompletesSlot (nslots sn : Nat) (s t : State) : Prop :=
  ∃ u filt ob, Advances (fun _ => True) s u ∧ synthesize u = .next { u with filt := filt, ob := ob } ∧
    t = State.finishSlot { u with filt := filt, ob := ob, sn := sn } nslots

/-- The puts and the synthesis of a slot, then its end. -/
theorem slot_completes {limit : Nat} {g f : State → State} (hlive : s.seq ≠ .failed)
    (hg : ∀ u, Advances (fun _ => True) u (g u)) (hf : ∀ u, u.sn = s.sn → f u = State.finishSlot { u with sn := sn } n)
    (e : andThen (putAll limit s) (fun u => andThen (synthesize (g u)) fun v => .next (f v)) = .next t) :
    t.seq = .failed ∨ CompletesSlot n sn s t := by
  obtain ⟨u, hu, ⟨hfail, rfl⟩ | ⟨hu', e⟩⟩ := andThen_eq_next e
  · exact .inl hfail
  have hsu := ((putAll_outcome (K := fun _ => True) hlive hu).resolve_left fun h => hu' h.seq).trans (hg u)
  have hlive' : (g u).seq ≠ .failed := hsu.seq ▸ hlive
  obtain ⟨v, hv, hcase⟩ := andThen_eq_next e
  obtain ⟨hframe, -⟩ := synthesize_eq_next hlive' hv
  obtain ⟨hfail, -⟩ | ⟨-, e⟩ := hcase
  · rw [hframe] at hfail
    exact absurd hfail hlive'
  · injection e with e
    have hsn : v.sn = s.sn := by
      rw [hframe]
      exact (congrArg State.sn hsu.frame :)
    refine .inr ⟨g u, v.filt, v.ob, hsu, hframe ▸ hv, ?_⟩
    rw [← e, hf v hsn, hframe]

/-- Reading samples changes frame data, and then the counters are updated. -/
theorem readSamples_eq_next {limit : Nat} {g : State → State} (hlive : s.seq ≠ .failed)
    (e : andThen (forEach (subbandsIn 0 limit) subbandSamples s) (fun u => .next (g u)) = .next t) :
    t.seq = .failed ∨ ∃ u, Advances (fun _ => True) s u ∧ t = g u := by
  obtain ⟨u, hu, ⟨hfail, rfl⟩ | ⟨hu', e⟩⟩ := andThen_eq_next e
  · exact .inl hfail
  have hsu := outcome_forEach (K := fun _ => True) (fun _ _ _ _ hv e => subbandSamples_outcome hv e) hlive hu
  cases e
  exact .inr ⟨u, hsu.resolve_left fun h => hu' h.seq, rfl⟩

theorem CompletesSlot.of_advances (h : CompletesSlot n sn u t) (hsu : Advances (fun _ => True) s u) :
    CompletesSlot n sn s t := by
  obtain ⟨v, filt, ob, huv, h⟩ := h
  exact ⟨v, filt, ob, hsu.trans huv, h⟩

/-- The next slot index of a Layer I frame (45_orchestrator.md R149). -/
def State.nextL1n (s : State) : State := { s with l1n := if s.l1n + 1 = 12 then 0 else s.l1n + 1 }

/-- The triplet a Layer II slot reads or goes on with (45_orchestrator.md R150). -/
def State.nextGn (s : State) : State := { s with gn := if s.sn = 0 then s.gn + 1 else s.gn }

theorem Advances.nextL1n {K : SubCtx → Prop} (h : Advances K s u) : Advances K s.nextL1n u.nextL1n :=
  ⟨congrArg State.nextL1n h.frame, h.cursor, h.kept⟩

theorem Advances.nextGn {K : SubCtx → Prop} (h : Advances K s u) : Advances K s.nextGn u.nextGn :=
  ⟨congrArg State.nextGn h.frame, h.cursor, h.kept⟩

theorem l1SamplesStep_completes (hlive : s.seq ≠ .failed) (e : l1SamplesStep s = .next t) :
    t.seq = .failed ∨ CompletesSlot 12 s.sn s.nextL1n t := by
  obtain ⟨u, hu, ⟨hfail, rfl⟩ | ⟨hu', e⟩⟩ := andThen_eq_next e
  · exact .inl hfail
  obtain ⟨v, hsv, rfl⟩ := (readSamples_eq_next (g := State.nextL1n) hlive hu).resolve_left hu'
  have hsn : v.sn = s.sn := (congrArg State.sn hsv.frame :)
  refine (slot_completes hu' Advances.rearm (fun w hw => ?_) e).imp_right fun h => h.of_advances hsv.nextL1n
  rw [← hsn, ← show w.sn = v.sn from hw]

theorem l2SamplesStep_completes (hlive : s.seq ≠ .failed) (e : l2SamplesStep s = .next t) :
    t.seq = .failed ∨ CompletesSlot 36 (if s.sn + 1 = 3 then 0 else s.sn + 1) s.nextGn t := by
  obtain ⟨u, hu, ⟨hfail, rfl⟩ | ⟨hu', e⟩⟩ := andThen_eq_next e
  · exact .inl hfail
  have hread : Advances (fun _ => True) s.nextGn u := by
    split at hu
    · next h0 =>
      obtain ⟨v, hsv, rfl⟩ := (readSamples_eq_next hlive hu).resolve_left hu'
      have hsn : v.sn = 0 := (congrArg State.sn hsv.frame :).trans h0
      have hnext : v.nextGn = { v with gn := v.gn + 1, sn := 0 } := by rw [State.nextGn, if_pos hsn, ← hsn]
      exact hnext ▸ hsv.nextGn
    · next h0 =>
      cases hu
      rw [State.nextGn, if_neg h0]
      exact .refl s
  have hg (v : State) : Advances (fun _ => True) v (if v.sn = 2 then v.rearm else v) := by
    split
    · exact .rearm v
    · exact .refl v
  refine (slot_completes hu' hg (fun w hw => ?_) e).imp_right fun h => h.of_advances hread
  have hsn : u.sn = s.sn := (congrArg State.sn hread.frame :)
  rw [hw, hsn]

/-! ### What a completed slot leaves -/

section
variable (h : CompletesSlot n sn s t)
include h

theorem CompletesSlot.seq (hseq : s.seq = .samples) : t.seq = if s.slot + 1 = n then .emit else .samples := by
  obtain ⟨u, filt, ob, hsu, -, rfl⟩ := h
  have hslot : u.slot = s.slot := (congrArg State.slot hsu.frame :)
  change (if u.slot + 1 = n then SeqState.emit else u.seq) = _
  rw [hslot, hsu.seq, hseq]

theorem CompletesSlot.counters : t.slot = s.slot + 1 ∧ t.l1n = s.l1n ∧ t.gn = s.gn ∧ t.sn = sn := by
  obtain ⟨u, filt, ob, hsu, -, rfl⟩ := h
  have hslot : u.slot = s.slot := (congrArg State.slot hsu.frame :)
  exact ⟨congrArg (· + 1) hslot, (congrArg State.l1n hsu.frame :), (congrArg State.gn hsu.frame :), rfl⟩

theorem CompletesSlot.ob_length (hlive : s.seq ≠ .failed) : t.ob.length = max s.ob.length (32 * s.slot + 32) := by
  obtain ⟨u, filt, ob, hsu, hsynth, rfl⟩ := h
  have hob : u.ob = s.ob := (congrArg State.ob hsu.frame :)
  have hslot : u.slot = s.slot := (congrArg State.slot hsu.frame :)
  rw [← hob, ← hslot]
  exact (synthesize_eq_next (hsu.seq ▸ hlive) hsynth).2

theorem CompletesSlot.input (hlive : s.seq ≠ .failed) {f : Fin 2} (hf : f = 0 ∨ s.hdr.nchOut = 2) (k : Fin 32) :
    (t.filt[f]).s[k] = 0 := by
  obtain ⟨u, filt, ob, hsu, hsynth, rfl⟩ := h
  have hcleared := synthesize_input (hsu.seq ▸ hlive) hsynth (hsu.hdr ▸ hf) k
  exact hcleared

/-- The end of a slot, where OB held the slots before it. -/
theorem CompletesSlot.ends (hseq : s.seq = .samples) (hob : s.ob.length = 32 * s.slot) :
    t.slot = s.slot + 1 ∧ t.ob.length = s.ob.length + 32 ∧
      t.seq = (if s.slot + 1 = n then .emit else .samples) ∧ (∀ k : Fin 32, (t.filt[(0 : Fin 2)]).s[k] = 0) ∧
      (s.hdr.nchOut = 2 → ∀ k : Fin 32, (t.filt[(1 : Fin 2)]).s[k] = 0) := by
  have hlive : s.seq ≠ .failed := by simp [hseq]
  have hlen := h.ob_length hlive
  exact ⟨h.counters.1, by omega, h.seq hseq, h.input hlive (.inl rfl), fun htwo => h.input hlive (.inr htwo)⟩

end

/-! ### The step, of either layer -/

/-- A SAMPLES step that does not fail completes a slot, with the counters of its layer (45_orchestrator.md R149,
R150). -/
theorem samplesStep_completes (hlive : s.seq ≠ .failed) (e : samplesStep s = .next t) :
    t.seq = .failed ∨
      if s.isLayerI then CompletesSlot 12 s.sn s.nextL1n t
      else CompletesSlot 36 (if s.sn + 1 = 3 then 0 else s.sn + 1) s.nextGn t := by
  unfold samplesStep at e
  split at e
  · next hl =>
    rw [if_pos hl]
    exact l1SamplesStep_completes hlive e
  · next hl =>
    rw [if_neg hl]
    exact l2SamplesStep_completes hlive e

theorem blockStep_samples (hseq : s.seq = .samples) : blockStep s = samplesStep s := by rw [blockStep, hseq]

/-- 45_orchestrator.md R142, of SAMPLES. -/
theorem samplesStep_seq (hseq : s.seq = .samples) (e : samplesStep s = .next t) :
    t.seq ∈ SeqState.samples.successors := by
  have hends {n sn : Nat} {u : State} (hu : u.seq = .samples) (h : CompletesSlot n sn u t) :
      t.seq ∈ SeqState.samples.successors := by
    rw [h.seq hu]
    split <;> decide
  obtain hf | h := samplesStep_completes (by simp [hseq]) e
  · rw [hf]
    decide
  · split at h
    · exact hends (u := s.nextL1n) hseq h
    · exact hends (u := s.nextGn) hseq h

/-- 45_orchestrator.md R142, of every step of the block. -/
theorem blockStep_seq (e : blockStep s = .next t) : t.seq ∈ s.seq.successors := by
  by_cases hseq : s.seq = .samples
  · rw [blockStep_samples hseq] at e
    exact hseq ▸ samplesStep_seq hseq e
  · exact (blockStep_movesOn hseq e).seq

theorem blockStep_script (e : blockStep s = .next t) : t.script = s.script := by
  by_cases hseq : s.seq = .samples
  · exact (congrArg State.script (blockStep_onlyProgress (by simp [hseq]) t e) :)
  · exact (blockStep_movesOn hseq e).script

end Sys2Proof.Machine

namespace Sys2Proof
open Machine

/-- Settles O51: the step completes a slot of its layer; the invariant gives the number of slots and the beats before
it. -/
theorem samplesStepCompletesSlot : Obligations.SamplesStepCompletesSlot := by
  intro s t hs hturn hseq e hlive
  let r : State := { s with script := s.script.tail }
  have hstart : s.seq ≠ .failed := by simp [hseq]
  have hob : s.ob.length = 32 * s.slot := (hs.obSamples hseq).1
  have hnslots := (hs.inFrame (hseq ▸ rfl)).hdrLegal.nslots
  have hstep : samplesStep r = .next t := (blockStep_samples (s := r) hseq).symm.trans (step_blockTurn hturn ▸ e)
  have h := (samplesStep_completes (s := r) hstart hstep).resolve_left hlive
  cases hl : s.isLayerI with
  | true =>
    have hlayer : s.hdr.raw.layer = 0b11#2 := beq_iff_eq.1 hl
    have h : CompletesSlot 12 s.sn r.nextL1n t := (if_pos hl).mp h
    obtain ⟨-, hl1n, -, -⟩ := h.counters
    obtain ⟨hslot, hlen, hnext, hin0, hin1⟩ := h.ends hseq hob
    rw [hnslots.trans (if_pos hl)]
    refine ⟨hslot, hlen, hnext, hin0, hin1, fun _ => hl1n.trans ?_, fun hne => absurd hlayer hne⟩
    simp [State.nextL1n, r]
  | false =>
    have hlayer : s.hdr.raw.layer ≠ 0b11#2 := fun e => ne_true_of_eq_false hl (beq_iff_eq.2 e)
    have h : CompletesSlot 36 (if s.sn + 1 = 3 then 0 else s.sn + 1) r.nextGn t :=
      (if_neg (ne_true_of_eq_false hl)).mp h
    obtain ⟨-, -, hgn, hsn⟩ := h.counters
    obtain ⟨hslot, hlen, hnext, hin0, hin1⟩ := h.ends hseq hob
    rw [hnslots.trans (if_neg (ne_true_of_eq_false hl))]
    exact ⟨hslot, hlen, hnext, hin0, hin1, fun e => absurd e hlayer, fun _ => ⟨hgn, hsn.trans (by simp)⟩⟩

/-- Settles O48: outside SAMPLES by what the block's steps read and how they end, in SAMPLES by the slot it
completes. -/
theorem sequencerMovesByTable : Obligations.SequencerMovesByTable := by
  intro s t hturn e r
  rw [step_blockTurn hturn] at e
  have hblock : blockStep r = .next t := e
  refine ⟨blockStep_seq (s := r) e, blockStep_script (s := r) e, ?_, fun hseq => ?_, fun hseq hlive => ?_,
    fun _ hseq => ?_⟩
  · rintro (hseq | hseq | hseq | hseq) <;>
    · rw [blockStep, show r.seq = _ from hseq] at hblock
      injection hblock with h
      exact h.symm
  · rw [blockStep, show r.seq = _ from hseq] at hblock
    injection hblock with h
    exact h.symm
  · rw [blockStep, show r.seq = _ from hseq] at hblock
    obtain ⟨-, hf⟩ | ⟨u, -, rfl⟩ := allocStep_cases hblock
    · exact absurd hf hlive
    · rfl
  · rw [blockStep, show r.seq = _ from hseq] at hblock
    obtain ⟨-, hf⟩ | ⟨u, -, rfl⟩ := scalefactorsStep_cases hblock
    · simp_all
    · exact ⟨rfl, rfl, rfl, rfl, rfl, rfl⟩

end Sys2Proof
end

section
/-! The filters (O56): a reset and a fresh START clear them, and otherwise only a SAMPLES step changes them, filter 1
only in a frame with two output channels. -/
namespace Sys2Proof.Machine

variable {s t u : State}

/-! ### The events outside -/

/-- The filters are all zero after a step that clears the block, and kept by another. -/
def FiltersCleared (clears : Prop) (s t : State) : Prop :=
  (clears → t.filt = State.reset.filt) ∧ (¬clears → t.filt = s.filt)

theorem FiltersCleared.of_kept {p : Prop} (hp : ¬p) (h : t.filt = s.filt) : FiltersCleared p s t :=
  ⟨fun hp' => absurd hp' hp, fun _ => h⟩

theorem FiltersCleared.of_cleared {p : Prop} (hp : p) (h : t.filt = State.reset.filt) : FiltersCleared p s t :=
  ⟨fun _ => h, fun hp' => absurd hp hp'⟩

theorem State.startCommand_filt_kept (hidle : s.seq ≠ .idle) (hdone : s.seq ≠ .done) :
    s.startCommand.filt = s.filt := by
  by_cases hstopped : s.seq = .stopped
  · rw [State.startCommand_stopped hstopped]
    rfl
  · rw [State.startCommand_elsewhere hidle hdone hstopped]

theorem exec_decodeCtrl_filt {v : CtrlWrite} (e : exec (decodeCtrl v) s = .next t) :
    FiltersCleared (s.ClearedBy (decodeCtrl v)) s t := by
  obtain hi | hi | hi | hi := decodeCtrl_cases v <;> rw [hi] at e ⊢
  · cases e
    exact .of_cleared ⟨v, .inl rfl⟩ rfl
  · rw [exec_ctrlStart] at e
    cases e
    by_cases hseq : s.seq = .idle ∨ s.seq = .done
    · refine .of_cleared ⟨v, .inr ⟨rfl, hseq⟩⟩ ?_
      rw [State.startCommand_fresh (s := s.storeCtrl v) hseq]
      rfl
    · obtain ⟨hidle, hdone⟩ := not_or.1 hseq
      refine .of_kept ?_ (State.startCommand_filt_kept (s := s.storeCtrl v) hidle hdone)
      rintro ⟨v', hv | ⟨-, h⟩⟩
      · cases hv
      · exact hseq h
  all_goals
    cases e
    refine .of_kept ?_ rfl
    rintro ⟨v', hv | ⟨hv, -⟩⟩ <;> cases hv

theorem envStep_filt {e : EnvEvent} {rest : List EnvEvent} (hscript : s.script = e :: rest) (hne : e ≠ .block)
    (h : envStep e { s with script := rest } = .next t) : FiltersCleared s.nextClears s t := by
  have hclears := nextClears_iff hscript
  cases e with
  | block => exact absurd rfl hne
  | hardReset => cases h; exact .of_cleared (hclears.2 (.inl rfl)) rfl
  | csrRead off n => exact .of_kept (by simp [hclears]) (hostRead_eq_next h ▸ rfl)
  | csrWrite off lanes =>
    obtain ⟨rfl, hexec⟩ | ⟨h0, rfl⟩ := hostWrite_eq_next h
    · rw [nextClears_ctrlWrite hscript]
      exact exec_decodeCtrl_filt (s := { s with script := rest }) hexec
    · exact .of_kept (by simpa [hclears] using fun hoff => absurd hoff h0) rfl
  | srcConnect | srcBytes | srcEos | sinkReady => cases h; exact .of_kept (by simp [hclears]) rfl

theorem not_nextClears_of_blockTurn (h : s.blockTurn) : ¬s.nextClears := by
  obtain h | ⟨rest, h⟩ := h
  · simp [State.nextClears, h]
  · simp [nextClears_iff h]

/-! ### Filter 1 in a frame with one output channel -/

/-- Every put goes to filter 0, which is the only one that steps (41_header_parser.md R101). -/
def State.OneOutput (s : State) : Prop := s.hdr.nchOut ≠ 2 ∧ (s.hdr.nch = 1 ∨ s.cfg.chansel ≠ .both)

theorem HdrRecord.legal.oneOutput (h : s.hdr.legal s.cfg.chansel) (hone : s.hdr.nchOut = 1) : s.OneOutput := by
  have hout : s.hdr.nchOut = if s.hdr.nch = 2 ∧ s.cfg.chansel = .both then 2 else 1 := by
    rw [h.2]
    rfl
  have hnot : ¬(s.hdr.nch = 2 ∧ s.cfg.chansel = .both) := fun htwo => by
    rw [hone, if_pos htwo] at hout
    cases hout
  exact ⟨by omega, h.nch.imp_right fun htwo hboth => hnot ⟨htwo, hboth⟩⟩

/-- From `s` to `t` filter 1 was left alone, and so was what says that every put goes to filter 0. -/
structure LeavesFilterOne (s t : State) : Prop where
  hdr : t.hdr = s.hdr
  cfg : t.cfg = s.cfg
  filt : t.filt[(1 : Fin 2)] = s.filt[(1 : Fin 2)]

theorem LeavesFilterOne.refl (s : State) : LeavesFilterOne s s := ⟨rfl, rfl, rfl⟩

theorem LeavesFilterOne.trans {r : State} (h : LeavesFilterOne r s) (h' : LeavesFilterOne s t) : LeavesFilterOne r t :=
  ⟨h'.hdr.trans h.hdr, h'.cfg.trans h.cfg, h'.filt.trans h.filt⟩

theorem LeavesFilterOne.oneOutput (h : LeavesFilterOne s t) (hs : s.OneOutput) : t.OneOutput := by
  rw [State.OneOutput, h.hdr, h.cfg]
  exact hs

theorem ReadsOn.leavesFilterOne (h : ReadsOn s t) : LeavesFilterOne s t :=
  ⟨h.hdr, h.cfg, congrArg (·[(1 : Fin 2)]) h.filt⟩

theorem addSample_zero_leavesFilterOne (s : State) (sb : Fin 32) (x : NumVal) :
    LeavesFilterOne s (s.addSample 0 sb x) :=
  ⟨rfl, rfl, by simp⟩

theorem putMono_leavesFilterOne (s : State) (sb : Fin 32) (k part : Fin 3) :
    LeavesFilterOne s (s.putMono sb k part) := by
  rw [State.putMono_eq]
  split
  · exact .refl s
  · exact addSample_zero_leavesFilterOne ..

theorem putStereo_leavesFilterOne (h : s.cfg.chansel ≠ .both) (sb : Fin 32) (k part : Fin 3) :
    LeavesFilterOne s (s.putStereo sb k part) := by
  rw [State.putStereo_eq, State.stereoRouted]
  split
  case h_3 hboth => exact absurd hboth h
  all_goals
    split
    · exact .refl s
    · exact addSample_zero_leavesFilterOne ..

theorem putIntensity_leavesFilterOne (h : s.cfg.chansel ≠ .both) (sb : Fin 32) (k part : Fin 3) :
    LeavesFilterOne s (s.putIntensity sb k part) := by
  rw [State.putIntensity_eq, State.intensityRouted]
  split
  · exact .refl s
  · split
    case h_3 hboth => exact absurd hboth h
    all_goals exact addSample_zero_leavesFilterOne ..

theorem putL2_leavesFilterOne {put : Fin 3 → Fin 3 → State} (hput : ∀ k part, LeavesFilterOne s (put k part))
    (e : s.putL2 put = .next t) : LeavesFilterOne s t := by
  unfold State.putL2 at e
  split at e <;> cases e
  exact hput ..

theorem exec_putOp_leavesFilterOne (hs : s.OneOutput) (sb : Fin 32) (e : exec (s.putOp sb) s = .next t) :
    LeavesFilterOne s t := by
  have hselected (h : ¬s.hdr.nch = 1) : s.cfg.chansel ≠ .both := hs.2.resolve_left h
  unfold State.putOp at e
  split_ifs at e with hl hmono hbound hmono hbound
  · cases e; exact putMono_leavesFilterOne ..
  · cases e; exact putStereo_leavesFilterOne (hselected hmono) ..
  · cases e; exact putIntensity_leavesFilterOne (hselected hmono) ..
  · exact putL2_leavesFilterOne (put := s.putMono sb) (fun _ _ => putMono_leavesFilterOne ..) e
  · exact putL2_leavesFilterOne (put := s.putStereo sb) (fun _ _ => putStereo_leavesFilterOne (hselected hmono) ..) e
  · exact putL2_leavesFilterOne (put := s.putIntensity sb)
      (fun _ _ => putIntensity_leavesFilterOne (hselected hmono) ..) e

theorem putAll_leavesFilterOne {limit : Nat} (hs : s.OneOutput) (e : putAll limit s = .next t) :
    LeavesFilterOne s t :=
  forEach_keeps (fun sb _ _ _ hu e => hu.trans (exec_putOp_leavesFilterOne (hu.oneOutput hs) sb e)) (.refl s) e

theorem synthesize_leavesFilterOne (hs : s.OneOutput) (hlive : s.seq ≠ .failed) (e : synthesize s = .next t) :
    LeavesFilterOne s t := by
  have hframe := (synthesize_eq_next hlive e).1
  rw [synthesize_eq hlive, if_neg hs.1] at e
  injection e with e
  refine ⟨(congrArg State.hdr hframe :), (congrArg State.cfg hframe :), ?_⟩
  rw [← e]
  exact s.synthStep_filt_other (by decide)

/-- The puts and the synthesis of a slot, then its end. -/
theorem slot_leavesFilterOne {limit : Nat} {g f : State → State} (hs : s.OneOutput)
    (hg : ∀ u, g u = { u with sbst := (g u).sbst }) (hf : ∀ u, LeavesFilterOne u (f u))
    (e : andThen (putAll limit s) (fun u => andThen (synthesize (g u)) fun v => .next (f v)) = .next t) :
    LeavesFilterOne s t := by
  obtain ⟨u, hu, ⟨-, rfl⟩ | ⟨hlive, e⟩⟩ := andThen_eq_next e
  · exact putAll_leavesFilterOne hs hu
  have hsu : LeavesFilterOne s (g u) := by
    rw [hg u]
    exact (putAll_leavesFilterOne hs hu).trans ⟨rfl, rfl, rfl⟩
  have hlive' : (g u).seq ≠ .failed := by
    rw [hg u]
    exact hlive
  obtain ⟨v, hv, hcase⟩ := andThen_eq_next e
  have hsv := hsu.trans (synthesize_leavesFilterOne (hsu.oneOutput hs) hlive' hv)
  obtain ⟨-, rfl⟩ | ⟨-, e⟩ := hcase
  · exact hsv
  · cases e
    exact hsv.trans (hf v)

theorem samplesStep_leavesFilterOne (hs : s.OneOutput) (e : samplesStep s = .next t) : LeavesFilterOne s t := by
  have hread {limit : Nat} : Reads s (forEach (subbandsIn 0 limit) subbandSamples s) :=
    Reads.forEach (fun sb _ hu => subbandSamples_reads sb hu) (.refl s)
  unfold samplesStep at e
  split at e <;> obtain ⟨u, hu, hcase⟩ := andThen_eq_next e
  · have hsu := ((hread.andThen fun v hv => .next hv.same) u hu).leavesFilterOne
    obtain ⟨-, rfl⟩ | ⟨-, e⟩ := hcase
    · exact hsu
    · refine hsu.trans (slot_leavesFilterOne (hsu.oneOutput hs) ?_ ?_ e)
      · exact fun _ => rfl
      · exact fun _ => ⟨rfl, rfl, rfl⟩
  · have hsu := ((Reads.ite (hread.andThen fun v hv => .next hv.same) (.next (.refl s))) u hu).leavesFilterOne
    obtain ⟨-, rfl⟩ | ⟨-, e⟩ := hcase
    · exact hsu
    · refine hsu.trans (slot_leavesFilterOne (hsu.oneOutput hs) (fun v => ?_) ?_ e)
      · split <;> rfl
      · exact fun _ => ⟨rfl, rfl, rfl⟩

end Sys2Proof.Machine

namespace Sys2Proof
open Machine

/-- Settles O56: the events outside by `nextClears`, the block's steps outside SAMPLES by what they leave alone, and in
SAMPLES filter 1 by where the puts go. -/
theorem filtersCarryOver : Obligations.FiltersCarryOver := by
  have hreset {t : State} (h : t.filt = State.reset.filt) (f : Fin 2) :
      (∀ i : Fin 32, (t.filt[f]).s[i] = 0) ∧ ∀ i : Fin 1024, (t.filt[f]).v[i] = 0 := by
    rw [h, State.filt_reset]
    simp [Filter.zero]
  refine ⟨fun s t e => ?_, fun s t hs hturn hseq hone e => ?_⟩
  · by_cases hturn : s.blockTurn
    · refine ⟨fun hclears => absurd hclears (not_nextClears_of_blockTurn hturn), fun _ => ?_⟩
      rw [step_blockTurn hturn] at e
      by_cases hseq : s.seq = .samples
      · exact .inr ⟨hseq, hturn⟩
      · exact .inl (blockStep_movesOn (s := { s with script := s.script.tail }) hseq e).filt
    · cases hscript : s.script with
      | nil => exact absurd (.inl hscript) hturn
      | cons ev rest =>
        rw [step_event hscript] at e
        obtain ⟨hcleared, hkept⟩ := envStep_filt hscript (fun hev => hturn (.inr ⟨rest, hev ▸ hscript⟩)) e
        exact ⟨fun h => hreset (hcleared h), fun h => .inl (hkept h)⟩
  · rw [step_blockTurn hturn, blockStep_samples (by exact hseq)] at e
    have hone' : s.OneOutput := (hs.inFrame (hseq ▸ rfl)).hdrLegal.oneOutput hone
    exact (samplesStep_leavesFilterOne (s := { s with script := s.script.tail }) hone' e).filt

end Sys2Proof
end

section
/-! What the steps run (O46): the loops of ALLOC, SCFSI, SCALEFACTORS and SAMPLES against the lists of their fields and
puts, and what ends each step. -/
namespace Sys2Proof.Machine

variable {s t u : State}

/-! ### ALLOC -/

theorem subbandsIn_zero (limit : Nat) : subbandsIn 0 limit = (List.finRange 32).filter (fun sb => sb.val < limit) := by
  simp [subbandsIn]

theorem forEach_map {α β : Type} (xs : List α) (f : α → β) (body : β → State → Result) (s : State) :
    forEach (xs.map f) body s = forEach xs (fun x => body (f x)) s := by
  induction xs generalizing s with
  | nil => rfl
  | cons x rest ih =>
    rw [List.map_cons, forEach, forEach]
    exact congrArg (andThen _) (funext ih)

theorem flatMap_ite_singleton {α β : Type} (p : α → Prop) [DecidablePred p] (f : α → β) (xs : List α) :
    xs.flatMap (fun x => if p x then [f x] else []) = (xs.filter p).map f := by
  induction xs with
  | nil => rfl
  | cons x rest ih => by_cases h : p x <;> simp [h, ih]

/-- The channels whose codes a subband reads, as the rules say them. -/
theorem val_lt_ite_iff (p : Prop) [Decidable p] (n : Nat) (ch : Fin 2) :
    (ch.val < if p then n else 1) ↔ if p then ch.val < n else ch = 0 := by
  split
  · rfl
  · omega

theorem allocationFields_eq (s : State) (fmt : Fin 32 → Fin 2 → Format) (sb : Fin 32) :
    s.allocationFields fmt sb = (s.allocChannels sb).map (fmt sb) := by
  simp only [State.allocationFields, ← val_lt_ite_iff]
  exact flatMap_ite_singleton ..

/-- The loop over the subbands, with the fields and channels of its start (42_layer1_decode.md R106,
43_layer2_decode.md R118). -/
theorem readAllocations_eq {K : SubCtx → Prop} {limit : Nat} {fmt : Fin 32 → Fin 2 → Format}
    (halloc : ∀ sb ch w i, decode (fmt sb ch) w = .ok i → Allocates K sb ch i) (hlive : s.seq ≠ .failed) :
    readAllocations limit fmt s = s.allocations limit fmt := by
  rw [readAllocations, State.allocations, ← subbandsIn_zero]
  refine forEach_congr (P := ReadsOn s) (fun sb _ v w hv e => ?_) (fun sb _ v hv _ => ?_) (.refl s) hlive
  · refine Reads.andThen (Reads.forEach (fun ch x hx => runField_reads fun w i hi => ?_) hv)
      (fun x hx => .next (hx.closeAlloc sb)) w e
    exact exec_allocates_reads (halloc sb ch w i hi) hx
  · rw [allocationFields_eq, forEach_map, State.allocChannels, State.allocChannels, hv.hdr]

theorem foldl_setSbst_unalloc (sbs : List (Fin 32)) (s : State) :
    sbs.foldl (fun s sb => s.setSbst sb .unalloc) s =
      s.withSbst (Vector.ofFn fun sb => if sb ∈ sbs then .unalloc else s.sbst[sb]) := by
  induction sbs generalizing s with
  | nil => simp [State.withSbst]
  | cons sb rest ih =>
    rw [List.foldl_cons, ih]
    refine congrArg s.withSbst (Vector.ext fun i hi => ?_)
    by_cases h : sb.val = i
    · subst h
      simp
    · have hne : (⟨i, hi⟩ : Fin 32) ≠ sb := fun e => h (congrArg Fin.val e).symm
      simp [h, hne]

theorem blockStep_alloc (h : s.seq = .alloc) : blockStep s = allocStep s := by rw [blockStep, h]

theorem blockStep_alloc_layerI (hseq : s.seq = .alloc) (hl : s.hdr.raw.layer = 0b11#2) :
    blockStep s = andThen (s.allocations 32 .l1Alloc) fun u =>
      andThen (exec .crcCheck u) fun v => .next { v with seq := .scalefactors } := by
  have hlive : s.seq ≠ .failed := by simp [hseq]
  rw [blockStep_alloc hseq, allocStep_layerI hl, l1AllocStep,
    readAllocations_eq (fun _ _ _ _ => decode_l1Alloc_allocates) hlive]

theorem blockStep_alloc_layerII {tab : L2Tab} (hseq : s.seq = .alloc) (hl : s.hdr.raw.layer ≠ 0b11#2)
    (htab : s.hdr.l2tab = some tab) :
    blockStep s = andThen (s.allocations s.hdr.sblimit (.l2Alloc tab)) fun u =>
      .next { u with
        sbst := Vector.ofFn fun sb => if s.hdr.sblimit ≤ sb.val then .unalloc else u.sbst[sb], seq := .scfsi } := by
  have hlive : s.seq ≠ .failed := by simp [hseq]
  have hlayer : ¬s.isLayerI = true := fun e => hl (beq_iff_eq.1 e)
  have hread := readAllocations_reads (limit := s.hdr.sblimit) (fun _ _ _ _ => decode_l2Alloc_allocates (tab := tab))
    (.refl s)
  rw [blockStep_alloc hseq, allocStep, if_neg hlayer, htab,
    ← readAllocations_eq (fun _ _ _ _ => decode_l2Alloc_allocates) hlive]
  refine andThen_congr fun u hu _ => ?_
  have hmem (sb : Fin 32) : sb ∈ subbandsIn u.hdr.sblimit 32 ↔ s.hdr.sblimit ≤ sb.val := by
    rw [(hread u hu).hdr]
    simp
  simp only [foldl_setSbst_unalloc, hmem, State.withSbst]

/-! ### The fields of the allocated channels -/

/-- The field of a channel and subband, if the subband lies below the limit and the channel is one of the first `nch`
and allocated. -/
def State.allocatedField (s : State) (limit nch : Nat) (fmt : Format) (sb : Fin 32) (ch : Fin 2) : List Format :=
  if sb.val < limit ∧ ch.val < nch ∧ (s.sub ch sb).alloc ≠ 0#4 then [fmt] else []

theorem mem_allocatedField {limit nch : Nat} {fmt x : Format} {sb : Fin 32} {ch : Fin 2}
    (h : x ∈ s.allocatedField limit nch fmt sb ch) : x = fmt := by
  unfold State.allocatedField at h
  split at h
  · exact List.mem_singleton.1 h
  · cases h

variable {p : Prop}

/-- One subband of a loop over the allocated channels. -/
theorem forAllocated_limited {limit nch : Nat} {sb : Fin 32} {body : Fin 2 → State → Result} {g : Fin 2 → Format}
    (hu : SameFields p s u) (hlive : u.seq ≠ .failed) (hd : ∀ ch, DataFormat (g ch))
    (hp : p → ∀ ch sb' ch', g ch ≠ .l2Scfsi sb' ch')
    (hb : ∀ ch, (s.sub ch sb).alloc ≠ 0#4 → ∀ w, SameFields p s w → body ch w = runField (g ch) w) :
    (if sb.val < limit then forAllocated nch sb body u else .next u) =
      forEach (List.finRange 2) (fun ch => forEach (s.allocatedField limit nch (g ch) sb ch) runField) u := by
  unfold State.allocatedField
  by_cases h : sb.val < limit
  · rw [if_pos h, forAllocated_eq hu hlive hd hp fun ch _ => hb ch]
    simp only [h, true_and]
  · rw [if_neg h]
    simp only [h, false_and, if_false]
    exact (forEach_skip _ hlive).symm

/-! ### SCFSI -/

theorem blockStep_scfsi (hseq : s.seq = .scfsi) :
    blockStep s = andThen (forEach s.scfsiFields runField s) fun u =>
      andThen (exec .crcCheck u) fun v => .next { v with seq := .scalefactors } := by
  have hlive : s.seq ≠ .failed := by simp [hseq]
  have hblock : blockStep s = scfsiStep s := by rw [blockStep, hseq]
  rw [hblock, scfsiStep, subbandsIn, forEach_filter _ _ _ hlive]
  congr 1
  refine forEach_fieldList (p := False) hlive
    (f := fun sb ch => s.allocatedField s.hdr.sblimit s.hdr.nch (.l2Scfsi sb ch) sb ch)
    (fun sb ch x hx => ?_) (fun e => e.elim) fun sb u hu hu' => ?_
  · exact mem_allocatedField hx ▸ .l2Scfsi sb ch
  · simp only [Nat.zero_le, decide_true, Bool.true_and, decide_eq_true_eq, hu.hdr]
    exact forAllocated_limited hu hu' (fun ch => .l2Scfsi sb ch) (fun e => e.elim) fun _ _ _ _ => rfl

/-! ### SCALEFACTORS -/

/-- The loop answers as the fields in it did, in `u`, but for `sbst`, which is `v` unless a field failed. -/
def EndsWithSbst (loop : Result) (u : State) (v : Vector SubState 32) : Prop :=
  (u.seq = .failed → ∃ v', loop = .next (u.withSbst v')) ∧ (u.seq ≠ .failed → loop = .next (u.withSbst v))

theorem EndsWithSbst.andThen {loop : Result} {v : Vector SubState 32} (h : EndsWithSbst loop u v) (k : State → Result) :
    (u.seq = .failed → ∃ v', Machine.andThen loop k = .next (u.withSbst v')) ∧
      (u.seq ≠ .failed → Machine.andThen loop k = k (u.withSbst v)) := by
  refine ⟨fun hf => ?_, fun hf => ?_⟩
  · obtain ⟨v', hv⟩ := h.1 hf
    exact ⟨v', by rw [hv, andThen_failed (by exact hf)]⟩
  · rw [h.2 hf, andThen_next (by exact hf)]

/-- The fields of a Layer I subband: one for each allocated channel, or, from `bound` on in a two-channel frame, one for
both channels of a subband that is allocated (42_layer1_decode.md R108). -/
def State.l1ScalefactorField (s : State) (sb : Fin 32) (ch : Fin 2) : List Format :=
  if sb.val < s.hdr.bound ∨ s.hdr.nch = 1 then s.allocatedField 32 s.hdr.nch (.l1Scalefactor sb ch) sb ch
  else if (s.sub 0 sb).alloc ≠ 0#4 then [.l1Scalefactor sb ch] else []

theorem mem_l1ScalefactorField {x : Format} {sb : Fin 32} {ch : Fin 2} (h : x ∈ s.l1ScalefactorField sb ch) :
    x = .l1Scalefactor sb ch := by
  unfold State.l1ScalefactorField at h
  split at h
  · exact mem_allocatedField h
  · split at h
    · exact List.mem_singleton.1 h
    · cases h

theorem l1SubbandScalefactors_eq (sb : Fin 32) (hu : SameFields p s u) (hlive : u.seq ≠ .failed) :
    l1SubbandScalefactors sb u =
      forEach (List.finRange 2) (fun ch => forEach (s.l1ScalefactorField sb ch) runField) u := by
  unfold l1SubbandScalefactors State.l1ScalefactorField
  rw [hu.hdr, (hu.code 0 sb).1]
  by_cases hown : sb.val < s.hdr.bound ∨ s.hdr.nch = 1
  · simp only [hown, if_true]
    rw [← forAllocated_limited hu hlive (fun ch => .l1Scalefactor sb ch) (fun _ _ _ _ e => by cases e)
      (fun _ _ _ _ => rfl), if_pos sb.isLt]
  · by_cases ha : (s.sub 0 sb).alloc = 0#4
    · simp only [hown, ha, if_false, ne_eq, not_true_eq_false]
      exact (forEach_skip _ hlive).symm
    · have hone : (fun ch => forEach [.l1Scalefactor sb ch] runField) = fun ch => runField (.l1Scalefactor sb ch) :=
        funext fun _ => funext (forEach_one _ _)
      simp only [hown, ha, if_false, ne_eq, not_false_eq_true, if_true, hone]
      rfl

theorem scalefactorFields_layerI (hl : s.hdr.raw.layer = 0b11#2) :
    s.scalefactorFields = (List.finRange 32).flatMap fun sb => (List.finRange 2).flatMap fun ch =>
      s.l1ScalefactorField sb ch := by
  simp only [State.scalefactorFields, hl, if_true, State.l1ScalefactorField, State.allocatedField, Fin.is_lt, true_and]

theorem scalefactorFields_layerII (hl : s.hdr.raw.layer ≠ 0b11#2) :
    s.scalefactorFields = (List.finRange 32).flatMap fun sb => (List.finRange 2).flatMap fun ch =>
      s.allocatedField s.hdr.sblimit s.hdr.nch (.l2Scalefactor sb ch (s.sub ch sb).scfsi) sb ch := by
  simp only [State.scalefactorFields, hl, if_false, State.allocatedField]

/-- The loop of a SCALEFACTORS step against the list of its fields. -/
theorem scalefactors_loop (hlive : s.seq ≠ .failed) (h : forEach s.scalefactorFields runField s = .next u) :
    let limit := if s.isLayerI then 32 else s.hdr.sblimit
    EndsWithSbst (forEach (subbandsIn 0 limit) (fun sb s =>
        andThen (if s.isLayerI then l1SubbandScalefactors sb s else l2SubbandScalefactors sb s) fun s =>
          .next (s.advanceSbst sb .awaitSf .awaitSamples)) s) u (u.sbstMoved limit .awaitSf .awaitSamples) := by
  intro limit
  have hwithSbst (sb : Fin 32) (s : State) (v : Vector SubState 32) :
      (if (s.withSbst v).isLayerI then l1SubbandScalefactors sb (s.withSbst v)
        else l2SubbandScalefactors sb (s.withSbst v)) =
      mapNext (·.withSbst v) (if s.isLayerI then l1SubbandScalefactors sb s else l2SubbandScalefactors sb s) := by
    rw [apply_ite (mapNext _), l1SubbandScalefactors_withSbst, l2SubbandScalefactors_withSbst]
    rfl
  by_cases hl : s.isLayerI = true
  · rw [scalefactorFields_layerI (beq_iff_eq.1 hl)] at h
    refine advancing_loop (p := True) hlive (by decide) (fun _ _ => rfl) hwithSbst
      (fun sb ch x hx => mem_l1ScalefactorField hx ▸ .l1Scalefactor sb ch)
      (fun _ _ _ _ _ hx => by cases mem_l1ScalefactorField hx) (fun sb w hw hw' => ?_) h
    have hlimit : sb.val < limit := (sb.isLt : sb.val < 32).trans_eq (if_pos hl).symm
    rw [if_pos hlimit, if_pos ((isLayerI_of hw).trans hl)]
    exact l1SubbandScalefactors_eq sb hw hw'
  · rw [scalefactorFields_layerII fun e => hl (beq_iff_eq.2 e)] at h
    refine advancing_loop (p := True) hlive (by decide) (fun _ _ => rfl) hwithSbst
      (fun sb ch x hx => mem_allocatedField hx ▸ .l2Scalefactor ..)
      (fun _ _ _ _ _ hx => by cases mem_allocatedField hx) (fun sb w hw hw' => ?_) h
    have hlimit : limit = s.hdr.sblimit := if_neg hl
    have hlayer : ¬w.isLayerI = true := by rwa [isLayerI_of hw]
    rw [hlimit, if_neg hlayer, l2SubbandScalefactors, hw.hdr]
    refine forAllocated_limited hw hw' (fun ch => .l2Scalefactor ..) (fun _ _ _ _ e => by cases e) fun ch _ v hv => ?_
    rw [hv.scfsi trivial]

/-- What ends a SCALEFACTORS step, if none of its fields fails (45_orchestrator.md R148). -/
theorem blockStep_scalefactors (hseq : s.seq = .scalefactors) (h : forEach s.scalefactorFields runField s = .next u) :
    (u.seq = .failed → ∃ v, blockStep s = .next (u.withSbst v)) ∧
    (u.seq ≠ .failed → blockStep s = .next (u.withSbst
      (u.sbstMoved (if s.isLayerI then 32 else s.hdr.sblimit) .awaitSf .awaitSamples)).enterSamples) := by
  have hlive : s.seq ≠ .failed := by simp [hseq]
  have hblock : blockStep s = scalefactorsStep s := by rw [blockStep, hseq]
  rw [hblock]
  exact (scalefactors_loop hlive h).andThen _

/-! ### The samples of a slot -/

/-- The number of channels whose samples a subband reads (42_layer1_decode.md R109, 43_layer2_decode.md R121). -/
def State.sampleChannels (s : State) (sb : Fin 32) : Nat := if sb.val < s.hdr.bound then s.hdr.nch else 1

/-- The format of a sample field, of either layer. -/
def State.sampleFormat (s : State) (sb : Fin 32) (ch : Fin 2) : Format :=
  if s.isLayerI then .l1Sample sb ch (s.sub ch sb).alloc else s.tripletFormat sb ch

/-- The sample fields of the subbands below a limit. -/
def State.samplesBelow (s : State) (limit : Nat) : List Format :=
  (List.finRange 32).flatMap fun sb => (List.finRange 2).flatMap fun ch =>
    s.allocatedField limit (s.sampleChannels sb) (s.sampleFormat sb ch) sb ch

theorem sampleFields_layerI (hl : s.isLayerI = true) : s.sampleFields = s.samplesBelow 32 := by
  have hlayer : s.hdr.raw.layer = 0b11#2 := beq_iff_eq.1 hl
  simp only [State.sampleFields, State.samplesBelow, State.allocatedField, State.sampleChannels, State.sampleFormat, hl,
    hlayer, if_true, Fin.is_lt, true_and, val_lt_ite_iff]

theorem sampleFields_triplet (hl : s.isLayerI = false) (hsn : s.sn = 0) :
    s.sampleFields = s.samplesBelow s.hdr.sblimit := by
  have hlayer : ¬s.hdr.raw.layer = 0b11#2 := fun e => ne_true_of_eq_false hl (beq_iff_eq.2 e)
  simp only [State.sampleFields, State.samplesBelow, State.allocatedField, State.sampleChannels, State.sampleFormat, hl,
    hlayer, Bool.false_eq_true, if_false, hsn, true_and, ← val_lt_ite_iff, State.tripletFormat]
  refine congrArg (List.flatMap · _) (funext fun sb => congrArg (List.flatMap · _) (funext fun ch => ?_))
  by_cases hsb : sb.val < s.hdr.sblimit
  · simp only [hsb, if_true, true_and]
    cases (s.sub ch sb).grp <;> rfl
  · simp [hsb]

theorem sampleFields_between (hl : s.isLayerI = false) (hsn : s.sn ≠ 0) : s.sampleFields = [] := by
  have hlayer : ¬s.hdr.raw.layer = 0b11#2 := fun e => ne_true_of_eq_false hl (beq_iff_eq.2 e)
  simp [State.sampleFields, hlayer, hsn]

theorem runSample_eq {p : Prop} (hu : SameFields p s u) (sb : Fin 32) (ch : Fin 2) :
    runSample sb ch u = runField (s.sampleFormat sb ch) u := by
  obtain ⟨halloc, hlev, hgrp⟩ := hu.code ch sb
  rw [runSample, State.sampleFormat, State.tripletFormat, State.tripletFormat, isLayerI_of hu, halloc, hlev, hgrp]

theorem samples_loop {limit : Nat} (hlive : s.seq ≠ .failed)
    (h : forEach (s.samplesBelow limit) runField s = .next u) :
    EndsWithSbst (forEach (subbandsIn 0 limit) subbandSamples s) u (u.sbstMoved limit .awaitSamples .sampleReady) := by
  have hformat (sb : Fin 32) (ch : Fin 2) : DataFormat (s.sampleFormat sb ch) := sampleFormat_dataFormat s sb ch
  refine advancing_loop (p := False) hlive (by decide) (fun _ _ => rfl)
    (fun sb s v => forAllocated_withSbst (runSample_withSbst sb) s v)
    (fun sb ch x hx => mem_allocatedField hx ▸ hformat sb ch) (fun e => e.elim) (fun sb w hw hw' => ?_) h
  rw [hw.hdr]
  exact forAllocated_limited hw hw' (hformat sb) (fun e => e.elim) fun ch _ v hv => runSample_eq hv sb ch

/-! ### The puts and the synthesis of a slot -/

theorem slotPuts_eq (s : State) :
    s.slotPuts = (subbandsIn 0 (if s.isLayerI then 32 else s.hdr.sblimit)).map s.putOp := by
  rw [subbandsIn_zero, ← flatMap_ite_singleton]
  unfold State.slotPuts State.putOp
  refine congrArg (List.flatMap · _) (funext fun sb => ?_)
  by_cases hl : s.hdr.raw.layer = 0b11#2
  · have hlayer : s.isLayerI = true := beq_iff_eq.2 hl
    simp only [hl, hlayer, if_true, Fin.is_lt]
    split_ifs <;> rfl
  · have hlayer : s.isLayerI = false := beq_false_of_ne hl
    simp only [hl, hlayer, Bool.false_eq_true, if_false]
    split_ifs <;> rfl

theorem putOp_congr (h : u.hdr = s.hdr) (sb : Fin 32) : u.putOp sb = s.putOp sb := by
  unfold State.putOp State.isLayerI
  rw [h]

theorem putAll_eq {limit : Nat} (hlive : u.seq ≠ .failed) (hhdr : u.hdr = s.hdr)
    (hlimit : limit = if s.isLayerI then 32 else s.hdr.sblimit) : putAll limit u = forEach s.slotPuts exec u := by
  rw [slotPuts_eq, forEach_map, putAll, ← hlimit]
  refine forEach_congr (P := fun v => v.hdr = s.hdr) (fun sb _ v w hv e => ?_) (fun sb _ v hv _ => ?_) hhdr hlive
  · exact (congrArg State.hdr (exec_onlyProgress (putOp_onFrame v sb) v w e) :).trans hv
  · rw [putOp_congr hv]

theorem rearm_eq (s : State) : s.rearm = s.withSbst (s.sbstMoved 32 .sampleReady .awaitSamples) := by
  refine congrArg s.withSbst (Vector.ext fun i hi => ?_)
  simp [State.sbstMoved]

theorem synthStep_withSbst (s : State) (v : Vector SubState 32) (f : Fin 2) :
    (s.withSbst v).synthStep f = (s.synthStep f).withSbst v := by
  simp only [State.synthStep, State.obPut_foldl, State.withSbst]

theorem synthesize_withSbst (hlive : s.seq ≠ .failed) (v : Vector SubState 32) :
    synthesize (s.withSbst v) = mapNext (·.withSbst v) (synthesize s) := by
  rw [synthesize_eq hlive, synthesize_eq (by exact hlive), synthStep_withSbst, synthStep_withSbst, mapNext_next,
    ← apply_ite (State.withSbst · v)]
  rfl

/-- The synthesis steps one by one. -/
theorem synthesize_andThen (hhdr : u.hdr = s.hdr) (k : State → Result) :
    andThen (synthesize u) k = andThen (exec (.synthStep 0) u) fun x =>
      andThen (if s.hdr.nchOut = 2 then exec (.synthStep 1) x else .next x) k := by
  rw [synthesize, andThen_assoc]
  refine andThen_congr fun x hx _ => ?_
  have hxhdr : x.hdr = s.hdr := by
    injection hx with hx
    rw [← hx, u.synthStep_eq 0]
    exact hhdr
  rw [hxhdr]

/-- What a synthesis with `sbst` changed before it ends in, against the one with `sbst` changed after it. -/
theorem synthesize_end {v : Vector SubState 32} {f g : State → State} (hlive : s.seq ≠ .failed)
    (h : ∀ filt ob, f { s with filt := filt, ob := ob, sbst := v } = g { s with filt := filt, ob := ob }) :
    andThen (synthesize (s.withSbst v)) (fun y => .next (f y)) = andThen (synthesize s) fun y => .next (g y) := by
  obtain ⟨y, hy⟩ := synthesize_answers s
  have hframe := (synthesize_eq_next hlive hy).1
  have hylive : y.seq ≠ .failed := by
    rw [hframe]
    exact hlive
  rw [synthesize_withSbst hlive, hy, mapNext_next, andThen_next hylive, andThen_next (by exact hylive), hframe]
  exact congrArg Host.Outcome.next (h _ _)

/-- The end of a slot as 45_orchestrator.md R149 and R150 say it: SAMPLE_READY subbands are rearmed, in a Layer II frame
after the third sample of a triplet, and the counters move on. -/
def State.endSlot (layerI : Prop) [Decidable layerI] (y : State) : State :=
  { y with
    sbst := if layerI ∨ y.sn = 2 then y.sbstMoved 32 .sampleReady .awaitSamples else y.sbst
    sn := if layerI then y.sn else if y.sn = 2 then 0 else y.sn + 1
    slot := y.slot + 1, seq := if y.slot + 1 = (if layerI then 12 else 36) then .emit else .samples }

/-- The puts and the synthesis of a slot of `s` one by one, from `u`, and then its end. -/
def State.runSlot (s u : State) : Result :=
  andThen (forEach s.slotPuts exec u) fun w =>
  andThen (exec (.synthStep 0) w) fun x =>
  andThen (if s.hdr.nchOut = 2 then exec (.synthStep 1) x else .next x) fun y =>
  .next (y.endSlot (s.hdr.raw.layer = 0b11#2))

theorem slot_eq {limit : Nat} {f g : State → State} (hseq : u.seq = .samples) (hhdr : u.hdr = s.hdr)
    (hlimit : limit = if s.isLayerI then 32 else s.hdr.sblimit)
    (h : ∀ w, w.seq = .samples → ∃ v, g w = w.withSbst v ∧ ∀ filt ob, f { w with filt := filt, ob := ob, sbst := v } =
      State.endSlot (s.hdr.raw.layer = 0b11#2) { w with filt := filt, ob := ob }) :
    (andThen (putAll limit u) fun w => andThen (synthesize (g w)) fun y => .next (f y)) =
      s.runSlot u := by
  have hlive : u.seq ≠ .failed := by simp [hseq]
  rw [State.runSlot, ← putAll_eq hlive hhdr hlimit]
  refine andThen_congr fun w hw hwlive => ?_
  have huw := (putAll_outcome (K := fun _ => True) hlive hw).resolve_left fun hf => hwlive hf.seq
  obtain ⟨v, hg, hend⟩ := h w (huw.seq.trans hseq)
  rw [← synthesize_andThen (huw.hdr.trans hhdr), hg]
  exact synthesize_end hwlive hend

theorem l1_slot_eq (hseq : u.seq = .samples) (hhdr : u.hdr = s.hdr) (hl : s.isLayerI = true) :
    (andThen (putAll 32 u) fun w => andThen (synthesize w.rearm) fun y => .next (y.finishSlot 12)) =
      s.runSlot u := by
  have hlayer : s.hdr.raw.layer = 0b11#2 := beq_iff_eq.1 hl
  refine slot_eq hseq hhdr (if_pos hl).symm fun w hw => ⟨_, rearm_eq w, fun filt ob => ?_⟩
  simp only [State.finishSlot, State.endSlot, hlayer, true_or, if_true, hw]
  rfl

theorem l2_slot_eq (hseq : u.seq = .samples) (hhdr : u.hdr = s.hdr) (hl : s.isLayerI = false) :
    (andThen (putAll s.hdr.sblimit u) fun w =>
      andThen (synthesize (if w.sn = 2 then w.rearm else w)) fun y =>
        .next ({ y with sn := if y.sn + 1 = 3 then 0 else y.sn + 1 }.finishSlot 36)) =
      s.runSlot u := by
  have hlayer : ¬s.hdr.raw.layer = 0b11#2 := fun e => ne_true_of_eq_false hl (beq_iff_eq.2 e)
  refine slot_eq hseq hhdr (by rw [hl]; rfl) fun w hw => ?_
  by_cases hsn : w.sn = 2
  · refine ⟨_, (if_pos hsn).trans (rearm_eq w), fun filt ob => ?_⟩
    simp only [State.finishSlot, State.endSlot, hlayer, false_or, if_false, hsn, hw, if_true]
    rfl
  · refine ⟨_, (if_neg hsn).trans w.withSbst_self.symm, fun filt ob => ?_⟩
    simp only [State.finishSlot, State.endSlot, hlayer, false_or, if_false, hsn, hw]
    simp [hsn]

/-! ### SAMPLES -/

/-- Reading the samples of a slot leaves the state as the loops find it: in SAMPLES, with the header of the start. -/
theorem samplesBelow_keeps {limit : Nat} (hseq : s.seq = .samples)
    (h : forEach (s.samplesBelow limit) runField s = .next u) (hlive : u.seq ≠ .failed) :
    u.seq = .samples ∧ u.hdr = s.hdr := by
  have hdata : ∀ x ∈ s.samplesBelow limit, DataFormat x := fun x hx => by
    obtain ⟨sb, -, hx⟩ := List.mem_flatMap.1 hx
    obtain ⟨ch, -, hx⟩ := List.mem_flatMap.1 hx
    exact mem_allocatedField hx ▸ sampleFormat_dataFormat s sb ch
  have hu := forEach_sameFields (p := False) hdata (fun e => e.elim) (.refl s) h
  exact ⟨(hu.seq.resolve_right hlive).trans hseq, hu.hdr⟩

/-- The sample of the next triplet (43_layer2_decode.md R121). -/
def State.nextTriplet (s : State) : State := { s with gn := s.gn + 1, sn := 0 }

/-- The state between the samples and the puts of a slot. -/
def State.afterSamples (s u : State) : State :=
  if s.hdr.raw.layer = 0b11#2 then (u.withSbst (u.sbstMoved 32 .awaitSamples .sampleReady)).nextL1n
  else if s.sn = 0 then (u.withSbst (u.sbstMoved s.hdr.sblimit .awaitSamples .sampleReady)).nextTriplet
  else u

/-- The same in the words of 45_orchestrator.md R149, R150. -/
theorem afterSamples_eq (s u : State) : s.afterSamples u =
    if s.hdr.raw.layer = 0b11#2 then { u with
      sbst := u.sbstMoved 32 .awaitSamples .sampleReady, l1n := if u.l1n + 1 = 12 then 0 else u.l1n + 1 }
    else if s.sn = 0 then { u with
      sbst := u.sbstMoved s.hdr.sblimit .awaitSamples .sampleReady, gn := u.gn + 1, sn := 0 }
    else u := by
  unfold State.afterSamples State.nextL1n State.nextTriplet State.withSbst
  rfl

theorem l1SamplesStep_runsSlot (hseq : s.seq = .samples) (hl : s.isLayerI = true)
    (h : forEach s.sampleFields runField s = .next u) :
    (u.seq = .failed → ∃ v, l1SamplesStep s = .next (u.withSbst v)) ∧
    (u.seq ≠ .failed → l1SamplesStep s = s.runSlot (s.afterSamples u)) := by
  rw [sampleFields_layerI hl] at h
  rw [l1SamplesStep, l1ReadSamples, andThen_assoc, State.afterSamples, if_pos (beq_iff_eq.1 hl)]
  refine ((samples_loop (by simp [hseq]) h).andThen _).imp_right fun hsteps hlive => (hsteps hlive).trans ?_
  obtain ⟨huseq, huhdr⟩ := samplesBelow_keeps hseq h hlive
  generalize u.sbstMoved 32 .awaitSamples .sampleReady = v
  exact (andThen_next (s := (u.withSbst v).nextL1n) hlive).trans (l1_slot_eq huseq huhdr hl)

theorem l2SamplesStep_runsSlot_triplet (hseq : s.seq = .samples) (hl : s.isLayerI = false) (hsn : s.sn = 0)
    (h : forEach s.sampleFields runField s = .next u) :
    (u.seq = .failed → ∃ v, l2SamplesStep s = .next (u.withSbst v)) ∧
    (u.seq ≠ .failed → l2SamplesStep s = s.runSlot (s.afterSamples u)) := by
  have hlayer : ¬s.hdr.raw.layer = 0b11#2 := fun e => ne_true_of_eq_false hl (beq_iff_eq.2 e)
  rw [sampleFields_triplet hl hsn] at h
  rw [l2SamplesStep, if_pos hsn, l2ReadSamples, andThen_assoc, State.afterSamples, if_neg hlayer, if_pos hsn]
  refine ((samples_loop (by simp [hseq]) h).andThen _).imp_right fun hsteps hlive => (hsteps hlive).trans ?_
  obtain ⟨huseq, huhdr⟩ := samplesBelow_keeps hseq h hlive
  generalize u.sbstMoved s.hdr.sblimit .awaitSamples .sampleReady = v
  rw [← l2_slot_eq (u := (u.withSbst v).nextTriplet) huseq huhdr hl, ← huhdr]
  exact andThen_next (s := (u.withSbst v).nextTriplet) hlive

theorem l2SamplesStep_runsSlot_between (hseq : s.seq = .samples) (hl : s.isLayerI = false) (hsn : s.sn ≠ 0) :
    l2SamplesStep s = s.runSlot (s.afterSamples s) := by
  have hlayer : ¬s.hdr.raw.layer = 0b11#2 := fun e => ne_true_of_eq_false hl (beq_iff_eq.2 e)
  rw [l2SamplesStep, if_neg hsn, andThen_next (by simp [hseq]), State.afterSamples, if_neg hlayer, if_neg hsn]
  exact l2_slot_eq hseq rfl hl

/-- A SAMPLES step (45_orchestrator.md R149, R150). -/
theorem blockStep_runsSlot (hseq : s.seq = .samples) (h : forEach s.sampleFields runField s = .next u) :
    (u.seq = .failed → ∃ v, blockStep s = .next (u.withSbst v)) ∧
    (u.seq ≠ .failed → blockStep s = s.runSlot (s.afterSamples u)) := by
  rw [blockStep_samples hseq, samplesStep]
  cases hl : s.isLayerI with
  | true => exact l1SamplesStep_runsSlot hseq hl h
  | false =>
    by_cases hsn : s.sn = 0
    · exact l2SamplesStep_runsSlot_triplet hseq hl hsn h
    · rw [sampleFields_between hl hsn] at h
      cases h
      exact ⟨fun hf => (by cases hseq.symm.trans hf), fun _ => l2SamplesStep_runsSlot_between hseq hl hsn⟩

/-! ### The events of the host -/

theorem step_ctrlWrite {v : Word} {i : Instr} {rest : List EnvEvent} (hi : decode .ctrlWrite v.toNat = .ok i)
    (hscript : s.script = .csrWrite 0 (busBytes v) :: rest) : step s = exec i { s with script := rest } := by
  have hcommand : decodeCtrl (CtrlWrite.ofWord v) = i := Except.ok.inj ((decode_ctrlWrite_word v).symm.trans hi)
  rw [step_event hscript, envStep, hostWrite_ctrl rfl, wordOfBus_busBytes, hcommand]

theorem step_regRead {off : Word} {i : Instr} {rest : List EnvEvent} (hi : decode .regRead off.toNat = .ok i)
    (hscript : s.script = .csrRead off 4 :: rest) : step s = exec i { s with script := rest } := by
  simp only [step_event hscript, envStep, hostRead, hi, ne_eq, not_true_eq_false, if_false]

theorem runField_decoded {fmt : Format} {i : Instr} (h : decode fmt (s.peekBits fmt.width) = .ok i) :
    runField fmt s = exec i s := by
  rw [runField, h]

end Sys2Proof.Machine

namespace Sys2Proof
open Machine

/-- Settles O46: each host access and field is its decoded operation, and each loop step is compared, subband by
subband, with the list of its fields. -/
theorem stepRunsDecodedOperation : Obligations.StepRunsDecodedOperation := by
  unfold Obligations.StepRunsDecodedOperation
  refine ⟨fun _ _ _ _ => step_ctrlWrite, fun _ _ _ _ => step_regRead, fun _ _ _ => runField_decoded,
    fun s hscript => ?_, fun s => ⟨nextStep_block, fun _ => step_event⟩, fun _ => blockStep_alloc_layerI,
    fun _ _ => blockStep_alloc_layerII, fun _ => blockStep_scfsi, fun s u hseq h => ?_, fun s u hseq h => ?_⟩
  · have hblock : step s = blockStep s := nextStep_block hscript
    refine ⟨fun hseq => ?_, fun hseq => ?_, fun hseq => ?_⟩ <;> rw [hblock, blockStep, hseq]
  · have hlimit : (if s.hdr.raw.layer = 0b11#2 then 32 else s.hdr.sblimit) = if s.isLayerI then 32 else s.hdr.sblimit :=
      if_congr beq_iff_eq.symm rfl rfl
    obtain ⟨hfailed, hend⟩ := blockStep_scalefactors hseq h
    refine ⟨hfailed, fun hlive => ?_⟩
    rw [hend hlive, hlimit]
    generalize u.sbstMoved _ _ _ = v
    rfl
  · intro layerI
    obtain ⟨hfailed, hslot⟩ := blockStep_runsSlot hseq h
    refine ⟨hfailed, fun hlive => ?_⟩
    rw [hslot hlive, afterSamples_eq]
    rfl

end Sys2Proof
end

section
/-! FAILED (60_exceptions.md R160, R161, R164): the events outside move the sequencer only by a reset or START, so
FAILED is left by a reset alone (O53), and a step of the block that enters FAILED ended in `raise Fatal` (O54). -/
namespace Sys2Proof.Machine

variable {s t u : State} {K : SubCtx → Prop}

/-! ### The events outside -/

/-- The event is a hard reset or a CTRL write that decodes to a soft reset. -/
def EnvEvent.resets (e : EnvEvent) : Prop :=
  e = .hardReset ∨
    ∃ lanes v, e = .csrWrite 0 lanes ∧ decode .ctrlWrite (wordOfBus lanes).toNat = .ok (.ctrlSoftReset v)

/-- From `s` to `t` the sequencer stayed where it was, went to IDLE for the reason `resets`, or left another state than
FAILED for AWAIT_SYNC. -/
def Commanded (resets : Prop) (s t : State) : Prop :=
  t.seq = s.seq ∨ (t.seq = .idle ∧ resets) ∨ (t.seq = .awaitSync ∧ s.seq ≠ .failed)

theorem State.startCommand_commanded (p : Prop) (s : State) : Commanded p s s.startCommand := by
  cases hseq : s.seq
  case idle | done => exact .inr (.inr ⟨by simp [State.startCommand, hseq], by simp [hseq]⟩)
  case stopped => exact .inr (.inr ⟨by simp [State.startCommand, hseq], by simp [hseq]⟩)
  all_goals exact .inl (by rw [State.startCommand_elsewhere] <;> simp [hseq])

theorem exec_decodeCtrl_commanded {v : CtrlWrite} (e : exec (decodeCtrl v) s = .next t) :
    Commanded (decodeCtrl v = .ctrlSoftReset v) s t := by
  obtain hi | hi | hi | hi := decodeCtrl_cases v <;> rw [hi] at e ⊢
  · cases e
    exact .inr (.inl ⟨rfl, rfl⟩)
  · rw [exec_ctrlStart] at e
    cases e
    exact (s.storeCtrl v).startCommand_commanded _
  all_goals
    cases e
    exact .inl rfl

theorem envStep_commanded {e : EnvEvent} (hne : e ≠ .block) (h : envStep e s = .next t) :
    Commanded e.resets s t := by
  cases e with
  | block => exact absurd rfl hne
  | hardReset => cases h; exact .inr (.inl ⟨rfl, .inl rfl⟩)
  | csrRead off n => exact .inl (hostRead_eq_next h ▸ rfl)
  | csrWrite off lanes =>
    obtain ⟨rfl, hexec⟩ | ⟨-, rfl⟩ := hostWrite_eq_next h
    · refine (exec_decodeCtrl_commanded hexec).imp_right (Or.imp_left fun ⟨hidle, hi⟩ => ⟨hidle, .inr ?_⟩)
      exact ⟨lanes, _, rfl, (decode_ctrlWrite_word _).trans (congrArg Except.ok hi)⟩
    · exact .inl rfl
  | srcConnect | srcBytes | srcEos | sinkReady => cases h; exact .inl rfl

/-- A step is one of the block, or an event outside that moves the sequencer as commanded. -/
theorem step_block_or_commanded (e : step s = .next t) :
    (∃ rest, blockStep { s with script := rest } = .next t) ∨
      ∃ ev rest, s.script = ev :: rest ∧ Commanded ev.resets s t := by
  cases hscript : s.script with
  | nil => exact .inl ⟨s.script, nextStep_block hscript ▸ e⟩
  | cons ev rest =>
    rw [step_event hscript] at e
    by_cases hev : ev = .block
    · subst hev
      exact .inl ⟨rest, e⟩
    · exact .inr ⟨ev, rest, rfl, envStep_commanded (s := { s with script := rest }) hev e⟩

/-! ### Where a step of the block fails -/

/-- What follows an operation fails only where the operation did, if it cannot fail itself. -/
theorem andThen_eq_failed {o : Result} {k : State → Result}
    (hk : ∀ u, u.seq ≠ .failed → k u = .next t → t.seq ≠ .failed) (e : andThen o k = .next t)
    (hf : t.seq = .failed) : o = .next t := by
  obtain ⟨u, hu, ⟨-, rfl⟩ | ⟨hlive, e⟩⟩ := andThen_eq_next e
  · exact hu
  · exact absurd hf (hk u hlive e)

/-- An update that is not to FAILED. -/
theorem andThen_next_eq_failed {o : Result} {g : State → State} (hg : ∀ u, u.seq ≠ .failed → (g u).seq ≠ .failed)
    (e : andThen o (fun u => .next (g u)) = .next t) (hf : t.seq = .failed) : o = .next t :=
  andThen_eq_failed (fun u hu e => by cases e; exact hg u hu) e hf

theorem Outcome.failsFrom (h : Outcome (Advances K s) s t) (hlive : s.seq ≠ .failed) (hf : t.seq = .failed) :
    FailsFrom s t :=
  h.resolve_right fun h => hlive (h.seq ▸ hf)

theorem andThen_crcCheck_outcome {o : Result} (hlive : s.seq ≠ .failed)
    (ho : ∀ u, o = .next u → Outcome (Advances K s) s u) (e : andThen o (exec .crcCheck) = .next t) :
    Outcome (Advances K s) s t :=
  outcome_andThen ho (fun _ hu e => .of_advances hu ((exec_outcome .crcCheck e).mono hu.trans)) e
    fun _ hu => hu.seq ▸ hlive

/-- The end of a subband's allocation, whatever the number of channels. -/
theorem Advances.closeAlloc (s : State) (sb : Fin 32) : Advances (fun _ => True) s (s.closeAlloc sb) := by
  unfold State.closeAlloc
  dsimp only
  split <;> exact ⟨rfl, id, fun _ _ _ => trivial⟩

theorem readAllocations_advances {limit : Nat} {fmt : Fin 32 → Fin 2 → Format}
    (halloc : ∀ sb ch w i, decode (fmt sb ch) w = .ok i → Allocates K sb ch i) (hlive : s.seq ≠ .failed)
    (e : readAllocations limit fmt s = .next t) : Outcome (Advances (fun _ => True) s) s t := by
  have hfield {sb : Fin 32} {ch : Fin 2} {u v : State} (e : runField (fmt sb ch) u = .next v) :
      Outcome (Advances (fun _ => True) u) u v := by
    obtain ⟨i, hi, e⟩ := runField_eq_next e
    exact exec_outcome (.alloc (halloc sb ch _ i hi).unconstrained) e
  exact outcome_forEach (fun sb _ u _ hu e => outcome_andThen_next hu
    (fun _ e => outcome_forEach (fun _ _ _ _ _ e => hfield e) hu e) (fun v => .closeAlloc v sb) e) hlive e

theorem allocStep_failsFrom (hlive : s.seq ≠ .failed) (e : allocStep s = .next t) (hf : t.seq = .failed) :
    FailsFrom s t := by
  unfold allocStep at e
  split at e
  · rw [l1AllocStep, ← andThen_assoc] at e
    have hread := andThen_next_eq_failed (by simp) e hf
    refine (andThen_crcCheck_outcome (K := fun _ => True) hlive (fun _ e => ?_) hread).failsFrom hlive hf
    exact readAllocations_advances (fun _ _ _ _ => decode_l1Alloc_allocates) hlive e
  · split at e
    · have hread := andThen_next_eq_failed (by simp) e hf
      exact (readAllocations_advances (fun _ _ _ _ => decode_l2Alloc_allocates) hlive hread).failsFrom hlive hf
    · cases e

theorem scfsiStep_failsFrom (hlive : s.seq ≠ .failed) (e : scfsiStep s = .next t) (hf : t.seq = .failed) :
    FailsFrom s t := by
  rw [scfsiStep, ← andThen_assoc] at e
  have hread := andThen_next_eq_failed (by simp) e hf
  refine (andThen_crcCheck_outcome (K := fun _ => True) hlive (fun _ e => ?_) hread).failsFrom hlive hf
  refine outcome_forEach (fun sb _ _ _ hu e => ?_) hlive e
  exact forAllocated_outcome (fun ch _ _ e => runField_outcome (.l2Scfsi sb ch) e) hu e

theorem scalefactorsStep_failsFrom (hlive : s.seq ≠ .failed) (e : scalefactorsStep s = .next t)
    (hf : t.seq = .failed) : FailsFrom s t := by
  have hread := andThen_next_eq_failed (by simp) e hf
  refine (outcome_forEach (K := fun _ => True) (fun sb _ u _ hu e => ?_) hlive hread).failsFrom hlive hf
  refine outcome_andThen_next hu (fun v e => ?_) (fun v => .advanceSbst v ..) e
  split at e
  · exact l1SubbandScalefactors_outcome hu e
  · exact l2SubbandScalefactors_outcome hu e

/-! ### SAMPLES -/

theorem exec_putOp_seq (sb : Fin 32) (e : exec (s.putOp sb) s = .next t) : t.seq = s.seq := by
  have hnext {u : State} (hu : Advances (fun _ => True) s u) (e : Host.Outcome.next u = (.next t : Result)) :
      t.seq = s.seq := by
    cases e
    exact hu.seq
  have hputL2 {put : Fin 3 → Fin 3 → State} (hput : ∀ k part, Advances (fun _ => True) s (put k part))
      (e : s.putL2 put = .next t) : t.seq = s.seq := by
    unfold State.putL2 at e
    split at e
    · exact hnext (hput ..) e
    · cases e
  unfold State.putOp at e
  split_ifs at e
  · exact hnext (.putMono ..) e
  · exact hnext (.putStereo ..) e
  · exact hnext (.putIntensity ..) e
  · exact hputL2 (put := s.putMono sb) (fun _ _ => .putMono ..) e
  · exact hputL2 (put := s.putStereo sb) (fun _ _ => .putStereo ..) e
  · exact hputL2 (put := s.putIntensity sb) (fun _ _ => .putIntensity ..) e

/-- The puts of a slot do not fail. -/
theorem putAll_seq {limit : Nat} (e : putAll limit s = .next t) : t.seq = s.seq :=
  forEach_keeps (P := fun u => u.seq = s.seq) (fun sb _ _ _ hu e => (exec_putOp_seq sb e).trans hu) rfl e

/-- The puts, the synthesis and the end of a slot do not fail. -/
theorem slot_live {limit : Nat} {g f : State → State} (hg : ∀ u, (g u).seq = u.seq)
    (hf : ∀ u, u.seq ≠ .failed → (f u).seq ≠ .failed) (hlive : s.seq ≠ .failed)
    (e : andThen (putAll limit s) (fun u => andThen (synthesize (g u)) fun v => .next (f v)) = .next t) :
    t.seq ≠ .failed := by
  intro hfailed
  have hputs := andThen_eq_failed (fun u hu e hfailed => ?_) e hfailed
  · exact hlive (putAll_seq hputs ▸ hfailed)
  · have hlive' : (g u).seq ≠ .failed := (hg u).symm ▸ hu
    have hsynth := (synthesize_eq_next hlive' (andThen_next_eq_failed hf e hfailed)).1
    exact hlive' ((congrArg State.seq hsynth).symm.trans hfailed)

theorem finishSlot_live (n : Nat) (h : s.seq ≠ .failed) : (s.finishSlot n).seq ≠ .failed := by
  rw [State.finishSlot_seq]
  split
  · simp
  · exact h

/-- A SAMPLES step fails only where it reads its samples, before any put. -/
theorem samplesStep_failed (hlive : s.seq ≠ .failed) (e : samplesStep s = .next t) (hf : t.seq = .failed) :
    ∃ limit, forEach (subbandsIn 0 limit) subbandSamples s = .next t := by
  unfold samplesStep at e
  split at e
  · have hread := andThen_eq_failed
      (fun u => slot_live (g := State.rearm) State.rearm_seq fun _ => finishSlot_live 12) e hf
    exact ⟨32, andThen_next_eq_failed (by exact fun _ => id) hread hf⟩
  · have hrearm (v : State) : (if v.sn = 2 then v.rearm else v).seq = v.seq := by split <;> rfl
    have hread := andThen_eq_failed (fun u => slot_live hrearm (by exact fun _ => finishSlot_live 36)) e hf
    split at hread
    · exact ⟨_, andThen_next_eq_failed (by exact fun _ => id) hread hf⟩
    · cases hread
      exact absurd hf hlive

theorem samplesStep_failsFrom (hlive : s.seq ≠ .failed) (e : samplesStep s = .next t) (hf : t.seq = .failed) :
    FailsFrom s t ∧ t.filt = s.filt := by
  obtain ⟨limit, hread⟩ := samplesStep_failed hlive e hf
  have houtcome : Outcome (Advances (fun _ => True) s) s t :=
    outcome_forEach (fun _ _ _ _ hu e => subbandSamples_outcome hu e) hlive hread
  have hreads := Reads.forEach (fun sb _ hu => subbandSamples_reads sb hu) (.refl s) t hread
  exact ⟨houtcome.failsFrom hlive hf, hreads.filt⟩

/-! ### HEADER and FETCH -/

/-- What HEADER and FETCH store of `t` put into `s`. -/
def State.withInput (s t : State) : State :=
  { s with
    src := t.src, byteCount := t.byteCount, frameStart := t.frameStart, fb := t.fb, hdrBytes := t.hdrBytes
    hdrWord := t.hdrWord, header := t.header, bitpos := t.bitpos, crc := t.crc }

/-- From `s` the step took at most its input, and then an operation failed. -/
def RaisesFatal (s t : State) : Prop := ∃ u, u = s.withInput u ∧ FailsFrom u t

theorem FailsFrom.raisesFatal (h : FailsFrom s t) : RaisesFatal s t := ⟨s, rfl, h⟩

theorem RaisesFatal.of_raise (hu : u = s.withInput u) {code : ErrCode} (hcode : code ≠ .none) (detail : BitVec 4) :
    RaisesFatal s (u.raiseFatal code detail) :=
  ⟨u, hu, u, code, detail, rfl, hcode, rfl⟩

theorem withInput_trans {r : State} (h : s = r.withInput s) (h' : t = s.withInput t) : t = r.withInput t :=
  h'.trans (congrArg (·.withInput t) h)

theorem RaisesFatal.of_input (hu : u = s.withInput u) (h : RaisesFatal u t) : RaisesFatal s t := by
  obtain ⟨v, hv, h⟩ := h
  exact ⟨v, withInput_trans hu hv, h⟩

/-- 60_exceptions.md R160. -/
theorem RaisesFatal.records (h : RaisesFatal s t) :
    t.ob = [] ∧ t.obRd = 0 ∧ t.errOffset = t.frameStart ∧ t.errcode ≠ .none := by
  obtain ⟨-, -, u, code, detail, -, hcode, rfl⟩ := h
  exact ⟨rfl, rfl, rfl, hcode⟩

/-- 60_exceptions.md R161. -/
theorem RaisesFatal.leaves (h : RaisesFatal s t) :
    t.delivered = s.delivered ∧ t.frameCount = s.frameCount ∧ t.ctrl = s.ctrl ∧ t.stopReq = s.stopReq ∧
      t.cfg = s.cfg := by
  obtain ⟨r, hr, u, code, detail, hu, -, rfl⟩ := h
  rw [hu, hr]
  exact ⟨rfl, rfl, rfl, rfl, rfl⟩

theorem markStart_withInput (s : State) : s.markStart = s.withInput s.markStart := by
  rw [s.markStart_eq]
  rfl

theorem headerStep_raisesFatal (hlive : s.seq ≠ .failed) (e : execReadHeaderBytes s = .next t)
    (hf : t.seq = .failed) : RaisesFatal s t := by
  cases havail : s.src.avail with
  | nil =>
    cases heos : s.src.eos with
    | false =>
      rw [execReadHeaderBytes_waiting havail heos] at e
      cases e
      exact absurd hf hlive
    | true =>
      rw [execReadHeaderBytes_eos havail heos] at e
      injection e with e
      obtain ⟨-, rfl⟩ | ⟨-, rfl⟩ := ite_eq_iff.1 e
      · cases hf
      · exact .of_raise (markStart_withInput s) (by decide) 1
  | cons b rest =>
    have hcollect : s.collectByte b rest = s.withInput (s.collectByte b rest) := by
      rw [collectByte_eq]
      rfl
    rw [execReadHeaderBytes_byte havail] at e
    obtain ⟨-, e⟩ | ⟨-, e⟩ := ite_eq_iff.1 e
    · obtain ⟨-, e⟩ | ⟨-, e⟩ := ite_eq_iff.1 e
      · obtain ⟨w, code, detail, hcode, rfl⟩ | ⟨-, rfl⟩ := parseHeader_cases e
        · exact .of_raise (withInput_trans hcollect rfl) hcode detail
        · cases hf
      · cases e
        rw [hcollect] at hf
        exact absurd hf hlive
    · cases e

theorem finishFetch_raisesFatal (hlive : s.seq ≠ .failed) (e : finishFetch s = .next t) (hf : t.seq = .failed) :
    RaisesFatal s t := by
  obtain h | ⟨u, -, rfl⟩ := finishFetch_outcome (K := fun _ => True) hlive e
  · exact ⟨s.startFrame, by rw [s.startFrame_eq]; rfl, h⟩
  · cases hf

theorem fetchStep_raisesFatal (hlive : s.seq ≠ .failed) (e : execFetchFrame s = .next t) (hf : t.seq = .failed) :
    RaisesFatal s t := by
  by_cases hend : s.flen.toNat ≤ s.framePos
  · rw [execFetchFrame_end hend] at e
    exact finishFetch_raisesFatal hlive e hf
  have hpos := not_le.1 hend
  cases havail : s.src.avail with
  | nil =>
    cases heos : s.src.eos with
    | false =>
      rw [execFetchFrame_waiting hpos havail heos] at e
      cases e
      exact absurd hf hlive
    | true =>
      rw [execFetchFrame_eos hpos havail heos] at e
      cases e
      exact .of_raise rfl (by decide) 1
  | cons b rest =>
    rw [execFetchFrame_byte hpos havail] at e
    obtain ⟨-, e⟩ | ⟨-, e⟩ := ite_eq_iff.1 e
    · obtain ⟨-, e⟩ | ⟨-, e⟩ := ite_eq_iff.1 e
      · exact (finishFetch_raisesFatal (s := s.fetchByte b rest) hlive e hf).of_input rfl
      · cases e
        exact absurd hf hlive
    · cases e

/-! ### The step -/

/-- A step of the block that enters FAILED raised a fatal error and left the filters alone. -/
theorem blockStep_raisesFatal (hlive : s.seq ≠ .failed) (e : blockStep s = .next t) (hf : t.seq = .failed) :
    RaisesFatal s t ∧ t.filt = s.filt := by
  by_cases hsamples : s.seq = .samples
  · obtain ⟨hfails, hfilt⟩ := samplesStep_failsFrom hlive (blockStep_samples hsamples ▸ e) hf
    exact ⟨hfails.raisesFatal, hfilt⟩
  refine ⟨?_, (blockStep_movesOn hsamples e).filt⟩
  have hnext := blockStep_seq e
  cases hseq : s.seq <;> simp only [blockStep, hseq] at e
  case header => exact headerStep_raisesFatal hlive e hf
  case fetch => exact fetchStep_raisesFatal hlive e hf
  case alloc => exact (allocStep_failsFrom hlive e hf).raisesFatal
  case scfsi => exact (scfsiStep_failsFrom hlive e hf).raisesFatal
  case scalefactors => exact (scalefactorsStep_failsFrom hlive e hf).raisesFatal
  case samples => exact absurd hseq hsamples
  case failed => exact absurd hseq hlive
  case idle | awaitSync | emit | done | stopped =>
    rw [hf, hseq] at hnext
    exact absurd hnext (by decide)

end Sys2Proof.Machine

namespace Sys2Proof
open Machine

/-- Settles O53: a step of the block leaves FAILED alone, and of the events outside only a reset or a START moves the
sequencer. -/
theorem failedLeftOnlyByReset : Obligations.FailedLeftOnlyByReset := by
  intro s t hseq e
  obtain ⟨rest, e⟩ | ⟨ev, rest, hscript, h | ⟨hidle, hreset⟩ | ⟨-, hlive⟩⟩ := step_block_or_commanded e
  · have hnext : t.seq ∈ s.seq.successors := blockStep_seq (s := { s with script := rest }) e
    rw [hseq] at hnext
    exact .inl (List.mem_singleton.1 hnext)
  · exact .inl (h.trans hseq)
  · refine .inr ⟨hidle, rest, ?_⟩
    obtain rfl | ⟨lanes, v, rfl, hv⟩ := hreset
    · exact .inl hscript
    · exact .inr ⟨lanes, v, hscript, hv⟩
  · exact absurd hseq hlive

/-- Settles O54: no event outside enters FAILED, and a step of the block does so by `raiseFatal`, after it took its
input and read fields. -/
theorem failingStepDeliversNothing : Obligations.FailingStepDeliversNothing := by
  intro s t hlive e hf
  obtain ⟨rest, e⟩ | ⟨ev, rest, -, h | ⟨hidle, -⟩ | ⟨hsync, -⟩⟩ := step_block_or_commanded e
  · obtain ⟨hraised, hfilt⟩ := blockStep_raisesFatal (s := { s with script := rest }) hlive e hf
    obtain ⟨hob, hrd, hoffset, hcode⟩ := hraised.records
    obtain ⟨hdelivered, hcount, hctrl, hstop, hcfg⟩ := hraised.leaves
    exact ⟨hdelivered, hcount, hob, hrd, hoffset, hcode, hctrl, hstop, hcfg, hfilt⟩
  · exact absurd (h.symm.trans hf) hlive
  · cases hidle.symm.trans hf
  · cases hsync.symm.trans hf

end Sys2Proof
end
